-- ==== Sys2Proof/Word.lean ====
section
/-! DEFINITION. The word types of the KL9640 (spec/03_core.md R55, R57). -/

namespace Sys2Proof

/-- A byte of memory. -/
abbrev Byte := BitVec 8

/-- A scalar register, a queue's scalar entry, an instruction word (R55, R57). -/
abbrev W64 := BitVec 64

/-- A container of a vector register or of an accumulator tile (R55, R188). -/
abbrev W32 := BitVec 32

/-- A predicate: bit 32i + j is element (i, j) (R55). -/
abbrev Pred := BitVec 512

/-- A program counter (R54). -/
abbrev PC := BitVec 56

end Sys2Proof
end

