-- ==== Sys2Proof/Config.lean ====
section
/-! DEFINITION. What the KL9640 fixes for every program: sizes of its translation structures, places in the address
spaces, and bounds of its tables; and, at the end, the values that the spec leaves open, which nothing constrains. -/

namespace Sys2Proof.Config

/-- Core TLB entries (R143). -/
def coreTlb : Nat := 64
/-- Die TLB entries (R143). -/
def dieTlb : Nat := 1024
/-- Walk-cache entries of a die (R307). -/
def walkCache : Nat := 512
/-- Entries of the engine TLB (R307). -/
def engTlb : Nat := 4096
/-- Instruction-cache lines of a core (R249). -/
def icacheLines : Nat := 256
/-- Update-only lines of an L1 (R156). -/
def updLines : Nat := 256
/-- Side-log entries (R145). -/
def sideLog : Nat := 64
/-- Entries of a load or store queue (R55). -/
def queueEntries : Nat := 16
/-- First address of the local window (R141). -/
def localBase : Nat := 0xFFFFFFFFC00000
/-- First address of the reserved part of the local window (R141). -/
def localHole : Nat := 0xFFFFFFFFC20000
/-- First address of the scratchpad window (R141). -/
def scratchBase : Nat := 0xFFFFFFFFE00000
/-- One past the last virtual address (R141). -/
def vaEnd : Nat := 0x100000000000000
/-- Bytes of the scratchpad (R149). -/
def scratchSize : Nat := 0x200000
/-- Event-table entries (R215). -/
def eventEntries : Nat := 4096
/-- Waiters of an event-table entry (R215). -/
def eventWaiters : Nat := 64
/-- Pending-launch store entries (R256). -/
def launchEntries : Nat := 8192
/-- Tile-task queue entries for each kind of array (R210). -/
def taskEntries : Nat := 2048
/-- Requests held (R345). -/
def requests : Nat := 16384
/-- Whorls held (R378). -/
def whorls : Nat := 1024
/-- Sequence-parallel rings held (R392). -/
def seqRings : Nat := 256
/-- Contexts (R280). -/
def contexts : Nat := 1024

-- ## Open values

/-- A byte of tier 2 lies in the firmware reservation (R297): nothing says where that is (log 89). -/
opaque firmwareHolds (pa : Nat) : Bool

/-- Array tiles run by a unit that was dropped, or by a unit of an attention task: nothing says how many (R205, log 13). -/
opaque arrayTiles (task unit : Nat) : Nat
/-- Array cycles that a unit used (R205): the pace of R417 bounds them, and waits that nothing bounds are added (log 13). -/
opaque arrayCycles (task unit : Nat) : Nat
/-- Records that an event overflow area of so many 4 KiB pages holds (R216, log 14). -/
opaque overRecords (pages : Nat) : Nat
/-- The launch that replaces a lost package's member of a sequence-parallel ring (R394, log 16). -/
opaque memberLid (ring member : Nat) : BitVec 32
/-- The public key, root and seed, under which firmware images are signed (R22, log 82). -/
opaque imageKey : List Byte
/-- The package's identity key (R22, log 82): the secret of a chain of a one-time key, the seed of its randomizers, its public seed; and the
package identity that it has signed. -/
opaque identitySecret (leaf chain : Nat) : List Byte
opaque identityPrf : List Byte
opaque identitySeed : List Byte
opaque packageIdentity : List Byte
/-- The cycles for which a flow of a core, a destination and a class has sent nothing when its n-th packet is sent (R334, R335), and the
flits of its class that wait then at a port: nothing in the model measures them (log 9). -/
opaque flowSilence (core dst cls n : Nat) : Nat
opaque egressFlits (core dst cls n port : Nat) : Nat
/-- The other packages that map a frame of this one, as they are at question n (R310, log 17). -/
opaque mappers (frame n : Nat) : List Nat

end Sys2Proof.Config
end

