-- ==== Sys2Proof/Syntax.lean ====
section
/-! DEFINITION. The instructions and events of spec/opcode_table.json, one constructor each (spec/03_core.md R57
to R64 for the words, spec/95_what_each_step_holds.md for the events). An event's arguments are what the outside
(Taproot firmware, the host, a link, another package) or a free choice of the hardware supplies. -/

namespace Sys2Proof

/-- The two sequencers of a strand (R54). -/
inductive Stream where
  | a | x
deriving DecidableEq, Repr

/-- A scalar operand code (R59): a register of the stream's scalar file, a load queue, a store queue, or none. Which of
them a slot admits in which stream is R60, checked in WellFormed. -/
inductive SOp where
  | reg (n : Fin 32) | lq (n : Fin 4) | sq (n : Fin 4) | none
deriving DecidableEq, Repr

/-- The link destination of CALL and JMP: a scalar register or none (R83). -/
inductive LinkDst where
  | reg (n : Fin 32) | none
deriving DecidableEq, Repr

/-- The count of LOOP: a scalar register or an immediate (R88). -/
inductive LCount where
  | reg (n : Fin 32) | imm (n : BitVec 16)
deriving DecidableEq, Repr

/-- A vector source (R60). -/
inductive VSrc where
  | v (n : Fin 32) | o (n : Fin 8) | l (n : Fin 4) | lq (n : Fin 4) | none
deriving DecidableEq, Repr

/-- A vector destination (R60). -/
inductive VDst where
  | v (n : Fin 32) | o (n : Fin 8) | sq (n : Fin 4) | none
deriving DecidableEq, Repr

/-- A destination that is a load queue or none (R151, R359). -/
inductive LqDst where
  | lq (n : Fin 4) | none
deriving DecidableEq, Repr

/-- The element types of md[5:3], in the order of their codes (R31). -/
inductive Ty where
  | f32 | bf16 | f16 | e4m3 | e5m2 | s32 | s16 | s8
deriving DecidableEq, Repr

/-- The rounding modes of md[2:1], in the order of their codes (R31). -/
inductive Rnd where
  | rn | rz | rd | ru
deriving DecidableEq, Repr

/-- The whole md field (R31). -/
structure Md where
  ty : Ty
  rnd : Rnd
  sat : Bool
deriving DecidableEq, Repr

/-- The accumulator types of the matrix words (R195). -/
inductive AccTy where
  | f32 | s32
deriving DecidableEq, Repr

/-- The md field of a matrix word (R195). -/
structure AMd where
  ty : AccTy
  rnd : Rnd
  sat : Bool
deriving DecidableEq, Repr

/-- The conditions of CMP and CMPI in the order of their codes (R103). -/
inductive Cond where
  | eq | ne | lt | ge | ltu | geu | tst
deriving DecidableEq, Repr

/-- The operations of VRED and VSCAN (R114). -/
inductive RedOp where
  | add | max | min
deriving DecidableEq, Repr

/-- The access types of LD and LDA in the order of their codes (R152). -/
inductive LTy where
  | s8 | n8 | s16 | n16 | s32 | n32 | s64
deriving DecidableEq, Repr

/-- The access types ST accepts (R152). -/
inductive STy where
  | s8 | s16 | s32 | s64
deriving DecidableEq, Repr

/-- The widths of an atomic (R155). -/
inductive AW where
  | w32 | w64
deriving DecidableEq, Repr

/-- A storage mask; at least one bit is set (R171, checked in WellFormed). -/
structure Stor where
  sp : Bool
  dev : Bool
  rem : Bool
deriving DecidableEq, Repr

/-- The selector of MWAIT: every earlier word, or a tile's arrival count (R202). -/
inductive MSel where
  | all | tile (n : Fin 8) (cnt : SOp)
deriving DecidableEq, Repr

/-- The instruction-cache errors of R250; a pin fill is one of a context slot. -/
inductive ICacheErr where
  | parity | prefetch | fetchGood | fetchBad
  | pin (slot : Nat)
deriving DecidableEq, Repr

/-- What comes back for a packet (R335, R339, R340). -/
inductive FlowAns where
  | ack (data : List Byte)   -- performed; the data of a read or of an atomic
  | expected (seq : Nat)     -- refused, naming the number expected
  | denied                   -- refused by the destination's scope table
  | poison                   -- it met a poisoned granule at its home
deriving DecidableEq, Repr

/-- What a packet asks of its destination (R333, R338, R341), and the packets that ask nothing: an answer to the packet of a
flow, and a link-loss notice. Addresses are local physical addresses of the destination package. -/
inductive PktOp where
  | read (pa bytes : Nat)
  | write (pa : Nat) (data : List Byte)
  | atomic (op : Fin 7) (w64 u : Bool) (pa : Nat) (a b : W64)
  | endpoint (rxq ctx core ep : Nat) (words : List W64)
  -- a change of parity page j of a group from byte off on, with the CRC-32C of its bytes; sent a second time or not (R376, R388)
  | parity (ctx j lane off : Nat) (img : List Byte) (st : Nat) (crc : BitVec 32) (again : Bool)
  | dadd (core tile ctx : Nat) (m : AMd) (off : Nat) (data : List (BitVec 32))   -- a tile's elements from off on, for a peer (R201)
  | inval (pa : Nat)   -- the remote-cache copy of a line is to go (R177)
  | reply (core cls seq : Nat) (ans : FlowAns)   -- the answer to a packet of a flow of a core and class (R335)
  | notice (m n : Nat) (up : Bool)   -- a link is lost, or back (R344)
  | shoot (frame : Nat)   -- translations that lead to a frame of the source are to go (R310)
  | shootDone (frame : Nat)   -- they are gone, and the accesses through them are performed
  | message (n : Nat)   -- a probe or a message of firmware, whose contents the spec does not give (R336)
deriving DecidableEq, Repr

/-- A packet's header and contents (R333, R335). -/
structure Packet where
  src : Nat          -- source package
  core : Nat         -- source core, 352 for Taproot (R334)
  dst : Nat          -- destination package
  via : Option Nat   -- the intermediate of an alternate
  cls : Nat          -- message class (R336)
  seq : Nat          -- flow sequence number, 16 bits
  restart : Bool     -- marked as a restart (R335)
  hops : Nat
  key : Nat          -- the key slot of its home that the page's leaf names, 0 for none (R302)
  op : PktOp
deriving DecidableEq, Repr

/-- The instructions (the rows with an encoding, in the order of spec/opcode_table.json), then the events. -/
inductive Instr where
  | nop
  | go
  | br (off : BitVec 30)
  | call (d : LinkDst) (off : BitVec 30)
  | jmp (d : LinkDst) (s1 : SOp)
  | loop (c : LCount) (body : BitVec 14)
  | breakl
  | lidx (d : SOp) (n : Fin 6) (rem : Bool)
  | trap (imm : BitVec 24)
  | end_
  | yield
  | rds (d : SOp) (n : BitVec 12)
  | wrs (n : BitVec 12) (s1 : SOp)
  | cpoint
  | add (d s1 s2 : SOp)
  | sub (d s1 s2 : SOp)
  | addi (d s1 : SOp) (imm : BitVec 24)
  | mul (d s1 s2 : SOp)
  | mulh (u : Bool) (d s1 s2 : SOp)
  | div (u : Bool) (d s1 s2 : SOp)
  | rem (u : Bool) (d s1 s2 : SOp)
  | and (d s1 s2 : SOp)
  | or (d s1 s2 : SOp)
  | xor (d s1 s2 : SOp)
  | andi (d s1 : SOp) (imm : BitVec 24)
  | ori (d s1 : SOp) (imm : BitVec 24)
  | xori (d s1 : SOp) (imm : BitVec 24)
  | shl (d s1 s2 : SOp)
  | shr (d s1 s2 : SOp)
  | sha (d s1 s2 : SOp)
  | limm (d : SOp) (imm : BitVec 24)
  | lhi (d s1 : SOp) (value : BitVec 16) (sel : Fin 4)
  | min (u : Bool) (d s1 s2 : SOp)
  | max (u : Bool) (d s1 s2 : SOp)
  | clz (d s1 : SOp)
  | popc (d s1 : SOp)
  | sel (d s1 s2 : SOp) (p : Fin 8)
  | mad (d s1 s2 s3 : SOp)
  | cmp (c : Cond) (p : Fin 8) (s1 s2 : SOp)
  | cmpi (c : Cond) (p : Fin 8) (s1 : SOp) (imm : BitVec 21)
  | mov (d s1 : SOp)
  | bfx (sx : Bool) (d s1 : SOp) (pos w1 : Fin 64)
  | bfi (d s1 s2 : SOp) (pos w1 : Fin 64)
  | pand (pd ps1 ps2 : Fin 8)
  | por (pd ps1 ps2 : Fin 8)
  | pxor (pd ps1 ps2 : Fin 8)
  | pnot (pd ps1 : Fin 8)
  | pset (pd : Fin 8) (s1 : SOp) (imm : BitVec 24)
  | pany (pd ps1 : Fin 8)
  | pcnt (d : SOp) (ps1 : Fin 8)
  | pfirst (d : SOp) (ps1 : Fin 8)
  | vadd (d : VDst) (s1 s2 : VSrc) (m : Md)
  | vsub (d : VDst) (s1 s2 : VSrc) (m : Md)
  | vmul (d : VDst) (s1 s2 : VSrc) (m : Md)
  | vfma (d : VDst) (s1 s2 s3 : VSrc) (m : Md)
  | vfms (d : VDst) (s1 s2 s3 : VSrc) (m : Md)
  | vmin (d : VDst) (s1 s2 : VSrc) (t : Ty)
  | vmax (d : VDst) (s1 s2 : VSrc) (t : Ty)
  | vabs (d : VDst) (s1 : VSrc) (t : Ty) (sat : Bool)
  | vneg (d : VDst) (s1 : VSrc) (t : Ty) (sat : Bool)
  | vcmp (pd : Fin 8) (s1 s2 : VSrc) (c : Fin 11) (t : Ty)
  | vsel (d : VDst) (s1 s2 : VSrc) (p : Fin 8)
  | vand (d : VDst) (s1 s2 : VSrc)
  | vor (d : VDst) (s1 s2 : VSrc)
  | vxor (d : VDst) (s1 s2 : VSrc)
  | vshl (d : VDst) (s1 s2 : VSrc) (t : Ty) (sat : Bool)
  | vshr (u : Bool) (d : VDst) (s1 s2 : VSrc) (t : Ty) (rnd : Rnd)
  | vcvt (d : VDst) (s1 : VSrc) (src : Ty) (part : Fin 4) (m : Md)
  | vbcast (d : VDst) (s1 : SOp) (t : Ty)
  | viota (d : VDst) (s1 s2 : SOp) (t : Ty) (sat : Bool)
  | vmov (d : VDst) (s1 : VSrc)
  | vshape (rows : BitVec 5) (cols : BitVec 6)
  | vtrn (d : VDst) (s1 : VSrc)
  | vrot (row : Bool) (d : VDst) (s1 : VSrc) (s2 : SOp)
  | vred (op : RedOp) (d : VDst) (s1 : VSrc) (m : Md)
  | vscan (op : RedOp) (d : VDst) (s1 : VSrc) (m : Md)
  | vdot (d : VDst) (s1 s2 s3 : VSrc) (m : Md)
  | vperm (d : VDst) (s1 s2 : VSrc)
  | vins (d : VDst) (s1 : VSrc) (s2 s3 : SOp)
  | vext (d : SOp) (s1 : VSrc) (s2 : SOp)
  | vclass (d : VDst) (s1 : VSrc) (t : Ty)
  | vscale (d : VDst) (s1 s2 : VSrc) (m : Md)
  | vtf (d : VDst) (s1 : VSrc) (conv : Fin 6) (part : Fin 4) (rnd : Rnd)
  | vtcmp (pd : Fin 8) (s1 s2 : VSrc) (c : Fin 7) (t : Ty)
  | vfb4d (d : VDst) (s1 : VSrc) (part : Fin 5) (m : Md)
  | vfb4e (d : VDst) (s1 : VSrc) (part : Fin 5) (t : Ty) (rnd : Rnd)
  | vtrit (d : VDst) (s1 : VSrc) (part : Fin 5)
  | vtdot (d : VDst) (s1 s2 s3 : VSrc) (sat : Bool)
  | fexp (d : VDst) (s1 : VSrc) (t : Ty) (sat : Bool)
  | flog (d : VDst) (s1 : VSrc) (t : Ty) (sat : Bool)
  | frcp (d : VDst) (s1 : VSrc) (t : Ty) (sat : Bool)
  | frsq (d : VDst) (s1 : VSrc) (t : Ty) (sat : Bool)
  | fsqrt (d : VDst) (s1 : VSrc) (m : Md)
  | fdiv (d : VDst) (s1 s2 : VSrc) (m : Md)
  | ftanh (d : VDst) (s1 : VSrc) (t : Ty) (sat : Bool)
  | fsig (d : VDst) (s1 : VSrc) (t : Ty) (sat : Bool)
  | fexpq (d : VDst) (s1 s2 : VSrc) (part : Fin 4)
  | vtopk (idx : Bool) (d : VDst) (s1 : VSrc) (k : BitVec 6) (t : Ty)
  | vtopkm (pd : Fin 8) (s1 : VSrc) (k : BitVec 6) (t : Ty)
  | vargmx (d : VDst) (s1 : VSrc) (t : Ty)
  | topks (s1 : VSrc)
  | topkd (d : VDst) (sel : Fin 2)
  | ld (t : LTy) (d : Fin 4) (base : SOp) (off : BitVec 20)
  | ldv (d : Fin 4) (base stride : SOp)
  | st (t : STy) (data base : SOp) (off : BitVec 20)
  | stv (base stride : SOp) (data : Fin 4)
  | lda (t : LTy) (scope : Fin 4) (d : Fin 4) (base : SOp) (off : BitVec 18)
  | ldg (d : Fin 4) (base : SOp)
  | pref (base : SOp) (off : BitVec 24)
  | mark
  | aadd (w : AW) (d : LqDst) (addr s2 : SOp)
  | amin (u : Bool) (w : AW) (d : LqDst) (addr s2 : SOp)
  | amax (u : Bool) (w : AW) (d : LqDst) (addr s2 : SOp)
  | aor (w : AW) (d : LqDst) (addr s2 : SOp)
  | axch (w : AW) (d : LqDst) (addr s2 : SOp)
  | acas (w : AW) (d : LqDst) (addr s2 s3 : SOp)
  | afadd (d : LqDst) (addr s2 : SOp)
  | sixcfg (meta_ cfg : SOp)
  | fence (kind : Fin 3) (scope : Fin 4) (stor : Stor)
  | afence
  | pfence (from_ to_ : Fin 6) (stor : Stor) (scope : Fin 4)
  | drain (path : Fin 6) (stor : Stor)
  | cflush (mem : Bool) (base len : SOp)
  | cinv (base len : SOp)
  | tlbinv (base len : SOp) (scope : Fin 3)
  | ringcfg (k : Fin 16) (img : SOp)
  | cpy (d src dst len : SOp)
  | cpyRing (d src len : SOp) (k : Fin 16)
  | chain (ch : Fin 4) (head : SOp)
  | cwait (d slot mlo mhi : SOp)
  | ctest (d slot chunk : SOp)
  | rstat (d : SOp) (k : Fin 16) (sel : Fin 4)
  | rpop (k : Fin 16) (n : BitVec 6)
  | bfmt (fr : Fin 8) (fmt : Fin 13)
  | mma (acc : Fin 8) (ka kb : Fin 16) (keepA keepB : Bool) (m : AMd)
  | mmaz (acc : Fin 8) (ka kb : Fin 16) (keepA keepB : Bool) (m : AMd)
  | mzero (acc : Fin 8)
  | mldacc (acc : Fin 8) (k : Fin 16) (keep : Bool) (m : AMd)
  | mstacc (k : Fin 16) (acc : Fin 8) (free : Bool) (m : AMd)
  | mdadd (acc : Fin 8) (peer : SOp) (free : Bool) (m : AMd)
  | mwait (d : SOp) (sel : MSel)
  | task (rec : SOp) (slot : Fin 5)
  | mprog (d : SOp) (n : Fin 4) (stop : Bool)
  | evsig (name : SOp) (scope : Fin 3)
  | evwait (name : SOp) (scope : Fin 3)
  | evtest (d name : SOp)
  | evclr (name : SOp)
  | barinit (bar cnt : SOp)
  | bararr (d bar : SOp) (scope : Fin 3)
  | barexp (bar slot : SOp)
  | barwait (d bar ph : SOp) (scope : Fin 3)
  | launch (d rec : SOp) (q : Fin 16)
  | cancel (d tgt : SOp) (level : Fin 5)
  | gcnt (d tgt : SOp) (level : Fin 5)
  | qpush (val : SOp)
  | qpop (d : SOp) (pd : Fin 8)
  | qclose
  | graft (d : LqDst) (src dst : SOp)
  | kvwalk (d : Fin 4) (page : SOp)
  | kvseal (d : LqDst) (page : SOp)
  | kvcompact (d : LqDst) (rec : SOp)
  | ballot (d whorl hash : SOp)
  | whorlOpen (d : LqDst) (rec : SOp)
  | whorlClose (d : LqDst) (rec : SOp)
  | whorlRing (d : LqDst) (rec : SOp)
  | whorlUnring (d : LqDst) (rec : SOp)
  | reshard (d : LqDst) (rec : SOp)
  | migrAdmit (d : LqDst) (rec : SOp)
  | migrHand (d : LqDst) (rec : SOp)
  | migrDone (d : LqDst) (rec : SOp)
  | migrCancel (d : LqDst) (rec : SOp)
  | beamix (d : LqDst) (tbl perm : SOp)
  -- the events
  | loadEntryLands (h k : Nat) (err : Bool)
  | sideLogReplay (h : Nat)
  | updateLineMerge (core line : Nat)
  | copyChunkLands (h slot chunk kind : Nat)
  | chainRecordComplete (h ch : Nat)
  | cmuWordStart (core : Nat)
  | mdaddArrival (n : Nat)
  | taskRecordRead (n : Nat)
  | taskUnitDispatch (t array : Nat)
  | bankLoadComplete (array : Nat) (ok : Bool)
  | taskUnitComplete (t unit kind : Nat)
  | eventTableOperation (h k : Nat)
  | eventOverflowServe (ctx name : Nat)
  | barrierCycle (die index : Nat)
  | launchRecordAccept (n : Nat)
  | launchCreditGrant (core ctx : Nat)
  | coreFreeDispatch (core handle : Nat)
  | ageingLimitExpiry (slot q : Nat)
  | stageStrandOffer (slot launch stage handle : Nat)
  | strandComplete (h : Nat)
  | timeSliceExpiry (h : Nat)
  | parkThresholdExpiry (h : Nat)
  | preemptionSave (h : Nat)
  | strandResume (h core : Nat) (zero : Bool)
  | strandSuspend (h : Nat)
  | accfirstService (h : Nat)
  | watchdog (st : Stream)
  | icacheLineFill (core : Nat) (line : Nat)
  | icacheError (core line : Nat) (kind : ICacheErr)
  | hostDoorbell (recs : List (List W64))
  | load (r : Nat)
  | unload (r : Nat)
  | pause (r : Nat)
  | resume (r : Nat)
  | destroy (r : Nat)
  | shootdown (r : Nat)
  | shard (r : Nat)
  | create (r slot num key : Nat) (rec : List W64)
  | mode (r : Nat)
  | numamodeWrite (v : W64)
  | lock (v : W64)
  | registerWrite (addr : Nat) (v : W64)
  | queueEnable (slot q : Nat)
  | queuePause (slot q : Nat)
  | queueDisable (slot q : Nat)
  | pageWalk (h va : Nat)
  | firmwareMapAnswer (n : Nat) (map : Bool)
  | shootdownAck (n pkg : Nat)
  | promote (slot va target : Nat)
  | evict (slot va : Nat)
  | move (slot va target : Nat)
  | release (slot va : Nat)
  | clean (slot va : Nat)
  | migrationLineCopied (frame : Nat) (err : Bool)
  | forwardingEnd (frame : Nat)
  | uncorrectableErrorDetected (pa : Nat)
  | poisonClear (frame granule : Nat) (data : List Byte)
  | tier2ReadTimeout (h k pa : Nat) (lost : Bool)
  | tier2ControllerLoss (n : Nat)
  | computeDieReset (die : Nat)
  | writebackTimeout (die : Nat)
  | dieLinkTrained (die : Nat) (live : BitVec 48)
  | dieLinkTrainingTimeout (die : Nat)
  | dieLinkModuleLoss (die m : Nat)
  | dieLinkReplayExhaustion (die : Nat) (rate : Bool)
  | portEnable (p : Nat)
  | portDisable (p : Nat)
  | portRetire (p : Nat)
  | ppermWrite (p : Nat) (v : W64)
  | portTrainingDone (p : Nat) (lanes : BitVec 8) (peer : Nat)
  | portTrainingTimeout (p : Nat)
  | portLaneLoss (p lane : Nat)
  | flitCrcFail (p : Nat) (sixteenth : Bool)
  | portErrorRate (p replays : Nat)
  | linkLossNotice (m n : Nat) (up : Bool)
  | fabricProbe (skew : BitVec 16)
  | packetForward (pkt : Packet)
  | packetArrival (pkt : Packet)
  | flowAckReceived (src dst cls seq : Nat) (ans : FlowAns)
  | flowResendTimeout (src dst cls : Nat)
  | flowStateExpiry (src core cls : Nat)
  | invalidation (home line : Nat)
  | powerThrottle (core cycles : Nat)
  | coldReset
  | packageFailure (pkg : Nat)
  | graftTransferLanding (n : Nat)
  | requestRestart (handle : Nat)
  | freeRingRelease (n : Nat)
  | engineWriteHeld (n : Nat)
  | whorlSiblingEnd (handle sib : Nat)
  | ringStepTimeout (n member : Nat)
  | shardLaneLost (slot lane : Nat)
  | shardRebuild (slot j : Nat) (parity : List Byte) (images : List (List Byte))
  | coppiceRun (n : Nat)
  | l2LineWriteBack (pa : Nat)
  | warmReset
deriving DecidableEq, Repr

end Sys2Proof
end

