-- ==== Sys2Proof/WellFormed.lean ====
section
/-! DEFINITION. Which instructions are words of which stream: the slot kinds of R60, the md values of R31 and R113,
the number ranges of R113 and R151, the streams of R64; and which events name objects that exist. -/

namespace Sys2Proof

/-- A scalar source slot (R60). -/
def SOp.src (st : Stream) : SOp → Bool
  | .reg _ => true
  | .lq _ => st == .x
  | .sq _ => st == .a
  | .none => true

/-- A scalar destination slot (R60). -/
def SOp.dst (st : Stream) : SOp → Bool
  | .reg _ => true
  | .lq _ => st == .a
  | .sq _ => st == .x
  | .none => true

/-- The type set F of R114. -/
def Ty.isF : Ty → Bool
  | .f32 | .bf16 | .f16 | .e4m3 | .e5m2 => true
  | _ => false

/-- Lanes per container (R110). -/
def Ty.lanes : Ty → Nat
  | .f32 | .s32 => 1
  | .bf16 | .f16 | .s16 => 2
  | .e4m3 | .e5m2 | .s8 => 4

/-- Lane width in bits (R110). -/
def Ty.width (t : Ty) : Nat := 32 / t.lanes

/-- md of VADD to VFMS: rnd for F, sat for all (R114). -/
def Md.okArith (m : Md) : Bool := m.ty.isF || m.rnd == .rn

/-- md of VRED, VSCAN and VDOT: rnd for F, sat for I (R114). -/
def Md.okRed (m : Md) : Bool := if m.ty.isF then !m.sat else m.rnd == .rn

/-- The types of the special functions (R127). -/
def Ty.isSf : Ty → Bool
  | .f32 | .bf16 | .f16 => true
  | _ => false

/-- f32 or s32 (VSCAN, VTOPK). -/
def Ty.is32 : Ty → Bool
  | .f32 | .s32 => true
  | _ => false

/-- The number of parts of a conversion between types of l1 and l2 lanes (R120). -/
def convParts (l1 l2 : Nat) : Nat := max l1 l2 / min l1 l2

/-- Lanes per container of the source and the destination of each VTF conversion (R120). -/
def vtfLanes : Fin 6 → Nat × Nat
  | 0 => (1, 2) | 1 => (2, 1) | 2 => (2, 4) | 3 => (4, 2) | 4 => (1, 4) | 5 => (4, 1)

/-- A storage mask of 1 to 7 (R171). -/
def Stor.ok (s : Stor) : Bool := s.sp || s.dev || s.rem

/-- A special register that the stream may name in RDS and WRS (R74, R97). -/
def sregOk (st : Stream) (n : BitVec 12) : Bool :=
  match st with
  | .x => n == 0x001 || n == 0x002 || n == 0x003 || n == 0x010 || n == 0x011 || n == 0x040 ||
      (decide (0x020 ≤ n.toNat) && decide (n.toNat ≤ 0x026)) || (decide (0x030 ≤ n.toNat) && decide (n.toNat ≤ 0x033))
  | .a => n == 0x050 ||
      (decide (0x020 ≤ n.toNat) && decide (n.toNat ≤ 0x026)) || (decide (0x030 ≤ n.toNat) && decide (n.toNat ≤ 0x033))

/-- The instruction is a word of this stream: its stream (R64), every slot's code (R60), its md (R31, R113) and its
number fields (R113) are as its description says. -/
def Instr.legal (st : Stream) : Instr → Bool
  | .nop | .go | .breakl | .end_ | .yield | .cpoint => true
  | .br _ | .call _ _ | .trap _ => true
  | .jmp _ s1 => s1.src st
  | .loop _ body => body != 0
  | .lidx d _ _ => d.dst st
  | .rds d n => d.dst st && sregOk st n
  | .wrs n s1 => s1.src st && sregOk st n
  | .add d s1 s2 | .sub d s1 s2 | .mul d s1 s2 | .and d s1 s2 | .or d s1 s2 | .xor d s1 s2
  | .shl d s1 s2 | .shr d s1 s2 | .sha d s1 s2 => d.dst st && s1.src st && s2.src st
  | .mulh _ d s1 s2 | .div _ d s1 s2 | .rem _ d s1 s2 | .min _ d s1 s2 | .max _ d s1 s2 =>
    d.dst st && s1.src st && s2.src st
  | .addi d s1 _ | .andi d s1 _ | .ori d s1 _ | .xori d s1 _ => d.dst st && s1.src st
  | .limm d _ => d.dst st
  | .lhi d s1 _ _ => d.dst st && s1.src st
  | .clz d s1 | .popc d s1 | .mov d s1 => d.dst st && s1.src st
  | .sel d s1 s2 _ => d.dst st && s1.src st && s2.src st
  | .mad d s1 s2 s3 => d.dst st && s1.src st && s2.src st && s3.src st
  | .cmp _ _ s1 s2 => s1.src st && s2.src st
  | .cmpi _ _ s1 _ => s1.src st
  | .bfx _ d s1 _ _ => d.dst st && s1.src st
  | .bfi d s1 s2 _ _ => d.dst st && s1.src st && s2.src st
  | .pand _ _ _ | .por _ _ _ | .pxor _ _ _ | .pnot _ _ | .pany _ _ => true
  | .pset _ s1 _ => s1.src st
  | .pcnt d _ | .pfirst d _ => d.dst st
  -- vector class: the X stream only
  | .vadd _ _ _ m | .vsub _ _ _ m | .vmul _ _ _ m | .vfma _ _ _ _ m | .vfms _ _ _ _ m => st == .x && m.okArith
  | .vmin _ _ _ _ | .vmax _ _ _ _ => st == .x
  | .vabs _ _ t sat | .vneg _ _ t sat => st == .x && (!t.isF || !sat)
  | .vcmp _ _ _ c t => st == .x && (c.val < 6 || (if c.val < 10 then !t.isF else t.isF))
  | .vsel _ _ _ _ | .vand _ _ _ | .vor _ _ _ | .vxor _ _ _ => st == .x
  | .vshl _ _ _ t _ => st == .x && !t.isF
  | .vshr _ _ _ _ t _ => st == .x && !t.isF
  | .vcvt _ _ src part m => st == .x && decide (part.val < convParts src.lanes m.ty.lanes)
  | .vbcast _ s1 _ => st == .x && s1.src st
  | .viota _ s1 s2 t _ => st == .x && s1.src st && s2.src st && !t.isF
  | .vmov _ _ | .vshape _ _ | .vtrn _ _ => st == .x
  | .vrot _ _ _ s2 => st == .x && s2.src st
  | .vred _ _ _ m => st == .x && m.okRed
  | .vscan _ _ _ m => st == .x && m.ty.is32 && m.okRed
  | .vdot _ _ _ _ m => st == .x && m.okRed && (m.ty.isSf || m.ty == .s16 || m.ty == .s8)
  | .vperm _ _ _ => st == .x
  | .vins _ _ s2 s3 => st == .x && s2.src st && s3.src st
  | .vext d _ s2 => st == .x && d.dst st && s2.src st
  | .vclass _ _ t => st == .x && t.isF
  | .vscale _ _ _ m => st == .x && m.ty.isF
  | .vtf _ _ conv part rnd => st == .x && decide (part.val < convParts (vtfLanes conv).1 (vtfLanes conv).2)
      && (conv.val % 2 == 0 || rnd == .rn)
  | .vtcmp _ _ _ _ t => st == .x && (t == .s16 || t == .s8)
  | .vfb4d _ _ _ m => st == .x && m.ty.isF
  | .vfb4e _ _ _ t _ => st == .x && t.isSf
  | .vtrit _ _ _ | .vtdot _ _ _ _ _ => st == .x
  | .fexp _ _ t _ | .flog _ _ t _ | .frcp _ _ t _ | .frsq _ _ t _ | .ftanh _ _ t _ | .fsig _ _ t _ =>
    st == .x && t.isSf
  | .fsqrt _ _ m => st == .x && m.ty.isSf
  | .fdiv _ _ _ m => st == .x && m.ty.isSf
  | .fexpq _ _ _ _ => st == .x
  | .vtopk _ _ _ k t => st == .x && t.is32 && decide (1 ≤ k.toNat ∧ k.toNat ≤ 32)
  | .vtopkm _ _ k t => st == .x && t.is32 && decide (1 ≤ k.toNat ∧ k.toNat ≤ 32)
  | .vargmx _ _ t => st == .x && t.is32
  | .topks _ | .topkd _ _ => st == .x
  -- access: the A stream, but for RPOP
  | .ld _ _ base _ | .lda _ _ _ base _ => st == .a && base.src st
  | .ldv _ base stride => st == .a && base.src st && stride.src st
  | .st _ data base _ => st == .a && data.src st && base.src st
  | .stv base stride _ => st == .a && base.src st && stride.src st
  | .ldg _ base => st == .a && base.src st
  | .pref base _ => st == .a && base.src st
  | .mark => st == .a
  | .aadd _ _ ad s2 | .aor _ _ ad s2 | .axch _ _ ad s2 => st == .a && ad.src st && s2.src st
  | .amin _ _ _ ad s2 | .amax _ _ _ ad s2 => st == .a && ad.src st && s2.src st
  | .acas _ _ ad s2 s3 => st == .a && ad.src st && s2.src st && s3.src st
  | .afadd _ ad s2 => st == .a && ad.src st && s2.src st
  | .sixcfg m c => st == .a && m.src st && c.src st
  | .fence _ _ stor => st == .a && stor.ok
  | .afence => st == .a
  | .pfence _ _ stor _ => st == .a && stor.ok
  | .drain _ stor => st == .a && stor.ok
  | .cflush _ b l => st == .a && b.src st && l.src st
  | .cinv b l => st == .a && b.src st && l.src st
  | .tlbinv b l _ => st == .a && b.src st && l.src st
  | .ringcfg _ img => st == .a && img.src st
  | .cpy d s t l => st == .a && d.dst st && s.src st && t.src st && l.src st
  | .cpyRing d s l _ => st == .a && d.dst st && s.src st && l.src st
  | .chain _ h => st == .a && h.src st
  | .cwait d s lo hi => st == .a && d.dst st && s.src st && lo.src st && hi.src st
  | .ctest d s c => st == .a && d.dst st && s.src st && c.src st
  | .rstat d _ _ => st == .a && d.dst st
  | .rpop _ n => st == .x && n != 0
  | .bfmt _ _ => st == .a
  -- matrix
  | .mma _ _ _ _ _ _ | .mmaz _ _ _ _ _ _ | .mzero _ | .mldacc _ _ _ _ | .mstacc _ _ _ _ => st == .x
  | .mdadd _ peer _ _ => st == .x && peer.src st
  | .mwait d which => st == .x && d.dst st && (match which with | .all => true | .tile _ c => c.src st)
  | .task rec _ => st == .a && rec.src st
  | .mprog d _ _ => d.dst st
  -- events, barriers, launches, groups
  | .evsig n _ | .evwait n _ | .evclr n => n.src st
  | .evtest d n => d.dst st && n.src st
  | .barinit b c => st == .a && b.src st && c.src st
  | .bararr d b _ => d.dst st && b.src st
  | .barexp b s => st == .a && b.src st && s.src st
  | .barwait d b p _ => d.dst st && b.src st && p.src st
  | .launch d r _ => st == .a && d.dst st && r.src st
  | .cancel d t _ | .gcnt d t _ => st == .a && d.dst st && t.src st
  | .qpush v => st == .a && v.src st
  | .qpop d _ => st == .a && d.dst st
  | .qclose => st == .a
  -- requests and whorls
  | .graft _ s d => st == .a && s.src st && d.src st
  | .kvwalk _ p | .kvseal _ p | .kvcompact _ p => st == .a && p.src st
  | .ballot d w h => d.dst st && w.src st && h.src st
  | .whorlOpen _ r | .whorlClose _ r | .whorlRing _ r | .whorlUnring _ r | .reshard _ r
  | .migrAdmit _ r | .migrHand _ r | .migrDone _ r | .migrCancel _ r => st == .a && r.src st
  | .beamix _ t p => st == .a && t.src st && p.src st
  -- the events are no words
  | .loadEntryLands _ _ _ | .sideLogReplay _ | .updateLineMerge _ _ | .copyChunkLands _ _ _ _
  | .chainRecordComplete _ _ | .cmuWordStart _ | .mdaddArrival _ | .taskRecordRead _
  | .taskUnitDispatch _ _ | .bankLoadComplete _ _ | .taskUnitComplete _ _ _ | .eventTableOperation _ _
  | .eventOverflowServe _ _ | .barrierCycle _ _ | .launchRecordAccept _ | .launchCreditGrant _ _
  | .coreFreeDispatch _ _ | .ageingLimitExpiry _ _ | .stageStrandOffer _ _ _ _ | .strandComplete _
  | .timeSliceExpiry _ | .parkThresholdExpiry _ | .preemptionSave _ | .strandResume _ _ _
  | .strandSuspend _ | .accfirstService _ | .watchdog _ | .icacheLineFill _ _ | .icacheError _ _ _
  | .hostDoorbell _ | .load _ | .unload _ | .pause _ | .resume _ | .destroy _ | .shootdown _ | .shard _
  | .create _ _ _ _ _ | .mode _ | .numamodeWrite _ | .lock _ | .registerWrite _ _ | .queueEnable _ _
  | .queuePause _ _ | .queueDisable _ _ | .pageWalk _ _ | .firmwareMapAnswer _ _ | .shootdownAck _ _
  | .promote _ _ _ | .evict _ _ | .move _ _ _ | .release _ _ | .clean _ _ | .migrationLineCopied _ _
  | .forwardingEnd _ | .uncorrectableErrorDetected _ | .poisonClear _ _ _ | .tier2ReadTimeout _ _ _ _
  | .tier2ControllerLoss _ | .computeDieReset _ | .writebackTimeout _ | .dieLinkTrained _ _
  | .dieLinkTrainingTimeout _ | .dieLinkModuleLoss _ _ | .dieLinkReplayExhaustion _ _ | .portEnable _
  | .portDisable _ | .portRetire _ | .ppermWrite _ _ | .portTrainingDone _ _ _ | .portTrainingTimeout _
  | .portLaneLoss _ _ | .flitCrcFail _ _ | .portErrorRate _ _ | .linkLossNotice _ _ _ | .fabricProbe _
  | .packetForward _ | .packetArrival _ | .flowAckReceived _ _ _ _ _ | .flowResendTimeout _ _ _
  | .flowStateExpiry _ _ _ | .invalidation _ _ | .powerThrottle _ _ | .coldReset | .packageFailure _
  | .graftTransferLanding _ | .requestRestart _ | .freeRingRelease _ | .engineWriteHeld _
  | .whorlSiblingEnd _ _ | .ringStepTimeout _ _ | .shardLaneLost _ _ | .shardRebuild _ _ _ _
  | .coppiceRun _ | .l2LineWriteBack _ | .warmReset => false

/-- The row is an event of the table, not an instruction word (95_what_each_step_holds.md). -/
def Instr.isEvent : Instr → Bool
  | .loadEntryLands _ _ _ | .sideLogReplay _ | .updateLineMerge _ _ | .copyChunkLands _ _ _ _
  | .chainRecordComplete _ _ | .cmuWordStart _ | .mdaddArrival _ | .taskRecordRead _
  | .taskUnitDispatch _ _ | .bankLoadComplete _ _ | .taskUnitComplete _ _ _ | .eventTableOperation _ _
  | .eventOverflowServe _ _ | .barrierCycle _ _ | .launchRecordAccept _ | .launchCreditGrant _ _
  | .coreFreeDispatch _ _ | .ageingLimitExpiry _ _ | .stageStrandOffer _ _ _ _ | .strandComplete _
  | .timeSliceExpiry _ | .parkThresholdExpiry _ | .preemptionSave _ | .strandResume _ _ _
  | .strandSuspend _ | .accfirstService _ | .watchdog _ | .icacheLineFill _ _ | .icacheError _ _ _
  | .hostDoorbell _ | .load _ | .unload _ | .pause _ | .resume _ | .destroy _ | .shootdown _ | .shard _
  | .create _ _ _ _ _ | .mode _ | .numamodeWrite _ | .lock _ | .registerWrite _ _ | .queueEnable _ _
  | .queuePause _ _ | .queueDisable _ _ | .pageWalk _ _ | .firmwareMapAnswer _ _ | .shootdownAck _ _
  | .promote _ _ _ | .evict _ _ | .move _ _ _ | .release _ _ | .clean _ _ | .migrationLineCopied _ _
  | .forwardingEnd _ | .uncorrectableErrorDetected _ | .poisonClear _ _ _ | .tier2ReadTimeout _ _ _ _
  | .tier2ControllerLoss _ | .computeDieReset _ | .writebackTimeout _ | .dieLinkTrained _ _
  | .dieLinkTrainingTimeout _ | .dieLinkModuleLoss _ _ | .dieLinkReplayExhaustion _ _ | .portEnable _
  | .portDisable _ | .portRetire _ | .ppermWrite _ _ | .portTrainingDone _ _ _ | .portTrainingTimeout _
  | .portLaneLoss _ _ | .flitCrcFail _ _ | .portErrorRate _ _ | .linkLossNotice _ _ _ | .fabricProbe _
  | .packetForward _ | .packetArrival _ | .flowAckReceived _ _ _ _ _ | .flowResendTimeout _ _ _
  | .flowStateExpiry _ _ _ | .invalidation _ _ | .powerThrottle _ _ | .coldReset | .packageFailure _
  | .graftTransferLanding _ | .requestRestart _ | .freeRingRelease _ | .engineWriteHeld _
  | .whorlSiblingEnd _ _ | .ringStepTimeout _ _ | .shardLaneLost _ _ | .shardRebuild _ _ _ _
  | .coppiceRun _ | .l2LineWriteBack _ | .warmReset => true
  | _ => false

/-- The ranges an event's numbers lie in: dies, ports, packages, cores (R5, R13, R328). -/
def Instr.eventOk : Instr → Bool
  | .portEnable p | .portDisable p | .portRetire p | .ppermWrite p _ | .portTrainingDone p _ _ | .portTrainingTimeout p
  | .flitCrcFail p _ | .portErrorRate p _ => decide (p < 32)
  | .portLaneLoss p l => decide (p < 32 ∧ l < 8)
  | .computeDieReset d | .writebackTimeout d | .dieLinkTrained d _ | .dieLinkTrainingTimeout d
  | .dieLinkReplayExhaustion d _ | .barrierCycle d _ => decide (d < 8)
  | .dieLinkModuleLoss d m => decide (d < 8 ∧ m < 48)
  | .linkLossNotice m n _ => decide (m < 993 ∧ n < 993 ∧ m ≠ n)
  | .tier2ControllerLoss n => decide (n < 32)
  | .packageFailure p => decide (p < 993)
  | .queueEnable s q | .queuePause s q | .queueDisable s q | .ageingLimitExpiry s q => decide (s < 1024 ∧ q < 16)
  | .bankLoadComplete a _ | .taskUnitDispatch _ a => decide (a < 304)
  | .updateLineMerge c _ | .cmuWordStart c | .launchCreditGrant c _ | .coreFreeDispatch c _ | .icacheLineFill c _
  | .icacheError c _ _ | .powerThrottle c _ => decide (c < 352)
  | .shardLaneLost s l => decide (s < 1024 ∧ l < 9)
  | .poisonClear _ g d => decide (g < 512) && d.length == 4096
  | _ => true

/-- A well-formed row: a word of one of the streams, or an event whose numbers name objects that exist. -/
def Instr.wf (i : Instr) : Bool :=
  if i.isEvent then i.eventOk else i.legal .a || i.legal .x

end Sys2Proof
end

