-- ==== Sys2Proof/Decode.lean ====
section
/-! DEFINITION. The instruction word (spec/03_core.md R57, R58), its decoding, total on any word, and after it the
encoder, both from the encoding tables of the spec (R63, R64, R83 to R107, R109, R114, R127, R151, R180, R182, R183,
R195, R209, R213, R218, R227, R258, R267, R311, R360, R370, R385, R386, R397). -/

namespace Sys2Proof

/-- The header fields of a word (R57). -/
structure Hdr where
  gap : BitVec 10
  ga : BitVec 3
  gb : BitVec 3
  gm : BitVec 2
  ch : BitVec 2
deriving DecidableEq, Repr

/-- Why a word is no instruction (R58, R60, R62). All of them raise ILLEGAL at the word. -/
inductive Reject where
  | guard      -- a reserved guard field is nonzero (R57)
  | hint       -- ch is reserved on this opcode (R57)
  | payload    -- unassigned opcode, reserved field, operand code or number (R58, R60, R63, R113)
  | slots      -- no stream admits the word's operand codes, md value or numbers (R60, R31, R113)
deriving DecidableEq, Repr

-- the fields of a payload (R58)
def fD (p : BitVec 36) : BitVec 6 := p.extractLsb' 30 6
def fS1 (p : BitVec 36) : BitVec 6 := p.extractLsb' 24 6
def fS2 (p : BitVec 36) : BitVec 6 := p.extractLsb' 18 6
def fS3 (p : BitVec 36) : BitVec 6 := p.extractLsb' 12 6
def fS4 (p : BitVec 36) : BitVec 6 := p.extractLsb' 6 6
def fMd (p : BitVec 36) : BitVec 6 := p.extractLsb' 0 6
def fImm (p : BitVec 36) : BitVec 24 := p.extractLsb' 0 24
def fOff (p : BitVec 36) : BitVec 30 := p.extractLsb' 0 30
def fBody (p : BitVec 36) : BitVec 14 := p.extractLsb' 16 14
def fImm16 (p : BitVec 36) : BitVec 16 := p.extractLsb' 0 16

/-- A number field below n (R113). -/
def finOf (n : Nat) (c : BitVec w) : Option (Fin n) := if h : c.toNat < n then some ⟨c.toNat, h⟩ else none

/-- A one-bit field whose other bits are reserved. -/
def bitOf (c : BitVec 6) : Option Bool := if c = 0#6 then some false else if c = 1#6 then some true else none

/-- A scalar slot's code (R59). -/
def SOp.ofCode (c : BitVec 6) : Option SOp :=
  if h : c.toNat < 32 then some (.reg ⟨c.toNat, h⟩)
  else if h : c.toNat - 44 < 4 ∧ 44 ≤ c.toNat then some (.lq ⟨c.toNat - 44, h.1⟩)
  else if h : c.toNat - 48 < 4 ∧ 48 ≤ c.toNat then some (.sq ⟨c.toNat - 48, h.1⟩)
  else if c = 52#6 then some .none else Option.none

/-- The link destination of CALL and JMP (R83). -/
def LinkDst.ofCode (c : BitVec 6) : Option LinkDst :=
  if h : c.toNat < 32 then some (.reg ⟨c.toNat, h⟩) else if c = 52#6 then some .none else Option.none

/-- LOOP's count: a register with imm16 reserved, or 53 and imm16 (R88). -/
def LCount.ofCode (c : BitVec 6) (imm : BitVec 16) : Option LCount :=
  if h : c.toNat < 32 then (if imm = 0#16 then some (.reg ⟨c.toNat, h⟩) else Option.none)
  else if c = 53#6 then some (.imm imm) else Option.none

/-- A vector source's code (R60). -/
def VSrc.ofCode (c : BitVec 6) : Option VSrc :=
  if h : c.toNat < 32 then some (.v ⟨c.toNat, h⟩)
  else if h : c.toNat - 32 < 8 then some (.o ⟨c.toNat - 32, h⟩)
  else if h : c.toNat - 40 < 4 then some (.l ⟨c.toNat - 40, h⟩)
  else if h : c.toNat - 44 < 4 then some (.lq ⟨c.toNat - 44, h⟩)
  else if c = 52#6 then some .none else Option.none

/-- A vector destination's code (R60). -/
def VDst.ofCode (c : BitVec 6) : Option VDst :=
  if h : c.toNat < 32 then some (.v ⟨c.toNat, h⟩)
  else if h : c.toNat - 32 < 8 then some (.o ⟨c.toNat - 32, h⟩)
  else if h : c.toNat - 48 < 4 ∧ 48 ≤ c.toNat then some (.sq ⟨c.toNat - 48, h.1⟩)
  else if c = 52#6 then some .none else Option.none

/-- A load queue or none (R151). -/
def LqDst.ofCode (c : BitVec 6) : Option LqDst :=
  if h : c.toNat - 44 < 4 ∧ 44 ≤ c.toNat then some (.lq ⟨c.toNat - 44, h.1⟩) else if c = 52#6 then some .none else Option.none

def lqOf (c : BitVec 6) : Option (Fin 4) := if h : c.toNat - 44 < 4 ∧ 44 ≤ c.toNat then some ⟨c.toNat - 44, h.1⟩ else none
def sqOf (c : BitVec 6) : Option (Fin 4) := if h : c.toNat - 48 < 4 ∧ 48 ≤ c.toNat then some ⟨c.toNat - 48, h.1⟩ else none
def predOf (c : BitVec 6) : Option (Fin 8) := if h : c.toNat - 56 < 8 ∧ 56 ≤ c.toNat then some ⟨c.toNat - 56, h.1⟩ else none

/-- The type code of md[5:3] and of VCVT's src (R31, R120). -/
def Ty.ofCode (c : BitVec 3) : Ty :=
  match c.toNat with
  | 0 => .f32 | 1 => .bf16 | 2 => .f16 | 3 => .e4m3 | 4 => .e5m2 | 5 => .s32 | 6 => .s16 | _ => .s8
def Rnd.ofCode (c : BitVec 2) : Rnd :=
  match c.toNat with
  | 0 => .rn | 1 => .rz | 2 => .rd | _ => .ru
def mdTy (m : BitVec 6) : Ty := Ty.ofCode (m.extractLsb' 3 3)
def mdRnd (m : BitVec 6) : Rnd := Rnd.ofCode (m.extractLsb' 1 2)
def mdSat (m : BitVec 6) : Bool := m.getLsbD 0
def mdOf (m : BitVec 6) : Md := ⟨mdTy m, mdRnd m, mdSat m⟩
def tyNum (c : BitVec 6) : Option Ty := if c.extractLsb' 3 3 = 0#3 then some (Ty.ofCode (c.extractLsb' 0 3)) else none

/-- md of a matrix word: f32 or s32 (R195). -/
def amdOf (m : BitVec 6) : Option AMd :=
  match mdTy m with
  | .f32 => some ⟨.f32, mdRnd m, mdSat m⟩
  | .s32 => some ⟨.s32, mdRnd m, mdSat m⟩
  | _ => none

def RedOp.ofCode (c : BitVec 6) : Option RedOp :=
  match c.toNat with | 0 => some .add | 1 => some .max | 2 => some .min | _ => none
def Cond.ofCode (c : BitVec 3) : Option Cond :=
  match c.toNat with
  | 0 => some .eq | 1 => some .ne | 2 => some .lt | 3 => some .ge | 4 => some .ltu | 5 => some .geu | 6 => some .tst
  | _ => none
def condMd (m : BitVec 6) : Option Cond := if m.extractLsb' 3 3 = 0#3 then Cond.ofCode (m.extractLsb' 0 3) else none
def LTy.ofCode (c : BitVec 4) : Option LTy :=
  match c.toNat with
  | 0 => some .s8 | 1 => some .n8 | 2 => some .s16 | 3 => some .n16 | 4 => some .s32 | 5 => some .n32 | 6 => some .s64
  | _ => none
def STy.ofCode (c : BitVec 4) : Option STy :=
  match c.toNat with
  | 0 => some .s8 | 2 => some .s16 | 4 => some .s32 | 6 => some .s64 | _ => none

/-- The width of an atomic, md[5:4], the rest reserved (R155). -/
def awOf (m : BitVec 6) : Option AW := if m = 0x20#6 then some .w32 else if m = 0x30#6 then some .w64 else none
/-- AMIN's and AMAX's width with .u in md[3] (R155). -/
def uawOf (m : BitVec 6) : Option (Bool × AW) :=
  if m = 0x20#6 then some (false, .w32) else if m = 0x30#6 then some (false, .w64)
  else if m = 0x28#6 then some (true, .w32) else if m = 0x38#6 then some (true, .w64) else none
/-- A storage mask of 1 to 7 (R171, R180). -/
def Stor.ofCode (c : BitVec 6) : Option Stor :=
  if c.toNat < 8 ∧ c ≠ 0#6 then some ⟨c.getLsbD 0, c.getLsbD 1, c.getLsbD 2⟩ else none
/-- MMA's keep field (R195). -/
def keep2Of (c : BitVec 6) : Option (Bool × Bool) :=
  if c.toNat < 4 then some (c.getLsbD 0, c.getLsbD 1) else none
/-- MWAIT's selector: s2 is reserved when sel is 8 (R195). -/
def mselOf (s1 s2 : BitVec 6) : Option MSel :=
  if s1 = 8#6 then (if s2 = 0#6 then some .all else none)
  else match finOf 8 s1, SOp.ofCode s2 with
    | some n, some c => some (.tile n c)
    | _, _ => none

/-- Opcodes 0x00 to 0x0F (R63), by the low nibble. -/
def decode0 (lo : Nat) (pl : BitVec 36) : Option Instr :=
  match lo with
  | 0x0 => if fD pl = 0#6 ∧ fS1 pl = 0#6 ∧ fS2 pl = 0#6 ∧ fS3 pl = 0#6 ∧ fS4 pl = 0#6 ∧ fMd pl = 0#6 then some .nop else none
  | 0x1 => if fD pl = 0#6 ∧ fS1 pl = 0#6 ∧ fS2 pl = 0#6 ∧ fS3 pl = 0#6 ∧ fS4 pl = 0#6 ∧ fMd pl = 0#6 then some .go else none
  | 0x2 => if (fD pl) = 52#6 then some (.br (fOff pl)) else none
  | 0x3 => do let d ← LinkDst.ofCode (fD pl); some (.call d (fOff pl))
  | 0x4 => do let d ← LinkDst.ofCode (fD pl); let s1 ← SOp.ofCode (fS1 pl); if fS2 pl = 0#6 ∧ fS3 pl = 0#6 ∧ fS4 pl = 0#6 ∧ fMd pl = 0#6 then some (.jmp d s1) else none
  | 0x5 => (LCount.ofCode (fD pl) (fImm16 pl)).map fun c => .loop c (fBody pl)
  | 0x6 => if fD pl = 0#6 ∧ fS1 pl = 0#6 ∧ fS2 pl = 0#6 ∧ fS3 pl = 0#6 ∧ fS4 pl = 0#6 ∧ fMd pl = 0#6 then some .breakl else none
  | 0x7 => do let d ← SOp.ofCode (fD pl); let n ← finOf 6 (fS1 pl); let rem ← bitOf (fMd pl); if fS2 pl = 0#6 ∧ fS3 pl = 0#6 ∧ fS4 pl = 0#6 then some (.lidx d n rem) else none
  | 0x8 => if fD pl = 0#6 ∧ fS1 pl = 0#6 then some (.trap (fImm pl)) else none
  | 0x9 => if fD pl = 0#6 ∧ fS1 pl = 0#6 ∧ fS2 pl = 0#6 ∧ fS3 pl = 0#6 ∧ fS4 pl = 0#6 ∧ fMd pl = 0#6 then some .end_ else none
  | 0xA => if fD pl = 0#6 ∧ fS1 pl = 0#6 ∧ fS2 pl = 0#6 ∧ fS3 pl = 0#6 ∧ fS4 pl = 0#6 ∧ fMd pl = 0#6 then some .yield else none
  | 0xB => do let d ← SOp.ofCode (fD pl); if (fImm pl).extractLsb' 12 12 = 0#12 ∧ fS1 pl = 0#6 then some (.rds d ((fImm pl).extractLsb' 0 12)) else none
  | 0xC => do let s1 ← SOp.ofCode (fS1 pl); if (fImm pl).extractLsb' 12 12 = 0#12 ∧ fD pl = 0#6 then some (.wrs ((fImm pl).extractLsb' 0 12) s1) else none
  | 0xD => if fD pl = 0#6 ∧ fS1 pl = 0#6 ∧ fS2 pl = 0#6 ∧ fS3 pl = 0#6 ∧ fS4 pl = 0#6 ∧ fMd pl = 0#6 then some .cpoint else none
  | _ => none

/-- Opcodes 0x10 to 0x1F (R63), by the low nibble. -/
def decode1 (lo : Nat) (pl : BitVec 36) : Option Instr :=
  match lo with
  | 0x0 => do let d ← SOp.ofCode (fD pl); let s1 ← SOp.ofCode (fS1 pl); let s2 ← SOp.ofCode (fS2 pl); if fS3 pl = 0#6 ∧ fS4 pl = 0#6 ∧ fMd pl = 0#6 then some (.add d s1 s2) else none
  | 0x1 => do let d ← SOp.ofCode (fD pl); let s1 ← SOp.ofCode (fS1 pl); let s2 ← SOp.ofCode (fS2 pl); if fS3 pl = 0#6 ∧ fS4 pl = 0#6 ∧ fMd pl = 0#6 then some (.sub d s1 s2) else none
  | 0x2 => do let d ← SOp.ofCode (fD pl); let s1 ← SOp.ofCode (fS1 pl); some (.addi d s1 (fImm pl))
  | 0x3 => do let d ← SOp.ofCode (fD pl); let s1 ← SOp.ofCode (fS1 pl); let s2 ← SOp.ofCode (fS2 pl); if fS3 pl = 0#6 ∧ fS4 pl = 0#6 ∧ fMd pl = 0#6 then some (.mul d s1 s2) else none
  | 0x4 => do let u ← bitOf (fMd pl); let d ← SOp.ofCode (fD pl); let s1 ← SOp.ofCode (fS1 pl); let s2 ← SOp.ofCode (fS2 pl); if fS3 pl = 0#6 ∧ fS4 pl = 0#6 then some (.mulh u d s1 s2) else none
  | 0x5 => do let u ← bitOf (fMd pl); let d ← SOp.ofCode (fD pl); let s1 ← SOp.ofCode (fS1 pl); let s2 ← SOp.ofCode (fS2 pl); if fS3 pl = 0#6 ∧ fS4 pl = 0#6 then some (.div u d s1 s2) else none
  | 0x6 => do let u ← bitOf (fMd pl); let d ← SOp.ofCode (fD pl); let s1 ← SOp.ofCode (fS1 pl); let s2 ← SOp.ofCode (fS2 pl); if fS3 pl = 0#6 ∧ fS4 pl = 0#6 then some (.rem u d s1 s2) else none
  | 0x7 => do let d ← SOp.ofCode (fD pl); let s1 ← SOp.ofCode (fS1 pl); let s2 ← SOp.ofCode (fS2 pl); if fS3 pl = 0#6 ∧ fS4 pl = 0#6 ∧ fMd pl = 0#6 then some (.and d s1 s2) else none
  | 0x8 => do let d ← SOp.ofCode (fD pl); let s1 ← SOp.ofCode (fS1 pl); let s2 ← SOp.ofCode (fS2 pl); if fS3 pl = 0#6 ∧ fS4 pl = 0#6 ∧ fMd pl = 0#6 then some (.or d s1 s2) else none
  | 0x9 => do let d ← SOp.ofCode (fD pl); let s1 ← SOp.ofCode (fS1 pl); let s2 ← SOp.ofCode (fS2 pl); if fS3 pl = 0#6 ∧ fS4 pl = 0#6 ∧ fMd pl = 0#6 then some (.xor d s1 s2) else none
  | 0xA => do let d ← SOp.ofCode (fD pl); let s1 ← SOp.ofCode (fS1 pl); some (.andi d s1 (fImm pl))
  | 0xB => do let d ← SOp.ofCode (fD pl); let s1 ← SOp.ofCode (fS1 pl); some (.ori d s1 (fImm pl))
  | 0xC => do let d ← SOp.ofCode (fD pl); let s1 ← SOp.ofCode (fS1 pl); some (.xori d s1 (fImm pl))
  | 0xD => do let d ← SOp.ofCode (fD pl); let s1 ← SOp.ofCode (fS1 pl); let s2 ← SOp.ofCode (fS2 pl); if fS3 pl = 0#6 ∧ fS4 pl = 0#6 ∧ fMd pl = 0#6 then some (.shl d s1 s2) else none
  | 0xE => do let d ← SOp.ofCode (fD pl); let s1 ← SOp.ofCode (fS1 pl); let s2 ← SOp.ofCode (fS2 pl); if fS3 pl = 0#6 ∧ fS4 pl = 0#6 ∧ fMd pl = 0#6 then some (.shr d s1 s2) else none
  | 0xF => do let d ← SOp.ofCode (fD pl); let s1 ← SOp.ofCode (fS1 pl); let s2 ← SOp.ofCode (fS2 pl); if fS3 pl = 0#6 ∧ fS4 pl = 0#6 ∧ fMd pl = 0#6 then some (.sha d s1 s2) else none
  | _ => none

/-- Opcodes 0x20 to 0x2F (R63), by the low nibble. -/
def decode2 (lo : Nat) (pl : BitVec 36) : Option Instr :=
  match lo with
  | 0x0 => do let d ← SOp.ofCode (fD pl); if fS1 pl = 0#6 then some (.limm d (fImm pl)) else none
  | 0x1 => do let d ← SOp.ofCode (fD pl); let s1 ← SOp.ofCode (fS1 pl); let sl ← finOf 4 ((fImm pl).extractLsb' 16 2); if (fImm pl).extractLsb' 18 6 = 0#6 then some (.lhi d s1 ((fImm pl).extractLsb' 0 16) sl) else none
  | 0x2 => do let u ← bitOf (fMd pl); let d ← SOp.ofCode (fD pl); let s1 ← SOp.ofCode (fS1 pl); let s2 ← SOp.ofCode (fS2 pl); if fS3 pl = 0#6 ∧ fS4 pl = 0#6 then some (.min u d s1 s2) else none
  | 0x3 => do let u ← bitOf (fMd pl); let d ← SOp.ofCode (fD pl); let s1 ← SOp.ofCode (fS1 pl); let s2 ← SOp.ofCode (fS2 pl); if fS3 pl = 0#6 ∧ fS4 pl = 0#6 then some (.max u d s1 s2) else none
  | 0x4 => do let d ← SOp.ofCode (fD pl); let s1 ← SOp.ofCode (fS1 pl); if fS2 pl = 0#6 ∧ fS3 pl = 0#6 ∧ fS4 pl = 0#6 ∧ fMd pl = 0#6 then some (.clz d s1) else none
  | 0x5 => do let d ← SOp.ofCode (fD pl); let s1 ← SOp.ofCode (fS1 pl); if fS2 pl = 0#6 ∧ fS3 pl = 0#6 ∧ fS4 pl = 0#6 ∧ fMd pl = 0#6 then some (.popc d s1) else none
  | 0x6 => do let d ← SOp.ofCode (fD pl); let s1 ← SOp.ofCode (fS1 pl); let s2 ← SOp.ofCode (fS2 pl); let p ← predOf (fS3 pl); if fS4 pl = 0#6 ∧ fMd pl = 0#6 then some (.sel d s1 s2 p) else none
  | 0x7 => do let d ← SOp.ofCode (fD pl); let s1 ← SOp.ofCode (fS1 pl); let s2 ← SOp.ofCode (fS2 pl); let s3 ← SOp.ofCode (fS3 pl); if fS4 pl = 0#6 ∧ fMd pl = 0#6 then some (.mad d s1 s2 s3) else none
  | 0x8 => do let c ← condMd (fMd pl); let p ← predOf (fD pl); let s1 ← SOp.ofCode (fS1 pl); let s2 ← SOp.ofCode (fS2 pl); if fS3 pl = 0#6 ∧ fS4 pl = 0#6 then some (.cmp c p s1 s2) else none
  | 0x9 => do let c ← Cond.ofCode ((fImm pl).extractLsb' 0 3); let p ← predOf (fD pl); let s1 ← SOp.ofCode (fS1 pl); some (.cmpi c p s1 ((fImm pl).extractLsb' 3 21))
  | 0xA => do let d ← SOp.ofCode (fD pl); let s1 ← SOp.ofCode (fS1 pl); if fS2 pl = 0#6 ∧ fS3 pl = 0#6 ∧ fS4 pl = 0#6 ∧ fMd pl = 0#6 then some (.mov d s1) else none
  | 0xB => do let sx ← bitOf (fMd pl); let d ← SOp.ofCode (fD pl); let s1 ← SOp.ofCode (fS1 pl); let pos ← finOf 64 (fS3 pl); let w1 ← finOf 64 (fS4 pl); if fS2 pl = 0#6 then some (.bfx sx d s1 pos w1) else none
  | 0xC => do let d ← SOp.ofCode (fD pl); let s1 ← SOp.ofCode (fS1 pl); let s2 ← SOp.ofCode (fS2 pl); let pos ← finOf 64 (fS3 pl); let w1 ← finOf 64 (fS4 pl); if fMd pl = 0#6 then some (.bfi d s1 s2 pos w1) else none
  | _ => none

/-- Opcodes 0x30 to 0x3F (R63), by the low nibble. -/
def decode3 (lo : Nat) (pl : BitVec 36) : Option Instr :=
  match lo with
  | 0x0 => do let pd ← predOf (fD pl); let ps1 ← predOf (fS1 pl); let ps2 ← predOf (fS2 pl); if fS3 pl = 0#6 ∧ fS4 pl = 0#6 ∧ fMd pl = 0#6 then some (.pand pd ps1 ps2) else none
  | 0x1 => do let pd ← predOf (fD pl); let ps1 ← predOf (fS1 pl); let ps2 ← predOf (fS2 pl); if fS3 pl = 0#6 ∧ fS4 pl = 0#6 ∧ fMd pl = 0#6 then some (.por pd ps1 ps2) else none
  | 0x2 => do let pd ← predOf (fD pl); let ps1 ← predOf (fS1 pl); let ps2 ← predOf (fS2 pl); if fS3 pl = 0#6 ∧ fS4 pl = 0#6 ∧ fMd pl = 0#6 then some (.pxor pd ps1 ps2) else none
  | 0x3 => do let pd ← predOf (fD pl); let ps1 ← predOf (fS1 pl); if fS2 pl = 0#6 ∧ fS3 pl = 0#6 ∧ fS4 pl = 0#6 ∧ fMd pl = 0#6 then some (.pnot pd ps1) else none
  | 0x4 => do let pd ← predOf (fD pl); let s1 ← SOp.ofCode (fS1 pl); some (.pset pd s1 (fImm pl))
  | 0x5 => do let pd ← predOf (fD pl); let ps1 ← predOf (fS1 pl); if fS2 pl = 0#6 ∧ fS3 pl = 0#6 ∧ fS4 pl = 0#6 ∧ fMd pl = 0#6 then some (.pany pd ps1) else none
  | 0x6 => do let d ← SOp.ofCode (fD pl); let ps1 ← predOf (fS1 pl); if fS2 pl = 0#6 ∧ fS3 pl = 0#6 ∧ fS4 pl = 0#6 ∧ fMd pl = 0#6 then some (.pcnt d ps1) else none
  | 0x7 => do let d ← SOp.ofCode (fD pl); let ps1 ← predOf (fS1 pl); if fS2 pl = 0#6 ∧ fS3 pl = 0#6 ∧ fS4 pl = 0#6 ∧ fMd pl = 0#6 then some (.pfirst d ps1) else none
  | _ => none

/-- Opcodes 0x40 to 0x4F (R63), by the low nibble. -/
def decode4 (lo : Nat) (pl : BitVec 36) : Option Instr :=
  match lo with
  | 0x0 => do let d ← VDst.ofCode (fD pl); let s1 ← VSrc.ofCode (fS1 pl); let s2 ← VSrc.ofCode (fS2 pl); if fS3 pl = 0#6 ∧ fS4 pl = 0#6 then some (.vadd d s1 s2 (mdOf (fMd pl))) else none
  | 0x1 => do let d ← VDst.ofCode (fD pl); let s1 ← VSrc.ofCode (fS1 pl); let s2 ← VSrc.ofCode (fS2 pl); if fS3 pl = 0#6 ∧ fS4 pl = 0#6 then some (.vsub d s1 s2 (mdOf (fMd pl))) else none
  | 0x2 => do let d ← VDst.ofCode (fD pl); let s1 ← VSrc.ofCode (fS1 pl); let s2 ← VSrc.ofCode (fS2 pl); if fS3 pl = 0#6 ∧ fS4 pl = 0#6 then some (.vmul d s1 s2 (mdOf (fMd pl))) else none
  | 0x3 => do let d ← VDst.ofCode (fD pl); let s1 ← VSrc.ofCode (fS1 pl); let s2 ← VSrc.ofCode (fS2 pl); let s3 ← VSrc.ofCode (fS3 pl); if fS4 pl = 0#6 then some (.vfma d s1 s2 s3 (mdOf (fMd pl))) else none
  | 0x4 => do let d ← VDst.ofCode (fD pl); let s1 ← VSrc.ofCode (fS1 pl); let s2 ← VSrc.ofCode (fS2 pl); let s3 ← VSrc.ofCode (fS3 pl); if fS4 pl = 0#6 then some (.vfms d s1 s2 s3 (mdOf (fMd pl))) else none
  | 0x5 => do let d ← VDst.ofCode (fD pl); let s1 ← VSrc.ofCode (fS1 pl); let s2 ← VSrc.ofCode (fS2 pl); if mdRnd (fMd pl) = .rn ∧ mdSat (fMd pl) = false ∧ fS3 pl = 0#6 ∧ fS4 pl = 0#6 then some (.vmin d s1 s2 (mdTy (fMd pl))) else none
  | 0x6 => do let d ← VDst.ofCode (fD pl); let s1 ← VSrc.ofCode (fS1 pl); let s2 ← VSrc.ofCode (fS2 pl); if mdRnd (fMd pl) = .rn ∧ mdSat (fMd pl) = false ∧ fS3 pl = 0#6 ∧ fS4 pl = 0#6 then some (.vmax d s1 s2 (mdTy (fMd pl))) else none
  | 0x7 => do let d ← VDst.ofCode (fD pl); let s1 ← VSrc.ofCode (fS1 pl); if mdRnd (fMd pl) = .rn ∧ fS2 pl = 0#6 ∧ fS3 pl = 0#6 ∧ fS4 pl = 0#6 then some (.vabs d s1 (mdTy (fMd pl)) (mdSat (fMd pl))) else none
  | 0x8 => do let d ← VDst.ofCode (fD pl); let s1 ← VSrc.ofCode (fS1 pl); if mdRnd (fMd pl) = .rn ∧ fS2 pl = 0#6 ∧ fS3 pl = 0#6 ∧ fS4 pl = 0#6 then some (.vneg d s1 (mdTy (fMd pl)) (mdSat (fMd pl))) else none
  | 0x9 => do let pd ← predOf (fD pl); let s1 ← VSrc.ofCode (fS1 pl); let s2 ← VSrc.ofCode (fS2 pl); let c ← finOf 11 (fS3 pl); if mdRnd (fMd pl) = .rn ∧ mdSat (fMd pl) = false ∧ fS4 pl = 0#6 then some (.vcmp pd s1 s2 c (mdTy (fMd pl))) else none
  | 0xA => do let d ← VDst.ofCode (fD pl); let s1 ← VSrc.ofCode (fS1 pl); let s2 ← VSrc.ofCode (fS2 pl); let p ← predOf (fS3 pl); if fS4 pl = 0#6 ∧ fMd pl = 0#6 then some (.vsel d s1 s2 p) else none
  | 0xB => do let d ← VDst.ofCode (fD pl); let s1 ← VSrc.ofCode (fS1 pl); let s2 ← VSrc.ofCode (fS2 pl); if fS3 pl = 0#6 ∧ fS4 pl = 0#6 ∧ fMd pl = 0#6 then some (.vand d s1 s2) else none
  | 0xC => do let d ← VDst.ofCode (fD pl); let s1 ← VSrc.ofCode (fS1 pl); let s2 ← VSrc.ofCode (fS2 pl); if fS3 pl = 0#6 ∧ fS4 pl = 0#6 ∧ fMd pl = 0#6 then some (.vor d s1 s2) else none
  | 0xD => do let d ← VDst.ofCode (fD pl); let s1 ← VSrc.ofCode (fS1 pl); let s2 ← VSrc.ofCode (fS2 pl); if fS3 pl = 0#6 ∧ fS4 pl = 0#6 ∧ fMd pl = 0#6 then some (.vxor d s1 s2) else none
  | 0xE => do let d ← VDst.ofCode (fD pl); let s1 ← VSrc.ofCode (fS1 pl); let s2 ← VSrc.ofCode (fS2 pl); if mdRnd (fMd pl) = .rn ∧ fS3 pl = 0#6 ∧ fS4 pl = 0#6 then some (.vshl d s1 s2 (mdTy (fMd pl)) (mdSat (fMd pl))) else none
  | 0xF => do let d ← VDst.ofCode (fD pl); let s1 ← VSrc.ofCode (fS1 pl); let s2 ← VSrc.ofCode (fS2 pl); if fS3 pl = 0#6 ∧ fS4 pl = 0#6 then some (.vshr (mdSat (fMd pl)) d s1 s2 (mdTy (fMd pl)) (mdRnd (fMd pl))) else none
  | _ => none

/-- Opcodes 0x50 to 0x5F (R63), by the low nibble. -/
def decode5 (lo : Nat) (pl : BitVec 36) : Option Instr :=
  match lo with
  | 0x0 => do let d ← VDst.ofCode (fD pl); let s1 ← VSrc.ofCode (fS1 pl); let src ← tyNum (fS2 pl); let part ← finOf 4 (fS3 pl); if fS4 pl = 0#6 then some (.vcvt d s1 src part (mdOf (fMd pl))) else none
  | 0x1 => do let d ← VDst.ofCode (fD pl); let s1 ← SOp.ofCode (fS1 pl); if mdRnd (fMd pl) = .rn ∧ mdSat (fMd pl) = false ∧ fS2 pl = 0#6 ∧ fS3 pl = 0#6 ∧ fS4 pl = 0#6 then some (.vbcast d s1 (mdTy (fMd pl))) else none
  | 0x2 => do let d ← VDst.ofCode (fD pl); let s1 ← SOp.ofCode (fS1 pl); let s2 ← SOp.ofCode (fS2 pl); if mdRnd (fMd pl) = .rn ∧ fS3 pl = 0#6 ∧ fS4 pl = 0#6 then some (.viota d s1 s2 (mdTy (fMd pl)) (mdSat (fMd pl))) else none
  | 0x3 => do let d ← VDst.ofCode (fD pl); let s1 ← VSrc.ofCode (fS1 pl); if fS2 pl = 0#6 ∧ fS3 pl = 0#6 ∧ fS4 pl = 0#6 ∧ fMd pl = 0#6 then some (.vmov d s1) else none
  | 0x4 => if (fImm pl).extractLsb' 13 11 = 0#11 ∧ (fImm pl).extractLsb' 6 2 = 0#2 ∧ fD pl = 0#6 ∧ fS1 pl = 0#6 then some (.vshape ((fImm pl).extractLsb' 8 5) ((fImm pl).extractLsb' 0 6)) else none
  | 0x5 => do let d ← VDst.ofCode (fD pl); let s1 ← VSrc.ofCode (fS1 pl); if fS2 pl = 0#6 ∧ fS3 pl = 0#6 ∧ fS4 pl = 0#6 ∧ fMd pl = 0#6 then some (.vtrn d s1) else none
  | 0x6 => do let row ← bitOf (fMd pl); let d ← VDst.ofCode (fD pl); let s1 ← VSrc.ofCode (fS1 pl); let s2 ← SOp.ofCode (fS2 pl); if fS3 pl = 0#6 ∧ fS4 pl = 0#6 then some (.vrot row d s1 s2) else none
  | 0x7 => do let op ← RedOp.ofCode (fS2 pl); let d ← VDst.ofCode (fD pl); let s1 ← VSrc.ofCode (fS1 pl); if fS3 pl = 0#6 ∧ fS4 pl = 0#6 then some (.vred op d s1 (mdOf (fMd pl))) else none
  | 0x8 => do let op ← RedOp.ofCode (fS2 pl); let d ← VDst.ofCode (fD pl); let s1 ← VSrc.ofCode (fS1 pl); if fS3 pl = 0#6 ∧ fS4 pl = 0#6 then some (.vscan op d s1 (mdOf (fMd pl))) else none
  | 0x9 => do let d ← VDst.ofCode (fD pl); let s1 ← VSrc.ofCode (fS1 pl); let s2 ← VSrc.ofCode (fS2 pl); let s3 ← VSrc.ofCode (fS3 pl); if fS4 pl = 0#6 then some (.vdot d s1 s2 s3 (mdOf (fMd pl))) else none
  | 0xA => do let d ← VDst.ofCode (fD pl); let s1 ← VSrc.ofCode (fS1 pl); let s2 ← VSrc.ofCode (fS2 pl); if fS3 pl = 0#6 ∧ fS4 pl = 0#6 ∧ fMd pl = 0#6 then some (.vperm d s1 s2) else none
  | 0xB => do let d ← VDst.ofCode (fD pl); let s1 ← VSrc.ofCode (fS1 pl); let s2 ← SOp.ofCode (fS2 pl); let s3 ← SOp.ofCode (fS3 pl); if fS4 pl = 0#6 ∧ fMd pl = 0#6 then some (.vins d s1 s2 s3) else none
  | 0xC => do let d ← SOp.ofCode (fD pl); let s1 ← VSrc.ofCode (fS1 pl); let s2 ← SOp.ofCode (fS2 pl); if fS3 pl = 0#6 ∧ fS4 pl = 0#6 ∧ fMd pl = 0#6 then some (.vext d s1 s2) else none
  | 0xD => do let d ← VDst.ofCode (fD pl); let s1 ← VSrc.ofCode (fS1 pl); if mdRnd (fMd pl) = .rn ∧ mdSat (fMd pl) = false ∧ fS2 pl = 0#6 ∧ fS3 pl = 0#6 ∧ fS4 pl = 0#6 then some (.vclass d s1 (mdTy (fMd pl))) else none
  | 0xE => do let d ← VDst.ofCode (fD pl); let s1 ← VSrc.ofCode (fS1 pl); let s2 ← VSrc.ofCode (fS2 pl); if fS3 pl = 0#6 ∧ fS4 pl = 0#6 then some (.vscale d s1 s2 (mdOf (fMd pl))) else none
  | 0xF => do let d ← VDst.ofCode (fD pl); let s1 ← VSrc.ofCode (fS1 pl); let conv ← finOf 6 (fS2 pl); let part ← finOf 4 (fS3 pl); if mdTy (fMd pl) = .f32 ∧ mdSat (fMd pl) = false ∧ fS4 pl = 0#6 then some (.vtf d s1 conv part (mdRnd (fMd pl))) else none
  | _ => none

/-- Opcodes 0x60 to 0x6F (R63), by the low nibble. -/
def decode6 (lo : Nat) (pl : BitVec 36) : Option Instr :=
  match lo with
  | 0x0 => do let pd ← predOf (fD pl); let s1 ← VSrc.ofCode (fS1 pl); let s2 ← VSrc.ofCode (fS2 pl); let c ← finOf 7 (fS3 pl); if mdRnd (fMd pl) = .rn ∧ mdSat (fMd pl) = false ∧ fS4 pl = 0#6 then some (.vtcmp pd s1 s2 c (mdTy (fMd pl))) else none
  | 0x1 => do let d ← VDst.ofCode (fD pl); let s1 ← VSrc.ofCode (fS1 pl); let part ← finOf 5 (fS2 pl); if fS3 pl = 0#6 ∧ fS4 pl = 0#6 then some (.vfb4d d s1 part (mdOf (fMd pl))) else none
  | 0x2 => do let d ← VDst.ofCode (fD pl); let s1 ← VSrc.ofCode (fS1 pl); let part ← finOf 5 (fS2 pl); if mdSat (fMd pl) = false ∧ fS3 pl = 0#6 ∧ fS4 pl = 0#6 then some (.vfb4e d s1 part (mdTy (fMd pl)) (mdRnd (fMd pl))) else none
  | 0x3 => do let d ← VDst.ofCode (fD pl); let s1 ← VSrc.ofCode (fS1 pl); let part ← finOf 5 (fS2 pl); if fS3 pl = 0#6 ∧ fS4 pl = 0#6 ∧ fMd pl = 0#6 then some (.vtrit d s1 part) else none
  | 0x4 => do let d ← VDst.ofCode (fD pl); let s1 ← VSrc.ofCode (fS1 pl); let s2 ← VSrc.ofCode (fS2 pl); let s3 ← VSrc.ofCode (fS3 pl); if mdTy (fMd pl) = .s8 ∧ mdRnd (fMd pl) = .rn ∧ fS4 pl = 0#6 then some (.vtdot d s1 s2 s3 (mdSat (fMd pl))) else none
  | _ => none

/-- Opcodes 0x80 to 0x8F (R63), by the low nibble. -/
def decode8 (lo : Nat) (pl : BitVec 36) : Option Instr :=
  match lo with
  | 0x0 => do let d ← VDst.ofCode (fD pl); let s1 ← VSrc.ofCode (fS1 pl); if mdRnd (fMd pl) = .rn ∧ fS2 pl = 0#6 ∧ fS3 pl = 0#6 ∧ fS4 pl = 0#6 then some (.fexp d s1 (mdTy (fMd pl)) (mdSat (fMd pl))) else none
  | 0x1 => do let d ← VDst.ofCode (fD pl); let s1 ← VSrc.ofCode (fS1 pl); if mdRnd (fMd pl) = .rn ∧ fS2 pl = 0#6 ∧ fS3 pl = 0#6 ∧ fS4 pl = 0#6 then some (.flog d s1 (mdTy (fMd pl)) (mdSat (fMd pl))) else none
  | 0x2 => do let d ← VDst.ofCode (fD pl); let s1 ← VSrc.ofCode (fS1 pl); if mdRnd (fMd pl) = .rn ∧ fS2 pl = 0#6 ∧ fS3 pl = 0#6 ∧ fS4 pl = 0#6 then some (.frcp d s1 (mdTy (fMd pl)) (mdSat (fMd pl))) else none
  | 0x3 => do let d ← VDst.ofCode (fD pl); let s1 ← VSrc.ofCode (fS1 pl); if mdRnd (fMd pl) = .rn ∧ fS2 pl = 0#6 ∧ fS3 pl = 0#6 ∧ fS4 pl = 0#6 then some (.frsq d s1 (mdTy (fMd pl)) (mdSat (fMd pl))) else none
  | 0x4 => do let d ← VDst.ofCode (fD pl); let s1 ← VSrc.ofCode (fS1 pl); if fS2 pl = 0#6 ∧ fS3 pl = 0#6 ∧ fS4 pl = 0#6 then some (.fsqrt d s1 (mdOf (fMd pl))) else none
  | 0x5 => do let d ← VDst.ofCode (fD pl); let s1 ← VSrc.ofCode (fS1 pl); let s2 ← VSrc.ofCode (fS2 pl); if fS3 pl = 0#6 ∧ fS4 pl = 0#6 then some (.fdiv d s1 s2 (mdOf (fMd pl))) else none
  | 0x6 => do let d ← VDst.ofCode (fD pl); let s1 ← VSrc.ofCode (fS1 pl); if mdRnd (fMd pl) = .rn ∧ fS2 pl = 0#6 ∧ fS3 pl = 0#6 ∧ fS4 pl = 0#6 then some (.ftanh d s1 (mdTy (fMd pl)) (mdSat (fMd pl))) else none
  | 0x7 => do let d ← VDst.ofCode (fD pl); let s1 ← VSrc.ofCode (fS1 pl); if mdRnd (fMd pl) = .rn ∧ fS2 pl = 0#6 ∧ fS3 pl = 0#6 ∧ fS4 pl = 0#6 then some (.fsig d s1 (mdTy (fMd pl)) (mdSat (fMd pl))) else none
  | 0x8 => do let d ← VDst.ofCode (fD pl); let s1 ← VSrc.ofCode (fS1 pl); let s2 ← VSrc.ofCode (fS2 pl); let part ← finOf 4 (fS3 pl); if (fMd pl) = 0x18#6 ∧ fS4 pl = 0#6 then some (.fexpq d s1 s2 part) else none
  | _ => none

/-- Opcodes 0x90 to 0x9F (R63), by the low nibble. -/
def decode9 (lo : Nat) (pl : BitVec 36) : Option Instr :=
  match lo with
  | 0x0 => do let d ← VDst.ofCode (fD pl); let s1 ← VSrc.ofCode (fS1 pl); if mdRnd (fMd pl) = .rn ∧ fS3 pl = 0#6 ∧ fS4 pl = 0#6 then some (.vtopk (mdSat (fMd pl)) d s1 (fS2 pl) (mdTy (fMd pl))) else none
  | 0x1 => do let pd ← predOf (fD pl); let s1 ← VSrc.ofCode (fS1 pl); if mdRnd (fMd pl) = .rn ∧ mdSat (fMd pl) = false ∧ fS3 pl = 0#6 ∧ fS4 pl = 0#6 then some (.vtopkm pd s1 (fS2 pl) (mdTy (fMd pl))) else none
  | 0x2 => do let d ← VDst.ofCode (fD pl); let s1 ← VSrc.ofCode (fS1 pl); if mdRnd (fMd pl) = .rn ∧ mdSat (fMd pl) = false ∧ fS2 pl = 0#6 ∧ fS3 pl = 0#6 ∧ fS4 pl = 0#6 then some (.vargmx d s1 (mdTy (fMd pl))) else none
  | 0x3 => do let s1 ← VSrc.ofCode (fS1 pl); if fD pl = 0#6 ∧ fS2 pl = 0#6 ∧ fS3 pl = 0#6 ∧ fS4 pl = 0#6 ∧ fMd pl = 0#6 then some (.topks s1) else none
  | 0x4 => do let d ← VDst.ofCode (fD pl); let sel ← finOf 2 (fS1 pl); if fS2 pl = 0#6 ∧ fS3 pl = 0#6 ∧ fS4 pl = 0#6 ∧ fMd pl = 0#6 then some (.topkd d sel) else none
  | _ => none

/-- Opcodes 0xA0 to 0xAF (R63), by the low nibble. -/
def decodeA (lo : Nat) (pl : BitVec 36) : Option Instr :=
  match lo with
  | 0x0 => do let t ← LTy.ofCode ((fImm pl).extractLsb' 20 4); let d ← lqOf (fD pl); let base ← SOp.ofCode (fS1 pl); some (.ld t d base ((fImm pl).extractLsb' 0 20))
  | 0x1 => do let d ← lqOf (fD pl); let base ← SOp.ofCode (fS1 pl); let stride ← SOp.ofCode (fS2 pl); if fS3 pl = 0#6 ∧ fS4 pl = 0#6 ∧ fMd pl = 0#6 then some (.ldv d base stride) else none
  | 0x2 => do let t ← STy.ofCode ((fImm pl).extractLsb' 20 4); let data ← SOp.ofCode (fD pl); let base ← SOp.ofCode (fS1 pl); some (.st t data base ((fImm pl).extractLsb' 0 20))
  | 0x3 => do let base ← SOp.ofCode (fS1 pl); let stride ← SOp.ofCode (fS2 pl); let data ← sqOf (fS3 pl); if fD pl = 0#6 ∧ fS4 pl = 0#6 ∧ fMd pl = 0#6 then some (.stv base stride data) else none
  | 0x4 => do let t ← LTy.ofCode ((fImm pl).extractLsb' 20 4); let sc ← finOf 4 ((fImm pl).extractLsb' 18 2); let d ← lqOf (fD pl); let base ← SOp.ofCode (fS1 pl); some (.lda t sc d base ((fImm pl).extractLsb' 0 18))
  | 0x5 => do let d ← lqOf (fD pl); let base ← SOp.ofCode (fS1 pl); if fS2 pl = 0#6 ∧ fS3 pl = 0#6 ∧ fS4 pl = 0#6 ∧ fMd pl = 0#6 then some (.ldg d base) else none
  | 0x6 => do let base ← SOp.ofCode (fS1 pl); if fD pl = 0#6 then some (.pref base (fImm pl)) else none
  | 0x7 => if fD pl = 0#6 ∧ fS1 pl = 0#6 ∧ fS2 pl = 0#6 ∧ fS3 pl = 0#6 ∧ fS4 pl = 0#6 ∧ fMd pl = 0#6 then some .mark else none
  | 0x8 => do let w ← awOf (fMd pl); let d ← LqDst.ofCode (fD pl); let addr ← SOp.ofCode (fS1 pl); let s2 ← SOp.ofCode (fS2 pl); if fS3 pl = 0#6 ∧ fS4 pl = 0#6 then some (.aadd w d addr s2) else none
  | 0x9 => do let (u, w) ← uawOf (fMd pl); let d ← LqDst.ofCode (fD pl); let addr ← SOp.ofCode (fS1 pl); let s2 ← SOp.ofCode (fS2 pl); if fS3 pl = 0#6 ∧ fS4 pl = 0#6 then some (.amin u w d addr s2) else none
  | 0xA => do let (u, w) ← uawOf (fMd pl); let d ← LqDst.ofCode (fD pl); let addr ← SOp.ofCode (fS1 pl); let s2 ← SOp.ofCode (fS2 pl); if fS3 pl = 0#6 ∧ fS4 pl = 0#6 then some (.amax u w d addr s2) else none
  | 0xB => do let w ← awOf (fMd pl); let d ← LqDst.ofCode (fD pl); let addr ← SOp.ofCode (fS1 pl); let s2 ← SOp.ofCode (fS2 pl); if fS3 pl = 0#6 ∧ fS4 pl = 0#6 then some (.aor w d addr s2) else none
  | 0xC => do let w ← awOf (fMd pl); let d ← LqDst.ofCode (fD pl); let addr ← SOp.ofCode (fS1 pl); let s2 ← SOp.ofCode (fS2 pl); if fS3 pl = 0#6 ∧ fS4 pl = 0#6 then some (.axch w d addr s2) else none
  | 0xD => do let w ← awOf (fMd pl); let d ← LqDst.ofCode (fD pl); let addr ← SOp.ofCode (fS1 pl); let s2 ← SOp.ofCode (fS2 pl); let s3 ← SOp.ofCode (fS3 pl); if fS4 pl = 0#6 then some (.acas w d addr s2 s3) else none
  | 0xE => do let d ← LqDst.ofCode (fD pl); let addr ← SOp.ofCode (fS1 pl); let s2 ← SOp.ofCode (fS2 pl); if (fMd pl) = 0x20#6 ∧ fS3 pl = 0#6 ∧ fS4 pl = 0#6 then some (.afadd d addr s2) else none
  | _ => none

/-- Opcodes 0xB0 to 0xBF (R63), by the low nibble. -/
def decodeB (lo : Nat) (pl : BitVec 36) : Option Instr :=
  match lo with
  | 0x0 => do let meta_ ← SOp.ofCode (fS1 pl); let cfg ← SOp.ofCode (fS2 pl); if fD pl = 0#6 ∧ fS3 pl = 0#6 ∧ fS4 pl = 0#6 ∧ fMd pl = 0#6 then some (.sixcfg meta_ cfg) else none
  | 0x1 => do let kind ← finOf 3 (fS1 pl); let scope ← finOf 4 (fS2 pl); let stor ← Stor.ofCode (fS3 pl); if fD pl = 0#6 ∧ fS4 pl = 0#6 ∧ fMd pl = 0#6 then some (.fence kind scope stor) else none
  | 0x2 => if fD pl = 0#6 ∧ fS1 pl = 0#6 ∧ fS2 pl = 0#6 ∧ fS3 pl = 0#6 ∧ fS4 pl = 0#6 ∧ fMd pl = 0#6 then some .afence else none
  | 0x3 => do let from_ ← finOf 6 (fS1 pl); let to_ ← finOf 6 (fS2 pl); let stor ← Stor.ofCode (fS3 pl); let scope ← finOf 4 (fS4 pl); if fD pl = 0#6 ∧ fMd pl = 0#6 then some (.pfence from_ to_ stor scope) else none
  | 0x4 => do let path ← finOf 6 (fS1 pl); let stor ← Stor.ofCode (fS2 pl); if fD pl = 0#6 ∧ fS3 pl = 0#6 ∧ fS4 pl = 0#6 ∧ fMd pl = 0#6 then some (.drain path stor) else none
  | 0x5 => do let mem ← bitOf (fMd pl); let base ← SOp.ofCode (fS1 pl); let len ← SOp.ofCode (fS2 pl); if fD pl = 0#6 ∧ fS3 pl = 0#6 ∧ fS4 pl = 0#6 then some (.cflush mem base len) else none
  | 0x6 => do let base ← SOp.ofCode (fS1 pl); let len ← SOp.ofCode (fS2 pl); if fD pl = 0#6 ∧ fS3 pl = 0#6 ∧ fS4 pl = 0#6 ∧ fMd pl = 0#6 then some (.cinv base len) else none
  | 0x7 => do let base ← SOp.ofCode (fS1 pl); let len ← SOp.ofCode (fS2 pl); let scope ← finOf 3 (fS3 pl); if fD pl = 0#6 ∧ fS4 pl = 0#6 ∧ fMd pl = 0#6 then some (.tlbinv base len scope) else none
  | _ => none

/-- Opcodes 0xC0 to 0xCF (R63), by the low nibble. -/
def decodeC (lo : Nat) (pl : BitVec 36) : Option Instr :=
  match lo with
  | 0x0 => do let k ← finOf 16 (fD pl); let img ← SOp.ofCode (fS1 pl); if fS2 pl = 0#6 ∧ fS3 pl = 0#6 ∧ fS4 pl = 0#6 ∧ fMd pl = 0#6 then some (.ringcfg k img) else none
  | 0x1 => if (fMd pl).getLsbD 5 then do let d ← SOp.ofCode (fD pl); let s1 ← SOp.ofCode (fS1 pl); let s3 ← SOp.ofCode (fS3 pl); let k ← finOf 16 ((fMd pl) &&& 0x1F#6); if fS2 pl = 0#6 ∧ fS4 pl = 0#6 then some (.cpyRing d s1 s3 k) else none
    else do let d ← SOp.ofCode (fD pl); let s1 ← SOp.ofCode (fS1 pl); let s2 ← SOp.ofCode (fS2 pl); let s3 ← SOp.ofCode (fS3 pl); if fS4 pl = 0#6 ∧ fMd pl = 0#6 then some (.cpy d s1 s2 s3) else none
  | 0x2 => do let ch ← finOf 4 (fS1 pl); let head ← SOp.ofCode (fS2 pl); if fD pl = 0#6 ∧ fS3 pl = 0#6 ∧ fS4 pl = 0#6 ∧ fMd pl = 0#6 then some (.chain ch head) else none
  | 0x3 => do let d ← SOp.ofCode (fD pl); let slot ← SOp.ofCode (fS1 pl); let mlo ← SOp.ofCode (fS2 pl); let mhi ← SOp.ofCode (fS3 pl); if fS4 pl = 0#6 ∧ fMd pl = 0#6 then some (.cwait d slot mlo mhi) else none
  | 0x4 => do let d ← SOp.ofCode (fD pl); let slot ← SOp.ofCode (fS1 pl); let chunk ← SOp.ofCode (fS2 pl); if fS3 pl = 0#6 ∧ fS4 pl = 0#6 ∧ fMd pl = 0#6 then some (.ctest d slot chunk) else none
  | 0x5 => do let d ← SOp.ofCode (fD pl); let k ← finOf 16 (fS1 pl); let sel ← finOf 4 (fS2 pl); if fS3 pl = 0#6 ∧ fS4 pl = 0#6 ∧ fMd pl = 0#6 then some (.rstat d k sel) else none
  | 0x6 => do let k ← finOf 16 (fS1 pl); if fD pl = 0#6 ∧ fS3 pl = 0#6 ∧ fS4 pl = 0#6 ∧ fMd pl = 0#6 then some (.rpop k (fS2 pl)) else none
  | 0x7 => do let fr ← finOf 8 (fS1 pl); let fmt ← finOf 13 (fS2 pl); if fD pl = 0#6 ∧ fS3 pl = 0#6 ∧ fS4 pl = 0#6 ∧ fMd pl = 0#6 then some (.bfmt fr fmt) else none
  | _ => none

/-- Opcodes 0xD0 to 0xDF (R63), by the low nibble. -/
def decodeD (lo : Nat) (pl : BitVec 36) : Option Instr :=
  match lo with
  | 0x0 => do let acc ← finOf 8 (fD pl); let ka ← finOf 16 (fS1 pl); let kb ← finOf 16 (fS2 pl); let (ka2, kb2) ← keep2Of (fS3 pl); let m ← amdOf (fMd pl); if fS4 pl = 0#6 then some (.mma acc ka kb ka2 kb2 m) else none
  | 0x1 => do let acc ← finOf 8 (fD pl); let ka ← finOf 16 (fS1 pl); let kb ← finOf 16 (fS2 pl); let (ka2, kb2) ← keep2Of (fS3 pl); let m ← amdOf (fMd pl); if fS4 pl = 0#6 then some (.mmaz acc ka kb ka2 kb2 m) else none
  | 0x2 => do let acc ← finOf 8 (fD pl); if fS1 pl = 0#6 ∧ fS2 pl = 0#6 ∧ fS3 pl = 0#6 ∧ fS4 pl = 0#6 ∧ fMd pl = 0#6 then some (.mzero acc) else none
  | 0x3 => do let acc ← finOf 8 (fD pl); let k ← finOf 16 (fS1 pl); let keep ← bitOf (fS3 pl); let m ← amdOf (fMd pl); if fS2 pl = 0#6 ∧ fS4 pl = 0#6 then some (.mldacc acc k keep m) else none
  | 0x4 => do let k ← finOf 16 (fD pl); let acc ← finOf 8 (fS1 pl); let free ← bitOf (fS3 pl); let m ← amdOf (fMd pl); if fS2 pl = 0#6 ∧ fS4 pl = 0#6 then some (.mstacc k acc free m) else none
  | 0x5 => do let acc ← finOf 8 (fS1 pl); let peer ← SOp.ofCode (fS2 pl); let free ← bitOf (fS3 pl); let m ← amdOf (fMd pl); if fD pl = 0#6 ∧ fS4 pl = 0#6 then some (.mdadd acc peer free m) else none
  | 0x6 => do let d ← SOp.ofCode (fD pl); let w ← mselOf (fS1 pl) (fS2 pl); if fS3 pl = 0#6 ∧ fS4 pl = 0#6 ∧ fMd pl = 0#6 then some (.mwait d w) else none
  | 0x7 => do let rec ← SOp.ofCode (fS1 pl); let slot ← finOf 5 (fS2 pl); if fD pl = 0#6 ∧ fS3 pl = 0#6 ∧ fS4 pl = 0#6 ∧ fMd pl = 0#6 then some (.task rec slot) else none
  | 0x8 => do let d ← SOp.ofCode (fD pl); let n ← finOf 4 (fS1 pl); let stop ← bitOf (fMd pl); if fS2 pl = 0#6 ∧ fS3 pl = 0#6 ∧ fS4 pl = 0#6 then some (.mprog d n stop) else none
  | _ => none

/-- Opcodes 0xE0 to 0xEF (R63), by the low nibble. -/
def decodeE (lo : Nat) (pl : BitVec 36) : Option Instr :=
  match lo with
  | 0x0 => do let name ← SOp.ofCode (fS1 pl); let scope ← finOf 3 (fS2 pl); if fD pl = 0#6 ∧ fS3 pl = 0#6 ∧ fS4 pl = 0#6 ∧ fMd pl = 0#6 then some (.evsig name scope) else none
  | 0x1 => do let name ← SOp.ofCode (fS1 pl); let scope ← finOf 3 (fS2 pl); if fD pl = 0#6 ∧ fS3 pl = 0#6 ∧ fS4 pl = 0#6 ∧ fMd pl = 0#6 then some (.evwait name scope) else none
  | 0x2 => do let d ← SOp.ofCode (fD pl); let name ← SOp.ofCode (fS1 pl); if fS2 pl = 0#6 ∧ fS3 pl = 0#6 ∧ fS4 pl = 0#6 ∧ fMd pl = 0#6 then some (.evtest d name) else none
  | 0x3 => do let name ← SOp.ofCode (fS1 pl); if fD pl = 0#6 ∧ fS2 pl = 0#6 ∧ fS3 pl = 0#6 ∧ fS4 pl = 0#6 ∧ fMd pl = 0#6 then some (.evclr name) else none
  | 0x4 => do let bar ← SOp.ofCode (fS1 pl); let cnt ← SOp.ofCode (fS2 pl); if fD pl = 0#6 ∧ fS3 pl = 0#6 ∧ fS4 pl = 0#6 ∧ fMd pl = 0#6 then some (.barinit bar cnt) else none
  | 0x5 => do let d ← SOp.ofCode (fD pl); let bar ← SOp.ofCode (fS1 pl); let scope ← finOf 3 (fS2 pl); if fS3 pl = 0#6 ∧ fS4 pl = 0#6 ∧ fMd pl = 0#6 then some (.bararr d bar scope) else none
  | 0x6 => do let bar ← SOp.ofCode (fS1 pl); let slot ← SOp.ofCode (fS2 pl); if fD pl = 0#6 ∧ fS3 pl = 0#6 ∧ fS4 pl = 0#6 ∧ fMd pl = 0#6 then some (.barexp bar slot) else none
  | 0x7 => do let d ← SOp.ofCode (fD pl); let bar ← SOp.ofCode (fS1 pl); let ph ← SOp.ofCode (fS2 pl); let scope ← finOf 3 (fS3 pl); if fS4 pl = 0#6 ∧ fMd pl = 0#6 then some (.barwait d bar ph scope) else none
  | 0x8 => do let d ← SOp.ofCode (fD pl); let rec ← SOp.ofCode (fS1 pl); let q ← finOf 16 (fS2 pl); if fS3 pl = 0#6 ∧ fS4 pl = 0#6 ∧ fMd pl = 0#6 then some (.launch d rec q) else none
  | 0x9 => do let d ← SOp.ofCode (fD pl); let tgt ← SOp.ofCode (fS1 pl); let level ← finOf 5 (fS2 pl); if fS3 pl = 0#6 ∧ fS4 pl = 0#6 ∧ fMd pl = 0#6 then some (.cancel d tgt level) else none
  | 0xA => do let d ← SOp.ofCode (fD pl); let tgt ← SOp.ofCode (fS1 pl); let level ← finOf 5 (fS2 pl); if fS3 pl = 0#6 ∧ fS4 pl = 0#6 ∧ fMd pl = 0#6 then some (.gcnt d tgt level) else none
  | 0xB => do let val ← SOp.ofCode (fS1 pl); if fD pl = 0#6 ∧ fS2 pl = 0#6 ∧ fS3 pl = 0#6 ∧ fS4 pl = 0#6 ∧ fMd pl = 0#6 then some (.qpush val) else none
  | 0xC => do let d ← SOp.ofCode (fD pl); let pd ← predOf (fS2 pl); if fS1 pl = 0#6 ∧ fS3 pl = 0#6 ∧ fS4 pl = 0#6 ∧ fMd pl = 0#6 then some (.qpop d pd) else none
  | 0xD => if fD pl = 0#6 ∧ fS1 pl = 0#6 ∧ fS2 pl = 0#6 ∧ fS3 pl = 0#6 ∧ fS4 pl = 0#6 ∧ fMd pl = 0#6 then some .qclose else none
  | _ => none

/-- Opcodes 0xF0 to 0xFF (R63), by the low nibble. -/
def decodeF (lo : Nat) (pl : BitVec 36) : Option Instr :=
  match lo with
  | 0x0 => do let d ← LqDst.ofCode (fD pl); let src ← SOp.ofCode (fS1 pl); let dst ← SOp.ofCode (fS2 pl); if fS3 pl = 0#6 ∧ fS4 pl = 0#6 ∧ fMd pl = 0#6 then some (.graft d src dst) else none
  | 0x1 => do let d ← lqOf (fD pl); let page ← SOp.ofCode (fS1 pl); if fS2 pl = 0#6 ∧ fS3 pl = 0#6 ∧ fS4 pl = 0#6 ∧ fMd pl = 0#6 then some (.kvwalk d page) else none
  | 0x2 => do let d ← LqDst.ofCode (fD pl); let page ← SOp.ofCode (fS1 pl); if fS2 pl = 0#6 ∧ fS3 pl = 0#6 ∧ fS4 pl = 0#6 ∧ fMd pl = 0#6 then some (.kvseal d page) else none
  | 0x3 => do let d ← LqDst.ofCode (fD pl); let rec ← SOp.ofCode (fS1 pl); if fS2 pl = 0#6 ∧ fS3 pl = 0#6 ∧ fS4 pl = 0#6 ∧ fMd pl = 0#6 then some (.kvcompact d rec) else none
  | 0x4 => do let d ← SOp.ofCode (fD pl); let whorl ← SOp.ofCode (fS1 pl); let hash ← SOp.ofCode (fS2 pl); if fS3 pl = 0#6 ∧ fS4 pl = 0#6 ∧ fMd pl = 0#6 then some (.ballot d whorl hash) else none
  | 0x5 => do let d ← LqDst.ofCode (fD pl); let s1 ← SOp.ofCode (fS1 pl); if fS3 pl = 0#6 ∧ fS4 pl = 0#6 ∧ fMd pl = 0#6 then (match (fS2 pl).toNat with | 0 => some (.whorlOpen d s1) | 1 => some (.whorlClose d s1) | 2 => some (.whorlRing d s1) | 3 => some (.whorlUnring d s1) | _ => none) else none
  | 0x6 => do let d ← LqDst.ofCode (fD pl); let rec ← SOp.ofCode (fS1 pl); if fS2 pl = 0#6 ∧ fS3 pl = 0#6 ∧ fS4 pl = 0#6 ∧ fMd pl = 0#6 then some (.reshard d rec) else none
  | 0x7 => do let d ← LqDst.ofCode (fD pl); let s1 ← SOp.ofCode (fS1 pl); if fS3 pl = 0#6 ∧ fS4 pl = 0#6 ∧ fMd pl = 0#6 then (match (fS2 pl).toNat with | 0 => some (.migrAdmit d s1) | 1 => some (.migrHand d s1) | 2 => some (.migrDone d s1) | 3 => some (.migrCancel d s1) | _ => none) else none
  | 0x8 => do let d ← LqDst.ofCode (fD pl); let tbl ← SOp.ofCode (fS1 pl); let perm ← SOp.ofCode (fS2 pl); if fS3 pl = 0#6 ∧ fS4 pl = 0#6 ∧ fMd pl = 0#6 then some (.beamix d tbl perm) else none
  | _ => none

/-- The instruction of an opcode and a payload; none where the opcode is unassigned or a field is not as its description
says (R58, R60, R63, R113). -/
def decodeOp (op : BitVec 8) (pl : BitVec 36) : Option Instr :=
  match (op.toNat / 16) with
  | 0x0 => decode0 (op.toNat % 16) pl
  | 0x1 => decode1 (op.toNat % 16) pl
  | 0x2 => decode2 (op.toNat % 16) pl
  | 0x3 => decode3 (op.toNat % 16) pl
  | 0x4 => decode4 (op.toNat % 16) pl
  | 0x5 => decode5 (op.toNat % 16) pl
  | 0x6 => decode6 (op.toNat % 16) pl
  | 0x8 => decode8 (op.toNat % 16) pl
  | 0x9 => decode9 (op.toNat % 16) pl
  | 0xA => decodeA (op.toNat % 16) pl
  | 0xB => decodeB (op.toNat % 16) pl
  | 0xC => decodeC (op.toNat % 16) pl
  | 0xD => decodeD (op.toNat % 16) pl
  | 0xE => decodeE (op.toNat % 16) pl
  | 0xF => decodeF (op.toNat % 16) pl
  | _ => none

/-- The opcodes whose words carry a cache hint (R57). -/
def hintOk (op : BitVec 8) : Bool :=
  decide ((0xA0 ≤ op.toNat ∧ op.toNat ≤ 0xAE) ∨ op = 0xC1#8 ∨ op = 0xC2#8)

def hdrOf (w : W64) : Hdr :=
  ⟨w.extractLsb' 54 10, w.extractLsb' 51 3, w.extractLsb' 48 3, w.extractLsb' 46 2, w.extractLsb' 44 2⟩
def opOf (w : W64) : BitVec 8 := w.extractLsb' 36 8

/-- The reserved guard fields are clear (R57). -/
def Hdr.guardOk (h : Hdr) : Bool :=
  if h.gm = 0#2 then h.ga = 0#3 && h.gb = 0#3 else if h.gm = 1#2 then h.gb = 0#3 else true

/-- Decoding a word: its header and its instruction, or the reason it is none (R57 to R63). -/
def decode (w : W64) : Except Reject (Hdr × Instr) :=
  let h := hdrOf w
  if !h.guardOk then .error .guard
  else if h.ch ≠ 0#2 ∧ !hintOk (opOf w) then .error .hint
  else match decodeOp (opOf w) (w.extractLsb' 0 36) with
    | none => .error .payload
    | some i => if i.legal .a || i.legal .x then .ok (h, i) else .error .slots

/-- A word from its eight bytes, lowest address first (R2, R57). -/
def wordOfBytes (bs : List Byte) : W64 :=
  (bs.take 8).foldr (fun b acc => (acc <<< 8) ||| b.setWidth 64) 0#64

/-- A word's eight bytes, lowest address first. -/
def bytesOfWord (w : W64) : List Byte := (List.range 8).map fun k => w.extractLsb' (8 * k) 8

/-- The instruction the decoder reads from the word w. A word of this hardware is 64 bits (R57), so nbits plays no part
beyond the numbering of w's bits. -/
def decodeTableWord (_nbits w : Nat) : Option Instr :=
  match decode (wordOfBytes (bytesOfWord (BitVec.ofNat 64 w))) with
  | .ok (_, i) => some i
  | .error _ => none

-- the encoder's field codes (R31, R59)
def SOp.code : SOp → BitVec 6
  | .reg n => BitVec.ofNat 6 n.val | .lq n => BitVec.ofNat 6 (44 + n.val) | .sq n => BitVec.ofNat 6 (48 + n.val) | .none => 52#6
def LinkDst.code : LinkDst → BitVec 6
  | .reg n => BitVec.ofNat 6 n.val | .none => 52#6
def LCount.code : LCount → BitVec 6
  | .reg n => BitVec.ofNat 6 n.val | .imm _ => 53#6
def LCount.imm16 : LCount → BitVec 16
  | .reg _ => 0#16 | .imm k => k
def VSrc.code : VSrc → BitVec 6
  | .v n => BitVec.ofNat 6 n.val | .o n => BitVec.ofNat 6 (32 + n.val) | .l n => BitVec.ofNat 6 (40 + n.val)
  | .lq n => BitVec.ofNat 6 (44 + n.val) | .none => 52#6
def VDst.code : VDst → BitVec 6
  | .v n => BitVec.ofNat 6 n.val | .o n => BitVec.ofNat 6 (32 + n.val) | .sq n => BitVec.ofNat 6 (48 + n.val) | .none => 52#6
def LqDst.code : LqDst → BitVec 6
  | .lq n => BitVec.ofNat 6 (44 + n.val) | .none => 52#6
def lqCode (n : Fin 4) : BitVec 6 := BitVec.ofNat 6 (44 + n.val)
def sqCode (n : Fin 4) : BitVec 6 := BitVec.ofNat 6 (48 + n.val)
def predCode (n : Fin 8) : BitVec 6 := BitVec.ofNat 6 (56 + n.val)
def finCode (k : Fin n) : BitVec 6 := BitVec.ofNat 6 k.val
def bitCode (b : Bool) : BitVec 6 := if b then 1#6 else 0#6
def bit3 (b : Bool) : BitVec 6 := if b then 8#6 else 0#6
def Ty.code : Ty → BitVec 3
  | .f32 => 0 | .bf16 => 1 | .f16 => 2 | .e4m3 => 3 | .e5m2 => 4 | .s32 => 5 | .s16 => 6 | .s8 => 7
def Rnd.code : Rnd → BitVec 2
  | .rn => 0 | .rz => 1 | .rd => 2 | .ru => 3
def mkMd (t : Ty) (r : Rnd) (s : Bool) : BitVec 6 := t.code ++ r.code ++ BitVec.ofBool s
def amdCode (m : AMd) : BitVec 6 := mkMd (match m.ty with | .f32 => .f32 | .s32 => .s32) m.rnd m.sat
def RedOp.code : RedOp → BitVec 6
  | .add => 0 | .max => 1 | .min => 2
def Cond.code : Cond → BitVec 3
  | .eq => 0 | .ne => 1 | .lt => 2 | .ge => 3 | .ltu => 4 | .geu => 5 | .tst => 6
def LTy.code : LTy → BitVec 4
  | .s8 => 0 | .n8 => 1 | .s16 => 2 | .n16 => 3 | .s32 => 4 | .n32 => 5 | .s64 => 6
def STy.code : STy → BitVec 4
  | .s8 => 0 | .s16 => 2 | .s32 => 4 | .s64 => 6
def awCode : AW → BitVec 6
  | .w32 => 0x20#6 | .w64 => 0x30#6
def Stor.code (s : Stor) : BitVec 6 := bitCode s.sp ||| (bitCode s.dev <<< 1) ||| (bitCode s.rem <<< 2)
def keep2Code (a b : Bool) : BitVec 6 := bitCode a ||| (bitCode b <<< 1)
def MSel.code1 : MSel → BitVec 6
  | .all => 8#6 | .tile n _ => BitVec.ofNat 6 n.val
def MSel.code2 : MSel → BitVec 6
  | .all => 0#6 | .tile _ c => c.code

def packN (d s1 s2 s3 s4 md : BitVec 6) : BitVec 36 := d ++ s1 ++ s2 ++ s3 ++ s4 ++ md
def packI (d s1 : BitVec 6) (imm : BitVec 24) : BitVec 36 := d ++ s1 ++ imm

/-- The opcode and payload of an instruction, from the same encoding tables (R58, R64, R114, R151, R195); an event has
none. -/
def encodeOp : Instr → Option (BitVec 8 × BitVec 36)
  | .nop => some (0x00, packN 0 0 0 0 0 0)
  | .go => some (0x01, packN 0 0 0 0 0 0)
  | .br off => some (0x02, 52#6 ++ off)
  | .call d off => some (0x03, d.code ++ off)
  | .jmp d s1 => some (0x04, packN d.code s1.code 0 0 0 0)
  | .loop c body => some (0x05, c.code ++ body ++ c.imm16)
  | .breakl => some (0x06, packN 0 0 0 0 0 0)
  | .lidx d n rem => some (0x07, packN d.code (finCode n) 0 0 0 (bitCode rem))
  | .trap imm => some (0x08, packI 0 0 imm)
  | .end_ => some (0x09, packN 0 0 0 0 0 0)
  | .yield => some (0x0A, packN 0 0 0 0 0 0)
  | .rds d n => some (0x0B, packI d.code 0 (0#12 ++ n))
  | .wrs n s1 => some (0x0C, packI 0 s1.code (0#12 ++ n))
  | .cpoint => some (0x0D, packN 0 0 0 0 0 0)
  | .add d s1 s2 => some (0x10, packN d.code s1.code s2.code 0 0 0)
  | .sub d s1 s2 => some (0x11, packN d.code s1.code s2.code 0 0 0)
  | .addi d s1 imm => some (0x12, packI d.code s1.code imm)
  | .mul d s1 s2 => some (0x13, packN d.code s1.code s2.code 0 0 0)
  | .mulh u d s1 s2 => some (0x14, packN d.code s1.code s2.code 0 0 (bitCode u))
  | .div u d s1 s2 => some (0x15, packN d.code s1.code s2.code 0 0 (bitCode u))
  | .rem u d s1 s2 => some (0x16, packN d.code s1.code s2.code 0 0 (bitCode u))
  | .and d s1 s2 => some (0x17, packN d.code s1.code s2.code 0 0 0)
  | .or d s1 s2 => some (0x18, packN d.code s1.code s2.code 0 0 0)
  | .xor d s1 s2 => some (0x19, packN d.code s1.code s2.code 0 0 0)
  | .andi d s1 imm => some (0x1A, packI d.code s1.code imm)
  | .ori d s1 imm => some (0x1B, packI d.code s1.code imm)
  | .xori d s1 imm => some (0x1C, packI d.code s1.code imm)
  | .shl d s1 s2 => some (0x1D, packN d.code s1.code s2.code 0 0 0)
  | .shr d s1 s2 => some (0x1E, packN d.code s1.code s2.code 0 0 0)
  | .sha d s1 s2 => some (0x1F, packN d.code s1.code s2.code 0 0 0)
  | .limm d imm => some (0x20, packI d.code 0 imm)
  | .lhi d s1 value sel => some (0x21, packI d.code s1.code (0#6 ++ BitVec.ofNat 2 sel.val ++ value))
  | .min u d s1 s2 => some (0x22, packN d.code s1.code s2.code 0 0 (bitCode u))
  | .max u d s1 s2 => some (0x23, packN d.code s1.code s2.code 0 0 (bitCode u))
  | .clz d s1 => some (0x24, packN d.code s1.code 0 0 0 0)
  | .popc d s1 => some (0x25, packN d.code s1.code 0 0 0 0)
  | .sel d s1 s2 p => some (0x26, packN d.code s1.code s2.code (predCode p) 0 0)
  | .mad d s1 s2 s3 => some (0x27, packN d.code s1.code s2.code s3.code 0 0)
  | .cmp c p s1 s2 => some (0x28, packN (predCode p) s1.code s2.code 0 0 (0#3 ++ c.code))
  | .cmpi c p s1 imm => some (0x29, packI (predCode p) s1.code (imm ++ c.code))
  | .mov d s1 => some (0x2A, packN d.code s1.code 0 0 0 0)
  | .bfx sx d s1 pos w1 => some (0x2B, packN d.code s1.code 0 (finCode pos) (finCode w1) (bitCode sx))
  | .bfi d s1 s2 pos w1 => some (0x2C, packN d.code s1.code s2.code (finCode pos) (finCode w1) 0)
  | .pand pd ps1 ps2 => some (0x30, packN (predCode pd) (predCode ps1) (predCode ps2) 0 0 0)
  | .por pd ps1 ps2 => some (0x31, packN (predCode pd) (predCode ps1) (predCode ps2) 0 0 0)
  | .pxor pd ps1 ps2 => some (0x32, packN (predCode pd) (predCode ps1) (predCode ps2) 0 0 0)
  | .pnot pd ps1 => some (0x33, packN (predCode pd) (predCode ps1) 0 0 0 0)
  | .pset pd s1 imm => some (0x34, packI (predCode pd) s1.code imm)
  | .pany pd ps1 => some (0x35, packN (predCode pd) (predCode ps1) 0 0 0 0)
  | .pcnt d ps1 => some (0x36, packN d.code (predCode ps1) 0 0 0 0)
  | .pfirst d ps1 => some (0x37, packN d.code (predCode ps1) 0 0 0 0)
  | .vadd d s1 s2 m => some (0x40, packN d.code s1.code s2.code 0 0 (mkMd m.ty m.rnd m.sat))
  | .vsub d s1 s2 m => some (0x41, packN d.code s1.code s2.code 0 0 (mkMd m.ty m.rnd m.sat))
  | .vmul d s1 s2 m => some (0x42, packN d.code s1.code s2.code 0 0 (mkMd m.ty m.rnd m.sat))
  | .vfma d s1 s2 s3 m => some (0x43, packN d.code s1.code s2.code s3.code 0 (mkMd m.ty m.rnd m.sat))
  | .vfms d s1 s2 s3 m => some (0x44, packN d.code s1.code s2.code s3.code 0 (mkMd m.ty m.rnd m.sat))
  | .vmin d s1 s2 t => some (0x45, packN d.code s1.code s2.code 0 0 (mkMd t .rn false))
  | .vmax d s1 s2 t => some (0x46, packN d.code s1.code s2.code 0 0 (mkMd t .rn false))
  | .vabs d s1 t sat => some (0x47, packN d.code s1.code 0 0 0 (mkMd t .rn sat))
  | .vneg d s1 t sat => some (0x48, packN d.code s1.code 0 0 0 (mkMd t .rn sat))
  | .vcmp pd s1 s2 c t => some (0x49, packN (predCode pd) s1.code s2.code (finCode c) 0 (mkMd t .rn false))
  | .vsel d s1 s2 p => some (0x4A, packN d.code s1.code s2.code (predCode p) 0 0)
  | .vand d s1 s2 => some (0x4B, packN d.code s1.code s2.code 0 0 0)
  | .vor d s1 s2 => some (0x4C, packN d.code s1.code s2.code 0 0 0)
  | .vxor d s1 s2 => some (0x4D, packN d.code s1.code s2.code 0 0 0)
  | .vshl d s1 s2 t sat => some (0x4E, packN d.code s1.code s2.code 0 0 (mkMd t .rn sat))
  | .vshr u d s1 s2 t rnd => some (0x4F, packN d.code s1.code s2.code 0 0 (mkMd t rnd u))
  | .vcvt d s1 src part m => some (0x50, packN d.code s1.code (0#3 ++ src.code) (finCode part) 0 (mkMd m.ty m.rnd m.sat))
  | .vbcast d s1 t => some (0x51, packN d.code s1.code 0 0 0 (mkMd t .rn false))
  | .viota d s1 s2 t sat => some (0x52, packN d.code s1.code s2.code 0 0 (mkMd t .rn sat))
  | .vmov d s1 => some (0x53, packN d.code s1.code 0 0 0 0)
  | .vshape rows cols => some (0x54, packI 0 0 (0#11 ++ rows ++ 0#2 ++ cols))
  | .vtrn d s1 => some (0x55, packN d.code s1.code 0 0 0 0)
  | .vrot row d s1 s2 => some (0x56, packN d.code s1.code s2.code 0 0 (bitCode row))
  | .vred op d s1 m => some (0x57, packN d.code s1.code op.code 0 0 (mkMd m.ty m.rnd m.sat))
  | .vscan op d s1 m => some (0x58, packN d.code s1.code op.code 0 0 (mkMd m.ty m.rnd m.sat))
  | .vdot d s1 s2 s3 m => some (0x59, packN d.code s1.code s2.code s3.code 0 (mkMd m.ty m.rnd m.sat))
  | .vperm d s1 s2 => some (0x5A, packN d.code s1.code s2.code 0 0 0)
  | .vins d s1 s2 s3 => some (0x5B, packN d.code s1.code s2.code s3.code 0 0)
  | .vext d s1 s2 => some (0x5C, packN d.code s1.code s2.code 0 0 0)
  | .vclass d s1 t => some (0x5D, packN d.code s1.code 0 0 0 (mkMd t .rn false))
  | .vscale d s1 s2 m => some (0x5E, packN d.code s1.code s2.code 0 0 (mkMd m.ty m.rnd m.sat))
  | .vtf d s1 conv part rnd => some (0x5F, packN d.code s1.code (finCode conv) (finCode part) 0 (mkMd .f32 rnd false))
  | .vtcmp pd s1 s2 c t => some (0x60, packN (predCode pd) s1.code s2.code (finCode c) 0 (mkMd t .rn false))
  | .vfb4d d s1 part m => some (0x61, packN d.code s1.code (finCode part) 0 0 (mkMd m.ty m.rnd m.sat))
  | .vfb4e d s1 part t rnd => some (0x62, packN d.code s1.code (finCode part) 0 0 (mkMd t rnd false))
  | .vtrit d s1 part => some (0x63, packN d.code s1.code (finCode part) 0 0 0)
  | .vtdot d s1 s2 s3 sat => some (0x64, packN d.code s1.code s2.code s3.code 0 (mkMd .s8 .rn sat))
  | .fexp d s1 t sat => some (0x80, packN d.code s1.code 0 0 0 (mkMd t .rn sat))
  | .flog d s1 t sat => some (0x81, packN d.code s1.code 0 0 0 (mkMd t .rn sat))
  | .frcp d s1 t sat => some (0x82, packN d.code s1.code 0 0 0 (mkMd t .rn sat))
  | .frsq d s1 t sat => some (0x83, packN d.code s1.code 0 0 0 (mkMd t .rn sat))
  | .fsqrt d s1 m => some (0x84, packN d.code s1.code 0 0 0 (mkMd m.ty m.rnd m.sat))
  | .fdiv d s1 s2 m => some (0x85, packN d.code s1.code s2.code 0 0 (mkMd m.ty m.rnd m.sat))
  | .ftanh d s1 t sat => some (0x86, packN d.code s1.code 0 0 0 (mkMd t .rn sat))
  | .fsig d s1 t sat => some (0x87, packN d.code s1.code 0 0 0 (mkMd t .rn sat))
  | .fexpq d s1 s2 part => some (0x88, packN d.code s1.code s2.code (finCode part) 0 0x18#6)
  | .vtopk idx d s1 k t => some (0x90, packN d.code s1.code k 0 0 (mkMd t .rn idx))
  | .vtopkm pd s1 k t => some (0x91, packN (predCode pd) s1.code k 0 0 (mkMd t .rn false))
  | .vargmx d s1 t => some (0x92, packN d.code s1.code 0 0 0 (mkMd t .rn false))
  | .topks s1 => some (0x93, packN 0 s1.code 0 0 0 0)
  | .topkd d sel => some (0x94, packN d.code (finCode sel) 0 0 0 0)
  | .ld t d base off => some (0xA0, packI (lqCode d) base.code (t.code ++ off))
  | .ldv d base stride => some (0xA1, packN (lqCode d) base.code stride.code 0 0 0)
  | .st t data base off => some (0xA2, packI data.code base.code (t.code ++ off))
  | .stv base stride data => some (0xA3, packN 0 base.code stride.code (sqCode data) 0 0)
  | .lda t scope d base off => some (0xA4, packI (lqCode d) base.code (t.code ++ BitVec.ofNat 2 scope.val ++ off))
  | .ldg d base => some (0xA5, packN (lqCode d) base.code 0 0 0 0)
  | .pref base off => some (0xA6, packI 0 base.code off)
  | .mark => some (0xA7, packN 0 0 0 0 0 0)
  | .aadd w d addr s2 => some (0xA8, packN d.code addr.code s2.code 0 0 (awCode w))
  | .amin u w d addr s2 => some (0xA9, packN d.code addr.code s2.code 0 0 (awCode w ||| bit3 u))
  | .amax u w d addr s2 => some (0xAA, packN d.code addr.code s2.code 0 0 (awCode w ||| bit3 u))
  | .aor w d addr s2 => some (0xAB, packN d.code addr.code s2.code 0 0 (awCode w))
  | .axch w d addr s2 => some (0xAC, packN d.code addr.code s2.code 0 0 (awCode w))
  | .acas w d addr s2 s3 => some (0xAD, packN d.code addr.code s2.code s3.code 0 (awCode w))
  | .afadd d addr s2 => some (0xAE, packN d.code addr.code s2.code 0 0 0x20#6)
  | .sixcfg meta_ cfg => some (0xB0, packN 0 meta_.code cfg.code 0 0 0)
  | .fence kind scope stor => some (0xB1, packN 0 (finCode kind) (finCode scope) stor.code 0 0)
  | .afence => some (0xB2, packN 0 0 0 0 0 0)
  | .pfence from_ to_ stor scope => some (0xB3, packN 0 (finCode from_) (finCode to_) stor.code (finCode scope) 0)
  | .drain path stor => some (0xB4, packN 0 (finCode path) stor.code 0 0 0)
  | .cflush mem base len => some (0xB5, packN 0 base.code len.code 0 0 (bitCode mem))
  | .cinv base len => some (0xB6, packN 0 base.code len.code 0 0 0)
  | .tlbinv base len scope => some (0xB7, packN 0 base.code len.code (finCode scope) 0 0)
  | .ringcfg k img => some (0xC0, packN (finCode k) img.code 0 0 0 0)
  | .cpy d src dst len => some (0xC1, packN d.code src.code dst.code len.code 0 0)
  | .cpyRing d src len k => some (0xC1, packN d.code src.code 0 len.code 0 (0x20#6 ||| finCode k))
  | .chain ch head => some (0xC2, packN 0 (finCode ch) head.code 0 0 0)
  | .cwait d slot mlo mhi => some (0xC3, packN d.code slot.code mlo.code mhi.code 0 0)
  | .ctest d slot chunk => some (0xC4, packN d.code slot.code chunk.code 0 0 0)
  | .rstat d k sel => some (0xC5, packN d.code (finCode k) (finCode sel) 0 0 0)
  | .rpop k n => some (0xC6, packN 0 (finCode k) n 0 0 0)
  | .bfmt fr fmt => some (0xC7, packN 0 (finCode fr) (finCode fmt) 0 0 0)
  | .mma acc ka kb keepA keepB m => some (0xD0, packN (finCode acc) (finCode ka) (finCode kb) (keep2Code keepA keepB) 0 (amdCode m))
  | .mmaz acc ka kb keepA keepB m => some (0xD1, packN (finCode acc) (finCode ka) (finCode kb) (keep2Code keepA keepB) 0 (amdCode m))
  | .mzero acc => some (0xD2, packN (finCode acc) 0 0 0 0 0)
  | .mldacc acc k keep m => some (0xD3, packN (finCode acc) (finCode k) 0 (bitCode keep) 0 (amdCode m))
  | .mstacc k acc free m => some (0xD4, packN (finCode k) (finCode acc) 0 (bitCode free) 0 (amdCode m))
  | .mdadd acc peer free m => some (0xD5, packN 0 (finCode acc) peer.code (bitCode free) 0 (amdCode m))
  | .mwait d w => some (0xD6, packN d.code w.code1 w.code2 0 0 0)
  | .task rec slot => some (0xD7, packN 0 rec.code (finCode slot) 0 0 0)
  | .mprog d n stop => some (0xD8, packN d.code (finCode n) 0 0 0 (bitCode stop))
  | .evsig name scope => some (0xE0, packN 0 name.code (finCode scope) 0 0 0)
  | .evwait name scope => some (0xE1, packN 0 name.code (finCode scope) 0 0 0)
  | .evtest d name => some (0xE2, packN d.code name.code 0 0 0 0)
  | .evclr name => some (0xE3, packN 0 name.code 0 0 0 0)
  | .barinit bar cnt => some (0xE4, packN 0 bar.code cnt.code 0 0 0)
  | .bararr d bar scope => some (0xE5, packN d.code bar.code (finCode scope) 0 0 0)
  | .barexp bar slot => some (0xE6, packN 0 bar.code slot.code 0 0 0)
  | .barwait d bar ph scope => some (0xE7, packN d.code bar.code ph.code (finCode scope) 0 0)
  | .launch d rec q => some (0xE8, packN d.code rec.code (finCode q) 0 0 0)
  | .cancel d tgt level => some (0xE9, packN d.code tgt.code (finCode level) 0 0 0)
  | .gcnt d tgt level => some (0xEA, packN d.code tgt.code (finCode level) 0 0 0)
  | .qpush val => some (0xEB, packN 0 val.code 0 0 0 0)
  | .qpop d pd => some (0xEC, packN d.code 0 (predCode pd) 0 0 0)
  | .qclose => some (0xED, packN 0 0 0 0 0 0)
  | .graft d src dst => some (0xF0, packN d.code src.code dst.code 0 0 0)
  | .kvwalk d page => some (0xF1, packN (lqCode d) page.code 0 0 0 0)
  | .kvseal d page => some (0xF2, packN d.code page.code 0 0 0 0)
  | .kvcompact d rec => some (0xF3, packN d.code rec.code 0 0 0 0)
  | .ballot d whorl hash => some (0xF4, packN d.code whorl.code hash.code 0 0 0)
  | .whorlOpen d rec => some (0xF5, packN d.code rec.code 0 0 0 0)
  | .whorlClose d rec => some (0xF5, packN d.code rec.code 1 0 0 0)
  | .whorlRing d rec => some (0xF5, packN d.code rec.code 2 0 0 0)
  | .whorlUnring d rec => some (0xF5, packN d.code rec.code 3 0 0 0)
  | .reshard d rec => some (0xF6, packN d.code rec.code 0 0 0 0)
  | .migrAdmit d rec => some (0xF7, packN d.code rec.code 0 0 0 0)
  | .migrHand d rec => some (0xF7, packN d.code rec.code 1 0 0 0)
  | .migrDone d rec => some (0xF7, packN d.code rec.code 2 0 0 0)
  | .migrCancel d rec => some (0xF7, packN d.code rec.code 3 0 0 0)
  | .beamix d tbl perm => some (0xF8, packN d.code tbl.code perm.code 0 0 0)
  | _ => none

/-- The word of a header, an opcode and a payload (R57). -/
def packWord (h : Hdr) (op : BitVec 8) (p : BitVec 36) : W64 :=
  h.gap ++ h.ga ++ h.gb ++ h.gm ++ h.ch ++ op ++ p

/-- The word of an instruction under a header. -/
def encode (h : Hdr) (i : Instr) : Option W64 := (encodeOp i).map fun q => packWord h q.1 q.2

/-- The header of a word with gap, guard and hint 0. -/
def Hdr.zero : Hdr := ⟨0, 0, 0, 0, 0⟩

/-- A header that the opcode of i admits (R57). -/
def Hdr.ok (h : Hdr) (i : Instr) : Bool :=
  h.guardOk && (h.ch == 0#2 || (match encodeOp i with | some q => hintOk q.1 | none => false))

end Sys2Proof
end

