-- ==== Sys2Proof/Machine/State.lean ====
section
/-! DEFINITION. The state of the KL9640 as plain data: the strands (spec/03_core.md R55), the cores, and the package
with Taproot's objects; the outcomes of a step; the state after reset. INVENTORY.md lists every piece with its rule. -/

namespace Sys2Proof.Machine

/-- Byte memory: (address, byte) pairs with strictly rising addresses and no pair holding 0, which is what an unlisted
address reads as (log 2, DESIGN CHOICE, unsafe). -/
abbrev Mem := List Host.Cell

/-- The image of a vector-shaped register: container (i, j) is entry 32i + j (R55). -/
abbrev VReg := List W32

/-- A vector-shaped register of zeros. -/
def VReg.zero : VReg := List.replicate 512 0#32

/-- The trap causes in the order of their codes (R72). -/
inductive Cause where
  | none | illegal | profile | priv | accfirst | pageLoad | align | eccUncorr | watchdog | trap | queue | bar | event
deriving DecidableEq, Repr

/-- One level of a loop stack (R87). -/
structure Loop where
  start : PC
  body : BitVec 14
  rem : BitVec 32
  idx : BitVec 32
deriving DecidableEq, Repr

/-- A sequencer (R54, R55, R72). -/
structure Seq where
  regs : List W64          -- a0-a31 or x0-x31; entry 0 is never read (R55)
  preds : List Pred        -- p0-p7; entry 0 is never read: p0 is all ones (R55, R60)
  pc : PC
  loops : List Loop        -- level 0 first
  iters : Nat              -- the iteration count (R248)
  last : Nat               -- cycle of the last issue (R65)
  waitFrom : Option Nat    -- cycle from which an elastic word waits (R66, R248)
  tried : Nat              -- the cycle in which the waiting word was last looked at (log 4)
  atGo : Bool              -- waits at GO (R84)
  started : Bool           -- the first word has issued (R67)
  ended : Bool             -- has executed END (R94)
  trapped : Bool           -- stopped at a trap (R70)
  tcause : Cause           -- the trap record (R72)
  tpc : PC
  tval : W64
  misuse : Option W64      -- pending barrier misuse (R229)
  woken : Bool             -- a wake received for the EVWAIT at pc (R221)
  waiting : Bool           -- its waiter is in the event table (R220)
deriving DecidableEq, Repr

/-- The value of a queue entry: a scalar, or a vector with its shape (R56). -/
inductive QVal where
  | s (v : W64)
  | v (rows cols : Nat) (cs : VReg)
deriving DecidableEq, Repr

/-- A queue entry (R56, R144): landed from cycle `due` on, not landed when `due` is none. -/
structure QEnt where
  id : Nat
  val : QVal
  due : Option Nat
  mark : Option (Cause × W64)
deriving DecidableEq, Repr

/-- Where a result in flight lands (R68). -/
inductive FDest where
  | scal (st : Stream) (n : Fin 32)
  | vec (n : Fin 32)
  | opr (n : Fin 8)
  | last (slot : Fin 4)
  | pred (st : Stream) (n : Fin 8)
  | fpflags | tstat | topk
deriving DecidableEq, Repr

/-- The value of a result in flight. -/
inductive FVal where
  | s (v : W64)
  | p (v : Pred)
  | v (cs : VReg)
deriving DecidableEq, Repr

/-- A result in flight (R68, R416): `left` marks the elements not yet landed; it lands whole at cycle `due`, or when its
answer returns when `due` is none. -/
structure InFlight where
  id : Nat
  dest : FDest
  due : Option Nat
  left : Pred
  val : FVal
deriving DecidableEq, Repr

/-- A chunk of a copy (R164, R165). -/
inductive Chunk where
  | pending | waits | landed | failed (kind : Nat)
deriving DecidableEq, Repr

/-- A copy (R164 to R167): its operands, formats, chunks, and what its conversion raised. -/
structure Copy where
  id : Nat
  src : Nat
  dst : Nat
  len : Nat
  srcFmt : Nat              -- format codes captured at issue (R149)
  dstFmt : Nat
  conv : Bool
  ring : Option (Nat × Nat) -- ring and counted tile of a ring copy
  chunks : List Chunk
  flags : BitVec 5
  nar : Bool
  fb4 : Bool
  trit : Bool
  bar : Option (Nat × Nat)  -- die and barrier it is attached to (R233)
  posted : Bool             -- the post has reached the barrier, which counts its chunks from then on
  cut : Bool                -- a reset of the barrier's die has ended the counting (R238)
  ord : Nat                 -- its place among the issued operations: of a chain's copy, that of the CHAIN (R182)
deriving DecidableEq, Repr

/-- A ring register: image, counters, and the counted tiles that failed or are complete ahead of tail (R160, R165). -/
structure Ring where
  img : W64
  resv : BitVec 32
  tail : BitVec 32
  head : BitVec 32
  failed : List Nat
  complete : List Nat
deriving DecidableEq, Repr

/-- A chain record started by a channel (R169). -/
structure ChainRec where
  addr : Nat
  ctl : W64                 -- the word at 0x18
  copy : Option Copy        -- none for a bad record (kind 5)
  step : Nat                -- steps of its end made: its status written, its own cleared
deriving DecidableEq, Repr

/-- A chain channel (R169, R170). -/
structure Chan where
  id : Nat
  next : Nat
  walking : Bool
  recs : List ChainRec
  held : List W64           -- the words of a ring record that waits for a free tile (R169); empty for none
deriving DecidableEq, Repr

/-- A stream of gather offsets (R157). -/
structure Six where
  id : Nat
  addr : Nat
  count : Nat
  estride : Nat
  runs : Bool
  pos : Nat                 -- the next position (bitmap) or the next word (runs)
  prev : Nat                -- the position before it (runs)
  ready : List Nat          -- the gather queue: offsets produced and not taken, at most 64
deriving DecidableEq, Repr

/-- An endpoint of the strand (R159): the open packet and the status word. -/
structure Ep where
  words : List W64
  status : W64
deriving DecidableEq, Repr

/-- An access path (R181). -/
inductive Path where
  | ls | cpy | mat | gat | grf | col
deriving DecidableEq, Repr

/-- An engine operation named by its record or operands (17, 18). -/
inductive EngOp where
  | graft (src dst : W64)
  | kvseal (page : W64)
  | kvcompact (rec : W64)
  | whorlOpen (rec : W64) | whorlClose (rec : W64) | whorlRing (rec : W64) | whorlUnring (rec : W64)
  | reshard (rec : W64)
  | migrAdmit (rec : W64) | migrHand (rec : W64) | migrDone (rec : W64) | migrCancel (rec : W64)
  | beamix (tbl perm : W64)
deriving DecidableEq, Repr

/-- An operation that has issued and is performed behind issue (R147, R180 to R183, R219, R232, R258, R267, R359). An
entry (queue, id) or a result id says where its answer goes. -/
inductive AccOp where
  | load (q : Fin 4) (ent : Nat) (t : LTy) (va : Nat)
  | loadV (q : Fin 4) (ent : Nat) (va : Nat) (stride : Int) (rows cols : Nat)
  | store (cells : List (Nat × Byte))
  | atom (op : Fin 7) (w64 u : Bool) (va : Nat) (a b : W64) (ret : Option (Fin 4 × Nat))
  | epStore (n : Nat) (lastWord : Bool) (w : W64)
  | epLoad (q : Fin 4) (ent : Nat) (n : Nat)
  | gather (q : Fin 4) (ent : Nat) (six : Nat) (base : Nat) (rows cols : Nat)
  | mark
  | fence (kind : Fin 3) (scope : Fin 4) (stor : Stor)
  | afence
  | pfence (f t : Path) (stor : Stor) (scope : Fin 4)
  | flush (mem inv : Bool) (va len : Nat)
  | tlbinv (va len : Nat) (scope : Fin 3)
  | evsig (name : Nat) (scope : Fin 3)
  | evclr (name : Nat)
  | evtest (name : Nat) (res : Nat)
  | evwait (name : Nat)
  | barinit (die bar cnt : Nat)
  | bararr (die bar : Nat) (scope : Fin 3) (res : Nat)
  | barexp (die bar slot copy : Nat)
  | task (n : Nat)
  | launch (addr : Nat) (q : Fin 16) (res : Nat)
  | cancel (tgt : W64) (level : Fin 5) (res : Nat)
  | gcnt (tgt : W64) (level : Fin 5) (res : Nat)
  | ballot (whorl : W64) (hash : W64) (res : Nat)
  | engine (op : EngOp) (ret : Option (Fin 4 × Nat))
deriving DecidableEq, Repr

/-- A matrix word issued and not completed (R200): the cycle it completes in, once that is known, and the tile of an output
ring that an MSTACC still writes: ring, counted tile, bytes. -/
structure MatWord where
  id : Nat
  due : Option Nat
  out : Option (Nat × Nat × List Byte)
deriving DecidableEq, Repr

/-- A TLB entry (R143, R302). -/
structure TlbEnt where
  slot : Nat
  va : Nat                  -- first address of the page
  size : Nat
  pa : Nat                  -- global physical address of the page (R298)
  key : Nat
  l2only : Bool             -- ca = 1 (R304)
  sro : Bool
  w : Bool
  x : Bool
deriving DecidableEq, Repr

/-- An issued operation: its number in issue order, its stream, whether it has left for another package (R177), and the
translations that a load or a returning atomic was issued with (R143, R308). -/
structure Acc where
  id : Nat
  st : Stream
  op : AccOp
  sent : Bool
  pages : List TlbEnt
  cyc : Nat                 -- the cycle of issue (R225)
deriving DecidableEq, Repr

/-- What a strand is doing (R70, R274, R291). -/
inductive Phase where
  | none | ready | running | stopping | suspended | preempting | stopped | ended
deriving DecidableEq, Repr

/-- A value and its position in the top-k buffer (R137). -/
structure TopEnt where
  val : W32
  idx : W32
deriving DecidableEq, Repr

/-- The operations of a matrix word that is queued behind the unit (R194). -/
inductive CmuWord where
  | zero (acc : Fin 8)
  | dadd (acc : Fin 8) (pkg core : Nat) (tile : Fin 8) (free : Bool) (m : AMd)
deriving DecidableEq, Repr

/-- A committed record of a stage queue (R264, R271): its value, and the strand and operation number whose earlier ls
accesses the commit releases. -/
structure SQRec where
  val : W64
  from_ : Nat
  upto : Nat
deriving DecidableEq, Repr

/-- A strand image (R55, R289). -/
structure Strand where
  h : Nat                   -- the strand handle (R189); 0: no strand
  phase : Phase
  slot : Nat                -- context slot
  ctx : BitVec 16           -- 0x024
  index : BitVec 16         -- 0x021
  unit : BitVec 3           -- 0x022, the stage
  launch : BitVec 32        -- 0x023
  unitNo : Nat              -- the unit of the launch it belongs to (R265)
  kernel : Nat              -- kernel handle
  gi : Bool                 -- declared profiles (R244)
  gm : Bool
  gv : Bool
  iterbound : Nat           -- R240
  spsave : BitVec 32        -- R240
  lastStage : Bool
  a : Seq
  x : Seq
  v : List VReg             -- v0-v31
  o : List VReg             -- o0-o7
  l : List VReg             -- the four slots of the last-result ring
  lpos : Fin 4              -- the slot claimed last (R69)
  lq : List (List QEnt)
  sq : List (List QEnt)
  vshape : BitVec 13        -- rows [12:8], cols [5:0] (R108)
  ashape : BitVec 13        -- as vshape (R153)
  fpflags : BitVec 5        -- R34
  tstat : BitVec 3          -- R35
  topk : W64                -- R137
  topbuf : List TopEnt
  prog : List (Option Nat)  -- the tasks bound to prog0-prog3 (R213)
  pend : List InFlight
  nid : Nat                 -- numbers given to issued operations, entries and results
  acc : List Acc            -- issued and not performed, oldest first
  afences : List Nat        -- AFENCEs that took effect while earlier loads were still out (R183)
  sidelog : List Acc        -- R145
  logFull : Bool            -- suspended because the side log is full (R145)
  rings : List Ring         -- k0-k15
  fr : List (Fin 13)        -- fr0-fr7 (R149)
  slots : List (Option Copy)
  chans : List Chan
  six : List Six            -- the newest first; older ones still have LDGs issued
  eps : List Ep
  wants : Option Nat        -- a page whose translation a stalled word waits for (R143)
  failsVa : Option (Nat × Nat) -- a page whose walk found no usable mapping, and the reason of R309 (R308)
  failsPa : Option (Nat × Nat) -- a page whose walk met an uncorrectable error, and where (R324)
  ringPops : List (Nat × Fin 16 × Nat)  -- heads the matrix unit will advance: cycle, ring, tiles (R197)
  matIds : List MatWord     -- in issue order (R200)
  refusals : Nat            -- the refusal count with the strand's image (R202)
  arrivals : List Nat       -- arrival counts with the strand's image (R202)
  spill : Option (BitVec 8 × List (Nat × List W32)) -- spilled live mask and tiles (R191)
  record : Option (W64 × Bool) -- the record held, and whether a QCLOSE has already counted it (R264)
  queuePushed : List SQRec  -- uncommitted pushes (R264)
  reported : Bool           -- QPOP has reported pd = 0 (R272)
  withdrawn : Bool          -- withdrawn at its QPOP (R275)
  closed : Bool             -- has executed QCLOSE (R272)
  preempt : Bool            -- a pre-emption is pending (R95, R290)
  cancelled : Bool          -- a cancel covers the strand (R96, R270)
  cancelEnd : Bool          -- it ended as cancelled
  parked : Bool             -- stopped by a park (R278)
  parkAt : Nat              -- where it is parked (R279): 1 QPOP, 2 EVWAIT, 3 LAUNCH, 4 + k a pop of load queue k
  request : Nat             -- the request its work is bound to, 0 for none (17)
  replay : Option (W64 × Bool) -- the record that its first QPOP returns after a die reset, and whether it has counted (R277)
  doneTo : Nat              -- the operations before this number belong to iterations that count as completed (R269)
  since : Nat               -- the cycle it was placed in (R384)
  slice : Nat               -- the cycle it was placed or resumed in (R290)
  core : Nat                -- the core it runs on, or ran on last
  readyAt : Nat             -- its place in the order of becoming ready, 0 while none is given (R276)
  spimage : Mem             -- the scratchpad bytes its image holds (R289)
  spBad : List Nat          -- the poisoned lines among them (R26)
deriving DecidableEq, Repr

/-- A walk-cache entry: the table a walk reached at a level (R307). -/
structure WalkEnt where
  slot : Nat
  level : Nat
  tag : Nat                 -- the address bits above the level's index
  table : Nat
deriving DecidableEq, Repr

/-- An instruction-cache line of 256 bytes (R249): 32 words of a context's address space. -/
structure ILine where
  slot : Nat
  line : Nat                -- virtual address / 256
  pinned : Bool
  poisoned : Bool
  words : List W64
deriving DecidableEq, Repr

/-- A partial of an update-only line (R156). -/
structure UPart where
  off : Nat                 -- byte in the line
  op : Fin 7
  w64 : Bool
  u : Bool
  val : W64
deriving DecidableEq, Repr

/-- An update-only line: local physical line address / 64 and its partials. -/
structure ULine where
  line : Nat
  key : Nat                 -- the key slot of its page (R305)
  parts : List UPart
  by_ : List (Nat × Nat × Nat) -- whose updates it holds: context slot, strand, virtual address (R323)
deriving DecidableEq, Repr

/-- A core (R54, R75, R188). -/
structure Core where
  num : Nat
  cyc : Nat                 -- cycles since die reset; the register shows it modulo 2^64
  runs : Nat                -- handle of the strand it runs, 0 for none
  scratch : Mem
  padBad : List Nat         -- poisoned 64-byte lines of the scratchpad (R26)
  tlb : List TlbEnt
  icache : List ILine
  upd : List ULine
  accownValid : Bool
  accownHold : Nat
  accownCtx : BitVec 16
  acclive : BitVec 8
  tiles : List (List W32)   -- acc0-acc7, element (i, j) at 32i + j
  arrivals : List Nat       -- R202
  refusals : Nat
  feedEnd : Nat             -- the cycle in which the unit has fed its word (R194)
  cmuq : List (Nat × CmuWord) -- the wait queue, with the words' numbers
  credits : List (Nat × Nat)  -- launch credits per context slot (R257)
  scratchCtx : Nat          -- the context whose strands wrote the scratchpad (R292), 0 for none
  throttle : Nat            -- no elastic word starts before this cycle (R21)
deriving DecidableEq, Repr

/-- A compute die: in reset or not, its TLB and walk cache, its link (R15, R143, R307, R331). -/
structure Die where
  up : Bool
  tlb : List TlbEnt
  walks : List WalkEnt
  live : BitVec 48          -- dlstat.live
  retired : BitVec 48       -- modules retired until cold reset (R14)
  state : Nat               -- dlstat.state
  reason : Nat              -- dlstat.reason
  quar : Nat                -- dlstat.quar
deriving DecidableEq, Repr

/-- The states of a launch, in the order of their codes from 1 (R254), which request and task states do not share. -/
inductive LState where
  | pending | ready | running | done | cancelled | refused
deriving DecidableEq, Repr

/-- A stage queue (R263, R264): committed records, oldest first, and whether it has been closed. -/
structure StageQ where
  recs : List SQRec
  closed : Bool
deriving DecidableEq, Repr

/-- A unit of a launch (R264 to R266, R270, R274, R275). -/
structure UnitSt where
  nextIndex : Nat           -- strand indices given out
  completed : Nat           -- records completed
  cancelled : Bool
  complete : Bool
  offered : Bool            -- an offer made and not yet placed
deriving DecidableEq, Repr

/-- A launch (R254, R255, R263). -/
structure Launch where
  id : Nat
  order : Nat               -- acceptance number of the context
  q : Nat
  handle : Nat
  addr : Nat                -- the record
  waits : List Nat          -- wait events not yet signalled
  sig : Bool
  done : Nat
  count : Nat
  insize : Nat
  inbase : Nat
  job : Nat
  phase : Nat
  graph : Nat
  maxcores : Nat
  state : LState
  inStore : Bool            -- in the store, else in the overflow area (R256)
  place : Nat               -- its place in the overflow area
  cls : Nat                 -- the class it started with (R251)
  aged : Bool               -- READY for longer than its class's limit (R259)
  handed : Nat              -- input records handed out (R263)
  sqs : List StageQ
  units : List UnitSt
  request : Nat             -- the request it is bound to (R348)
  cycles : Nat              -- cycles its strands have held cores (R384)
  acqFrom : Nat             -- finish order, for R268's 65,536 (0 while held)
deriving DecidableEq, Repr

/-- A launch queue of a context (R251, R259). -/
structure LQueue where
  weight : Nat
  cls : Nat
  state : Nat
  cur : Int
deriving DecidableEq, Repr

/-- A stage of a loaded kernel (R240). -/
structure StageD where
  aoff : Nat
  awords : Nat
  xoff : Nat
  xwords : Nat
  iterbound : Nat
  spsave : BitVec 32
  rows : Nat
  cols : Nat
  qdepth : Nat
  rings : List W64
deriving DecidableEq, Repr

/-- A loaded kernel (R245). -/
structure Kernel where
  handle : Nat
  va : Nat
  objsize : Nat
  gi : Bool
  gm : Bool
  gv : Bool
  stages : List StageD
  pins : List Nat           -- pinned lines, virtual address / 256
  perms : List (Nat × W64)  -- leaves made read-only: an address that the leaf maps and its earlier value (R246)
  pinDies : BitVec 8        -- dies on whose cores its pins are in force, those out of the mask included (R294)
deriving DecidableEq, Repr

/-- A launch record on its way to acceptance (R257, R258, R346): from a LAUNCH word, whose strand and result it names, or
from the request sequencer. -/
structure Submit where
  n : Nat
  slot : Nat
  addr : Nat
  q : Nat
  askedBy : Option (Nat × Nat)
  core : Nat                -- the core whose credit it spent
  req : Nat                 -- the request, 0 for none
  decode : Bool
  refused : Bool            -- firmware has refused the record's page
deriving DecidableEq, Repr

/-- A graph, phase or job counter (R268): the key has one entry for a job, two for a phase, three for a graph. -/
structure Counter where
  key : List Nat
  accepted : Nat
  ended : Nat
deriving DecidableEq, Repr

/-- Who waits for an event (R215). -/
inductive Waiter where
  | strand (h : Nat) (st : Stream)
  | task (n : Nat)
  | launch (slot id : Nat)
  | firmware
deriving DecidableEq, Repr

/-- An event that is SET or has waiters (R215, R216); any other event is CLEAR. -/
structure EvEnt where
  name : Nat
  set : Bool
  waiters : List Waiter
  spilled : Bool            -- held in the overflow area
deriving DecidableEq, Repr

/-- A shard record (R387); the demands for slots of the context that are still to be rebuilt are the model's own (R391). -/
structure Shard where
  m : List Nat              -- m0 to m8
  gstate : Nat
  lost : BitVec 9
  lane : Nat
  spare : Nat
  sbase : Nat
  nslot : Nat
  psize : Nat
  swept : Nat
  ahead : List Nat          -- slots of the lost lane rebuilt on demand, ahead of the sweep (R391)
  demand : List Nat         -- slots whose page has failed, to be rebuilt in place (R390, R391)
deriving DecidableEq, Repr

/-- A context (R280 to R288). -/
structure Ctx where
  slot : Nat
  num : Nat
  state : Nat               -- 1 ACTIVE, 2 PAUSED, 3 FAULTED, 4 DESTROYING (R283); FREE slots are not listed
  words : List W64          -- the creation record (R281)
  bankkey : BitVec 32
  evq : Nat
  lsq : Nat
  tqb : Nat
  tqm : Nat
  nbar : Nat
  dies : BitVec 8
  c0 : Bool
  shardOn : Bool
  parkEn : Bool             -- R278
  parkThr : Nat
  queues : List LQueue
  kernels : List Kernel
  ctr : Nat                 -- the launch counter (R254)
  accepted : Nat
  finished : Nat
  launches : List Launch    -- in the order of acceptance
  counters : List Counter
  events : List EvEnt
  evOverCap : Nat           -- records the event overflow area can hold
  images : List (Nat × Nat × Nat) -- image slots held: strand handle, offset in the image area and size in KiB (R288)
  creditWait : List Nat     -- cores in the order their LAUNCH words began to wait (R257)
deriving DecidableEq, Repr

/-- A barrier that is allotted (R223, R224); the others are FREE. -/
structure Bar where
  die : Nat
  slot : Nat
  index : Nat               -- the context's index on that die
  active : Bool             -- ACTIVE, else IDLE
  phase : BitVec 32
  count : Nat
  arr : Nat
  pf : Bool
  lastf : Bool
  exp : Nat
  saved : Bool              -- saved by firmware while its die is out of the context's mask (R294)
deriving DecidableEq, Repr

/-- The states of a tile task, in the order of their codes from 1 (R206). -/
inductive TState where
  | pending | ready | running | stopping | stopped | done | failed | cancelled
deriving DecidableEq, Repr

/-- What a unit writes in its write phase (R208, R369): rows of bytes, empty bits from a bit number on, and score adds, each with the
address of its entry; and what its arithmetic raised. -/
structure UnitOut where
  rows : List (Nat × List Byte)
  empties : Nat × List Bool
  adds : List (Nat × W32)
  flags : BitVec 5
  tstat : BitVec 3
deriving DecidableEq, Repr

/-- A unit dispatched to an array (R208): what it has computed, from which on it is in its write phase (R212, R369), and whether it
has made its writes, whose answers it waits for. -/
structure TaskUnit where
  unit : Nat
  array : Nat
  out : Option UnitOut
  wrote : Bool
  waits : Bool              -- firmware has been asked about a page that it reads or writes (R212)
  rows : List Byte          -- activation rows taken from a feeder ring (R208)
deriving DecidableEq, Repr

/-- A tile task (R205 to R212, R366). -/
structure Task where
  n : Nat
  slot : Nat
  strand : Nat
  launch : Nat
  unit : Nat                -- the unit of the launch that issued it
  request : Nat
  cls : Nat
  addr : Nat
  words : List W64          -- the record as read; empty until then
  state : TState
  queued : Bool             -- in the task queue, else in the overflow list (R210)
  waits : List Nat
  next : Nat                -- the next unit to dispatch
  redo : List (Nat × List Byte) -- units that a die reset interrupted, with the rows they were fed (R212)
  prog : Nat
  doneUnits : List Nat      -- completed beyond the prefix
  running : List TaskUnit
  failKind : Nat            -- kind of the first failure, 0 for none
  flags : BitVec 5
  nar : Bool
  fb4 : Bool
  trit : Bool
  array : Nat
  tiles : Nat
  kcyc : Nat                -- array cycles used
deriving DecidableEq, Repr

/-- A frame record (R312); one that is FREE keeps what firmware wrote and its poison. -/
structure Frame where
  dirty : BitVec 512
  poison : BitVec 512
  ref : Nat
  rslot : Nat
  owner : Nat
  lock : Bool
  rmap : Bool
  mstate : Nat
  backing : Nat
  bv : Bool
deriving DecidableEq, Repr

/-- The migration requests (R314). -/
inductive MigOp where
  | promote | evict | move | release | clean
deriving DecidableEq, Repr

/-- A migration request that waits for a frame's lock or runs (R314 to R319). -/
structure Mig where
  op : MigOp
  slot : Nat
  va : Nat
  target : Nat              -- global physical address
  old : Nat                 -- local physical address of the page at its old home
  size : Nat
  copied : Nat              -- lines moved (COPYING, FORWARDING)
  started : Bool
  back : Bool               -- aborted: its moved lines go back (R324)
  out : Option (List Byte)  -- the line on its way to another package
  pass : Nat                -- write-down passes begun (R319)
  todo : BitVec 512         -- granules left in the pass
  key : Nat                 -- the key slot of the page (R305)
  words : List W64          -- the request record (R314)
deriving DecidableEq, Repr

/-- The agent a fault report names (R309). -/
inductive Agent where
  | strand (h : Nat) (st : Stream)
  | sidelog (h : Nat)
  | copy (h slot chunk : Nat)
  | chainCopy (h ch rec chunk : Nat)
  | chain (h ch : Nat)
  | task (n : Nat)
  | launch (h id : Nat)
  | engine (h id : Nat)
  | held (n : Nat)
deriving DecidableEq, Repr

/-- The kinds of access (R309). -/
inductive AKind where
  | read | write | fetch | atomic
deriving DecidableEq, Repr

/-- A fault report that waits for firmware's answer (R309). -/
structure FaultRep where
  slot : Nat
  agent : Agent
  va : Nat
  kind : AKind
  reason : Nat
  stream : Option Stream    -- the stream of a strand's access
deriving DecidableEq, Repr

/-- A shootdown that waits for other packages (R310, R318), of a range of the context's addresses when firmware runs it. -/
structure Shoot where
  slot : Nat
  lo : Nat
  hi : Nat
  frame : Nat               -- a frame that other packages map
  acks : List Nat
  req : Nat                 -- the firmware request it serves, 0 for none
deriving DecidableEq, Repr

/-- A port (R329, R330). -/
structure Port where
  errthr : BitVec 8
  en : Bool
  peer : BitVec 10
  lanes : BitVec 8
  quar : BitVec 8
  reason : Nat
  state : Nat               -- 0 DOWN, 1 TRAINING, 2 UP, 3 DEGRADED, 4 QUARANTINED, 5 RETIRED
  rmgmt : Nat
  rbulk : Nat
  rreply : Nat
  rreq : Nat
  rc0 : Nat
  replays : BitVec 32
  fec : BitVec 32
  gone : BitVec 8           -- lanes retired until cold reset
deriving DecidableEq, Repr

/-- A routing-table entry (R332); `fwAlt` and `fwMin` keep the bits as firmware wrote them (R344). -/
structure Route where
  altok : BitVec 8
  minok : Bool
  minport : Nat
  via : Nat
  alts : List (BitVec 16)
  fwAlt : BitVec 8
  fwMin : Bool
deriving DecidableEq, Repr

/-- A scope-table entry (R340): addresses in units of 2 MiB. One that is not listed holds zeros. -/
structure Scope where
  v : Bool
  base : Nat
  lim : Nat
  perm : BitVec 3
  srclo : Nat
  srchi : Nat
deriving DecidableEq, Repr

/-- A receive queue (R343). -/
structure Rxq where
  rbase : W64
  cons : W64
  ev : Nat
  slot : Nat
  nslot : Nat
  v : Bool
  prod : Nat
deriving DecidableEq, Repr

/-- Who waits for a packet's answer: an access of a strand, an endpoint, a chunk of a copy, an MDADD, an engine's object, a
packet from another package that a migrated page forwards (R317), a writer of a moved line whose copy under the old address is to go
(R338), or no one. -/
inductive Asker where
  | acc (h id : Nat)
  | ep (h n : Nat)
  | chunk (h id c : Nat)
  | mdadd (n : Nat)
  | eng (obj : Nat)
  | fwd (src core cls seq : Nat)
  | moved (home : Nat)
  | none
deriving DecidableEq, Repr

/-- A packet sent and not acknowledged (R335). -/
structure Sent where
  pkt : Packet
  asker : Asker
  tries : Nat
deriving DecidableEq, Repr

/-- A flow at its source (R334, R335). -/
structure Flow where
  src : Nat
  dst : Nat
  cls : Nat
  seq : BitVec 16
  path : Option (Option Nat) -- the flowlet's path: an alternate, or none of them for the minimal one; none while no path is usable
  count : Nat               -- packets sent
  anew : Bool               -- the next packet is a restart: the flow's first, or the first after packets given up
  sent : List Sent
deriving DecidableEq, Repr

/-- An answer that waits for the packages that held copies of a written range (R338). -/
structure Owed where
  seq : BitVec 16
  ans : FlowAns
  pa : Nat
  n : Nat
deriving DecidableEq, Repr

/-- A flow at its destination (R335): the number expected next, the answers given and those that wait. -/
structure FlowIn where
  src : Nat
  core : Nat
  cls : Nat
  expect : BitVec 16
  answers : List (BitVec 16 × FlowAns)
  owed : List Owed
  part : List W32           -- the elements of a tile that have arrived (R201)
deriving DecidableEq, Repr

/-- What is performed with release at .sys (R211, R255, R343): an event signalled, or a packet whose slot of a receive queue has been
written delivered. It waits until the writes made before it are visible everywhere. -/
inductive Late where
  | signal (slot name : Nat)
  | deliver (rxq : Nat)
deriving DecidableEq, Repr

/-- What leaves the package: a packet out of a port (R333). -/
inductive Emit where
  | fwd (port : Nat) (pkt : Packet)
deriving DecidableEq, Repr

/-- A line of the remote cache (R177): its global physical address and bytes. -/
structure RLine where
  pa : Nat
  data : List Byte
deriving DecidableEq, Repr

/-- A tile on its way to a peer (R201). -/
structure DAdd where
  n : Nat
  h : Nat
  id : Nat
  ctx : BitVec 16
  core : Nat                -- sender core
  pkg : Nat
  peer : Nat
  tile : Fin 8
  m : AMd
  data : List W32
deriving DecidableEq, Repr

/-- The states of a request, in the order of their codes from 1 (R345). -/
inductive RState where
  | admitted | prefill | handoff | decode | done | cancelled | restarting
deriving DecidableEq, Repr

/-- A held request (R345 to R349). -/
structure Req where
  handle : Nat
  slot : Nat
  recVa : Nat
  state : RState
  owner : Nat
  restarts : Nat
  pblocks : Nat
  ready : Nat
  pq : Nat
  dq : Nat
  srchead : Nat
  dsthead : Nat
  srcfree : Nat
  dstfree : Nat
  pre : Nat                 -- launch id of the prefill launch, 0 for none
  dec : Nat
  ending : Bool             -- waits for its launches to end before it restarts (R349)
  inPrefill : Bool          -- whether it was in PREFILL or HANDOFF when it was ended
deriving DecidableEq, Repr

/-- A block or a run on its way, as it was read at its source, with the CRC-32C taken there (R376). -/
structure Flight where
  data : List Byte
  crc : BitVec 32
deriving DecidableEq, Repr

/-- A GRAFT transfer (R363, R356). -/
structure Graft where
  h : Nat
  id : Nat
  slot : Nat
  req : Nat
  blk : Nat
  src : Nat
  dst : Nat
  flight : Option Flight    -- the block as it was read at the source
  again : Bool              -- the block has been sent a second time (R376)
  begun : Bool              -- it has begun to write its destination
  landed : Bool             -- its writes are under way
deriving DecidableEq, Repr

/-- A write that an engine makes, in an order that it keeps (R354, R355, R388, R414): bytes; a page released, its state
marked or not, and the mark itself; its address put into a free ring, first the slot, then prod; a chain released; a change of a
parity page; the wait that a release at .sys is; a request's transition, the blocks that become OWNED, the releases of a cancelled
request once its transfers have ended; the losers of a whorl
cancelled (R382); an event signalled; a launch submitted; a status entry landed, and the end of the operation
that it belongs to; a request or a whorl dropped from its table; the tokens of a chain summed and written (R384); the addresses of
a list put into a free ring (R383); the end of writes that belong to no instruction. -/
inductive EngWrite where
  | bytes (va : Nat) (data : List Byte)
  | release (page ring : Nat) (mark : Bool)
  | marked (page ring : Nat)
  | put (page ring : Nat) (slotDone : Bool)
  | state (req : Nat) (st : RState) (owner reason : Nat)
  | own (req : Nat)
  | settle (req : Nat)
  | parity (page : Nat) (img : List Byte) (st : Nat)
  | await
  | chain (head ring : Nat) (mark : Bool) (fuel : Nat)
  | signal (name : Nat)
  | submit (req : Nat) (decode : Bool)
  | land (h id : Nat) (w : W64)
  | gone (h id : Nat) (ent : Option Nat)
  | drop (req : Nat)
  | losers (handle : Nat)
  | dropWhorl (handle : Nat)
  | tokens (va pserial page sum fuel : Nat)
  | list (va n ring : Nat)
  | fin
deriving DecidableEq, Repr

/-- Engine writes held behind a fault or a full free ring (R355, R414), in order. -/
structure Held where
  obj : Nat                 -- the request handle, 2^32 + the whorl handle, or 2^33 + the ring number
  slot : Nat
  todo : List EngWrite
  refused : Bool
  err : Option Nat          -- an address that has stopped it, still to be reported (R414)
deriving DecidableEq, Repr

/-- A sibling of a whorl (R378, R384). -/
structure Sib where
  lid : Nat
  post : Nat
  fin : Nat
  hash : W64
  pserial : Nat
  phead : Nat
deriving DecidableEq, Repr

/-- A held whorl (R377 to R383). -/
structure Whorl where
  handle : Nat
  slot : Nat
  recVa : Nat
  state : Nat               -- 1 OPEN, 2 DECIDED, 3 CLOSED, 4 SETTLED while its last writes are made
  n : Nat
  thr : Nat
  winner : Nat
  counted : Nat
  late : Nat
  whash : W64
  shared : Nat
  nshared : Nat
  done : Nat
  sig : Bool
  free : Nat
  live : Nat
  serial : Nat
  sibs : List Sib
deriving DecidableEq, Repr

/-- A registered sequence-parallel ring (R392 to R394). -/
structure SeqRing where
  n : Nat
  slot : Nat
  recVa : Nat
  state : Nat
  members : Nat
  tmo : Nat
  final : Nat
deriving DecidableEq, Repr

/-- A RESHARD queued at Coppice (R397). -/
structure Reshard where
  h : Nat
  id : Nat
  slot : Nat
  launch : Nat
  recVa : Nat
  bytes : Nat
  flags : BitVec 5
  flight : Option Flight    -- the run as it was read at its source (R376)
  again : Bool              -- the run has been sent a second time
deriving DecidableEq, Repr

/-- A firmware request that has reached Taproot (R284). -/
structure FwReq where
  n : Nat
  host : Bool
  slot : Nat
  at_ : Nat                 -- virtual address of the record in a context ring
  words : List W64
deriving DecidableEq, Repr

/-- The lock block (R20). -/
structure LockBlock where
  lock : Bool
  ceil : BitVec 16
  hbase : W64
  hlim : W64
  egr : List (BitVec 16)    -- lkegr0-31.cap
  dst : List W64            -- lkdst0-15.allow
deriving DecidableEq, Repr

/-- The attestation root and the boot loader (R22). -/
structure Boot where
  runs : Bool               -- the management cores execute verified firmware; else Taproot is in its boot loader
  versions : List W64       -- of the signed images that run
  signed : Nat              -- signatures that the identity key has made (R22)
deriving DecidableEq, Repr

/-- The two weight banks of a Bole array (R204, log 97). -/
structure Banks where
  array : Nat
  current : Bool            -- rows issued now are tagged wb1, else wb0
  loading : Option Bool     -- the bank that is being loaded
  waiting : Bool            -- a load waits until the bank that is not current is writable
  rows0 : Nat               -- rows in the array with the tag of wb0
  rows1 : Nat
deriving DecidableEq, Repr

/-- What Taproot logs and reports to firmware or the host (R19, R22, R24, R26, R145, R250, R295, R314, R323, R331, R339). -/
inductive Report where
  | corrected (storage at_ : Nat)
  | imageRefused (version : W64)
  | attestation (versions : List W64) (lock : LockBlock) (identity : List Byte × List Byte) (sig : List Byte)
  | identitySpent
  | migRecord (words : List W64)
  | icacheFixed (core line : Nat)
  | latent (core slot kernel line pa : Nat)
  | refetched (pa : Nat)
  | discarded (slot h va : Nat)
  | faulted (slot : Nat)
  | ended (h : Nat)
  | exposed (slot : Nat)
  | dieRetired (die : Nat)
  | unreachable (pkg : Nat)
  | linkLost (m n : Nat)
  | requestLimit (handle : Nat)
  | heldRefused (slot obj va : Nat)
  | dmaRefused (addr : Nat)
  | served (n : Nat) (word : W64)
deriving DecidableEq, Repr

/-- The package: Taproot's registers, tables and engines, and the memory (R13, R299). -/
structure Pkg where
  num : Nat                 -- pkg.num (R75)
  boot : Boot
  lock : LockBlock
  numaMode : BitVec 2       -- R18
  numaPend : Bool
  modeReq : Option (Nat × BitVec 2) -- a mode change in progress: its request and mode (R297)
  c0res : List (BitVec 6)   -- R260
  parks : List (Nat × W64)  -- parkctl of the slots that are FREE, where it is not as after reset (R278)
  age3 : BitVec 16
  age2 : BitVec 16
  hrbase : W64              -- R284
  ftbase : W64              -- R312
  mem : Mem                 -- local physical addresses (R299)
  dirtyL2 : List Nat        -- lines (address / 64) whose value has not been written to their tier (R312)
  frames : List (Nat × Frame)
  lostCtl : List Nat        -- lost tier-2 controllers (R324)
  l1Bad : List (Nat × Nat)  -- poisoned lines of L1s: core, global physical address / 64 (R26)
  l2Bad : List Nat          -- poisoned lines of L2 slices (R26, log 60)
  errs : List (Nat × Nat)   -- uncorrectable errors whose requests are to end: strand, address (R323)
  keys : List (Nat × List Byte) -- loaded key slots: 64 bytes, the data key and the tweak key (R305)
  lineKeys : List (Nat × Nat) -- lines that their tier holds encrypted, and the key slot (R305)
  farKeys : List (Nat × Nat) -- key slots that other packages have loaded: package, slot (R303)
  dies : List Die
  engTlb : List TlbEnt      -- R307
  ctxs : List Ctx
  submits : List Submit
  submitNo : Nat
  readyNo : Nat
  bars : List Bar
  tasks : List Task
  taskNo : Nat
  arrays : List (Nat × Nat) -- busy arrays and the task each runs (R208)
  banks : List Banks        -- Bole arrays whose banks are in use (R204)
  faults : List FaultRep
  migs : List Mig
  shoots : List Shoot
  shootNo : Nat             -- numbers the questions which packages map a frame (log 17)
  shootsIn : List (Nat × Nat) -- shootdowns that other packages ask for: package, frame (R310)
  ports : List Port
  fabGap : BitVec 16
  skew : BitVec 16
  routes : List (Nat × Route)
  lostLinks : List (Nat × Nat)
  scopes : List (Nat × Scope)
  rxqs : List (Nat × Rxq)
  shards : List (Nat × Shard) -- shard records, by slot, where they are not as after reset (R387)
  epTab : List (Nat × W64)  -- endpoint tables, the entries written: 16 × slot + endpoint (R341)
  flows : List Flow
  flowsIn : List FlowIn
  rcache : List RLine
  onceLines : List (Asker × RLine) -- lines of pages with ca = 1, each for the one read that asked (R304)
  copiesOut : List (Nat × Nat) -- packages that hold copies of local lines: package, line (R177)
  fwdCopies : List (Nat × Nat × Nat) -- copies of moved lines: package, the line at its old home, the line's new address (R317)
  deadLines : List (Nat × Bool) -- lines that an engine or a copy asked for and could not get: refused, else unreachable (R339)
  emits : List Emit
  dadds : List DAdd
  daddNo : Nat
  reqs : List Req
  reqNo : Nat               -- the request counter (R345)
  grafts : List Graft
  reread : List (Nat × Nat) -- pages whose CRC has failed once and that are read again from their home: slot, address (R375)
  held : List Held
  late : List Late          -- in the order in which they came up
  whorls : List Whorl
  whorlNo : Nat             -- the handle counter (R378)
  seqRings : List SeqRing
  seqNo : Nat
  reshards : List Reshard
  fwreqs : List FwReq
  fwNo : Nat
  reports : List Report
deriving DecidableEq, Repr

/-- What Taproot firmware does outside the events of the opcode table: it stores bytes of memory, a page table or an image that
it loads (R300, R309); gives a frame to an owner, or rewrites its fields (R312); loads or empties a key slot through the
attestation root, and learns which ones another package has loaded (R303, R305); submits a launch record into a queue of a
context (R251, R257); runs a shootdown of its own (R310); writes a migration request (R314). -/
inductive FwWrite where
  | mem (pa : Nat) (data : List Byte)
  | frame (ix owner : Nat) (rmap : Bool)
  | key (n : Nat) (pair : Option (List Byte))
  | farKey (pkg n : Nat) (on : Bool)
  | submit (slot addr : Nat) (q : Fin 16)
  | shootdown (slot va len : Nat) (frames : List Nat)
  | shootEnd (slot : Nat)
  | migrate (words : List W64)
  | message (pkg n : Nat)
deriving DecidableEq, Repr

/-- What the hardware meets beside the events of the opcode table: an error that its storage corrects, in a FEC codeword of a
port or elsewhere; one that it cannot correct in a TLB, a table of Taproot, the scratchpad, an L1 or an L2 (R26); a poisoned line
that leaves an L1; the steps of a weight bank: a load asked for, a swap, a row in and a row out (R204); a firmware image that the
attestation root verifies, and a report that it signs (R22); a byte of a block or run in flight changed (R376); the notice of another
package that the request of a ring's member has ended or its die was reset (R394, log 116); an event whose read of tier 2 fails (R324, log 98). -/
inductive HwEvent where
  | corrected (storage at_ : Nat)
  | fec (port n : Nat)
  | dieTlb (die n : Nat)
  | engTlb (n : Nat)
  | table (slot : Nat)
  | padError (core line : Nat)
  | l1Error (core line : Nat)
  | l1Gone (core line : Nat)
  | l2Error (line : Nat)
  | bankLoad (array : Nat)
  | bankSwap (array : Nat)
  | rowIn (array : Nat)
  | rowOut (array : Nat) (bank : Bool)
  | boot (version : W64) (image sig : List Byte)
  | attest
  | flight (reshard : Bool) (n i : Nat) (x : Byte)
  | member (ring i : Nat)
  | failing (pa : Nat) (lost : Bool) (i : Instr)
deriving DecidableEq, Repr

/-- Which agent acts next (log 1): a word issues on the core in the foreground; an event of the opcode table happens;
another core comes to the foreground; the k-th operation of the strand's access pipeline is performed; element e of the
n-th result in flight lands before its bound (R68); the entry k of a queue lands before its bound (R56); cycles pass; a
TLB entry is replaced; container c of a tile that the k-th matrix word writes lands early, or, past its last container, the
word completes early (R199, R181); the next word of the stream reads a register with an uncorrectable error (R26); the
sparse-index engine produces the next offset of the k-th stream of the strand (R157); Taproot firmware stores (R300, R309);
the hardware meets an error, or does what no event of the table names (R22, R26, R204, R324). -/
inductive Turn where
  | issue
  | event (i : Instr)
  | core (n : Nat)
  | perform (k : Nat)
  | land (n e : Nat)
  | landQ (st : Stream) (q : Fin 4) (k : Nat)
  | tick (n : Nat)
  | tlbDrop (n : Nat)
  | landMat (k c : Nat)
  | eccError (st : Stream) (v : W64)
  | gather (k : Nat)
  | fwStore (w : FwWrite)
  | hw (e : HwEvent)
deriving DecidableEq, Repr

/-- The state of the machine. `strand` is the strand that `core` runs, with handle 0 when it runs none; `strands` and
`cores` are the others; `stream` is the sequencer whose word `ir` is executing (log 4). -/
structure State where
  strand : Strand
  core : Core
  strands : List Strand
  cores : List Core
  pkg : Pkg
  stream : Stream
  ir : W64
  sched : List Turn
deriving DecidableEq, Repr

/-- Why a step stops with a fault. -/
inductive Fault where
  /-- Raised by no step: R303 makes a translation that leads outside the memory of R299 a page fault of the machine itself,
  which the step takes. The name stands for an address that does not exist. Safe. -/
  | noSuchAddress (pa : Nat)
deriving DecidableEq, Repr

/-- Why a step is refused. -/
inductive Refusal where
  /-- Answered by an arm of exec whose instruction has no meaning yet, with its mnemonic. Safe. -/
  | notModelled (mnemonic : String)
deriving DecidableEq, Repr

/-- A sequencer at strand start (R55): every register 0, every predicate but p0 clear. -/
def Seq.start (pc : PC) : Seq :=
  { regs := List.replicate 32 0#64, preds := List.replicate 8 0#512, pc := pc, loops := [], iters := 0, last := 0,
    waitFrom := none, tried := 0, atGo := false, started := false, ended := false, trapped := false, tcause := .none, tpc := 0#56,
    tval := 0#64, misuse := none, woken := false, waiting := false }

/-- A ring register with an image and counters 0 (R160). -/
def Ring.ofImage (img : W64) : Ring :=
  { img := img, resv := 0#32, tail := 0#32, head := 0#32, failed := [], complete := [] }

/-- 16 × 32 in the layout of vshape and ashape (R108, R153). -/
def shape16x32 : BitVec 13 := 0x1020#13

/-- A strand at its start with every field that its placement sets at 0 (R55): no strand while its handle is 0. -/
def Strand.none : Strand :=
  { h := 0, phase := .none, slot := 0, ctx := 0#16, index := 0#16, unit := 0#3, launch := 0#32, unitNo := 0, kernel := 0,
    gi := false, gm := false, gv := false, iterbound := 0, spsave := 0#32, lastStage := true,
    a := Seq.start 0#56, x := Seq.start 0#56,
    v := List.replicate 32 VReg.zero, o := List.replicate 8 VReg.zero, l := List.replicate 4 VReg.zero, lpos := 0,
    lq := List.replicate 4 [], sq := List.replicate 4 [], vshape := shape16x32, ashape := shape16x32,
    fpflags := 0#5, tstat := 0#3, topk := 0#64, topbuf := [], prog := List.replicate 4 Option.none,
    pend := [], nid := 1, acc := [], afences := [], sidelog := [], logFull := false, rings := List.replicate 16 (Ring.ofImage 0#64),
    fr := List.replicate 8 0, slots := List.replicate 16 Option.none,
    chans := List.replicate 4 { id := 0, next := 0, walking := false, recs := [], held := [] },
    six := [], eps := List.replicate 16 { words := [], status := 0#64 },
    wants := Option.none, failsVa := Option.none, failsPa := Option.none, ringPops := [], matIds := [], refusals := 0,
    arrivals := List.replicate 8 0, spill := Option.none, record := Option.none, queuePushed := [], reported := false,
    withdrawn := false, closed := false,
    preempt := false, cancelled := false, cancelEnd := false, parked := false, parkAt := 0, request := 0,
    replay := Option.none, doneTo := 0, since := 0, slice := 0, core := 0, readyAt := 0, spimage := [], spBad := [] }

/-- Core n after its die's reset (R75, R188): tiles 0, no holder; TLB, cache and update-only lines empty (log 3). -/
def Core.start (n : Nat) : Core :=
  { num := n, cyc := 0, runs := 0, scratch := [], padBad := [], tlb := [], icache := [], upd := [], accownValid := false,
    accownHold := 0, accownCtx := 0#16, acclive := 0#8, tiles := List.replicate 8 (List.replicate 1024 0#32),
    arrivals := List.replicate 8 0, refusals := 0, feedEnd := 0, cmuq := [], credits := [], scratchCtx := 0, throttle := 0 }

/-- A compute die in reset, its link DOWN (R20, R331). -/
def Die.start : Die := { up := false, tlb := [], walks := [], live := 0#48, retired := 0#48, state := 0, reason := 0, quar := 0 }

/-- A port after reset (R330). -/
def Port.start : Port :=
  { errthr := 64#8, en := false, peer := 0#10, lanes := 0#8, quar := 0#8, reason := 0, state := 0, rmgmt := 16,
    rbulk := 64, rreply := 128, rreq := 64, rc0 := 32, replays := 0#32, fec := 0#32, gone := 0#8 }

/-- The package after cold reset: the values of R18, R20, R260, R284, R312, R330, R331, R332, R340, R343, R345, R378;
package number 0, empty tables and cleared memory where the spec gives none (log 2, log 3). -/
def Pkg.reset : Pkg :=
  { num := 0, boot := { runs := false, versions := [], signed := 1 },
    lock := { lock := false, ceil := 0x0AF0#16, hbase := 0#64, hlim := 0#64, egr := List.replicate 32 0x00E0#16,
              dst := List.replicate 16 0#64 },
    numaMode := 0#2, numaPend := false, modeReq := none, c0res := List.replicate 8 1#6, parks := [], age3 := 1000#16, age2 := 1000#16,
    hrbase := 0#64, ftbase := 0#64, mem := [], dirtyL2 := [], frames := [], lostCtl := [], l1Bad := [], l2Bad := [], errs := [],
    keys := [], lineKeys := [], farKeys := [], dies := List.replicate 8 Die.start,
    engTlb := [], ctxs := [], submits := [], submitNo := 1, readyNo := 1, bars := [], tasks := [], taskNo := 1, arrays := [], banks := [], faults := [], migs := [],
    shoots := [], shootNo := 0, shootsIn := [], ports := List.replicate 32 Port.start, fabGap := 800#16, skew := 0#16, routes := [], lostLinks := [],
    scopes := [], rxqs := [], shards := [], epTab := [], flows := [], flowsIn := [], rcache := [], onceLines := [], copiesOut := [], fwdCopies := [], deadLines := [], emits := [], dadds := [], daddNo := 1,
    reqs := [], reqNo := 1, grafts := [], reread := [], held := [], late := [], whorls := [], whorlNo := 1, seqRings := [], seqNo := 1,
    reshards := [], fwreqs := [], fwNo := 1, reports := [] }

/-- The machine right after cold reset (R20): nothing runs, the lock block is open, every compute die is in reset. The
foreground shows core 64 (log 4). -/
def State.reset : State :=
  { strand := Strand.none, core := Core.start 64, strands := [],
    cores := ((List.range 352).filter (· != 64)).map Core.start, pkg := Pkg.reset, stream := .a, ir := 0#64, sched := [] }

end Sys2Proof.Machine
end

