-- ==== Sys2Proof/Machine/Ops.lean ====
section
/-! DEFINITION. The named operations over memory, registers, queues and results in flight; taking a trap and resuming
from one; retiring a word (spec/03_core.md R54 to R74, spec/04_scalar.md R89, spec/11_kernel.md R248). -/

namespace Sys2Proof.Machine

/-- What a step answers. -/
abbrev Out := Host.Outcome State Fault Refusal

-- ## Tables: lists of (key, value) with one entry per key

/-- The entry of a key. -/
def tget (l : List (Nat × α)) (k : Nat) : Option α := (l.find? (fun e => e.1 == k)).map (·.2)

/-- The entry of a key set, keeping the keys in rising order. -/
def tset (l : List (Nat × α)) (k : Nat) (v : α) : List (Nat × α) :=
  match l with
  | [] => [(k, v)]
  | e :: r => if k < e.1 then (k, v) :: e :: r else if k = e.1 then (k, v) :: r else e :: tset r k v

/-- The entry of a key removed. -/
def tdel (l : List (Nat × α)) (k : Nat) : List (Nat × α) := l.filter (fun e => e.1 != k)

-- ## Memory

/-- The byte at an address; an unlisted address reads as 0 (log 2). -/
def Mem.get (m : Mem) (a : Nat) : Byte :=
  match m with
  | [] => 0#8
  | c :: r => if a = c.1 then c.2 else if a < c.1 then 0#8 else Mem.get r a

/-- A byte written; the canonical form is kept. -/
def Mem.set (m : Mem) (a : Nat) (v : Byte) : Mem :=
  match m with
  | [] => if v = 0#8 then [] else [(a, v)]
  | c :: r =>
    if a < c.1 then (if v = 0#8 then c :: r else (a, v) :: c :: r)
    else if a = c.1 then (if v = 0#8 then r else (a, v) :: r)
    else c :: Mem.set r a v

/-- n bytes from an address on. -/
def Mem.read (m : Mem) (a n : Nat) : List Byte := (List.range n).map (fun i => m.get (a + i))

/-- Bytes written from an address on. -/
def Mem.write (m : Mem) (a : Nat) (bs : List Byte) : Mem :=
  match bs with
  | [] => m
  | b :: r => Mem.write (m.set a b) (a + 1) r

/-- The addresses of a tail all lie above a. -/
def Mem.above (a : Nat) : Mem → Bool
  | [] => true
  | c :: r => decide (a < c.1) && c.2 != 0#8 && Mem.above c.1 r

/-- The canonical form: addresses strictly rising, no byte 0. -/
def Mem.wf : Mem → Bool
  | [] => true
  | c :: r => c.2 != 0#8 && Mem.above c.1 r

/-- Bytes as a number, the first least significant (R2). -/
def leNat : List Byte → Nat
  | [] => 0
  | b :: r => b.toNat + 256 * leNat r

/-- The n low bytes of a number, least significant first (R2). -/
def leBytes (n : Nat) (v : Nat) : List Byte :=
  match n with
  | 0 => []
  | k + 1 => BitVec.ofNat 8 v :: leBytes k (v / 256)

-- ## Predicates and shapes

/-- The predicate whose position p is f p. -/
def predOf (f : Nat → Bool) : Pred :=
  BitVec.ofNat 512 ((List.range 512).foldr (fun p acc => 2 * acc + (if f p then 1 else 0)) 0)

/-- Rows and columns of a shape register (R108, R153). -/
def shRows (b : BitVec 13) : Nat := (b.extractLsb' 8 5).toNat
def shCols (b : BitVec 13) : Nat := (b.extractLsb' 0 6).toNat

/-- A position lies in a shape: position 32i + j with i below rows and j below cols (R105). -/
def inShape (b : BitVec 13) (p : Nat) : Bool := decide (p / 32 < shRows b) && decide (p % 32 < shCols b)

/-- The predicate that marks a shape. -/
def shapeMask (b : BitVec 13) : Pred := predOf (inShape b)

/-- A shape the registers admit (R108): 1 to 16 rows, 1 to 32 columns. -/
def shapeOk (rows cols : Nat) : Bool :=
  decide (1 ≤ rows) && decide (rows ≤ 16) && decide (1 ≤ cols) && decide (cols ≤ 32)

-- ## The sequencers

/-- A scalar register; register 0 reads as zero (R55). -/
def Seq.get (q : Seq) (n : Fin 32) : W64 := if n = 0 then 0#64 else q.regs.getD n.val 0#64

/-- A scalar register written; a write to register 0 is discarded (R55). -/
def Seq.put (q : Seq) (n : Fin 32) (v : W64) : Seq := if n = 0 then q else { q with regs := q.regs.set n.val v }

/-- A predicate; p0 reads as all ones (R55, R106). -/
def Seq.pred (q : Seq) (n : Fin 8) : Pred := if n = 0 then BitVec.allOnes 512 else q.preds.getD n.val 0#512

/-- A predicate written; a write to p0 is discarded (R60). -/
def Seq.putPred (q : Seq) (n : Fin 8) (v : Pred) : Seq := if n = 0 then q else { q with preds := q.preds.set n.val v }

/-- A strand's sequencer. -/
def Strand.seq (t : Strand) : Stream → Seq
  | .a => t.a
  | .x => t.x

def Strand.setSeq (t : Strand) (st : Stream) (q : Seq) : Strand :=
  match st with
  | .a => { t with a := q }
  | .x => { t with x := q }

/-- The other stream. -/
def Stream.other : Stream → Stream
  | .a => .x
  | .x => .a

/-- The issuing sequencer. -/
def State.seq (s : State) : Seq := s.strand.seq s.stream

def State.setSeq (s : State) (q : Seq) : State := { s with strand := s.strand.setSeq s.stream q }

/-- The shape of the issuing stream: ashape in A, vshape in X (R80). -/
def State.shape (s : State) : BitVec 13 :=
  match s.stream with
  | .a => s.strand.ashape
  | .x => s.strand.vshape

/-- The cycle of the core in the foreground. -/
def State.cyc (s : State) : Nat := s.core.cyc

-- ## Strands and cores by number

/-- Every strand. -/
def State.allStrands (s : State) : List Strand := s.strand :: s.strands

/-- The strand of a handle. -/
def State.findStrand (s : State) (h : Nat) : Option Strand :=
  if h = 0 then none else s.allStrands.find? (fun t => t.h == h)

/-- A change of the strand of a handle, wherever it is. -/
def State.updStrand (s : State) (h : Nat) (f : Strand → Strand) : State :=
  if h = 0 then s
  else if s.strand.h = h then { s with strand := f s.strand }
  else { s with strands := s.strands.map (fun t => if t.h = h then f t else t) }

/-- Every core. -/
def State.allCores (s : State) : List Core := s.core :: s.cores

def State.findCore (s : State) (n : Nat) : Option Core := s.allCores.find? (fun c => c.num == n)

/-- A change of a core, wherever it is. -/
def State.updCore (s : State) (n : Nat) (f : Core → Core) : State :=
  if s.core.num = n then { s with core := f s.core }
  else { s with cores := s.cores.map (fun c => if c.num = n then f c else c) }

/-- A change of every core. -/
def State.mapCores (s : State) (f : Core → Core) : State := { s with core := f s.core, cores := s.cores.map f }

/-- A change of every strand. -/
def State.mapStrands (s : State) (f : Strand → Strand) : State :=
  { s with strand := f s.strand, strands := s.strands.map f }

def putCore (c : Core) : List Core → List Core
  | [] => [c]
  | d :: r => if c.num < d.num then c :: d :: r else d :: putCore c r

def putStrand (t : Strand) : List Strand → List Strand
  | [] => [t]
  | u :: r => if t.h < u.h then t :: u :: r else u :: putStrand t r

/-- A core brought to the foreground. -/
def State.focusCore (s : State) (n : Nat) : State :=
  if s.core.num = n then s
  else match s.cores.find? (fun c => c.num == n) with
    | none => s
    | some c => { s with core := c, cores := putCore s.core (s.cores.filter (fun d => d.num != n)) }

/-- A strand brought to the foreground, or none for handle 0. -/
def State.focusStrand (s : State) (h : Nat) : State :=
  if s.strand.h = h then s
  else
    let rest := if s.strand.h = 0 then s.strands else putStrand s.strand s.strands
    match rest.find? (fun t => t.h == h) with
    | none => { s with strand := Strand.none, strands := rest }
    | some t => { s with strand := t, strands := rest.filter (fun u => u.h != h) }

/-- A core and the strand it runs brought to the foreground. -/
def State.toCore (s : State) (n : Nat) : State := let s1 := s.focusCore n; s1.focusStrand s1.core.runs

/-- An operation done with a strand and its core in the foreground; the old foreground then returns. -/
def State.onStrand (s : State) (h : Nat) (f : State → State) : State :=
  match s.findStrand h with
  | none => s
  | some t => ((f ((s.focusCore t.core).focusStrand h)).focusCore s.core.num).focusStrand s.strand.h

-- ## Contexts

def State.ctxAt (s : State) (slot : Nat) : Option Ctx := s.pkg.ctxs.find? (fun c => c.slot == slot)

/-- A change of the package. -/
def State.updPkg (s : State) (f : Pkg → Pkg) : State := { s with pkg := f s.pkg }

def State.updCtx (s : State) (slot : Nat) (f : Ctx → Ctx) : State :=
  s.updPkg (fun p => { p with ctxs := p.ctxs.map (fun c => if c.slot = slot then f c else c) })

/-- The die.die code of a core (R5, R75). -/
def dieOf (core : Nat) : Nat := if core < 32 then 0 else if core < 64 then 1 else 2 + (core - 64) / 48

/-- A report or log record of Taproot. -/
def State.report (s : State) (r : Report) : State := s.updPkg (fun p => { p with reports := p.reports ++ [r] })

-- ## Results in flight (R68)

/-- n containers from position p on: of a where the mask is set, of b elsewhere. -/
def vmergeFrom (mask : Pred) (n p : Nat) (a b : VReg) : VReg :=
  match n with
  | 0 => []
  | k + 1 => (if mask.getLsbD p then a.headD 0#32 else b.headD 0#32) :: vmergeFrom mask k (p + 1) a.tail b.tail

/-- Containers of a where the mask is set, of b elsewhere. -/
def vmerge (mask : Pred) (a b : VReg) : VReg := vmergeFrom mask 512 0 a b

def FVal.scalar : FVal → W64
  | .s w => w
  | .p _ => 0#64
  | .v _ => 0#64

def FVal.predicate : FVal → Pred
  | .p m => m
  | .s _ => 0#512
  | .v _ => 0#512

def FVal.vector : FVal → VReg
  | .v c => c
  | .s _ => VReg.zero
  | .p _ => VReg.zero

/-- Elements of a value written to a destination. fpflags and tstat are merged by OR (R36); of topk, element 0 is seen and
element 1 is held (R138). -/
def writeDest (d : FDest) (mask : Pred) (v : FVal) (t : Strand) : Strand :=
  match d with
  | .scal st n => if mask.getLsbD 0 then t.setSeq st ((t.seq st).put n v.scalar) else t
  | .vec n => { t with v := t.v.set n.val (vmerge mask v.vector (t.v.getD n.val VReg.zero)) }
  | .opr n => { t with o := t.o.set n.val (vmerge mask v.vector (t.o.getD n.val VReg.zero)) }
  | .last k => { t with l := t.l.set k.val (vmerge mask v.vector (t.l.getD k.val VReg.zero)) }
  | .pred st n =>
    let q := t.seq st
    t.setSeq st (q.putPred n ((v.predicate &&& mask) ||| (q.pred n &&& ~~~mask)))
  | .fpflags => { t with fpflags := t.fpflags ||| ((v.scalar.truncate 5) &&& mask.truncate 5) }
  | .tstat => { t with tstat := t.tstat ||| ((v.scalar.truncate 3) &&& mask.truncate 3) }
  | .topk =>
    let w1 := if mask.getLsbD 0 then (t.topk &&& ~~~0x01FFFFFF00000000#64) ||| (v.scalar &&& 0x01FFFFFF00000000#64) else t.topk
    { t with topk := if mask.getLsbD 1 then (w1 &&& ~~~0xFF0000#64) ||| (v.scalar &&& 0xFF0000#64) else w1 }

/-- A destination whose later value replaces an earlier one; the flags accumulate instead (R36). -/
def FDest.replaces : FDest → Bool
  | .fpflags => false
  | .tstat => false
  | _ => true

/-- Elements of the earlier values for a destination will not land any more: a later one has. -/
def supersede (d : FDest) (mask : Pred) (l : List InFlight) : List InFlight :=
  l.map (fun f => if f.dest = d ∧ d.replaces then { f with left := f.left &&& ~~~mask } else f)

/-- Land the given elements of the n-th result in flight: it is written, and the results before it for the same
destination are superseded, so that values land in issue order (R68). -/
def landAt (n : Nat) (mask : Pred) (t : Strand) : Strand :=
  match t.pend[n]? with
  | none => t
  | some f =>
    let m := f.left &&& mask
    let t1 := writeDest f.dest m f.val t
    { t1 with pend := (supersede f.dest m (t1.pend.take n) ++
        ({ f with left := f.left &&& ~~~m } :: t1.pend.drop (n + 1))).filter (fun g => g.left != 0#512) }

/-- Land every result whose window has ended by a cycle, in issue order. -/
def settleFrom (c : Nat) (fuel n : Nat) (t : Strand) : Strand :=
  match fuel with
  | 0 => t
  | k + 1 =>
    match t.pend[n]? with
    | none => t
    | some f =>
      if f.due.any (fun d => decide (d ≤ c)) then
        let t1 := landAt n (BitVec.allOnes 512) t
        settleFrom c k (n - (t.pend.length - t1.pend.length - 1)) t1
      else settleFrom c k (n + 1) t

def settle (c : Nat) (t : Strand) : Strand := settleFrom c t.pend.length 0 t

/-- Every result in flight with a known value lands, and every entry of the queues with one (R70, R94). -/
def landAll (c : Nat) (t : Strand) : Strand :=
  let t1 := { t with pend := t.pend.map (fun f => if f.due.isSome then { f with due := some 0 } else f) }
  let t2 := settle c t1
  let q := fun (l : List QEnt) => l.map (fun (e : QEnt) => if e.due.isSome then { e with due := some 0 } else e)
  { t2 with lq := t2.lq.map q, sq := t2.sq.map q }

/-- A result of a word with bound L (R68): at once for L = 1, which no read can tell from landing at issue + 1, and in
flight until issue + L otherwise. -/
def putResult (d : FDest) (mask : Pred) (v : FVal) (L : Nat) (s : State) : State :=
  if L ≤ 1 then
    let t := writeDest d mask v s.strand
    { s with strand := { t with pend := (supersede d mask t.pend).filter (fun g => g.left != 0#512) } }
  else
    { s with strand := { s.strand with
        pend := s.strand.pend ++ [{ id := s.strand.nid, dest := d, due := some (s.cyc + L), left := mask, val := v }],
        nid := s.strand.nid + 1 } }

-- ## Queues (R56)

/-- The entries of a queue: true for a load queue, false for a store queue. -/
def Strand.queue (t : Strand) (lq : Bool) (q : Fin 4) : List QEnt :=
  if lq then t.lq.getD q.val [] else t.sq.getD q.val []

def Strand.setQueue (t : Strand) (lq : Bool) (q : Fin 4) (l : List QEnt) : Strand :=
  if lq then { t with lq := t.lq.set q.val l } else { t with sq := t.sq.set q.val l }

/-- An entry has landed by a cycle. -/
def QEnt.landed (e : QEnt) (c : Nat) : Bool := e.due.any (fun d => decide (d ≤ c))

/-- The operand code of a queue (R59). -/
def queueCode (lq : Bool) (q : Fin 4) : W64 := BitVec.ofNat 64 ((if lq then 44 else 48) + q.val)

/-- A pop that a word makes: the queue, and whether its slot is a vector slot. -/
structure Pop where
  lq : Bool
  q : Fin 4
  vec : Bool
deriving DecidableEq, Repr

/-- Whether a word may issue: it may, it stalls, or it traps. -/
inductive Gate where
  | go
  | stall
  | trap (c : Cause) (v : W64)
deriving DecidableEq, Repr

/-- The place of a cause in the order of R73. -/
def Cause.rank : Cause → Nat
  | .illegal => 1 | .profile => 2 | .priv => 3 | .accfirst => 4 | .align => 5 | .pageLoad => 6 | .eccUncorr => 7
  | .queue => 8 | .bar => 9 | .event => 10 | .trap => 11 | .watchdog => 12 | .none => 13

/-- Of several causes the first in the order of R73. -/
def firstTrap : List (Cause × W64) → Option (Cause × W64)
  | [] => none
  | t :: r =>
    match firstTrap r with
    | none => some t
    | some u => if u.1.rank < t.1.rank then some u else some t

/-- The entries that a word's pops take, in field order; `none` for an entry that is not there (R56). -/
def popEnts (t : Strand) : List Pop → List (Pop × Option QEnt × Nat)
  | [] => []
  | p :: r =>
    let e := (t.queue p.lq p.q).head?
    (p, e, (t.queue p.lq p.q).length) :: popEnts (t.setQueue p.lq p.q ((t.queue p.lq p.q).drop 1)) r

/-- The stream that pushes to a queue: A to load queues, X to store queues (R55). -/
def pusherEnded (t : Strand) (lq : Bool) : Bool := if lq then t.a.ended else t.x.ended
/-- The stream that pops a queue has ended. -/
def popperEnded (t : Strand) (lq : Bool) : Bool := if lq then t.x.ended else t.a.ended

/-- What is wrong with an entry for the slot that pops it: its kind, its shape in the X stream (R56), or a mark (R144). -/
def entTraps (t : Strand) (p : Pop) (e : QEnt) : List (Cause × W64) :=
  (match e.mark with
   | some m => [m]
   | none => []) ++
  (match e.val with
   | .s _ => if p.vec then [(Cause.queue, queueCode p.lq p.q)] else []
   | .v r c _ =>
     if !p.vec then [(Cause.queue, queueCode p.lq p.q)]
     else if p.lq && (r != shRows t.vshape || c != shCols t.vshape) then [(Cause.queue, queueCode p.lq p.q)] else [])

/-- The gate of a word that makes these pops and pushes (R56, R94): a queue that can never fill or drain traps, a missing
entry or a full queue stalls, and only then the entries are looked at. -/
def gate (pops : List Pop) (pushes : List (Bool × Fin 4)) (s : State) : Gate :=
  let t := s.strand
  let es := popEnts t pops
  let dead := (es.filter (fun e => e.2.1.isNone && pusherEnded t e.1.lq)).map (fun e => (Cause.queue, queueCode e.1.lq e.1.q))
  let full := pushes.filter (fun p => decide (16 ≤ (t.queue p.1 p.2).length))
  let stuck := (full.filter (fun p => popperEnded t p.1)).map (fun p => (Cause.queue, queueCode p.1 p.2))
  match firstTrap (dead ++ stuck) with
  | some c => .trap c.1 c.2
  | none =>
    if es.any (fun e => !(e.2.1.any (fun x => x.landed s.cyc))) || !full.isEmpty then .stall
    else
      match firstTrap (es.flatMap (fun e => match e.2.1 with | some x => entTraps t e.1 x | none => [])) with
      | some c => .trap c.1 c.2
      | none => .go

/-- The head of a queue popped. -/
def State.popQ (s : State) (lq : Bool) (q : Fin 4) : State :=
  { s with strand := s.strand.setQueue lq q ((s.strand.queue lq q).drop 1) }

/-- An entry pushed, landing by issue + L (R56). -/
def State.pushQ (s : State) (lq : Bool) (q : Fin 4) (v : QVal) (L : Nat) : State :=
  let t := s.strand
  { s with strand := { (t.setQueue lq q (t.queue lq q ++
      [{ id := t.nid, val := v, due := some (s.cyc + L), mark := none }])) with nid := t.nid + 1 } }

/-- An entry reserved for an answer that is still to come (R144, R416); its number is the strand's nid before. -/
def State.reserveQ (s : State) (lq : Bool) (q : Fin 4) (v : QVal) : State :=
  let t := s.strand
  { s with strand := { (t.setQueue lq q (t.queue lq q ++
      [{ id := t.nid, val := v, due := none, mark := none }])) with nid := t.nid + 1 } }

/-- The reserved entry of a number in a list of entries lands with its value, or marked. -/
def landEnt (id : Nat) (v : QVal) (mark : Option (Cause × W64)) (c : Nat) (l : List QEnt) : List QEnt :=
  l.map (fun e => if e.id = id ∧ e.due = none then { e with val := v, mark := mark, due := some c } else e)

/-- The reserved entry of a load queue lands. -/
def Strand.landQ (t : Strand) (q : Fin 4) (id : Nat) (v : QVal) (mark : Option (Cause × W64)) (c : Nat) : Strand :=
  t.setQueue true q (landEnt id v mark c (t.queue true q))

-- ## Taking a trap and resuming (R70 to R72)

/-- The record of a trap in a sequencer. -/
def Seq.trapAt (q : Seq) (c : Cause) (v : W64) : Seq :=
  { q with tcause := c, tpc := q.pc, tval := v, trapped := true, waitFrom := none, atGo := false }

/-- Unstalled cycles since the stream's last issue (R248): an elastic wait does not count. -/
def Seq.used (q : Seq) (c : Nat) : Nat := q.waitFrom.getD c - q.last

/-- The cycles before a word that a stop keeps from issuing have counted (R248). -/
def Seq.counted (q : Seq) (c : Nat) : Seq := { q with iters := q.iters + (q.used c - 1), last := c }

/-- A stream that stops counts no cycle from then on (R248). -/
def Seq.hold (q : Seq) (c : Nat) : Seq := if q.waitFrom.isSome then q else { q with waitFrom := some c }

/-- A strand begins to stop in a cycle. -/
def Strand.halt (t : Strand) (p : Phase) (c : Nat) : Strand := { t with phase := p, a := t.a.hold c, x := t.x.hold c }

/-- A pre-emption lands at the point that issues or waits (R95, R96, R291): both sequencers stop at their next word. -/
def State.preemptNow (s : State) : State := { s with strand := s.strand.halt .preempting s.cyc }

/-- Taking a trap: the issuing stream's record is written, its word has no effect, and the strand stops (R70, R72). -/
def takeTrap (c : Cause) (v : W64) (s : State) : State :=
  let s1 := s.setSeq ((s.seq.counted s.cyc).trapAt c v)
  { s1 with strand := s1.strand.halt .stopping s.cyc }

/-- A sequencer restarted by firmware (R71): its next word issues gap + 1 cycles later; a TRAP is passed (R93). -/
def Seq.restart (q : Seq) (c : Nat) : Seq :=
  { q with pc := if q.trapped ∧ q.tcause = .trap then q.tpc + 8#56 else q.pc, trapped := false, last := c,
           tried := 0, waitFrom := none, atGo := false }

/-- The side log is full (R145). -/
def Strand.logIsFull (t : Strand) : Bool := decide (Config.sideLog ≤ t.sidelog.length)

/-- Return from a trap or a stop: both sequencers restart in one cycle (R71). The trap records keep what they hold. While the side log is
full the strand is suspended again at once (R145). -/
def resumeStrand (s : State) : State :=
  { s with strand := { s.strand with
      a := s.strand.a.restart s.cyc, x := s.strand.x.restart s.cyc, phase := if s.strand.logIsFull then .stopping else .running,
      wants := none, failsVa := none, failsPa := none, parked := false, parkAt := 0, logFull := s.strand.logIsFull, slice := s.cyc } }

/-- A trap at the word, as the word's answer. -/
def trapOut (c : Cause) (v : W64) (s : State) : Out := .next (takeTrap c v s)

/-- ILLEGAL at the word with tval the word (R72). -/
def illegalOut (s : State) : Out := trapOut .illegal s.ir s

/-- A stalled word (R65, R66): it is tried again in each later cycle. -/
def stallOut (s : State) : Out :=
  .next (s.setSeq { s.seq with waitFrom := some (s.seq.waitFrom.getD s.cyc), tried := s.cyc })

/-- A word whose line is absent stalls (R65); these cycles count (R248). -/
def lineStall (s : State) : Out := .next (s.setSeq { s.seq with tried := s.cyc })

-- ## Retiring a word

/-- NextPC of R89: the next address, the loop stack, and whether a back edge is taken. -/
def loopEnd (w : PC) : List Loop → PC × List Loop × Bool
  | [] => (w + 8#56, [], false)
  | l :: r =>
    if w = l.start + 8#56 * (l.body.zeroExtend 56 - 1#56) then
      if 1 < l.rem.toNat then (l.start, { l with rem := l.rem - 1#32, idx := l.idx + 1#32 } :: r, true)
      else loopEnd w r
    else (w + 8#56, l :: r, false)

/-- How a word ends: falls through, or transfers control; and whether its issue sets the iteration count to 0 (R248). -/
structure Ending where
  target : Option PC
  reset : Bool
deriving DecidableEq, Repr

/-- The sequencer after its word has issued in a cycle. -/
def Seq.retire (q : Seq) (e : Ending) (guard : Bool) (c : Nat) : Seq :=
  let n := q.iters + q.used c
  match e.target with
  | some p => { q with pc := p, iters := if e.reset then 0 else n, last := c, waitFrom := none, atGo := false, started := true }
  | none =>
    let r := loopEnd q.pc q.loops
    { q with pc := r.1, loops := r.2.1, iters := if e.reset || (r.2.2 && guard) then 0 else n, last := c,
             waitFrom := none, atGo := false, started := true }

/-- The word would take the iteration count above the declared bound (R248). -/
def overBound (s : State) (st : Stream) : Bool :=
  let q := s.strand.seq st
  s.strand.iterbound != 0 && decide (s.strand.iterbound < q.iters + q.used s.cyc)

/-- The word ends at a LOOP back edge with a true guard, which is a pre-emption point (R70, R92). -/
def atBackEdge (q : Seq) (e : Ending) (guard : Bool) : Bool :=
  guard && e.target.isNone && (loopEnd q.pc q.loops).2.2

/-- A word retires: `s0` is the state at its issue, `s1` holds its effects. WATCHDOG comes instead when the iteration
count would pass its bound (R248, last in R73), but for a word whose guard is false (R73); a pending pre-emption lands at a back edge (R291). -/
def retireWith (e : Ending) (guard : Bool) (s0 s1 : State) : Out :=
  if guard && overBound s0 s0.stream then trapOut .watchdog (BitVec.ofNat 64 s0.strand.iterbound) s0
  else
    let q := s1.strand.seq s0.stream
    let t := s1.strand.setSeq s0.stream (q.retire e guard s0.cyc)
    let land := t.preempt && atBackEdge q e guard
    .next { s1 with strand := if land then t.halt .preempting s0.cyc else t }

/-- The word falls through to the next one or to a loop's start. -/
def retire (s0 s1 : State) : Out := retireWith ⟨none, false⟩ true s0 s1
/-- The word transfers control. -/
def retireTo (p : PC) (s0 s1 : State) : Out := retireWith ⟨some p, false⟩ true s0 s1
/-- A word whose issue sets the iteration count to 0 (R248). -/
def retireReset (s0 s1 : State) : Out := retireWith ⟨none, true⟩ true s0 s1

/-- A scalar-class word whose guard is false: only the address advances (R61, R89). -/
def retireFalse (s : State) : Out := retireWith ⟨none, false⟩ false s s

end Sys2Proof.Machine
end

