-- ==== Sys2Proof/Machine/Cipher.lean ====
section
/-! DEFINITION. The cipher of the memory controllers, XTS-AES-256 over lines (spec/15_page.md R305): the rule names
IEEE 1619-2018, and the steps of AES and of XTS are taken from the standards (log 81, PRESUMED). -/

namespace Sys2Proof.Machine

-- ## AES-256

/-- Twice a byte in the field of AES. -/
def xtime (b : Byte) : Byte := (b <<< 1) ^^^ (if b.getLsbD 7 then 0x1B#8 else 0#8)

/-- The product of two bytes in the field of AES. -/
def gmul (a b : Byte) : Byte :=
  (((List.range 8).foldl (fun (x : Byte × Byte) i => (if b.getLsbD i then x.1 ^^^ x.2 else x.1, xtime x.2)) (0#8, a))).1

/-- b to the power 254: the inverse, and 0 for 0. -/
def ginv (b : Byte) : Byte :=
  let sq := fun (x : Byte) => gmul x x
  -- 254 = 2 + 4 + ... + 128
  ((List.range 7).foldl (fun (x : Byte × Byte) _ => let p := sq x.2; (gmul x.1 p, p)) (1#8, b)).1

def subByte (b : Byte) : Byte :=
  let x := ginv b
  x ^^^ x.rotateLeft 1 ^^^ x.rotateLeft 2 ^^^ x.rotateLeft 3 ^^^ x.rotateLeft 4 ^^^ 0x63#8

def unsubByte (b : Byte) : Byte := ginv (b.rotateLeft 1 ^^^ b.rotateLeft 3 ^^^ b.rotateLeft 6 ^^^ 0x05#8)

def byteXor (a b : List Byte) : List Byte := (a.zip b).map (fun x => x.1 ^^^ x.2)

/-- The key schedule: 60 words of four bytes, each made from the one before it and the one eight before it. -/
def keyWords (key : List Byte) : List (List Byte) :=
  let start := (List.range 8).map (fun i => (key.drop (4 * i)).take 4)
  ((List.range 52).foldl (fun (x : List (List Byte) × Byte) k =>
    let i := k + 8
    let last := x.1.getD (i - 1) []
    let t := if i % 8 = 0 then byteXor ((last.drop 1 ++ last.take 1).map subByte) [x.2, 0#8, 0#8, 0#8]
      else if i % 8 = 4 then last.map subByte else last
    (x.1 ++ [byteXor (x.1.getD (i - 8) []) t], if i % 8 = 0 then xtime x.2 else x.2)) (start, 1#8)).1

def roundKey (ws : List (List Byte)) (r : Nat) : List Byte := ((ws.drop (4 * r)).take 4).flatMap id

/-- Row i of the block moves i columns: byte 4c + i comes from column c + i, or c − i. -/
def shiftRows (inverse : Bool) (b : List Byte) : List Byte :=
  (List.range 16).map (fun k => let i := k % 4; b.getD ((if inverse then k + 16 - 4 * i else k + 4 * i) % 16) 0#8)

/-- Each column times a circulant matrix, whose first row is given. -/
def mixWith (row : List Byte) (b : List Byte) : List Byte :=
  (List.range 16).map (fun k => let c := k / 4 * 4; let i := k % 4
    (List.range 4).foldl (fun x j => x ^^^ gmul (row.getD ((j + 4 - i) % 4) 0#8) (b.getD (c + j) 0#8)) 0#8)

def mixCols : List Byte → List Byte := mixWith [2#8, 3#8, 1#8, 1#8]
def unmixCols : List Byte → List Byte := mixWith [14#8, 11#8, 13#8, 9#8]

/-- A block of 16 bytes enciphered with the words of a key. -/
def aesEnc (ws : List (List Byte)) (b : List Byte) : List Byte :=
  let x := (List.range 13).foldl (fun s r => byteXor (mixCols (shiftRows false (s.map subByte))) (roundKey ws (r + 1))) (byteXor b (roundKey ws 0))
  byteXor (shiftRows false (x.map subByte)) (roundKey ws 14)

/-- A block deciphered. -/
def aesDec (ws : List (List Byte)) (b : List Byte) : List Byte :=
  let x := (List.range 13).foldl (fun s r => unmixCols (byteXor ((shiftRows true s).map unsubByte) (roundKey ws (13 - r)))) (byteXor b (roundKey ws 14))
  byteXor ((shiftRows true x).map unsubByte) (roundKey ws 0)

-- ## XTS over a line

/-- A tweak times α. -/
def tweakNext (t : List Byte) : List Byte :=
  let v := 2 * leNat t
  let r := leBytes 16 (v % 2 ^ 128)
  if 2 ^ 128 ≤ v then byteXor r (0x87#8 :: List.replicate 15 0#8) else r

/-- The blocks of a line under a tweak and its successors. -/
def xtsBlocks (f : List Byte → List Byte) (t : List Byte) (bs : List Byte) : Nat → List Byte
  | 0 => []
  | k + 1 => byteXor (f (byteXor (bs.take 16) t)) t ++ xtsBlocks f (tweakNext t) (bs.drop 16) k

/-- A line of 64 bytes enciphered, or deciphered, with a key pair of 64 bytes; its tweak is its local physical address bits
[47:6] (R305). -/
def xtsLine (dec : Bool) (pair : List Byte) (line : Nat) (bs : List Byte) : List Byte :=
  let data := keyWords (pair.take 32)
  xtsBlocks (if dec then aesDec data else aesEnc data) (aesEnc (keyWords (pair.drop 32)) (leBytes 16 line)) bs 4

-- ## The tier of a line (R305)

/-- The key slot under which a line's tier holds it; 0 for plain bytes. -/
def Pkg.lineKey (p : Pkg) (line : Nat) : Nat := (tget p.lineKeys line).getD 0

def Pkg.setLineKey (p : Pkg) (line k : Nat) : Pkg :=
  { p with lineKeys := if k = 0 then tdel p.lineKeys line else tset p.lineKeys line k }

/-- The bytes that the tier holds for a line whose plain bytes under its key are given, and back. -/
def Pkg.seal (p : Pkg) (dec : Bool) (k line : Nat) (bs : List Byte) : List Byte :=
  match tget p.keys k with
  | some pair => xtsLine dec pair line bs
  | none => bs

/-- A line comes from its tier for a page of key slot k, unless its L2 slice holds it: its bytes are what that key makes of what
the tier holds, which stays as it was. -/
def Pkg.openLine (p : Pkg) (k line : Nat) : Pkg :=
  let j := p.lineKey line
  if j = k ∨ p.dirtyL2.contains line then p
  else
    let raw := p.seal false j line (p.mem.read (64 * line) 64)
    { p.setLineKey line k with mem := p.mem.write (64 * line) (p.seal true k line raw) }

/-- The lines of a range opened for a page of a key slot. -/
def Pkg.opened (p : Pkg) (pa n k : Nat) : Pkg :=
  if k = 0 ∧ p.lineKeys.isEmpty then p
  else (List.range (if n = 0 then 0 else (pa % 64 + n - 1) / 64 + 1)).foldl (fun q i => q.openLine k (pa / 64 + i)) p

def State.opened (s : State) (pa n k : Nat) : State := s.updPkg (fun p => p.opened pa n k)

/-- The lines of a range hold what a page of a key slot wrote. -/
def Pkg.keyed (p : Pkg) (pa n k : Nat) : Pkg :=
  if k = 0 ∧ p.lineKeys.isEmpty then p
  else (List.range (if n = 0 then 0 else (pa % 64 + n - 1) / 64 + 1)).foldl (fun q i => q.setLineKey (pa / 64 + i) k) p

/-- The keys of a range of lines go with its bytes to another place, where their tier holds them under the same key slots. -/
def Pkg.moveKeys (p : Pkg) (src dst n : Nat) : Pkg :=
  if p.lineKeys.isEmpty then p
  else (List.range ((n + 63) / 64)).foldl (fun q i => q.setLineKey (dst / 64 + i) (p.lineKey (src / 64 + i))) p

/-- A key slot is loaded, or emptied: what the tiers hold under its old key stays as it is there. -/
def Pkg.putKey (p : Pkg) (n : Nat) (pair : Option (List Byte)) : Pkg :=
  let mine := (p.lineKeys.filter (fun e => e.2 == n && !(p.dirtyL2.contains e.1))).map (·.1)
  let p1 := mine.foldl (fun q l => q.openLine 0 l) p
  { p1 with keys := match pair with
      | some k => tset p1.keys n k
      | none => tdel p1.keys n }

end Sys2Proof.Machine
end

