-- ==== Sys2Proof/Machine/Fabric.lean ====
section
/-! DEFINITION. Sending over the Canopy fabric: flows, flowlets and paths (spec/16_link.md R332 to R338), the allowed
destinations (spec/01_package.md R21), and which packages hold copies of a line (spec/07_consistency.md R177). -/

namespace Sys2Proof.Machine

/-- Lines from the one that holds an address on. -/
def linesOf (pa n : Nat) : List Nat := if n = 0 then [] else (List.range ((pa % 64 + n - 1) / 64 + 1)).map (· + pa / 64)

/-- A range of the scratchpad touches a poisoned line (R26). -/
def Core.padSick (c : Core) (o n : Nat) : Bool := (linesOf o n).any c.padBad.contains

/-- The address of the lowest poisoned byte of a range of the scratchpad: it has no physical address (log 84). -/
def Core.sickAt (c : Core) (o n : Nat) : Option W64 :=
  ((linesOf o n).find? c.padBad.contains).map (fun l => BitVec.ofNat 64 (Config.scratchBase + max o (64 * l)))

/-- Bytes written to the scratchpad: a poisoned line that they cover whole is fresh from then on (log 84). -/
def Core.padPut (c : Core) (o : Nat) (bs : List Byte) : Core :=
  { c with scratch := c.scratch.write o bs
           padBad := c.padBad.filter (fun l => !(decide (o ≤ 64 * l) && decide (64 * l + 64 ≤ o + bs.length))) }

/-- The core number of Taproot as a source of flows (R334). -/
def taproot : Nat := 352

/-- A destination package is allowed (R21). -/
def Pkg.allows (p : Pkg) (d : Nat) : Bool := d == p.num || (decide (d < 993) && (p.lock.dst.getD (d / 64) 0#64).getLsbD (d % 64))

/-- A routing entry after reset (R332). -/
def Route.reset : Route :=
  { altok := 0#8, minok := false, minport := 0, via := 0, alts := List.replicate 8 0#16, fwAlt := 0#8, fwMin := false }

def Pkg.route (p : Pkg) (d : Nat) : Route := (tget p.routes d).getD Route.reset

/-- The first port of a path (R332). -/
def Route.firstPort (r : Route) (path : Option Nat) : Nat :=
  match path with
  | none => r.minport
  | some k => (r.alts.getD k 0#16).toNat % 32

/-- The usable paths, the minimal one first. -/
def Route.usable (r : Route) : List (Option Nat) :=
  (if r.minok then [none] else []) ++ ((List.range 8).filter (fun k => r.altok.getLsbD k)).map some

/-- The path a flowlet takes (R334), from the flits that wait at a port: C0 and management take the minimal path, the other classes the
usable path whose first port has the fewest, of several the first. A minimal path that is not usable is replaced by the lowest usable
alternate. None when no path is usable. -/
def Route.choose (r : Route) (cls : Nat) (flits : Nat → Nat) : Option (Option Nat) :=
  if cls = 0 ∨ cls = 4 then r.usable.head?
  else r.usable.foldl (fun best path => match best with
    | none => some path
    | some b => if flits (r.firstPort path) < flits (r.firstPort b) then some path else some b) none

/-- A path of an entry is usable. -/
def Route.takes (r : Route) (path : Option Nat) : Bool := r.usable.contains path

/-- The intermediate of an alternate (R332). -/
def Route.viaOf (r : Route) (path : Option Nat) : Option Nat := path.map (fun k => (r.alts.getD k 0#16).toNat / 64)

/-- The class of a strand's traffic (R336): C0 for a launch that started in class C0. -/
def reqClass (c0 : Bool) : Nat := if c0 then 0 else 1

/-- The path that a flow's next flowlet takes. -/
def Pkg.pathOf (p : Pkg) (f : Flow) : Option (Option Nat) :=
  (p.route f.dst).choose f.cls (Config.egressFlits f.src f.dst f.cls f.count)

/-- 1 ms in cycles (R335). -/
def msCycles : Nat := 1250000

/-- A packet put into a flow: it takes the next sequence number, starts a flowlet when everything earlier has been acknowledged and the
flow has been silent long enough (R334), is marked as a restart after 1 ms of silence, and is kept until acknowledged (R335). -/
def Pkg.pushPkt (p : Pkg) (old : Flow) (op : PktOp) (asker : Asker) (key : Nat) : Flow :=
  let silent := Config.flowSilence old.src old.dst old.cls old.count
  let fresh := old.anew || (old.sent.isEmpty && decide (max p.fabGap.toNat p.skew.toNat < silent))
  let path := if fresh then p.pathOf old else old.path
  let pkt : Packet := { src := p.num, core := old.src, dst := old.dst, via := (p.route old.dst).viaOf path.join, cls := old.cls,
                        seq := old.seq.toNat, restart := old.anew || (fresh && decide (msCycles < silent)), hops := 0, key := key, op := op }
  { old with seq := old.seq + 1#16, path := path, count := old.count + 1, anew := false
             sent := old.sent ++ [{ pkt := pkt, asker := asker, tries := 0 }] }

/-- A flow that has sent nothing yet. -/
def Flow.new (core dst cls : Nat) : Flow :=
  { src := core, dst := dst, cls := cls, seq := 0#16, path := none, count := 0, anew := true, sent := [] }

/-- A packet sent in the flow of a core, a destination and a class; `key` is the key slot of the page that it accesses. -/
def Pkg.sendPkt (p : Pkg) (core dst cls : Nat) (op : PktOp) (asker : Asker) (key : Nat := 0) : Pkg :=
  let old := (p.flows.find? (fun f => f.src == core && f.dst == dst && f.cls == cls)).getD (Flow.new core dst cls)
  { p with flows := p.flows.filter (fun f => !(f.src == core && f.dst == dst && f.cls == cls)) ++ [p.pushPkt old op asker key] }

/-- A management message of Taproot to every other package (R336, R344). -/
def Pkg.sendAll (p : Pkg) (op : PktOp) : Pkg :=
  let mine := fun (f : Flow) => f.src == taproot && f.cls == 4 && f.dst != p.num
  let new := (List.range 993).filter (fun d => d != p.num && !(p.flows.any (fun f => mine f && f.dst == d)))
  { p with flows := p.flows.map (fun f => if mine f then p.pushPkt f op .none 0 else f) ++
      new.map (fun d => p.pushPkt (Flow.new taproot d 4) op .none 0) }

/-- Packets are still waiting for an answer on behalf of someone. -/
def Pkg.waitsFor (p : Pkg) (a : Asker) : Bool := p.flows.any (fun f => f.sent.any (fun q => q.asker == a))

/-- Every endpoint packet that a strand has closed has been performed (R341). -/
def Pkg.epQuiet (p : Pkg) (h : Nat) : Bool :=
  p.flows.all (fun f => f.sent.all (fun q => match q.asker with
    | .ep g _ => g != h
    | _ => true))

/-- The package's own copies of remote lines dropped (R177), those on the way to one read among them, and poisoned ones of L1s. -/
def Pkg.dropCopies (p : Pkg) (pa n : Nat) : Pkg :=
  let old := fun (l : RLine) => decide (l.pa < pa + n) && decide (pa < l.pa + 64)
  { p with rcache := p.rcache.filter (fun l => !(old l)), onceLines := p.onceLines.filter (fun l => !(old l.2))
           l1Bad := p.l1Bad.filter (fun b => !(decide (64 * b.2 < pa + n) && decide (pa < 64 * b.2 + 64))) }

/-- The copies that other packages hold of lines that have moved, under the lines' old addresses, are invalidated (R317). -/
def Pkg.invalMoved (p : Pkg) (hit : Nat → Nat → Bool) : Pkg :=
  let on := fun (c : Nat × Nat × Nat) => hit c.2.1 c.2.2
  (p.fwdCopies.filter on).foldl (fun q c => q.sendPkt taproot c.1 4 (.inval (64 * c.2.1)) (.moved c.2.2))
    { p with fwdCopies := p.fwdCopies.filter (fun c => !(on c)) }

/-- A write performed at the home sends an invalidation to every package that holds a copy of its lines (R177). -/
def Pkg.invalidate (p : Pkg) (pa n : Nat) : Pkg :=
  let ls := linesOf pa n
  let hit := p.copiesOut.filter (fun c => ls.contains c.2)
  let q := hit.foldl (fun q c => q.sendPkt taproot c.1 4 (.inval (64 * c.2)) .none)
    { p with copiesOut := p.copiesOut.filter (fun c => !(ls.contains c.2)) }
  if q.fwdCopies.isEmpty then q else q.invalMoved (fun _ home => home / 2 ^ 48 == p.num && ls.contains (home % 2 ^ 48 / 64))

end Sys2Proof.Machine
end

