-- ==== Sys2Proof/Machine/Flags.lean ====
section
/-! DEFINITION. Floating-point values, rounding, saturation and the flags they raise (spec/02_numbers.md R28 to R41,
R51 to R53). A value is exact: a sign, a natural number and a power of two. -/

namespace Sys2Proof.Machine

/-- A floating-point operand or exact result. A NaN keeps its fraction aligned to 23 bits, bit 22 the quiet bit (R40). -/
inductive FNum where
  | nan (neg : Bool) (fr : Nat)
  | inf (neg : Bool)
  | fin (neg : Bool) (m : Nat) (e : Int)   -- (-1)^neg × m × 2^e; m = 0 is a zero with its sign
deriving DecidableEq, Repr

/-- A floating-point format (R28): fraction bits, exponent of the smallest normal, code of the largest finite value,
width, and whether it has infinities. -/
structure Fmt where
  p : Nat
  emin : Int
  maxCode : Nat
  width : Nat
  hasInf : Bool
deriving DecidableEq, Repr

def fmtF32 : Fmt := ⟨23, -126, 0x7F7FFFFF, 32, true⟩
def fmtBF16 : Fmt := ⟨7, -126, 0x7F7F, 16, true⟩
def fmtF16 : Fmt := ⟨10, -14, 0x7BFF, 16, true⟩
def fmtE4M3 : Fmt := ⟨3, -6, 0x7E, 8, false⟩
def fmtE5M2 : Fmt := ⟨2, -14, 0x7B, 8, true⟩

/-- The flags of R34 as bits: invalid 4, divide 3, overflow 2, underflow 1, inexact 0. -/
def fInvalid : BitVec 5 := 0x10#5
def fDivide : BitVec 5 := 0x08#5
def fOverflow : BitVec 5 := 0x04#5
def fUnderflow : BitVec 5 := 0x02#5
def fInexact : BitVec 5 := 0x01#5

/-- A flag when a condition holds. -/
def flagIf (b : Bool) (f : BitVec 5) : BitVec 5 := if b then f else 0#5

/-- The number of bits of a natural number. -/
def bitLen (n : Nat) : Nat := if n = 0 then 0 else Nat.log2 n + 1

/-- Whether a magnitude M + r / 2^sh rounds away from zero to M + 1 (R32 step 2). -/
def roundUp (rnd : Rnd) (neg : Bool) (M r sh : Nat) : Bool :=
  match rnd with
  | .rn => decide (2 ^ sh < 2 * r) || (2 * r == 2 ^ sh && M % 2 == 1)
  | .rz => false
  | .rd => neg && r != 0
  | .ru => !neg && r != 0

/-- A code with its sign. -/
def signed (F : Fmt) (neg : Bool) (code : Nat) : Nat := code + (if neg then 2 ^ (F.width - 1) else 0)

/-- The code of infinity, one above the largest finite value; in E4M3 that code is the NaN (R32 step 4). -/
def infCode (F : Fmt) (neg sat : Bool) : Nat := signed F neg (if sat then F.maxCode else F.maxCode + 1)

/-- RoundToF of an exact finite value, then sat (R32, R33): the code and the flags. -/
def roundTo (F : Fmt) (rnd : Rnd) (sat : Bool) (neg : Bool) (m : Nat) (e : Int) : Nat × BitVec 5 :=
  if m = 0 then (signed F neg 0, 0#5)
  else
    let E : Int := e + (bitLen m : Int) - 1
    let qe : Int := (if E < F.emin then F.emin else E) - (F.p : Int)
    let sh : Nat := (qe - e).toNat
    let M : Nat := if qe ≤ e then m * 2 ^ (e - qe).toNat else m / 2 ^ sh
    let r : Nat := if qe ≤ e then 0 else m % 2 ^ sh
    let M1 : Nat := if roundUp rnd neg M r sh then M + 1 else M
    -- M1 = 2^(p+1) carries into the exponent by itself
    let code : Nat := if M1 < 2 ^ F.p then M1 else ((qe + (F.p : Int) - F.emin).toNat + 1) * 2 ^ F.p + (M1 - 2 ^ F.p)
    if F.maxCode < code then
      let toInf := match rnd with
        | .rn => true
        | .rz => false
        | .rd => neg
        | .ru => !neg
      (if toInf then infCode F neg sat else signed F neg F.maxCode, fOverflow ||| fInexact)
    else
      (signed F neg code, flagIf (r != 0) fInexact ||| flagIf (r != 0 && decide (M1 < 2 ^ F.p)) fUnderflow)

/-- A code read at full value (R29, R30). -/
def decodeF (F : Fmt) (w : Nat) : FNum :=
  let neg := decide (2 ^ (F.width - 1) ≤ w % 2 ^ F.width)
  let c := w % 2 ^ (F.width - 1)
  let fr := c % 2 ^ F.p
  let ex := c / 2 ^ F.p
  if F.maxCode < c then
    if F.hasInf then (if fr = 0 then .inf neg else .nan neg (fr * 2 ^ (23 - F.p))) else .nan neg 0x400000
  else if ex = 0 then .fin neg fr (F.emin - (F.p : Int))
  else .fin neg (2 ^ F.p + fr) (F.emin + (ex : Int) - 1 - (F.p : Int))

def FNum.isNaN : FNum → Bool
  | .nan _ _ => true
  | .inf _ => false
  | .fin _ _ _ => false

/-- A signalling NaN (R37). -/
def FNum.isSNaN : FNum → Bool
  | .nan _ f => !(f / 0x400000 % 2 == 1)
  | .inf _ => false
  | .fin _ _ _ => false

def FNum.isInf : FNum → Bool
  | .inf _ => true
  | .nan _ _ => false
  | .fin _ _ _ => false

def FNum.isZero : FNum → Bool
  | .fin _ k _ => k == 0
  | .nan _ _ => false
  | .inf _ => false

def FNum.neg? : FNum → Bool
  | .nan b _ => b
  | .inf b => b
  | .fin b _ _ => b

/-- The canonical NaN (R38), which a NAR becomes too (R47). -/
def canonNaN : FNum := .nan false 0x400000

/-- A quieted NaN (R37). -/
def quiet : FNum → FNum
  | .nan b f => .nan b (if f / 0x400000 % 2 = 1 then f else f + 0x400000)
  | .inf b => .inf b
  | .fin b k x => .fin b k x

/-- The code of a quieted NaN in a format (R40). -/
def nanCode (F : Fmt) (neg : Bool) (fr : Nat) : Nat :=
  if F.hasInf then signed F neg (F.maxCode + 1 + (fr / 2 ^ (23 - F.p)) % 2 ^ F.p) else signed F neg (F.maxCode + 1)

/-- A value delivered in a format (R50): the code and the flags. -/
def deliverF (F : Fmt) (rnd : Rnd) (sat : Bool) (x : FNum) : Nat × BitVec 5 :=
  match x with
  | .nan b f =>
    let f1 := if f / 0x400000 % 2 = 1 then f else f + 0x400000
    (nanCode F b f1, flagIf x.isSNaN fInvalid)
  | .inf b => (infCode F b sat, 0#5)
  | .fin b k e => roundTo F rnd sat b k e

-- ## Exact arithmetic

/-- A signed integer at a power of two. -/
def ofInt (i : Int) (e : Int) (zneg : Bool) : FNum :=
  if i = 0 then .fin zneg 0 0 else .fin (decide (i < 0)) i.natAbs e

/-- The signed integer of a finite value scaled to exponent e0 ≤ its own. -/
def scaled (neg : Bool) (m : Nat) (e e0 : Int) : Int :=
  let v : Int := (m * 2 ^ (e - e0).toNat : Nat)
  if neg then -v else v

/-- The exact sum of two finite values; a zero sum of opposite signs is +0, or −0 toward −∞ (R39). -/
def addFin (rnd : Rnd) (n1 : Bool) (m1 : Nat) (e1 : Int) (n2 : Bool) (m2 : Nat) (e2 : Int) : FNum :=
  let e0 := if m1 = 0 then e2 else if m2 = 0 then e1 else if e1 < e2 then e1 else e2
  let z := if n1 == n2 then n1 else rnd == .rd
  if m1 = 0 ∧ m2 = 0 then .fin z 0 0
  else if m1 = 0 then .fin n2 m2 e2
  else if m2 = 0 then .fin n1 m1 e1
  else ofInt (scaled n1 m1 e1 e0 + scaled n2 m2 e2 e0) e0 z

/-- The first NaN of a list of operands, quieted, and whether any signals (R39). -/
def nanOf (xs : List FNum) : Option FNum := (xs.find? FNum.isNaN).map quiet
def anySNaN (xs : List FNum) : Bool := xs.any FNum.isSNaN

/-- x + y before rounding, and whether it is invalid (R38, R39). -/
def addX (rnd : Rnd) (x y : FNum) : FNum × Bool :=
  match nanOf [x, y] with
  | some n => (n, anySNaN [x, y])
  | none =>
    match x, y with
    | .inf a, .inf b => if a == b then (.inf a, false) else (canonNaN, true)
    | .inf a, .fin _ _ _ => (.inf a, false)
    | .fin _ _ _, .inf b => (.inf b, false)
    | .fin a m e, .fin b k f => (addFin rnd a m e b k f, false)
    | _, _ => (canonNaN, false)

/-- The sign changed; a NaN is kept. -/
def negX : FNum → FNum
  | .nan b f => .nan b f
  | .inf b => .inf (!b)
  | .fin b k e => .fin (!b) k e

/-- x × y before rounding, and whether it is invalid. -/
def mulX (x y : FNum) : FNum × Bool :=
  match nanOf [x, y] with
  | some n => (n, anySNaN [x, y])
  | none =>
    match x, y with
    | .inf a, .inf b => (.inf (a != b), false)
    | .inf a, .fin b m _ => if m = 0 then (canonNaN, true) else (.inf (a != b), false)
    | .fin a m _, .inf b => if m = 0 then (canonNaN, true) else (.inf (a != b), false)
    | .fin a m e, .fin b k f => (.fin (a != b) (m * k) (e + f), false)
    | _, _ => (canonNaN, false)

/-- 0 × ∞ in either order. -/
def zeroTimesInf (a b : FNum) : Bool := (a.isZero && b.isInf) || (a.isInf && b.isZero)

/-- Fma of R39 before rounding, and whether invalid is raised. -/
def fmaX (rnd : Rnd) (a b c : FNum) : FNum × Bool :=
  match nanOf [c, a, b] with
  | some n => (n, anySNaN [a, b, c] || zeroTimesInf a b)
  | none =>
    if zeroTimesInf a b then (canonNaN, true)
    else addX rnd (mulX a b).1 c

/-- An operation's value delivered with its flags. -/
def deliverOp (F : Fmt) (rnd : Rnd) (sat : Bool) (r : FNum × Bool) : Nat × BitVec 5 :=
  let d := deliverF F rnd sat r.1
  (d.1, d.2 ||| flagIf r.2 fInvalid)

-- ## Integers (R41)

/-- The low bits of an integer, or the integer clamped to a signed range of w bits (R33). -/
def wrapOrClamp (w : Nat) (sat : Bool) (i : Int) : Nat :=
  let lo : Int := -(2 ^ (w - 1) : Nat)
  let hi : Int := (2 ^ (w - 1) : Nat) - 1
  let j := if sat then (if i < lo then lo else if hi < i then hi else i) else i
  (j % (2 ^ w : Nat)).toNat

/-- A finite value rounded to an integer, and whether that is inexact. -/
def roundInt (rnd : Rnd) (neg : Bool) (m : Nat) (e : Int) : Int × Bool :=
  if 0 ≤ e then (scaled neg m e 0, false)
  else
    let sh := (-e).toNat
    let M := m / 2 ^ sh
    let r := m % 2 ^ sh
    let M1 := if roundUp rnd neg M r sh then M + 1 else M
    (if neg then -(M1 : Int) else (M1 : Int), r != 0)

/-- A floating-point or tapered value delivered as a signed integer of w bits (R41). -/
def deliverInt (w : Nat) (rnd : Rnd) (x : FNum) : Nat × BitVec 5 :=
  let lo : Int := -(2 ^ (w - 1) : Nat)
  let hi : Int := (2 ^ (w - 1) : Nat) - 1
  let enc := fun (i : Int) => (i % (2 ^ w : Nat)).toNat
  match x with
  | .nan _ _ => (0, fInvalid)
  | .inf b => (enc (if b then lo else hi), fInvalid)
  | .fin b k e =>
    let r := roundInt rnd b k e
    if r.1 < lo then (enc lo, fInvalid)
    else if hi < r.1 then (enc hi, fInvalid)
    else (enc r.1, flagIf r.2 fInexact)

/-- The signed integer of the w low bits of a code. -/
def sintOf (w : Nat) (c : Nat) : Int :=
  let n := c % 2 ^ w
  if n < 2 ^ (w - 1) then (n : Int) else (n : Int) - (2 ^ w : Nat)

/-- An integer as an exact value; zero is +0. -/
def ofSInt (i : Int) : FNum := ofInt i 0 false

-- ## Comparison

/-- The order of two values that are no NaN. -/
def ltX (x y : FNum) : Bool :=
  match x, y with
  | .inf a, .inf b => a && !b
  | .inf a, .fin _ _ _ => a
  | .fin _ _ _, .inf b => !b
  | .fin a m e, .fin b k f =>
    let e0 := if e < f then e else f
    decide (scaled a m e e0 < scaled b k f e0)
  | _, _ => false

/-- Equality of two values that are no NaN; −0 equals +0. -/
def eqX (x y : FNum) : Bool := !x.isNaN && !y.isNaN && !(ltX x y) && !(ltX y x)

/-- RoundToFP32 of an operation, as bits with flags. -/
def f32Of (rnd : Rnd) (r : FNum × Bool) : W32 × BitVec 5 :=
  let d := deliverOp fmtF32 rnd false r
  (BitVec.ofNat 32 d.1, d.2)

/-- The FP32 value of a container. -/
def f32Val (w : W32) : FNum := decodeF fmtF32 w.toNat

-- ## Sums (R52, R53)

/-- One level of TreeSum: neighbours are added and rounded to FP32, an odd last value passes up. -/
def treeLevel (rnd : Rnd) : List FNum → List FNum × BitVec 5
  | [] => ([], 0#5)
  | [x] => ([x], 0#5)
  | x :: y :: r =>
    let d := deliverOp fmtF32 rnd false (addX rnd x y)
    let q := treeLevel rnd r
    (decodeF fmtF32 d.1 :: q.1, d.2 ||| q.2)

/-- TreeSum of R52 over exact values, with fuel for the levels. -/
def treeSum (rnd : Rnd) (fuel : Nat) (xs : List FNum) : FNum × BitVec 5 :=
  match fuel with
  | 0 => (xs.headD (.fin false 0 0), 0#5)
  | k + 1 =>
    match xs with
    | [x] => (x, 0#5)
    | _ =>
      let l := treeLevel rnd xs
      let q := treeSum rnd k l.1
      (q.1, l.2 ||| q.2)

/-- The exact products of a group: their sum, with the first NaN and the invalid cases of R53. -/
structure Group where
  sum : FNum
  pinf : Bool
  ninf : Bool
  bad : Bool              -- 0 × ∞
deriving DecidableEq, Repr

def groupStep (g : Group) (a b : FNum) : Group :=
  if zeroTimesInf a b then { g with bad := true }
  else
    match (mulX a b).1 with
    | .inf n => if n then { g with ninf := true } else { g with pinf := true }
    | .fin n k e => match g.sum with
      | .fin n0 k0 e0 => { g with sum := addFin .rn n0 k0 e0 n k e }
      | _ => g
    | .nan _ _ => g

def groupSum (g : Group) : List (FNum × FNum) → Group
  | [] => g
  | p :: r => groupSum (groupStep g p.1 p.2) r

/-- The operands of a group in the order in which their NaNs are looked for. -/
def groupOperands : List (FNum × FNum) → List FNum
  | [] => []
  | p :: r => p.1 :: p.2 :: groupOperands r

/-- The rounded sum of a group's products, none of whose operands is a NaN: its value and its flags (R32, R53). -/
def groupRound (rnd : Rnd) (ps : List (FNum × FNum)) : FNum × BitVec 5 :=
  let g := groupSum ⟨.fin false 0 0, false, false, false⟩ ps
  if g.bad || (g.pinf && g.ninf) then (canonNaN, fInvalid)
  else
    let signs := ps.map (fun p => p.1.neg? != p.2.neg?)
    let zero : FNum := .fin (if signs.all id then true else if signs.all (!·) then false else rnd == .rd) 0 0
    let exact := if g.pinf then .inf false else if g.ninf then .inf true else if g.sum.isZero then zero else g.sum
    let G := deliverF fmtF32 rnd false exact
    (decodeF fmtF32 G.1, G.2)

/-- One group of MatAccum (R53): the new accumulator and the flags. An exact zero sum of a group is +0, or −0 toward −∞
where products of both signs or of zero meet (R39). -/
def matGroup (rnd : Rnd) (c : FNum) (ps : List (FNum × FNum)) : FNum × BitVec 5 :=
  let ops := groupOperands ps
  match nanOf (c :: ops), nanOf ops with
  | some n, some _ =>
    let g := groupSum ⟨.fin false 0 0, false, false, false⟩ ps
    (n, flagIf (anySNaN (c :: ops) || g.bad || (g.pinf && g.ninf)) fInvalid)
  -- only the accumulator is a NaN: the group's sum is rounded all the same
  | some n, none => (n, flagIf (anySNaN [c]) fInvalid ||| (groupRound rnd ps).2)
  | none, _ =>
    let G := groupRound rnd ps
    if G.1.isNaN then G
    else
      let d := deliverOp fmtF32 rnd false (addX rnd c G.1)
      (decodeF fmtF32 d.1, G.2 ||| d.2)

/-- MatAccum over operands in groups of eight (R53). -/
def matAccum (rnd : Rnd) (fuel : Nat) (c : FNum) (ps : List (FNum × FNum)) : FNum × BitVec 5 :=
  match fuel with
  | 0 => (c, 0#5)
  | k + 1 =>
    match ps with
    | [] => (c, 0#5)
    | _ :: _ =>
      let g := matGroup rnd c (ps.take 8)
      let q := matAccum rnd k g.1 (ps.drop 8)
      (q.1, g.2 ||| q.2)

end Sys2Proof.Machine
end

