-- ==== Sys2Proof/Machine/Memory.lean ====
section
/-! DEFINITION. The package's memory: its layout and frames (spec/15_page.md R298, R299, R312), the home of a byte during
a migration (R186, R317), update-only lines (R156, R185), page tables, walks and translations (R300 to R311, R143). -/

namespace Sys2Proof.Machine

-- ## Layout (R298, R299)

def paPkg (pa : Nat) : Nat := pa / 2 ^ 48
def paLocal (pa : Nat) : Nat := pa % 2 ^ 48

/-- The die whose tier-1 memory holds a local address. -/
def tier1Die (pa : Nat) : Option Nat :=
  if pa < 0x10000000000 then none
  else
    let n := (pa - 0x10000000000) / 0x1000000000
    let o := (pa - 0x10000000000) % 0x1000000000
    if n < 8 ∧ o < (if n < 2 then 36 else 48) * 0x40000000 then some n else none

def inTier2 (pa : Nat) : Bool := decide (0x100000000000 ≤ pa) && decide (pa < 0x120000000000)

/-- A local address that memory answers. -/
def inMemory (pa : Nat) : Bool := (tier1Die pa).isSome || inTier2 pa

/-- The index of the frame that holds a local address (R312). -/
def frameIx (pa : Nat) : Nat :=
  match tier1Die pa with
  | some n => 32768 * n + (pa - 0x10000000000) % 0x1000000000 / 0x200000
  | none => 262144 + (pa - 0x100000000000) / 0x200000

/-- The first local address of a frame. -/
def frameBase (f : Nat) : Nat :=
  if f < 262144 then 0x10000000000 + 0x1000000000 * (f / 32768) + 0x200000 * (f % 32768)
  else 0x100000000000 + 0x200000 * (f - 262144)

/-- A frame's record; a frame not listed is FREE (log 3). -/
def Pkg.frame (p : Pkg) (pa : Nat) : Option Frame := tget p.frames (frameIx pa)

/-- A frame record that is FREE. -/
def Frame.free : Frame :=
  { dirty := 0#512, poison := 0#512, ref := 0, rslot := 0, owner := 0, lock := false, rmap := false, mstate := 0,
    backing := 0, bv := false }

def Pkg.setFrame (p : Pkg) (f : Nat) (r : Frame) : Pkg := { p with frames := tset p.frames f r }

/-- The granule of a local address in its frame. -/
def granuleOf (pa : Nat) : Nat := pa % 0x200000 / 4096

/-- The tier-2 controller that holds a granule (R17, R18, R299). The spec gives the set of a node's controllers and, for UNIFIED,
the interleave of 4 KiB, not which granule lies at which controller: the model counts them in granule order, modulo 32 in UNIFIED,
16 in SPLIT and 4 in DIE (DESIGN CHOICE, log 83). -/
def controllerOf (mode : BitVec 2) (pa : Nat) : Nat :=
  let o := pa - 0x100000000000
  if mode = 0#2 then o / 4096 % 32 else if mode = 1#2 then o / 0x10000000000 * 16 + o / 4096 % 16 else o / 0x4000000000 * 4 + o / 4096 % 4

/-- The memory of a local address cannot be had: its tier-2 controller is lost (R324), or its die's link is retired (R331). -/
def Pkg.gone (p : Pkg) (pa : Nat) : Bool :=
  match tier1Die pa with
  | some d => (p.dies.getD d Die.start).state == 5
  | none => inTier2 pa && p.lostCtl.contains (controllerOf p.numaMode pa)

/-- The 256 bytes of a frame record in the table (R312). -/
def Frame.bytes (f : Frame) : List Byte :=
  leBytes 64 f.dirty.toNat ++ leBytes 64 f.poison.toNat ++
  leBytes 8 (f.ref * 2 ^ 48 + f.rslot * 2 ^ 32 + f.owner * 2 ^ 16 + (if f.lock then 16 else 0) + (if f.rmap then 8 else 0) + f.mstate) ++
  leBytes 8 (f.backing + (if f.bv then 1 else 0)) ++ List.replicate 112 0#8

/-- What firmware's store into a record changes (R312): the owner, the rmap mark, and poison bits that it clears; the fields of the
memory unit and the reserved ones keep their values. -/
def Frame.fwFields (f : Frame) (bs : List Byte) : Frame :=
  let w := leNat ((bs.drop 0x80).take 8)
  { f with owner := w / 2 ^ 16 % 2 ^ 10, rmap := w.testBit 3, poison := f.poison &&& BitVec.ofNat 512 (leNat ((bs.drop 0x40).take 64)) }

/-- A record for a frame that had none. -/
def Pkg.freshFrame (p : Pkg) (f : Nat) : Frame :=
  { Frame.free with poison := if p.lostCtl.isEmpty && p.dies.all (fun d => d.state != 5) then 0#512
                              else predOf (fun g => p.gone (frameBase f + 4096 * g)) }

/-- A byte range touches a poisoned granule (R323), or a poisoned line of an L2 slice (R26). -/
def poisoned (p : Pkg) (pa n : Nat) : Bool :=
  let bad := fun a => match p.frame a with
    | some f => f.poison.getLsbD (granuleOf a)
    | none => p.gone a
  bad pa || (n != 0 && bad (pa + n - 1)) || (linesOf pa n).any p.l2Bad.contains

/-- The home of a byte: while its page migrates, a line that has moved lives at the new place (R186, R317). -/
def homeOf (p : Pkg) (pa : Nat) : Nat :=
  match p.migs.find? (fun m => m.started && paPkg pa == p.num && decide (m.old ≤ paLocal pa) &&
      decide (paLocal pa < m.old + m.size) && decide ((paLocal pa - m.old) / 64 < m.copied)) with
  | some m => m.target + (paLocal pa - m.old)
  | none => pa

/-- A page of this package is RESIDENT (R313): its frame is not FREE, no migration of the frame names the page but a CLEAN, which
leaves it RESIDENT (R314), and none of its granules is poisoned. -/
def Pkg.resident (p : Pkg) (e : TlbEnt) : Bool :=
  let pa := paLocal e.pa
  let migrates := p.migs.any (fun m => m.started && m.op != .clean && decide (m.old < pa + e.size) && decide (pa < m.old + m.size))
  paPkg e.pa == p.num && !migrates && (List.range (e.size / 4096)).all (fun i => !(poisoned p (pa + 4096 * i) 1)) &&
    (p.frame pa).any (fun f => f.mstate != 0)

-- ## Atomics (R155)

/-- The low 32 bits sign-extended. -/
def low32s (w : W64) : W64 := (w.truncate 32).signExtend 64

/-- The new value of a word under atomic 0 AADD, 1 AMIN, 2 AMAX, 3 AOR, 4 AXCH, 5 ACAS, 6 AFADD; the word and the
operands are of its width. -/
def atomApply (op : Fin 7) (w64 u : Bool) (old a b : W64) : W64 :=
  let less := fun (x y : W64) =>
    if w64 then (if u then x.ult y else x.slt y)
    else if u then (x.truncate 32 : W32).ult (y.truncate 32) else (x.truncate 32 : W32).slt (y.truncate 32)
  let r : W64 := match op.val with
    | 0 => old + a
    | 1 => if less a old then a else old
    | 2 => if less old a then a else old
    | 3 => old ||| a
    | 4 => a
    | 5 => if old = a then b else old
    | _ => (f32Of .rn (addX .rn (f32Val (old.truncate 32)) (f32Val (a.truncate 32)))).1.zeroExtend 64
  if w64 then r else (r.truncate 32 : W32).zeroExtend 64

/-- An operand truncated to the width (R155). -/
def atWidth (w64 : Bool) (v : W64) : W64 := if w64 then v else (v.truncate 32 : W32).zeroExtend 64

-- ## Reading and writing at the home

/-- Where an entry of a table of this package lies (R186, R303): while its page migrates, a line that has moved is at its new place. A
table may not lie in another package (R303), so one whose page MOVE takes there is read at its old place until firmware has mended the
walk (DESIGN CHOICE; log 108). -/
def Pkg.entryAt (p : Pkg) (pa : Nat) : Nat :=
  let h := homeOf p (p.num * 2 ^ 48 + pa)
  if paPkg h = p.num then paLocal h else pa

/-- Bytes of local memory as they stand. -/
def Pkg.peek (p : Pkg) (pa n : Nat) : List Byte := p.mem.read pa n

/-- A line noted as dirty in its home L2 slice (R312). -/
def dirtyLine (p : Pkg) (l : Nat) : Pkg := if p.dirtyL2.contains l then p else { p with dirtyL2 := p.dirtyL2 ++ [l] }

/-- Poisoned lines of caches that a write replaces are gone: those of every L1, and those that it covers whole. -/
def Pkg.freshLines (p : Pkg) (pa n : Nat) : Pkg :=
  if p.l1Bad.isEmpty && p.l2Bad.isEmpty then p
  else { p with
    l1Bad := p.l1Bad.filter (fun b => !((linesOf (p.num * 2 ^ 48 + pa) n).contains b.2))
    l2Bad := p.l2Bad.filter (fun l => !(decide (pa ≤ 64 * l) && decide (64 * l + 64 ≤ pa + n))) }

/-- Bytes written at the home: the lines become dirty, and other packages' copies are invalidated (R177). -/
def Pkg.poke (p : Pkg) (pa : Nat) (bs : List Byte) : Pkg :=
  (((linesOf pa bs.length).foldl dirtyLine { p with mem := p.mem.write pa bs }).freshLines pa bs.length).invalidate pa bs.length

/-- A partial applied to the home value with one operation (R156). -/
def mergePart (line : Nat) (p : Pkg) (u : UPart) : Pkg :=
  let a := 64 * line + u.off
  let n := if u.w64 then 8 else 4
  let old := BitVec.ofNat 64 (leNat (p.peek a n))
  p.poke a (leBytes n (atomApply u.op u.w64 u.u old u.val 0#64).toNat)

/-- An update-only line of a core merged at its home. The updates to a poisoned line, or of a line that is poisoned in the L1, are
discarded, which is reported for each access, and ends its request (R323). -/
def mergeLine (p : Pkg) (core : Nat) (l : ULine) : Pkg :=
  let l1 := (core, p.num * 2 ^ 42 + l.line)
  if poisoned p (64 * l.line) 64 || p.l1Bad.contains l1 then
    { p with reports := p.reports ++ l.by_.map (fun b => .discarded b.1 b.2.1 b.2.2)
             errs := p.errs ++ l.by_.map (fun b => (b.2.1, 64 * l.line))
             l1Bad := p.l1Bad.filter (· != l1) }
  else (l.parts.foldl (mergePart l.line) (p.opened (64 * l.line) 64 l.key)).keyed (64 * l.line) 64 l.key

/-- A core's update-only line merged and gone. -/
def State.mergeAt (s : State) (core line : Nat) : State :=
  match s.findCore core with
  | none => s
  | some c =>
    match c.upd.find? (fun l => l.line == line) with
    | none => s
    | some l => (s.updPkg (fun p => mergeLine p core l)).updCore core (fun d => { d with upd := d.upd.filter (fun k => k.line != line) })

/-- Every update-only copy of the lines of a range merged, in ascending core number (R156: the read or store is served
only after). -/
def State.mergeRange (s : State) (pa n : Nat) : State :=
  let ls := linesOf pa n
  let holders := (s.allCores.filter (fun c => c.upd.any (fun l => ls.contains l.line))).map (·.num)
  holders.foldl (fun t c => ls.foldl (fun u l => u.mergeAt c l) t) s

/-- Bytes read at their home in this package. -/
def State.readHome (s : State) (pa n : Nat) : List Byte × State :=
  let s1 := s.mergeRange pa n
  (s1.pkg.peek pa n, s1)

/-- Bytes written at their home in this package. -/
def State.writeHome (s : State) (pa : Nat) (bs : List Byte) : State :=
  (s.mergeRange pa bs.length).updPkg (fun p => p.poke pa bs)

/-- Bytes read, or written, through a page of a key slot (R305). -/
def State.readAs (s : State) (pa n key : Nat) : List Byte × State := (s.opened pa n key).readHome pa n
def State.writeAs (s : State) (pa : Nat) (bs : List Byte) (key : Nat) : State :=
  ((s.opened pa bs.length key).writeHome pa bs).updPkg (fun p => p.keyed pa bs.length key)

-- ## Uncorrectable errors of the tiers (R322)

/-- The granule of a local address becomes poisoned. -/
def Pkg.poisonAt (p : Pkg) (pa : Nat) : Pkg :=
  let f := (p.frame pa).getD (p.freshFrame (frameIx pa))
  p.setFrame (frameIx pa) { f with poison := f.poison ||| (1#512 <<< granuleOf pa) }

def State.setPoison (s : State) (pa : Nat) : State := s.updPkg (fun p => p.poisonAt pa)

/-- The granule of a local address is poisoned in its frame record. -/
def Pkg.sickAt (p : Pkg) (pa : Nat) : Bool :=
  match p.frame pa with
  | some f => f.poison.getLsbD (granuleOf pa)
  | none => p.gone pa

/-- Fresh data is about to be written over a whole granule: its poison goes (R323). -/
def Pkg.cureGranule (p : Pkg) (pa : Nat) : Pkg :=
  let q := { p with l2Bad := p.l2Bad.filter (fun l => l / 64 != pa / 4096) }
  match q.frame pa with
  | some f => q.setFrame (frameIx pa) { f with poison := f.poison &&& ~~~(1#512 <<< granuleOf pa) }
  | none => q

/-- The clean lines of a granule read again from the backing. -/
def Pkg.refetch (p : Pkg) (f : Frame) (pa : Nat) : Pkg :=
  let base := pa / 4096 * 4096
  let from_ := f.backing + 4096 * granuleOf pa
  (List.range 64).foldl (fun q i =>
    if q.dirtyL2.contains (base / 64 + i) then q
    else { (q.moveKeys (from_ + 64 * i) (base + 64 * i) 64) with mem := q.mem.write (base + 64 * i) (q.mem.read (from_ + 64 * i) 64) }) p

/-- An uncorrectable error found at a local address: a clean backed granule is read again from its backing, when that read does not
fail (R324), and any other one is poisoned. -/
def State.uncorrectable (s : State) (pa : Nat) : State :=
  match s.pkg.frame pa with
  | some f =>
    if (tier1Die pa).isSome ∧ f.bv ∧ !(f.dirty.getLsbD (granuleOf pa)) ∧ !(s.pkg.sickAt (f.backing + 4096 * granuleOf pa)) then (s.updPkg (fun p => p.refetch f pa)).report (.refetched pa)
    else s.setPoison pa
  | none => s.setPoison pa

/-- A table entry at its home (R303). -/
def State.readWord (s : State) (pa : Nat) : Nat × State := let r := s.readHome (s.pkg.entryAt pa) 8; (leNat r.1, r.2)

/-- A fault report to firmware, once for each agent (R309). -/
def State.askFirmware (s : State) (slot : Nat) (a : Agent) (va : Nat) (k : AKind) (reason : Nat) (st : Option Stream := none) : State :=
  if (match a with | .strand _ _ => false | _ => s.pkg.faults.any (fun f => f.agent == a)) then s
  else s.updPkg (fun p => { p with
    faults := p.faults ++ [{ slot := slot, agent := a, va := va, kind := k, reason := reason, stream := st }] })

/-- A fault that stops a word of the strand in the foreground is reported too (R309). -/
def State.faultAt (s : State) (st : Stream) (va : Nat) (k : AKind) (reason : Nat) : State :=
  s.askFirmware s.strand.slot (.strand s.strand.h st) va k reason (some st)

/-- An uncorrectable error that work of a strand has met: its request is to end (R323). -/
def State.dueError (s : State) (h pa : Nat) : State := s.updPkg (fun p => { p with errs := p.errs ++ [(h, pa)] })

/-- The same, reported for the strand when its work is bound to no request. -/
def State.noteError (s : State) (h pa : Nat) : State :=
  match s.findStrand h with
  | none => s
  | some t => if t.request ≠ 0 then s.dueError h pa else s.report (.discarded t.slot h pa)

-- ## The walk (R300 to R303, R307)

/-- What a walk or a look-up finds; the last is an entry that lies in a poisoned granule, at its global physical address (R324). -/
inductive Tr where
  | ok (e : TlbEnt)
  | fault (reason : Nat)
  | poison (pa : Nat)
deriving DecidableEq, Repr

def bits (w hi lo : Nat) : Nat := w / 2 ^ lo % 2 ^ (hi - lo + 1)

/-- The index of an address at a level. -/
def walkIndex (va level : Nat) : Nat := if level = 4 then bits va 55 48 else bits va (20 + 9 * level) (12 + 9 * level)

/-- A table's address lies in tier 1 or tier 2 of this package. -/
def tableOk (p : Pkg) (pa : Nat) : Bool := paPkg pa == p.num && inMemory (paLocal pa)

def pageSize (sz : Nat) : Nat := if sz = 0 then 0x1000 else if sz = 1 then 0x10000 else if sz = 2 then 0x200000 else 0x40000000

/-- The frames a page covers. -/
def pageFrames (pa size : Nat) : List Nat :=
  (List.range (if size ≤ 0x200000 then 1 else size / 0x200000)).map (fun i => frameIx (paLocal pa + 0x200000 * i))

/-- A leaf entry checked (R303): a translation, or the reason of R309. -/
def leafCheck (p : Pkg) (slot va level w : Nat) : Tr :=
  let sz := bits w 11 10
  let size := pageSize sz
  let pa := bits w 57 12 * 4096
  let key := bits w 63 58
  let ca := bits w 9 8
  let sro := bits w 7 7 == 1
  let wr := bits w 6 6 == 1
  let levelOk := (level == 2 && sz == 3) || (level == 1 && sz == 2) || (level == 0 && decide (sz < 2))
  if bits w 4 2 ≠ 0 ∨ !levelOk ∨ pa % size ≠ 0 ∨ !(inMemory (paLocal pa)) ∨ 992 < paPkg pa ∨ 2 ≤ ca ∨ (sro ∧ wr) then .fault 4
  else if key ≠ 0 ∧ !(if paPkg pa = p.num then (tget p.keys key).isSome else p.farKeys.contains (paPkg pa, key)) then .fault 6
  else
    let fs := if paPkg pa = p.num then pageFrames pa size else []
    let state := fs.map (fun f => tget p.frames f)
    if state.any (fun f => match f with | some r => r.mstate == 0 || (!sro && r.owner != slot) | none => true) then .fault 5
    else .ok { slot := slot, va := va / size * size, size := size, pa := pa, key := key, l2only := ca == 1, sro := sro,
               w := wr, x := bits w 5 5 == 1 }

/-- The walk from a table at a level down; the tables it reaches are returned for the walk cache. -/
def walkFrom (slot va : Nat) (level table : Nat) (s : State) : Tr × List WalkEnt × State :=
  let at_ := paLocal table + 8 * walkIndex va level
  let r := s.readWord at_
  let w := r.1
  let lies := s.pkg.entryAt at_
  if poisoned s.pkg lies 8 then (.poison (s.pkg.num * 2 ^ 48 + lies), [], s)
  else if w % 2 = 0 then (.fault 1, [], r.2)
  else if bits w 1 1 = 1 then (leafCheck r.2.pkg slot va level w, [], r.2)
  else
    let next := bits w 57 12 * 4096
    if bits w 63 58 ≠ 0 ∨ bits w 11 2 ≠ 0 ∨ !(tableOk r.2.pkg next) then (.fault 4, [], r.2)
    else
      match level with
      | 0 => (.fault 4, [], r.2)
      | l + 1 =>
        let q := walkFrom slot va l next r.2
        (q.1, { slot := slot, level := l, tag := va / 2 ^ (21 + 9 * l), table := next } :: q.2.1, q.2.2)

/-- The lowest table a walk cache holds for an address (R307): its level and address. -/
def walkStart (ws : List WalkEnt) (slot va root : Nat) : Nat × Nat :=
  match [0, 1, 2, 3].findSome? (fun l => ws.find? (fun e => e.slot == slot && e.level == l && e.tag == va / 2 ^ (21 + 9 * l))) with
  | some e => (e.level, e.table)
  | none => (4, root)

/-- An entry put into a cache of a capacity; the oldest leaves (log 5). -/
def cachePut (cap : Nat) (same : α → Bool) (l : List α) (e : α) : List α :=
  let k := l.filter (fun x => !(same x)) ++ [e]
  k.drop (k.length - cap)

def sameWalk (e f : WalkEnt) : Bool := e.slot == f.slot && e.level == f.level && e.tag == f.tag
def samePage (e f : TlbEnt) : Bool := e.slot == f.slot && e.va == f.va && e.size == f.size

/-- The root of a context's page table (R281). -/
def Ctx.root (c : Ctx) : Nat := bits ((c.words.getD 0 0#64).toNat) 57 12 * 4096

/-- A walk through the slots of a die (R307): its translation, with the die's walk cache filled. -/
def State.walk (s : State) (die slot va : Nat) : Tr × State :=
  match s.ctxAt slot with
  | none => (.fault 1, s)
  | some c =>
    let d := s.pkg.dies.getD die Die.start
    let st := walkStart d.walks slot va c.root
    if !(tableOk s.pkg st.2) then (.fault 4, s)
    else
      let q := walkFrom slot va st.1 st.2 s
      let fill := fun (d : Die) => { d with walks := q.2.1.foldl (fun l e => cachePut Config.walkCache (sameWalk e) l e) d.walks }
      (q.1, q.2.2.updPkg (fun p => { p with dies := p.dies.modify die fill }))

/-- The entry of a TLB that translates an address. -/
def tlbFind (l : List TlbEnt) (slot va : Nat) : Option TlbEnt :=
  l.find? (fun e => e.slot == slot && decide (e.va ≤ va) && decide (va < e.va + e.size))

/-- The permission a kind of access needs (R302, R306, R308): none, or the reason it lacks. -/
def permFault (e : TlbEnt) (k : AKind) : Option Nat :=
  match k with
  | .read => none
  | .fetch => if e.x then none else some 3
  | .write => if e.w && !e.sro then none else some 2
  | .atomic => if e.w && !e.sro then none else some 2

def withPerm (e : TlbEnt) (k : AKind) : Tr :=
  match permFault e k with
  | none => .ok e
  | some r => .fault r

/-- A translation put into the core's TLB and its die's (R143): both are kept fully associative, though the die's has 8 ways, for no rule
gives their sets (DESIGN CHOICE; log 5). -/
def State.tlbFill (s : State) (e : TlbEnt) : State :=
  let die := dieOf s.core.num
  { s with core := { s.core with tlb := cachePut Config.coreTlb (samePage e) s.core.tlb e },
           pkg := { s.pkg with dies := s.pkg.dies.modify die (fun d => { d with tlb := cachePut Config.dieTlb (samePage e) d.tlb e }) } }

/-- Translation for the core in the foreground: its TLB, its die's, a walk (R143, R307). -/
def State.translate (s : State) (slot va : Nat) (k : AKind) : Tr × State :=
  match tlbFind s.core.tlb slot va with
  | some e => (withPerm e k, s)
  | none =>
    let die := dieOf s.core.num
    match tlbFind (s.pkg.dies.getD die Die.start).tlb slot va with
    | some e => (withPerm e k, s.tlbFill e)
    | none =>
      let q := s.walk die slot va
      match q.1 with
      | .fault r => (.fault r, q.2)
      | .poison a => (.poison a, q.2)
      | .ok e => (withPerm e k, q.2.tlbFill e)

/-- The die through whose slots an engine walks (R307): the die whose memory holds the page as the tables stand; for any other
page die 0, since busy slots are not modelled (log 72). -/
def State.engDie (s : State) (slot va : Nat) : Nat :=
  match s.ctxAt slot with
  | none => 0
  | some c =>
    if !(tableOk s.pkg c.root) then 0
    else match (walkFrom slot va 4 c.root s).1 with
      | .ok e => if paPkg e.pa = s.pkg.num then (tier1Die (paLocal (e.pa + (va - e.va)))).getD 0 else 0
      | .fault _ | .poison _ => 0

/-- Translation for a Taproot engine: the engine TLB, then a walk (R307). -/
def State.engTranslate (s : State) (slot va : Nat) (k : AKind) : Tr × State :=
  match tlbFind s.pkg.engTlb slot va with
  | some e => (withPerm e k, s)
  | none =>
    let q := s.walk (s.engDie slot va) slot va
    match q.1 with
    | .fault r => (.fault r, q.2)
    | .poison a => (.poison a, q.2)
    | .ok e => (withPerm e k, q.2.updPkg (fun p => { p with engTlb := cachePut Config.engTlb (samePage e) p.engTlb e }))

/-- The global physical address that an entry gives an address. -/
def TlbEnt.addr (e : TlbEnt) (va : Nat) : Nat := e.pa + (va - e.va)

-- ## Dropping translations (R310, R311)

def overlapsPage (e : TlbEnt) (slot lo hi : Nat) : Bool := e.slot == slot && decide (e.va < hi) && decide (lo < e.va + e.size)

/-- Every entry of a context for a range dropped at package scope, with the context's walk-cache entries. -/
def State.dropPkg (s : State) (slot lo hi : Nat) : State :=
  let keep := fun (l : List TlbEnt) => l.filter (fun e => !(overlapsPage e slot lo hi))
  (s.mapCores (fun c => { c with tlb := keep c.tlb })).updPkg (fun p =>
    { p with dies := p.dies.map (fun d => { d with tlb := keep d.tlb, walks := d.walks.filter (fun w => w.slot != slot) }),
             engTlb := keep p.engTlb })

/-- As dropPkg, for one die: its cores, its TLB and its walk cache. -/
def State.dropDie (s : State) (die slot lo hi : Nat) : State :=
  let keep := fun (l : List TlbEnt) => l.filter (fun e => !(overlapsPage e slot lo hi))
  (s.mapCores (fun c => if dieOf c.num = die then { c with tlb := keep c.tlb } else c)).updPkg (fun p =>
    { p with dies := p.dies.modify die (fun d => { d with tlb := keep d.tlb, walks := d.walks.filter (fun w => w.slot != slot) }) })

/-- As dropPkg, for the core in the foreground. -/
def State.dropCore (s : State) (slot lo hi : Nat) : State :=
  { s with core := { s.core with tlb := s.core.tlb.filter (fun e => !(overlapsPage e slot lo hi)) } }

-- ## Engine accesses to a context's memory

/-- Pieces of a range that lie in one 4 KiB page each. -/
def pieces (va n : Nat) : List (Nat × Nat) :=
  match n with
  | 0 => []
  | n =>
    let firstLen := min n (4096 - va % 4096)
    (va, firstLen) :: (List.range ((n - firstLen + 4095) / 4096)).map (fun i =>
      let a := va + firstLen + 4096 * i
      (a, min 4096 (n - firstLen - 4096 * i)))

/-- Pieces of a range that lie in one 64-byte line each. -/
def linePieces (va n : Nat) : List (Nat × Nat) :=
  match n with
  | 0 => []
  | n =>
    let f := min n (64 - va % 64)
    (va, f) :: (List.range ((n - f + 63) / 64)).map (fun i => (va + f + 64 * i, min 64 (n - f - 64 * i)))

/-- What an engine's access to memory comes to. -/
inductive Eng (α : Type) where
  | ok (v : α)
  | fault (va reason : Nat)
  | poison (pa : Nat)
  | remote (pa : Nat)      -- the byte's home is another package
deriving DecidableEq, Repr

/-- A line of another package that the remote cache does not hold: it is to be asked for, unless it has been and could not be
had (R339): a refused line names package 1,023, which is no package, and an unreachable one reads as an uncorrectable error. -/
def State.farLine (s : State) (pa : Nat) : Eng (List Byte) × State :=
  let line := pa / 64 * 64
  match s.pkg.deadLines.find? (fun d => d.1 == line) with
  | none => (.remote pa, s)
  | some (_, denied) =>
    (if denied then .remote (1023 * 2 ^ 48 + paLocal pa) else .poison pa,
     s.updPkg (fun p => { p with deadLines := p.deadLines.filter (fun d => d.1 != line) }))

/-- The copy of a remote line that a read may take: of a page with ca = 0 one in the remote cache, else the line that was sent
for this read (R304). -/
def Pkg.copyOf (p : Pkg) (who : Asker) (l2only : Bool) (pa : Nat) : Option RLine :=
  let once := ((p.onceLines.find? (fun l => l.1 == who && l.2.pa == pa / 64 * 64)).map (·.2))
  if l2only then once
  else match p.rcache.find? (fun l => l.pa == pa / 64 * 64) with
    | some l => some l
    | none => once

/-- The key slot of the page at a global physical address, as a translation of this package names it (R302). -/
def State.keyOf (s : State) (gpa : Nat) : Nat :=
  let hit := fun (l : List TlbEnt) => l.find? (fun e => e.key != 0 && decide (e.pa ≤ gpa) && decide (gpa < e.pa + e.size))
  match hit s.core.tlb with
  | some e => e.key
  | none => match s.pkg.dies.findSome? (fun d => hit d.tlb) with
    | some e => e.key
    | none => ((hit s.pkg.engTlb).map (·.key)).getD 0

/-- The lines sent for a read are used up. -/
def State.usedUp (s : State) (who : Asker) : State :=
  if s.pkg.onceLines.isEmpty then s
  else s.updPkg (fun p => { p with onceLines := p.onceLines.filter (fun l => l.1 != who) })

/-- The pages of a range of a context are mapped, resident and in .dev storage of the context (R245, R282). -/
def State.residentRange (s : State) (slot va n : Nat) : Bool :=
  (pieces va n).all (fun q => match (s.engTranslate slot q.1 .read).1 with
    | .ok e => s.pkg.resident e
    | .fault _ | .poison _ => false)

/-- Bytes of a context read by a Taproot engine. -/
def State.engRead (s : State) (slot va n : Nat) : Eng (List Byte) × State :=
  let r : Eng (List Byte) × State := (linePieces va n).foldl (fun acc pc =>
    match acc.1 with
    | .ok bs =>
      let q := acc.2.engTranslate slot pc.1 .read
      match q.1 with
      | .fault r => (.fault pc.1 r, q.2)
      | .poison a => (.poison a, q.2)
      | .ok e =>
        let pa := homeOf q.2.pkg (e.addr pc.1)
        if paPkg pa ≠ q.2.pkg.num then
          match q.2.pkg.copyOf .none e.l2only pa with
          | some l => (.ok (bs ++ (l.data.drop (pa % 64)).take pc.2), q.2)
          | none => q.2.farLine pa
        else if poisoned q.2.pkg (paLocal pa) pc.2 then (.poison pa, q.2)
        else let r := q.2.readAs (paLocal pa) pc.2 e.key; (.ok (bs ++ r.1), r.2)
    | .fault a r => (.fault a r, acc.2)
    | .poison a => (.poison a, acc.2)
    | .remote a => (.remote a, acc.2)) (.ok [], s)
  match r.1 with
  | .ok _ => (r.1, r.2.usedUp .none)
  | _ => r

/-- Whether an engine may write a range: every piece mapped, writable, in this package and not poisoned. -/
def State.engCheck (s : State) (slot va n : Nat) : Eng Unit × State :=
  (linePieces va n).foldl (fun acc pc =>
    match acc.1 with
    | .ok _ =>
      let q := acc.2.engTranslate slot pc.1 .write
      match q.1 with
      | .fault r => (.fault pc.1 r, q.2)
      | .poison a => (.poison a, q.2)
      | .ok e =>
        let pa := homeOf q.2.pkg (e.addr pc.1)
        if paPkg pa ≠ q.2.pkg.num then (.remote pa, q.2)
        else if poisoned q.2.pkg (paLocal pa) pc.2 then (.poison pa, q.2) else (.ok (), q.2)
    | .fault a r => (.fault a r, acc.2)
    | .poison a => (.poison a, acc.2)
    | .remote a => (.remote a, acc.2)) (.ok (), s)

/-- Bytes of a context written by a Taproot engine, whole or not at all. -/
def State.engWrite (s : State) (slot va : Nat) (bs : List Byte) : Eng Unit × State :=
  let c := s.engCheck slot va bs.length
  match c.1 with
  | .ok _ =>
    (.ok (), (linePieces va bs.length).foldl (fun t pc =>
      let q := t.engTranslate slot pc.1 .write
      match q.1 with
      | .fault _ | .poison _ => q.2
      | .ok e => q.2.writeAs (paLocal (homeOf q.2.pkg (e.addr pc.1))) ((bs.drop (pc.1 - va)).take pc.2) e.key) c.2)
  | .fault a r => (.fault a r, c.2)
  | .poison a => (.poison a, c.2)
  | .remote a => (.remote a, c.2)

/-- An 8-byte word of a context read by an engine, for a place already known to be readable. -/
def State.engWord (s : State) (slot va : Nat) : Eng W64 × State :=
  let r := s.engRead slot va 8
  match r.1 with
  | .ok bs => (.ok (BitVec.ofNat 64 (leNat bs)), r.2)
  | .fault a q => (.fault a q, r.2)
  | .poison a => (.poison a, r.2)
  | .remote a => (.remote a, r.2)

/-- A best-effort engine write of a word: performed where the page allows it. Used for status words whose failure the spec
reports nowhere else. -/
def State.engPut (s : State) (slot va : Nat) (w : W64) : State := (s.engWrite slot va (leBytes 8 w.toNat)).2

/-- The 8-byte words of a byte list. -/
def wordsOf (bs : List Byte) : List W64 := (List.range (bs.length / 8)).map (fun i => BitVec.ofNat 64 (leNat ((bs.drop (8 * i)).take 8)))

end Sys2Proof.Machine
end

