-- ==== Sys2Proof/Machine/Operands.lean ====
section
/-! DEFINITION. The operand forms: scalar and vector sources and destinations, guards, and the shape of a scalar word
(spec/03_core.md R56 to R61, R69, spec/04_scalar.md R82, spec/05_vector.md R111, R112). -/

namespace Sys2Proof.Machine

-- ## Scalar slots

/-- The pop of a scalar source (R59, R60). -/
def sPops : SOp → List Pop
  | .lq q => [⟨true, q, false⟩]
  | .sq q => [⟨false, q, false⟩]
  | .reg _ => []
  | .none => []

/-- The push of a scalar destination (R59, R60). -/
def sPushes : SOp → List (Bool × Fin 4)
  | .lq q => [(true, q)]
  | .sq q => [(false, q)]
  | .reg _ => []
  | .none => []

/-- The scalar value of an entry. -/
def QVal.scalar : QVal → W64
  | .s w => w
  | .v _ _ _ => 0#64

/-- The containers of an entry. -/
def QVal.vector : QVal → VReg
  | .s _ => VReg.zero
  | .v _ _ cs => cs

/-- The scalar at the head of a queue. -/
def headScalar (l : List QEnt) : W64 :=
  match l.head? with
  | some e => e.val.scalar
  | none => 0#64

/-- The vector at the head of a queue. -/
def headVector (l : List QEnt) : VReg :=
  match l.head? with
  | some e => e.val.vector
  | none => VReg.zero

/-- The value of a scalar source, read at issue and popped from a queue (R56, R59, R68). -/
def takeS (o : SOp) (s : State) : W64 × State :=
  match o with
  | .reg n => (s.seq.get n, s)
  | .lq q => (headScalar (s.strand.queue true q), s.popQ true q)
  | .sq q => (headScalar (s.strand.queue false q), s.popQ false q)
  | .none => (0#64, s)

/-- The values of several scalar sources in field order (R56). -/
def takeSs (os : List SOp) (s : State) : List W64 × State :=
  match os with
  | [] => ([], s)
  | o :: r => let p := takeS o s; let q := takeSs r p.2; (p.1 :: q.1, q.2)

/-- A scalar result (R82): to a register with its bound L, to a queue, or discarded. -/
def putS (d : SOp) (L : Nat) (v : W64) (s : State) : State :=
  match d with
  | .reg n => putResult (.scal s.stream n) (BitVec.allOnes 512) (.s v) L s
  | .lq q => s.pushQ true q (.s v) L
  | .sq q => s.pushQ false q (.s v) L
  | .none => s

/-- A word's answer through its gate; `bad` answers for what is wrong with its queues. -/
def gatedOr (pops : List Pop) (pushes : List (Bool × Fin 4)) (s : State) (bad : Cause × W64 → Out) (k : Out) : Out :=
  match gate pops pushes s with
  | .go => k
  | .stall => stallOut s
  | .trap c v => bad (c, v)

/-- A word's answer through its gate. -/
def gated (pops : List Pop) (pushes : List (Bool × Fin 4)) (s : State) (k : Out) : Out :=
  gatedOr pops pushes s (fun t => trapOut t.1 t.2 s) k

/-- Of what is wrong with a word's queues and its other causes, the first in the order of R73. -/
def trapFirst (pre : List (Cause × W64)) (s : State) (t : Cause × W64) : Out :=
  match firstTrap (pre ++ [t]) with
  | some u => trapOut u.1 u.2 s
  | none => trapOut t.1 t.2 s

/-- A word whose other causes `pre` may come before one of its queues (R73). -/
def gatedPre (pre : List (Cause × W64)) (pops : List Pop) (pushes : List (Bool × Fin 4)) (s : State) (k : Out) : Out :=
  gatedOr pops pushes s (trapFirst pre s) k

/-- The values of the scalar sources that can be read: of a queue only from a landed scalar entry without a mark. -/
def knowns : List SOp → State → List (Option W64)
  | [], _ => []
  | o :: r, s =>
    let ok := (popEnts s.strand (sPops o)).all (fun e => e.2.1.any (fun x => x.landed s.cyc && (entTraps s.strand e.1 x).isEmpty))
    (if ok then some (takeS o s).1 else none) :: knowns r (takeS o s).2

/-- The k-th of the values that can be read. -/
def known (l : List (Option W64)) (k : Nat) : Option W64 := (l[k]?).join

/-- A cause when a value that can be read is bad. -/
def causeIf (b : Bool) (c : Cause) (v : W64) : List (Cause × W64) := if b then [(c, v)] else []

/-- A scalar word: sources read in field order, one result (R56, R82). -/
def scalarWord (d : SOp) (srcs : List SOp) (L : Nat) (f : List W64 → W64) (s : State) : Out :=
  gated (srcs.flatMap sPops) (sPushes d) s
    (let r := takeSs srcs s
     retire s (putS d L (f r.1) r.2))

/-- A word that writes the link or another result and transfers control. -/
def putLink (d : LinkDst) (v : W64) (s : State) : State :=
  match d with
  | .reg n => putResult (.scal s.stream n) (BitVec.allOnes 512) (.s v) 1 s
  | .none => s

/-- A word that writes a predicate of its stream with L = 1 or more: 0 outside the shape (R61). -/
def putP (p : Fin 8) (v : Pred) (L : Nat) (s : State) : State :=
  putResult (.pred s.stream p) (BitVec.allOnes 512) (.p (v &&& shapeMask s.shape)) L s

-- ## The operand codes of a word (R59)

/-- The operand codes of a word (R59): of its queue or register destinations, and of its sources. -/
def slotCodes : Instr → List (BitVec 6) × List (BitVec 6)
  | .call d _ | .lidx d _ _ | .rds d _ | .limm d _ | .pcnt d _ | .pfirst d _ | .topkd d _ | .rstat d _ _
  | .mprog d _ _ | .qpop d _ => ([d.code], [])
  | .jmp d s1 | .addi d s1 _ | .andi d s1 _ | .ori d s1 _ | .xori d s1 _ | .lhi d s1 _ _ | .clz d s1 | .popc d s1
  | .mov d s1 | .bfx _ d s1 _ _ | .vabs d s1 _ _ | .vneg d s1 _ _ | .vcvt d s1 _ _ _ | .vbcast d s1 _ | .vmov d s1
  | .vtrn d s1 | .vred _ d s1 _ | .vscan _ d s1 _ | .vclass d s1 _ | .vtf d s1 _ _ _ | .vfb4d d s1 _ _
  | .vfb4e d s1 _ _ _ | .vtrit d s1 _ | .fexp d s1 _ _ | .flog d s1 _ _ | .frcp d s1 _ _ | .frsq d s1 _ _
  | .fsqrt d s1 _ | .ftanh d s1 _ _ | .fsig d s1 _ _ | .vtopk _ d s1 _ _ | .vargmx d s1 _ => ([d.code], [s1.code])
  | .loop c _ => ([], [c.code])
  | .wrs _ s1 | .cmpi _ _ s1 _ | .pset _ s1 _ | .vtopkm _ s1 _ _ | .topks s1 => ([], [s1.code])
  | .add d s1 s2 | .sub d s1 s2 | .mul d s1 s2 | .mulh _ d s1 s2 | .div _ d s1 s2 | .rem _ d s1 s2 | .and d s1 s2
  | .or d s1 s2 | .xor d s1 s2 | .shl d s1 s2 | .shr d s1 s2 | .sha d s1 s2 | .min _ d s1 s2 | .max _ d s1 s2
  | .sel d s1 s2 _ | .bfi d s1 s2 _ _ | .vadd d s1 s2 _ | .vsub d s1 s2 _ | .vmul d s1 s2 _ | .vmin d s1 s2 _
  | .vmax d s1 s2 _ | .vsel d s1 s2 _ | .vand d s1 s2 | .vor d s1 s2 | .vxor d s1 s2 | .vshl d s1 s2 _ _
  | .vshr _ d s1 s2 _ _ | .viota d s1 s2 _ _ | .vrot _ d s1 s2 | .vperm d s1 s2 | .vext d s1 s2 | .vscale d s1 s2 _
  | .fdiv d s1 s2 _ | .fexpq d s1 s2 _ => ([d.code], [s1.code, s2.code])
  | .mad d s1 s2 s3 | .vfma d s1 s2 s3 _ | .vfms d s1 s2 s3 _ | .vdot d s1 s2 s3 _ | .vins d s1 s2 s3
  | .vtdot d s1 s2 s3 _ => ([d.code], [s1.code, s2.code, s3.code])
  | .cmp _ _ s1 s2 | .vcmp _ s1 s2 _ _ | .vtcmp _ s1 s2 _ _ => ([], [s1.code, s2.code])
  | .ld _ d base _ | .lda _ _ d base _ | .ldg d base => ([lqCode d], [base.code])
  | .ldv d base stride => ([lqCode d], [base.code, stride.code])
  | .st _ data base _ => ([], [data.code, base.code])
  | .stv base stride data => ([], [base.code, stride.code, sqCode data])
  | .pref base _ => ([], [base.code])
  | .aadd _ d addr s2 | .amin _ _ d addr s2 | .amax _ _ d addr s2 | .aor _ d addr s2 | .axch _ d addr s2
  | .afadd d addr s2 => ([d.code], [addr.code, s2.code])
  | .acas _ d addr s2 s3 => ([d.code], [addr.code, s2.code, s3.code])
  | .sixcfg meta_ cfg => ([], [meta_.code, cfg.code])
  | .cflush _ base len | .cinv base len | .tlbinv base len _ => ([], [base.code, len.code])
  | .ringcfg _ img => ([], [img.code])
  | .cpy d src dst len => ([d.code], [src.code, dst.code, len.code])
  | .cpyRing d src len _ => ([d.code], [src.code, len.code])
  | .chain _ head => ([], [head.code])
  | .cwait d slot mlo mhi => ([d.code], [slot.code, mlo.code, mhi.code])
  | .ctest d slot chunk => ([d.code], [slot.code, chunk.code])
  | .mdadd _ peer _ _ => ([], [peer.code])
  | .mwait d sel => ([d.code], (match sel with | .all => [] | .tile _ c => [c.code]))
  | .task rec _ => ([], [rec.code])
  | .evsig name _ | .evwait name _ | .evclr name => ([], [name.code])
  | .evtest d name => ([d.code], [name.code])
  | .barinit bar cnt => ([], [bar.code, cnt.code])
  | .bararr d bar _ => ([d.code], [bar.code])
  | .barexp bar slot => ([], [bar.code, slot.code])
  | .barwait d bar ph _ => ([d.code], [bar.code, ph.code])
  | .launch d rec _ | .kvcompact d rec | .whorlOpen d rec | .whorlClose d rec | .whorlRing d rec | .whorlUnring d rec
  | .reshard d rec | .migrAdmit d rec | .migrHand d rec | .migrDone d rec | .migrCancel d rec => ([d.code], [rec.code])
  | .cancel d tgt _ | .gcnt d tgt _ => ([d.code], [tgt.code])
  | .qpush val => ([], [val.code])
  | .graft d src dst => ([d.code], [src.code, dst.code])
  | .kvwalk d page => ([lqCode d], [page.code])
  | .kvseal d page => ([d.code], [page.code])
  | .ballot d whorl hash => ([d.code], [whorl.code, hash.code])
  | .beamix d tbl perm => ([d.code], [tbl.code, perm.code])
  | _ => ([], [])

/-- The accumulator tile that a word reads. -/
def tileRead : Instr → Option (Fin 8)
  | .mma acc _ _ _ _ _ | .mstacc _ acc _ _ | .mdadd acc _ _ _ => some acc
  | _ => none

/-- A word pops a queue or pushes to one (R66). -/
def queueWord (i : Instr) : Bool := ((slotCodes i).1 ++ (slotCodes i).2).any (fun c => decide (44 ≤ c.toNat) && decide (c.toNat < 52))

/-- The operand codes whose storage a word reads: registers and queues, not register 0 of a scalar file, which reads as zero
(R55), and a tile by its number (R26, R72, log 69). -/
def readCodes (i : Instr) (vector : Bool) : List W64 :=
  (((slotCodes i).2.filter (fun c => decide (c.toNat < 52) && (vector || c != 0#6))).map (·.zeroExtend 64)) ++
    (tileRead i).toList.map (fun t => BitVec.ofNat 64 t.val)

-- ## Guards (R61)

/-- The guard of a header at a predicate position. -/
def guardAt (h : Hdr) (q : Seq) (p : Nat) : Bool :=
  if h.gm = 0#2 then true
  else if h.gm = 1#2 then (q.pred ⟨h.ga.toNat, h.ga.isLt⟩).getLsbD p
  else if h.gm = 2#2 then (q.pred ⟨h.ga.toNat, h.ga.isLt⟩).getLsbD p && (q.pred ⟨h.gb.toNat, h.gb.isLt⟩).getLsbD p
  else (q.pred ⟨h.ga.toNat, h.ga.isLt⟩).getLsbD p && !(q.pred ⟨h.gb.toNat, h.gb.isLt⟩).getLsbD p

/-- The guard of a scalar-class word: element (0, 0). -/
def guardScalar (h : Hdr) (q : Seq) : Bool := guardAt h q 0

/-- The elements of the shape whose guard is true, for the vector-class word being executed. -/
def guardMask (s : State) : Pred :=
  let h := hdrOf s.ir
  predOf (fun p => inShape s.strand.vshape p && guardAt h s.strand.x p)

-- ## Vector slots

/-- The pop of a vector source. -/
def vPops : VSrc → List Pop
  | .lq q => [⟨true, q, true⟩]
  | .v _ => []
  | .o _ => []
  | .l _ => []
  | .none => []

/-- The push of a vector destination. -/
def vPushes : VDst → List (Bool × Fin 4)
  | .sq q => [(false, q)]
  | .v _ => []
  | .o _ => []
  | .none => []

/-- The slot that l<n> names before a word's own advance (R69): l0 the slot claimed last. -/
def lastSlot (t : Strand) (n : Fin 4) : Fin 4 := t.lpos - n

/-- The value of a vector source (R59, R69). -/
def takeV (o : VSrc) (s : State) : VReg × State :=
  match o with
  | .v n => (s.strand.v.getD n.val VReg.zero, s)
  | .o n => (s.strand.o.getD n.val VReg.zero, s)
  | .l n => (s.strand.l.getD (lastSlot s.strand n).val VReg.zero, s)
  | .lq q => (headVector (s.strand.queue true q), s.popQ true q)
  | .none => (VReg.zero, s)

def takeVs (os : List VSrc) (s : State) : List VReg × State :=
  match os with
  | [] => ([], s)
  | o :: r => let p := takeV o s; let q := takeVs r p.2; (p.1 :: q.1, q.2)

/-- What a vector-shaped destination holds once the results in flight have landed. -/
def Strand.latest (t : Strand) (d : FDest) (v : VReg) : VReg :=
  t.pend.foldl (fun acc f => if f.dest = d then vmerge f.left f.val.vector acc else acc) v

/-- What a destination holds where the guard is false: a register's old value, 0 for a queue or none (R61). An earlier write to it that is
still in flight counts as landed: R61 and R69 do not say whether it does (DESIGN CHOICE; log 111). -/
def oldVector (d : VDst) (s : State) : VReg :=
  match d with
  | .v n => s.strand.latest (.vec n) (s.strand.v.getD n.val VReg.zero)
  | .o n => s.strand.latest (.opr n) (s.strand.o.getD n.val VReg.zero)
  | .sq _ => VReg.zero
  | .none => VReg.zero

/-- The last-result ring advances and its new slot takes a value (R69). -/
def pushLast (v : VReg) (L : Nat) (s : State) : State :=
  let k : Fin 4 := s.strand.lpos + 1
  putResult (.last k) (BitVec.allOnes 512) (.v v) L { s with strand := { s.strand with lpos := k } }

/-- The vector result of a word over a result shape: `m` marks the elements whose guard is true. The destination keeps its
old value elsewhere, a queue entry holds 0 there, and the last-result slot holds what the destination holds, with 0 outside
the shape (R61, R69). -/
def putVsh (sh : BitVec 13) (d : VDst) (m : Pred) (v : VReg) (L : Nat) (s : State) : State :=
  let whole := vmerge m v (oldVector d s)
  let inside := vmerge (shapeMask sh) whole VReg.zero
  let s1 :=
    match d with
    | .v n => putResult (.vec n) m (.v v) L s
    | .o n => putResult (.opr n) m (.v v) L s
    | .sq q => s.pushQ false q (.v (shRows sh) (shCols sh) inside) L
    | .none => s
  pushLast inside L s1

/-- The vector result of a word over vshape. -/
def putV (d : VDst) (m : Pred) (v : VReg) (L : Nat) (s : State) : State := putVsh s.strand.vshape d m v L s

/-- The predicate result of a vector-class word (R61, R114): written where the guard is true and, with 0, outside the
shape; the last-result slot holds 1 or 0 per element (log 7), where the guard is false that of the register once what is in flight has
landed (DESIGN CHOICE; log 111). -/
def putVP (p : Fin 8) (m b : Pred) (L : Nat) (s : State) : State :=
  let sh := shapeMask s.strand.vshape
  let old := s.strand.pend.foldl (fun (acc : Pred) f =>
    if f.dest = .pred .x p then (f.val.predicate &&& f.left) ||| (acc &&& ~~~f.left) else acc) (s.strand.x.pred p)
  let whole := (b &&& m) ||| (old &&& ~~~m)
  let slot := (List.range 512).map (fun k => if sh.getLsbD k && whole.getLsbD k then 1#32 else 0#32)
  pushLast slot L (putResult (.pred .x p) (m ||| ~~~sh) (.p (b &&& m)) L s)

/-- Flags a word raises, landing by issue + L (R36). -/
def putFlags (f : BitVec 5) (t : BitVec 3) (L : Nat) (s : State) : State :=
  let s1 := if f = 0#5 then s else putResult .fpflags (f.zeroExtend 512) (.s (f.zeroExtend 64)) L s
  if t = 0#3 then s1 else putResult .tstat (t.zeroExtend 512) (.s (t.zeroExtend 64)) L s1

end Sys2Proof.Machine
end

