-- ==== Sys2Proof/Machine/Access.lean ====
section
/-! DEFINITION. The access instructions of the A stream, opcodes 0xA0 to 0xB7 (spec/06_access.md R141 to R159, R171, R172,
spec/07_consistency.md R180 to R183, spec/15_page.md R311): their checks and what they hand to the access pipeline. -/

namespace Sys2Proof.Machine

-- ## Addresses (R141, R142)

/-- Two ranges share a byte. -/
def overlap (a n b m : Nat) : Bool := decide (a < b + m) && decide (b < a + n)

/-- The address fails a check of R142: an access of n bytes that needs an alignment; `ep` for LD.s64 and ST.s64. -/
def misplaced (a : W64) (n align : Nat) (ep : Bool) : Bool :=
  let v := a.toNat
  decide (Config.vaEnd ≤ v) || v % align != 0 ||
  overlap v n Config.localHole (Config.scratchBase - Config.localHole) ||
  (decide (Config.localBase ≤ v) && decide (Config.vaEnd < v + n)) ||
  (!ep && overlap v n Config.localBase (Config.localHole - Config.localBase))

/-- The scratchpad window holds an address. -/
def inScratch (va : Nat) : Bool := decide (Config.scratchBase ≤ va)
/-- The local window holds an address. -/
def inLocal (va : Nat) : Bool := decide (Config.localBase ≤ va)
/-- An endpoint window holds an address. -/
def inEndpoint (va : Nat) : Bool := decide (Config.localBase ≤ va) && decide (va < Config.localHole)
/-- The endpoint of an address of an endpoint window. -/
def endpointOf (va : Nat) : Nat := (va - Config.localBase) / 0x2000

-- ## Translation before issue (R143)

/-- The entry of the core's TLB or its die's for an address. -/
def State.tlbHit (s : State) (va : Nat) : Option TlbEnt :=
  match tlbFind s.core.tlb s.strand.slot va with
  | some e => some e
  | none => tlbFind (s.pkg.dies.getD (dieOf s.core.num) Die.start).tlb s.strand.slot va

/-- The pages of ranges, by the first address touched in each 4 KiB piece, in rising order. -/
def touched (rs : List (Nat × Nat)) : List Nat :=
  ((rs.flatMap (fun r => (pieces r.1 r.2).map (·.1))).filter (fun a => !(inLocal a))).mergeSort (fun a b => decide (a ≤ b))

/-- What translation before issue answers: go, a page to walk for, the lowest faulting address with its reason, or where a walk
met an uncorrectable error. -/
inductive Look where
  | go
  | walk (va : Nat)
  | fault (va reason : Nat)
  | error (pa : Nat)
deriving DecidableEq, Repr

/-- The pages looked up in rising order. -/
def lookAll (k : AKind) (s : State) : List Nat → Look
  | [] => .go
  | a :: r =>
    match s.tlbHit a with
    | some e => match permFault e k with
      | some w => .fault a w
      | none => lookAll k s r
    | none =>
      match s.strand.failsVa, s.strand.failsPa with
      | some (v, w), f => if v = a then .fault a w else if f.any (fun f => f.1 == a) then .error (f.elim 0 (·.2)) else .walk a
      | none, f => if f.any (fun f => f.1 == a) then .error (f.elim 0 (·.2)) else .walk a

/-- A store of the side log wrote the byte (R145). -/
def AccOp.writes : AccOp → List (Nat × Nat)
  | .store cells => cells.map (fun c => (c.1, 1))
  | .atom _ w64 _ va _ _ _ => [(va, if w64 then 8 else 4)]
  | _ => []

/-- The lowest byte of ranges that a side-log entry writes (R145). -/
def loggedByte (t : Strand) (rs : List (Nat × Nat)) : Option Nat :=
  let ws := t.sidelog.flatMap (fun a => a.op.writes)
  let hits := rs.flatMap (fun r => (ws.filter (fun w => overlap r.1 r.2 w.1 w.2)).map (fun w => max r.1 w.1))
  hits.foldl (fun m a => match m with | none => some a | some b => some (min a b)) none

/-- An AccOp is a TLBINV: later accesses translate after it (R311). -/
def AccOp.isTlbinv : AccOp → Bool
  | .tlbinv _ _ _ => true
  | _ => false

/-- A word that places data in a load queue issues once every page it touches is translated with permission (R143); the
faults come before a trap of its push (R73). A fault is reported to firmware (R309). -/
def translated (rs : List (Nat × Nat)) (k : AKind) (s : State) (go : Out) : Out :=
  if s.strand.acc.any (fun a => a.op.isTlbinv) then stallOut s
  else
    match lookAll k s (touched rs) with
    | .fault va w => trapOut .pageLoad (BitVec.ofNat 64 va) (s.faultAt s.stream va k w)
    | .error pa => trapOut .eccUncorr (BitVec.ofNat 64 pa) (s.noteError s.strand.h pa)
    | .walk va =>
      .next { s with strand := { s.strand.setSeq s.stream
                { s.seq with waitFrom := some (s.seq.waitFrom.getD s.cyc), tried := s.cyc } with wants := some va } }
    | .go =>
      match loggedByte s.strand rs with
      | some va => trapOut .pageLoad (BitVec.ofNat 64 va) s
      | none => go

-- ## The pipeline

/-- An operation handed to the access pipeline behind issue; its number is the strand's nid before. -/
def addAccVia (pages : List TlbEnt) (op : AccOp) (s : State) : State :=
  { s with strand := { s.strand with
      acc := s.strand.acc ++ [{ id := s.strand.nid, st := s.stream, op := op, sent := false, pages := pages, cyc := s.cyc }],
      nid := s.strand.nid + 1 } }

def addAcc (op : AccOp) (s : State) : State := addAccVia [] op s

/-- An entry reserved in a load queue and the operation that will fill it, with the translations of ranges as they stand. -/
def addLoadVia (pages : List TlbEnt) (q : Fin 4) (v : QVal) (op : Nat → AccOp) (s : State) : State :=
  addAccVia pages (op s.strand.nid) (s.reserveQ true q v)

def addLoad (q : Fin 4) (v : QVal) (op : Nat → AccOp) (s : State) : State := addLoadVia [] q v op s

/-- The translations that the pages of ranges have at issue (R143). -/
def State.pagesOf (s : State) (rs : List (Nat × Nat)) : List TlbEnt := (touched rs).filterMap s.tlbHit

/-- A word that only hands an operation to the pipeline. -/
def pipeWord (srcs : List SOp) (f : List W64 → AccOp) (s : State) : Out :=
  gated (srcs.flatMap sPops) [] s (let r := takeSs srcs s; retire s (addAcc (f r.1) r.2))

/-- The bytes of an access type (R152). -/
def ltyBytes : LTy → Nat
  | .s8 => 1 | .n8 => 1 | .s16 => 2 | .n16 => 2 | .s32 => 4 | .n32 => 4 | .s64 => 8
def styBytes : STy → Nat
  | .s8 => 1 | .s16 => 2 | .s32 => 4 | .s64 => 8

/-- The entry of a load from its bytes (R152). -/
def ltyEntry (t : LTy) (n : Nat) : W64 :=
  match t with
  | .s8 => (BitVec.ofNat 8 n).signExtend 64
  | .n8 => BitVec.ofNat 64 n
  | .s16 => (BitVec.ofNat 16 n).signExtend 64
  | .n16 => BitVec.ofNat 64 n
  | .s32 => (BitVec.ofNat 32 n).signExtend 64
  | .n32 => BitVec.ofNat 64 n
  | .s64 => BitVec.ofNat 64 n

/-- A load's word: base popped, address checked, translation, then the push (R142, R143); `ep` admits an endpoint window. -/
def loadWord (t : LTy) (ep : Bool) (d : Fin 4) (base : SOp) (off : W64) (after : State → State) (s : State) : Out :=
  gated (sPops base) [] s
    (let r := takeS base s
     let a := r.1 + off
     if misplaced a (ltyBytes t) (ltyBytes t) ep then trapOut .align a s
     else
       let rs := if inEndpoint a.toNat then [] else [(a.toNat, (ltyBytes t))]
       translated rs .read s
         (gated (sPops base) [(true, d)] s
           (retire s (after (addLoadVia (s.pagesOf rs) d (.s 0#64) (fun ent =>
             if inEndpoint a.toNat then .epLoad d ent (endpointOf a.toNat) else .load d ent t a.toNat) r.2)))))

def execLd (t : LTy) (d : Fin 4) (base : SOp) (off : BitVec 20) (s : State) : Out :=
  loadWord t (t == .s64) d base (off.signExtend 64) id s

/-- LDA is a load followed by an acquire fence at its scope over every storage (R179); an endpoint window is for LD.s64 and ST.s64
alone (R142). -/
def execLda (t : LTy) (scope : Fin 4) (d : Fin 4) (base : SOp) (off : BitVec 18) (s : State) : Out :=
  loadWord t false d base (off.signExtend 64) (addAcc (.fence 1 scope ⟨true, true, true⟩)) s

/-- The row addresses of LDV and STV (R153). -/
def rowAddrs (base : W64) (stride : Int) (rows : Nat) : List W64 :=
  (List.range rows).map (fun (i : Nat) => base + BitVec.ofInt 64 (stride * (i : Int)))

/-- The first row whose address fails R142; a stride that is no multiple of 4 fails at the second row (log 10). -/
def badRow (base : W64) (stride : Int) (rows cols : Nat) : Option W64 :=
  match (rowAddrs base stride rows).find? (fun a => misplaced a (4 * cols) 4 false) with
  | some a => some a
  | none => if stride % 4 = 0 then none else some (base + BitVec.ofInt 64 stride)

/-- The stride of LDV and STV: none gives rows written one after the other (R153). -/
def strideOf (o : SOp) (v : W64) (cols : Nat) : Int := if o = .none then 4 * (cols : Int) else v.toInt

/-- ALIGN of the rows, as far as the sources that can be read give them, while another source's queue is wrong (R73, R153). -/
def rowCauses (srcs : List SOp) (rows cols : Nat) (s : State) : List (Cause × W64) :=
  let v := knowns srcs s
  match known v 0, known v 1 with
  | some b, some st => ((badRow b (strideOf (srcs.getD 1 .none) st cols) rows cols).map (fun a => (Cause.align, a))).toList
  | some b, none => causeIf (misplaced b (4 * cols) 4 false) .align b
  | none, _ => []

def execLdv (d : Fin 4) (base stride : SOp) (s : State) : Out :=
  let rows := shRows s.strand.ashape
  let cols := shCols s.strand.ashape
  gatedPre (rowCauses [base, stride] rows cols s) ([base, stride].flatMap sPops) [] s
    (let r := takeSs [base, stride] s
     let b := r.1.getD 0 0#64
     let st := strideOf stride (r.1.getD 1 0#64) cols
     match badRow b st rows cols with
     | some a => trapOut .align a s
     | none =>
       let rs := (rowAddrs b st rows).map (fun a => (a.toNat, 4 * cols))
       translated rs .read s
         (gated ([base, stride].flatMap sPops) [(true, d)] s
           (retire s (addLoadVia (s.pagesOf rs) d (.v rows cols []) (fun ent => .loadV d ent b.toNat st rows cols) r.2))))

/-- Bytes at consecutive addresses. -/
def cellsAt (a : Nat) (bs : List Byte) : List (Nat × Byte) := (List.range bs.length).map (fun i => (a + i, bs.getD i 0#8))

def execSt (t : STy) (data base : SOp) (off : BitVec 20) (s : State) : Out :=
  let v := knowns [base, data] s
  let bad := (known v 0).elim [] (fun b =>
    let a := b + off.signExtend 64
    causeIf (misplaced a (styBytes t) (styBytes t) (t == .s64)) .align a)
  gatedPre bad ([base, data].flatMap sPops) [] s
    (let r := takeSs [base, data] s
     let a := r.1.getD 0 0#64 + off.signExtend 64
     let v := r.1.getD 1 0#64
     if misplaced a (styBytes t) (styBytes t) (t == .s64) then trapOut .align a s
     else retire s (addAcc (if inEndpoint a.toNat then .epStore (endpointOf a.toNat) (a.getLsbD 12) v
                            else .store (cellsAt a.toNat (leBytes (styBytes t) v.toNat))) r.2))

/-- The shape of the entry that STV stores, one container while no vector entry shows it. -/
def dataShape (base stride : SOp) (data : Fin 4) (s : State) : Nat × Nat :=
  match ((takeSs [base, stride] s).2.strand.queue false data).head? with
  | some { val := .v rows cols _, .. } => (rows, cols)
  | _ => (1, 1)

def execStv (base stride : SOp) (data : Fin 4) (s : State) : Out :=
  let sh := dataShape base stride data s
  gatedPre (rowCauses [base, stride] sh.1 sh.2 s) ([base, stride].flatMap sPops ++ [⟨false, data, true⟩]) [] s
    (let r := takeSs [base, stride] s
     let b := r.1.getD 0 0#64
     match (r.2.strand.queue false data).head? with
     | some { val := .v rows cols cs, .. } =>
       let st := strideOf stride (r.1.getD 1 0#64) cols
       match badRow b st rows cols with
       | some a => trapOut .align a s
       | none =>
         let cells := (List.range rows).flatMap (fun (i : Nat) =>
           cellsAt (b + BitVec.ofInt 64 (st * (i : Int))).toNat
             ((List.range cols).flatMap (fun j => leBytes 4 (cs.getD (32 * i + j) 0#32).toNat)))
         retire s (addAcc (.store cells) (r.2.popQ false data))
     | _ => trapOut .queue (queueCode false data) s)

/-- PREF (R154) changes no value that an access returns; it takes its operand, and what is wrong with the operand's queue is no trap of
it. -/
def execPref (base : SOp) (_off : BitVec 24) (s : State) : Out :=
  gatedOr (sPops base) [] s (fun _ => retire s (takeS base s).2) (retire s (takeS base s).2)

def execMark (s : State) : Out := pipeWord [] (fun _ => .mark) s

-- ## Atomics (R155)

def is64 : AW → Bool
  | .w64 => true
  | .w32 => false

/-- An atomic's word: `op` as in atomApply. -/
def atomWord (op : Fin 7) (u : Bool) (w : AW) (d : LqDst) (srcs : List SOp) (s : State) : Out :=
  let n := if (is64 w) then 8 else 4
  -- an address that can be read is checked before the queue of another source (R73)
  let bad := fun (t : Cause × W64) =>
    match known (knowns srcs s) 0, d with
    | some a, .none => trapFirst (causeIf (misplaced a n n false) .align a) s t
    | some a, .lq _ =>
      if misplaced a n n false then trapFirst [(.align, a)] s t else translated [(a.toNat, n)] .atomic s (trapOut t.1 t.2 s)
    | none, _ => trapOut t.1 t.2 s
  gatedOr (srcs.flatMap sPops) [] s bad
    (let r := takeSs srcs s
     let a := r.1.getD 0 0#64
     let x := atWidth (is64 w) (r.1.getD 1 0#64)
     let y := atWidth (is64 w) (r.1.getD 2 0#64)
     if misplaced a n n false then trapOut .align a s
     else
       match d with
       | .lq q =>
         translated [(a.toNat, n)] .atomic s
           (gated (srcs.flatMap sPops) [(true, q)] s
             (retire s (addLoadVia (s.pagesOf [(a.toNat, n)]) q (.s 0#64) (fun ent => .atom op (is64 w) u a.toNat x y (some (q, ent))) r.2)))
       | .none => retire s (addAcc (.atom op (is64 w) u a.toNat x y none) r.2))

def execAadd (w : AW) (d : LqDst) (addr s2 : SOp) (s : State) : Out := atomWord 0 false w d [addr, s2] s
def execAmin (u : Bool) (w : AW) (d : LqDst) (addr s2 : SOp) (s : State) : Out := atomWord 1 u w d [addr, s2] s
def execAmax (u : Bool) (w : AW) (d : LqDst) (addr s2 : SOp) (s : State) : Out := atomWord 2 u w d [addr, s2] s
def execAor (w : AW) (d : LqDst) (addr s2 : SOp) (s : State) : Out := atomWord 3 false w d [addr, s2] s
def execAxch (w : AW) (d : LqDst) (addr s2 : SOp) (s : State) : Out := atomWord 4 false w d [addr, s2] s
def execAcas (w : AW) (d : LqDst) (addr s2 s3 : SOp) (s : State) : Out := atomWord 5 false w d [addr, s2, s3] s
def execAfadd (d : LqDst) (addr s2 : SOp) (s : State) : Out := atomWord 6 false .w32 d [addr, s2] s

-- ## Sparse indices and gathers (R157, R158)

/-- The configuration word of SIXCFG is one the engine takes. -/
def sixOk (c : W64) : Bool :=
  let es := (c.extractLsb' 16 16).toNat
  (c.extractLsb' 32 32) != 0#32 && es % 4 == 0 && decide (4 ≤ es) && (c.extractLsb' 12 4) == 0#4 &&
  (c.extractLsb' 2 6) == 0#6 && decide ((c.extractLsb' 0 2).toNat < 2)

/-- Bytes of metadata that a configuration covers. -/
def sixBytes (c : W64) : Nat :=
  let n := (c.extractLsb' 32 32).toNat
  if c.getLsbD 0 then 2 * n else (n + 7) / 8

/-- The causes of SIXCFG that show while the queue of one source is wrong (R73). -/
def sixCauses (ir : W64) (m c : Option W64) : List (Cause × W64) :=
  c.elim [] (fun c => causeIf (!(sixOk c)) .illegal ir) ++
  m.elim [] (fun a => causeIf (misplaced a ((c.map sixBytes).getD 1) (if c.any (·.getLsbD 0) then 2 else 1) false) .align a)

def execSixcfg (meta_ cfg : SOp) (s : State) : Out :=
  let v := knowns [meta_, cfg] s
  gatedPre (sixCauses s.ir (known v 0) (known v 1)) ([meta_, cfg].flatMap sPops) [] s
    (let r := takeSs [meta_, cfg] s
     let a := r.1.getD 0 0#64
     let c := r.1.getD 1 0#64
     let runs := c.getLsbD 0
     if !(sixOk c) then illegalOut s
     else if misplaced a (sixBytes c) (if runs then 2 else 1) false then trapOut .align a s
     else
       let t := r.2.strand
       retire s { r.2 with
         strand := { t with
           six := { id := t.nid, addr := a.toNat, count := (c.extractLsb' 32 32).toNat,
                    estride := (c.extractLsb' 16 16).toNat, runs := runs, pos := 0, prev := 0, ready := [] } :: t.six,
           nid := t.nid + 1 } })

def execLdg (d : Fin 4) (base : SOp) (s : State) : Out :=
  gatedPre (causeIf s.strand.six.isEmpty .illegal s.ir) (sPops base) [] s
    (let r := takeS base s
     match s.strand.six.head? with
     | none => illegalOut s
     | some six =>
       if misplaced r.1 4 4 false then trapOut .align r.1 s
       else
         let rows := shRows s.strand.ashape
         let cols := shCols s.strand.ashape
         gated (sPops base) [(true, d)] s
           (retire s (addLoad d (.v rows cols []) (fun ent => .gather d ent six.id r.1.toNat rows cols) r.2)))

-- ## Fences, flushes, TLBINV

def execFence (kind : Fin 3) (scope : Fin 4) (stor : Stor) (s : State) : Out :=
  pipeWord [] (fun _ => .fence kind scope stor) s
def execAfence (s : State) : Out := pipeWord [] (fun _ => .afence) s

def pathOf (n : Fin 6) : Path :=
  match n with
  | 0 => .ls | 1 => .cpy | 2 => .mat | 3 => .gat | 4 => .grf | 5 => .col

def execPfence (from_ to_ : Fin 6) (stor : Stor) (scope : Fin 4) (s : State) : Out :=
  pipeWord [] (fun _ => .pfence (pathOf from_) (pathOf to_) stor scope) s

def execCflush (mem : Bool) (base len : SOp) (s : State) : Out :=
  pipeWord [base, len] (fun v => .flush mem false (v.getD 0 0#64).toNat (v.getD 1 0#64).toNat) s
def execCinv (base len : SOp) (s : State) : Out :=
  pipeWord [base, len] (fun v => .flush false true (v.getD 0 0#64).toNat (v.getD 1 0#64).toNat) s

def execTlbinv (base len : SOp) (scope : Fin 3) (s : State) : Out :=
  gatedPre ((known (knowns [base, len] s) 0).elim [] (fun a => causeIf (decide (Config.vaEnd ≤ a.toNat)) .align a))
      ([base, len].flatMap sPops) [] s
    (let r := takeSs [base, len] s
     let a := r.1.getD 0 0#64
     let n := (r.1.getD 1 0#64).toNat
     if Config.vaEnd ≤ a.toNat then trapOut .align a s
     else if n = 0 then retire s r.2
     else retire s (addAcc (.tlbinv a.toNat n scope) r.2))

end Sys2Proof.Machine
end

