-- ==== Sys2Proof/Machine/Formats.lean ====
section
/-! DEFINITION. Tapered formats, FB4 blocks and ternary bytes, and the conversions between formats (spec/02_numbers.md
R42 to R50). -/

namespace Sys2Proof.Machine

/-- The tstat bits of R35. -/
def tNar : BitVec 3 := 4#3
def tFb4 : BitVec 3 := 2#3
def tTrit : BitVec 3 := 1#3

/-- Flags of an operation: fpflags and tstat. -/
abbrev Flags2 := BitVec 5 × BitVec 3

-- ## Tapered formats (R45 to R47)

/-- The length of the run of bits equal to `b` from bit k − 1 of w downward. -/
def runLen (w : Nat) (b : Bool) : Nat → Nat
  | 0 => 0
  | k + 1 => if w.testBit k == b then 1 + runLen w b k else 0

/-- A positive tapered code of n bits with es exponent bits as an exact value. -/
def tfPos (n es w : Nat) : FNum :=
  let top := w.testBit (n - 2)
  let k := runLen w top (n - 1)
  let reg : Int := if top then (k : Int) - 1 else -(k : Int)
  let left := n - 1 - k - 1
  let rest := w % 2 ^ left
  let ex := if es ≤ left then rest / 2 ^ (left - es) else rest * 2 ^ (es - left)
  let fl := left - es
  .fin false (2 ^ fl + rest % 2 ^ fl) (reg * (2 ^ es : Nat) + (ex : Int) - (fl : Int))

/-- TFDecode (R45); none for NAR. -/
def tfDecode (n es w : Nat) : Option FNum :=
  let c := w % 2 ^ n
  if c = 0 then some (.fin false 0 0)
  else if c = 2 ^ (n - 1) then none
  else if c < 2 ^ (n - 1) then some (tfPos n es c)
  else some (negX (tfPos n es (2 ^ n - c)))

/-- The greatest code from c on, by adding the bits below k, whose value is at most a magnitude. -/
def tfFloor (n es : Nat) (x : FNum) (c : Nat) : Nat → Nat
  | 0 => c
  | k + 1 => if ltX x (tfPos n es (c + 2 ^ k)) then tfFloor n es x c k else tfFloor n es x (c + 2 ^ k) k

/-- RoundToTF of a finite value (R46): the code and the flags. -/
def tfRound (n es : Nat) (rnd : Rnd) (neg : Bool) (m : Nat) (e : Int) : Nat × BitVec 5 :=
  if m = 0 then (0, 0#5)
  else
    let x : FNum := .fin false m e
    let c := tfFloor n es x 0 (n - 1)
    let top := 2 ^ (n - 1) - 1
    let exact := c != 0 && eqX x (tfPos n es c)
    let r :=
      if exact then c
      else if c = 0 then 1
      else if c = top then top
      else
        let sum := (addX .rn (tfPos n es c) (tfPos n es (c + 1))).1
        let up := match rnd with
          | .rn => ltX sum (.fin false m (e + 1)) || (eqX sum (.fin false m (e + 1)) && c % 2 == 1)
          | .rz => false
          | .rd => neg
          | .ru => !neg
        if up then c + 1 else c
    (if neg then 2 ^ n - r else r, flagIf (!exact) fInexact)

/-- A value delivered in a tapered format (R47, R50); none stands for NAR. -/
def tfDeliver (n es : Nat) (rnd : Rnd) (x : Option FNum) : Nat × Flags2 :=
  match x with
  | some (.fin b k e) => let r := tfRound n es rnd b k e; (r.1, r.2, 0#3)
  | some (.inf _) => (2 ^ (n - 1), 0#5, tNar)
  | some (.nan b f) => (2 ^ (n - 1), flagIf (FNum.isSNaN (.nan b f)) fInvalid, tNar)
  | none => (2 ^ (n - 1), 0#5, tNar)

/-- A tapered value as a floating-point operand: NAR becomes the canonical NaN (R47). -/
def orNaN (x : Option FNum) : FNum := x.getD canonNaN

-- ## FB4 blocks (R42 to R44)

/-- The E2M1 format of FB4 elements (R30). -/
def fmtE2M1 : Fmt := ⟨1, 0, 7, 4, false⟩

/-- The code of element i of a block. -/
def fb4Code (blk : List Byte) (i : Nat) : Nat :=
  let b := (blk.getD (i / 2) 0#8).toNat
  if i % 2 = 0 then b % 16 else b / 16

/-- FB4Decode (R43): the exact value of element i and the tstat bit raised. -/
def fb4Decode (blk : List Byte) (i : Nat) : FNum × BitVec 3 :=
  let by_ := fun k => (blk.getD k 0#8).toNat
  if by_ 11 ≠ 0 then (canonNaN, tFb4)
  else if by_ 8 = 255 then (canonNaN, 0#3)
  else
    let c := fb4Code blk i
    let m : Int := if (by_ 9).testBit (i / 2) then 1 else 0
    let sc : Int := (by_ 8 : Int) - 127 - m
    let v := if c = 8 then decodeF fmtE4M3 (by_ 10) else decodeF fmtE2M1 c
    match v with
    | .fin b k e => (.fin b k (e + sc), 0#3)
    | .nan _ _ => (canonNaN, 0#3)
    | .inf _ => (canonNaN, 0#3)

/-- The magnitude of a value. -/
def absX : FNum → FNum
  | .nan b f => .nan b f
  | .inf _ => .inf false
  | .fin _ k e => .fin false k e

/-- The greatest magnitude of a list of finite values. -/
def maxMag : List FNum → FNum
  | [] => .fin false 0 0
  | x :: r => let y := maxMag r; if ltX y (absX x) then absX x else y

/-- Ceil(Log2(x / 6)) of a positive value m × 2^e. -/
def logSixth (m : Nat) (e : Int) : Int :=
  let l := bitLen m
  if 4 * m ≤ 3 * 2 ^ l then e + (l : Int) - 3 else e + (l : Int) - 2

/-- A finite value divided by a power of two. -/
def scaleX (x : FNum) (k : Int) : FNum :=
  match x with
  | .fin b m e => .fin b m (e - k)
  | .inf b => .inf b
  | .nan b f => .nan b f

/-- RoundToE2M1, with magnitude 0 as code 0. -/
def e2m1Code (rnd : Rnd) (y : FNum) : Nat :=
  match y with
  | .fin b m e => let c := (roundTo fmtE2M1 rnd false b m e).1; if c % 8 = 0 then 0 else c
  | .inf _ => 0
  | .nan _ _ => 0

/-- The lowest index with the greatest value. -/
def argMaxX : List FNum → Nat × FNum
  | [] => (0, .fin false 0 0)
  | x :: r =>
    let q := argMaxX r
    if ltX x q.2 then (q.1 + 1, q.2) else (0, x)

/-- FB4Encode (R44): the block's bytes and the flags. -/
def fb4Encode (xs : List FNum) (rnd : Rnd) : List Byte × BitVec 5 :=
  if xs.any (fun x => x.isNaN || x.isInf) then
    ((List.replicate 8 0#8) ++ [0xFF#8, 0#8, 0#8, 0#8], fInvalid)
  else
    match maxMag xs with
    | .fin _ 0 _ => (List.replicate 12 0#8, 0#5)
    | .fin _ m e =>
      let b0 : Int := 127 + logSixth m e
      let bexp : Int := if b0 < 0 then 0 else if 254 < b0 then 254 else b0
      let x := fun i => xs.getD i (.fin false 0 0)
      let three : FNum := .fin false 3 (bexp - 127)
      let micro := (List.range 8).map (fun j => !(ltX three (absX (x (2 * j)))) && !(ltX three (absX (x (2 * j + 1)))))
      let ys := (List.range 16).map (fun i => scaleX (x i) (bexp - 127 - (if micro.getD (i / 2) false then 1 else 0)))
      let cs := ys.map (e2m1Code rnd)
      let errs := (List.range 16).map (fun i => absX (addX .rn (ys.getD i (.fin false 0 0)) (negX (decodeF fmtE2M1 (cs.getD i 0)))).1)
      let top := argMaxX errs
      let exact := top.2.isZero
      let xv := if exact then 0 else (deliverF fmtE4M3 rnd false (ys.getD top.1 (.fin false 0 0))).1
      let codes := if exact then cs else cs.set top.1 8
      let el := (List.range 8).map (fun j => BitVec.ofNat 8 (codes.getD (2 * j) 0 + 16 * codes.getD (2 * j + 1) 0))
      let mexp := (List.range 8).foldl (fun a j => a + (if micro.getD j false then 2 ^ j else 0)) 0
      let zeroed := (List.range 16).any (fun i => !(x i).isZero &&
        (if codes.getD i 0 = 8 then xv % 128 == 0 else codes.getD i 0 == 0))
      (el ++ [BitVec.ofInt 8 bexp, BitVec.ofNat 8 mexp, BitVec.ofNat 8 xv, 0#8],
       flagIf (!exact) fInexact ||| flagIf zeroed fUnderflow)
    | _ => (List.replicate 12 0#8, 0#5)

-- ## Ternary bytes (R48, R49)

/-- The digits of TritDecode, t4 first. -/
def tritLoop (q : Nat) : Nat → List Nat
  | 0 => []
  | k + 1 => (q * 3 / 256) :: tritLoop (q * 3 % 256) k

/-- TritDecode (R49): the five trits, t0 first, and the tstat bit raised. -/
def tritDecode (b : Nat) : List Nat × BitVec 3 :=
  if 243 ≤ b then (List.replicate 5 0, tTrit) else ((tritLoop ((b * 256 + 242) / 243) 5).reverse, 0#3)

/-- The integer of a trit. -/
def tritInt (t : Nat) : Int := if t = 1 then 1 else if t = 2 then -1 else 0

/-- The trit of an integer (R48). -/
def tritOf (i : Int) : Nat := if i = 0 then 0 else if 0 < i then 1 else 2

/-- Five trits packed (R48). -/
def tritPack (ts : List Nat) : Nat := ts.foldr (fun t acc => t + 3 * acc) 0

-- ## Types as formats

/-- The format of a floating-point type. -/
def fmtOf : Ty → Fmt
  | .f32 => fmtF32
  | .bf16 => fmtBF16
  | .f16 => fmtF16
  | .e4m3 => fmtE4M3
  | .e5m2 => fmtE5M2
  | .s32 => fmtF32
  | .s16 => fmtF16
  | .s8 => fmtE4M3

/-- A lane as an exact value. -/
def laneVal (t : Ty) (c : Nat) : FNum := if t.isF then decodeF (fmtOf t) c else ofSInt (sintOf t.width c)

/-- A floating-point, FB4 or tapered value delivered in a type (R50). -/
def deliverTy (t : Ty) (rnd : Rnd) (sat : Bool) (x : FNum) : Nat × BitVec 5 :=
  if t.isF then deliverF (fmtOf t) rnd sat x else deliverInt t.width rnd x

/-- An integer delivered in a type (R50): R41 between integers, R32 into a floating-point type. -/
def deliverIntTy (t : Ty) (rnd : Rnd) (sat : Bool) (i : Int) : Nat × BitVec 5 :=
  if t.isF then deliverF (fmtOf t) rnd sat (ofSInt i) else (wrapOrClamp t.width sat i, 0#5)

/-- A conversion between two types (R50). -/
def convert (src dst : Ty) (rnd : Rnd) (sat : Bool) (c : Nat) : Nat × BitVec 5 :=
  if src.isF then deliverTy dst rnd sat (decodeF (fmtOf src) c) else deliverIntTy dst rnd sat (sintOf src.width c)

end Sys2Proof.Machine
end

