-- ==== Sys2Proof/Machine/Convert.lean ====
section
/-! DEFINITION. Conversions between the formats that regions, rings and records name by code (spec/06_access.md R149, R167,
spec/02_numbers.md R43 to R50). -/

namespace Sys2Proof.Machine

/-- The value of an element: a floating-point number, an integer, or NAR. -/
inductive EVal where
  | f (x : FNum)
  | i (v : Int)
  | nar
deriving DecidableEq, Repr

/-- The type of the codes 1 to 8. -/
def tyOfCode (fmt : Nat) : Ty :=
  match fmt with
  | 1 => .f32 | 2 => .bf16 | 3 => .f16 | 4 => .e4m3 | 5 => .e5m2 | 6 => .s32 | 7 => .s16 | _ => .s8

/-- Bytes of an element of the codes 1 to 10. -/
def elemBytes (fmt : Nat) : Nat :=
  match fmt with
  | 1 => 4 | 2 => 2 | 3 => 2 | 6 => 4 | 7 => 2 | 9 => 2 | _ => 1

/-- An element of the codes 1 to 10 decoded exactly. -/
def elemDecode (fmt c : Nat) : EVal :=
  if fmt = 9 then (match tfDecode 16 1 c with | some x => .f x | none => .nar)
  else if fmt = 10 then (match tfDecode 8 0 c with | some x => .f x | none => .nar)
  else if (tyOfCode fmt).isF then .f (decodeF (fmtOf (tyOfCode fmt)) c)
  else .i (sintOf (tyOfCode fmt).width c)

/-- A value as a floating-point operand. -/
def EVal.num : EVal → FNum
  | .f x => x
  | .i v => ofSInt v
  | .nar => canonNaN

/-- A value delivered in one of the codes 1 to 10 (R50). -/
def elemEncode (fmt : Nat) (rnd : Rnd) (sat : Bool) (v : EVal) : Nat × Flags2 :=
  let tapered := fun (n es : Nat) => match v with
    | .nar => tfDeliver n es rnd none
    | .f x => tfDeliver n es rnd (some x)
    | .i k => tfDeliver n es rnd (some (ofSInt k))
  if fmt = 9 then tapered 16 1
  else if fmt = 10 then tapered 8 0
  else
    match v with
    | .i k => let r := deliverIntTy (tyOfCode fmt) rnd sat k; (r.1, r.2, 0#3)
    | .f x => let r := deliverTy (tyOfCode fmt) rnd sat x; (r.1, r.2, 0#3)
    | .nar => let r := deliverTy (tyOfCode fmt) rnd sat canonNaN; (r.1, r.2, 0#3)

def orFlags (a b : Flags2) : Flags2 := (a.1 ||| b.1, a.2 ||| b.2)

/-- Several deliveries one after the other, each of n bytes. -/
def packElems (n : Nat) : List (Nat × Flags2) → List Byte × Flags2
  | [] => ([], 0#5, 0#3)
  | r :: q => let p := packElems n q; (leBytes n r.1 ++ p.1, orFlags r.2 p.2)

/-- The elements of n bytes in a byte list. -/
def elemsOf (n : Nat) (bs : List Byte) : List Nat := (List.range (bs.length / n)).map (fun k => leNat ((bs.drop (n * k)).take n))

/-- Bytes of a conversion group at its source and at its destination (R167); none for an unsupported pair. -/
def groupOf (src dst : Nat) : Option (Nat × Nat) :=
  let plain := fun (f : Nat) => decide (1 ≤ f) && decide (f ≤ 10)
  let wide := fun (f : Nat) => decide (1 ≤ f) && decide (f ≤ 3)
  if plain src && plain dst then some (elemBytes src, elemBytes dst)
  else if src = 11 ∧ wide dst then some (12, 16 * elemBytes dst)
  else if wide src ∧ dst = 11 then some (16 * elemBytes src, 12)
  else if src = 12 ∧ dst = 8 then some (1, 5)
  else if src = 8 ∧ dst = 12 then some (5, 1)
  else none

/-- One group converted, rounding to nearest under sat 1 (R167). -/
def convGroup (src dst : Nat) (bs : List Byte) : List Byte × Flags2 :=
  if src = 11 then
    packElems (elemBytes dst) ((List.range 16).map (fun i =>
      let v := fb4Decode bs i
      let r := deliverTy (tyOfCode dst) .rn true v.1
      (r.1, r.2, v.2)))
  else if dst = 11 then
    let r := fb4Encode ((elemsOf (elemBytes src) bs).map (fun c => decodeF (fmtOf (tyOfCode src)) c)) .rn
    (r.1, r.2, 0#3)
  else if src = 12 then
    let r := tritDecode (bs.headD 0#8).toNat
    (r.1.map (fun t => BitVec.ofInt 8 (tritInt t)), 0#5, r.2)
  else if dst = 12 then ([BitVec.ofNat 8 (tritPack (bs.map (fun b => tritOf b.toInt)))], 0#5, 0#3)
  else packElems (elemBytes dst) ((elemsOf (elemBytes src) bs).map (fun c => elemEncode dst .rn true (elemDecode src c)))

/-- A whole number of groups converted in address order. -/
def convBytes (src dst sg : Nat) (bs : List Byte) : List Byte × Flags2 :=
  (List.range (bs.length / sg)).foldl (fun acc k =>
    let r := convGroup src dst ((bs.drop (sg * k)).take sg)
    (acc.1 ++ r.1, orFlags acc.2 r.2)) ([], 0#5, 0#3)

end Sys2Proof.Machine
end

