-- ==== Sys2Proof/Machine/LsPath.lean ====
section
/-! DEFINITION. The access pipeline behind issue: which operation waits for which (spec/06_access.md R147, R148,
spec/07_consistency.md R180 to R183, spec/09_event.md R217, R219, spec/10_barrier.md R231), and how loads, stores,
atomics, gathers, flushes and TLBINV are performed (R143 to R147, R155 to R159, R172, spec/15_page.md R311, R323). -/

namespace Sys2Proof.Machine

-- ## Reading from the core

/-- Translation of an access with the translations that it was issued with (R143); without one, as the tables stand. -/
def State.translateVia (s : State) (via : List TlbEnt) (va : Nat) (k : AKind) : Tr × State :=
  match tlbFind via s.strand.slot va with
  | some e => (.ok e, s)
  | none => s.translate s.strand.slot va k

/-- A poisoned line of the core's L1 is what an access of a strand through a page would read (R26, R304). -/
def State.inL1 (s : State) (who : Asker) (e : TlbEnt) (pa : Nat) : Bool :=
  (match who with | .acc _ _ => true | _ => false) && !e.l2only && s.pkg.l1Bad.contains (s.core.num, pa / 64)

/-- Bytes read by the core in the foreground for the strand in the foreground: `remote` names a line of another package
that its remote cache does not hold. An address outside the address space is unmapped (log 71). -/
def State.coreReadVia (s : State) (who : Asker) (via : List TlbEnt) (va n : Nat) : Eng (List Byte) × State :=
  (linePieces va n).foldl (fun acc pc =>
    match acc.1 with
    | .ok bs =>
      let s := acc.2
      if Config.vaEnd < pc.1 + pc.2 then (.fault pc.1 1, s)
      else if inScratch pc.1 then
        let o := pc.1 - Config.scratchBase
        (if s.core.padSick o pc.2 then .poison pc.1 else .ok (bs ++ s.core.scratch.read o pc.2), s)
      else if inLocal pc.1 then (.fault pc.1 1, s)
      else
        let q := s.translateVia via pc.1 .read
        match q.1 with
        | .fault r => (.fault pc.1 r, q.2)
        | .poison a => (.poison a, q.2)
        | .ok e =>
          let pa := homeOf q.2.pkg (e.addr pc.1)
          if q.2.inL1 who e pa then (.poison pa, q.2)
          else if paPkg pa ≠ q.2.pkg.num then
            match q.2.pkg.copyOf who e.l2only pa with
            | some l => (.ok (bs ++ (l.data.drop (pa % 64)).take pc.2), q.2)
            | none => q.2.farLine pa
          else if poisoned q.2.pkg (paLocal pa) pc.2 then (.poison pa, q.2)
          else let r := q.2.readAs (paLocal pa) pc.2 e.key; (.ok (bs ++ r.1), r.2)
    | .fault a r => (.fault a r, acc.2)
    | .poison a => (.poison a, acc.2)
    | .remote a => (.remote a, acc.2)) (.ok [], s)

/-- Bytes read behind issue: translated as the tables stand. -/
def State.coreRead (s : State) (who : Asker) (va n : Nat) : Eng (List Byte) × State := s.coreReadVia who [] va n

-- ## Gather offsets (R157)

/-- Up to k offsets of a stream from its state on, reading its metadata: bitmap positions or runs. -/
def sixTake (who : Asker) (six : Six) (k : Nat) (s : State) : Nat → Eng (List Nat) × Six × State
  | 0 => (.ok [], six, s)
  | fuel + 1 =>
    if k = 0 ∨ six.count ≤ six.pos then (.ok [], six, s)
    else if six.runs then
      let r := s.coreRead who (six.addr + 2 * six.pos) 2
      match r.1 with
      | .ok bs =>
        let p := if six.pos = 0 then leNat bs else six.prev + leNat bs + 1
        let q := sixTake who { six with pos := six.pos + 1, prev := p } (k - 1) r.2 fuel
        (match q.1 with | .ok l => .ok (p * six.estride :: l) | e => e, q.2)
      | .fault a w => (.fault a w, six, r.2)
      | .poison a => (.poison a, six, r.2)
      | .remote a => (.remote a, six, r.2)
    else
      let r := s.coreRead who (six.addr + six.pos / 8) 1
      match r.1 with
      | .ok bs =>
        let on := (leNat bs).testBit (six.pos % 8)
        let q := sixTake who { six with pos := six.pos + 1 } (if on then k - 1 else k) r.2 fuel
        (match q.1 with | .ok l => .ok (if on then six.pos * six.estride :: l else l) | e => e, q.2)
      | .fault a w => (.fault a w, six, r.2)
      | .poison a => (.poison a, six, r.2)
      | .remote a => (.remote a, six, r.2)

/-- Offsets of a stream for n elements: the gather queue's first, then those that the engine produces now. -/
def sixDraw (who : Asker) (six : Six) (n : Nat) (s : State) : Eng (List Nat) × Six × State :=
  let have_ := six.ready.take n
  let o := sixTake who { six with ready := six.ready.drop n } (n - have_.length) s (six.count - six.pos + 1)
  (match o.1 with | .ok l => .ok (have_ ++ l) | e => e, o.2)

-- ## What an operation touches

/-- The byte ranges of an ls access. -/
def opRanges : AccOp → List (Nat × Nat)
  | .load _ _ t va => [(va, ltyBytes t)]
  | .loadV _ _ va stride rows cols =>
    (rowAddrs (BitVec.ofNat 64 va) stride rows).map (fun a => (a.toNat, 4 * cols))
  | .store cells => cells.map (fun c => (c.1, 1))
  | .atom _ w64 _ va _ _ _ => [(va, if w64 then 8 else 4)]
  | .epStore n _ _ => [(Config.localBase + 0x2000 * n, 0x2000)]
  | .epLoad _ _ n => [(Config.localBase + 0x2000 * n, 0x2000)]
  | .flush _ _ va len => [(va, len)]
  | _ => []

/-- The number of the queue entry that an operation fills. -/
def entryOf (op : AccOp) : Option (Fin 4 × Nat) :=
  match op with
  | .load q ent _ _ => some (q, ent)
  | .loadV q ent _ _ _ _ => some (q, ent)
  | .gather q ent _ _ _ _ => some (q, ent)
  | .atom _ _ _ _ _ _ ret => ret
  | _ => none

/-- The part an operation plays in the orders. -/
structure Role where
  ls : Bool          -- on the ls path
  reads : Bool
  writes : Bool
  strong : Bool      -- counts as both a load and a store (R147)
  release : Bool     -- waits for every ls access before it (R219, R232, R258, R359, R386)
  object : Nat       -- reaches an event (1), a barrier (2) or the whorl unit (3) (R217, R225, R231, R379); 0 for none
  gat : Bool
  grf : Bool
  engine : Bool      -- an operation of Taproot's engines (R359)
deriving DecidableEq, Repr

def Role.none : Role :=
  { ls := false, reads := false, writes := false, strong := false, release := false, object := 0, gat := false, grf := false,
    engine := false }

def roleOf : AccOp → Role
  | .load _ _ _ _ => { Role.none with ls := true, reads := true }
  | .loadV _ _ _ _ _ _ => { Role.none with ls := true, reads := true }
  | .epLoad _ _ _ => { Role.none with ls := true, reads := true }
  | .store _ => { Role.none with ls := true, writes := true }
  | .epStore _ _ _ => { Role.none with ls := true, writes := true }
  | .flush _ _ _ _ => { Role.none with ls := true, writes := true }
  | .atom op _ _ _ _ _ ret =>
    let s := ret.isSome || op == 4 || op == 5
    { Role.none with ls := true, reads := s, writes := true, strong := s }
  | .gather _ _ _ _ _ _ => { Role.none with gat := true }
  | .evsig _ _ => { Role.none with release := true, object := 1 }
  | .evclr _ => { Role.none with object := 1 }
  | .evtest _ _ => { Role.none with object := 1 }
  | .evwait _ => { Role.none with object := 1 }
  | .barinit _ _ _ => { Role.none with object := 2 }
  | .bararr _ _ _ _ => { Role.none with release := true, object := 2 }
  | .barexp _ _ _ _ => { Role.none with object := 2 }
  | .ballot _ _ _ => { Role.none with release := true, object := 3 }
  | .task _ => { Role.none with release := true }
  | .launch _ _ _ => { Role.none with release := true }
  | .engine op _ =>
    let base := { Role.none with release := true, engine := true }
    (match op with
     | .graft _ _ => { base with grf := true }
     | .whorlOpen _ => { base with object := 3 }
     | .whorlClose _ => { base with object := 3 }
     | .whorlRing _ => { base with object := 3 }
     | .whorlUnring _ => { base with object := 3 }
     | _ => base)
  | .cancel _ _ _ => Role.none
  | .gcnt _ _ _ => Role.none
  | .mark => Role.none
  | .fence _ _ _ => Role.none
  | .afence => Role.none
  | .pfence _ _ _ _ => Role.none
  | .tlbinv _ _ _ => Role.none

/-- The physical address of an address of the strand in the foreground as its translation stands; none for the local window and
an unmapped page. -/
def State.physOf (s : State) (va : Nat) : Option Nat :=
  if inLocal va then none
  else
    match s.tlbHit va with
    | some e => some (e.addr va)
    | none =>
      match (s.walk (dieOf s.core.num) s.strand.slot va).1 with
      | .ok e => some (e.addr va)
      | .fault _ | .poison _ => none

/-- The package that an address of the strand in the foreground has its home in. -/
def State.homePkg (s : State) (va : Nat) : Nat := (s.physOf va).elim s.pkg.num paPkg

/-- The storage of an address for the strand in the foreground (R174): 0 .sp, 1 .dev, 2 .rem; an unmapped page counts as .dev, and an
endpoint window, whose class no rule names, as .sp with the rest of the local window (DESIGN CHOICE; log 71). -/
def State.storageOf (s : State) (va : Nat) : Nat := if inLocal va then 0 else if s.homePkg va = s.pkg.num then 1 else 2

def Stor.has (m : Stor) (c : Nat) : Bool := (m.sp && c == 0) || (m.dev && c == 1) || (m.rem && c == 2)

/-- A range holds a byte of a storage of a mask (R174: each byte has its class). -/
def rangeIn (s : State) (m : Stor) (r : Nat × Nat) : Bool := (pieces r.1 r.2).any (fun p => Stor.has m (s.storageOf p.1))

/-- An operation touches a storage of a mask. -/
def touches (s : State) (m : Stor) (op : AccOp) : Bool := (opRanges op).any (rangeIn s m)

/-- Two lists of ranges have a byte in common. -/
def rangesMeet (a b : List (Nat × Nat)) : Bool := a.any (fun r => b.any (fun q => overlap r.1 r.2 q.1 q.2))

/-- Two operations touch a byte in common. -/
def sharesByte (a b : AccOp) : Bool := rangesMeet (opRanges a) (opRanges b)

/-- The physical ranges of an ls access. -/
def State.physRanges (s : State) (op : AccOp) : List (Nat × Nat) :=
  (opRanges op).flatMap (fun r => (pieces r.1 r.2).filterMap (fun p => (s.physOf p.1).map (fun pa => (pa, p.2))))

/-- An AFENCE that has taken effect stands between two operations: physical bytes name what they share (R183). -/
def afenced (s : State) (e l : Acc) : Bool := s.strand.afences.any (fun k => decide (e.id < k) && decide (k < l.id))

/-- A store or an update, which may become visible before or after one with another home package (R177). -/
def isStore : AccOp → Bool
  | .store _ => true
  | .atom op _ _ _ _ _ ret => ret.isNone && op != 4 && op != 5
  | _ => false

/-- An earlier store that has left for other packages and a later one have no home package in common (R177). -/
def farApart (s : State) (e l : Acc) : Bool :=
  e.sent && isStore e.op && isStore l.op &&
    !((opRanges e.op).any (fun r => (opRanges l.op).any (fun q => s.homePkg r.1 == s.homePkg q.1)))

/-- The path of an operation. -/
def onPath (p : Path) (op : AccOp) : Bool :=
  match p with
  | .ls => (roleOf op).ls
  | .gat => (roleOf op).gat
  | .grf => (roleOf op).grf
  | _ => false

/-- The byte of metadata that a stream reads next. -/
def Six.at_ (x : Six) : Nat := x.addr + (if x.runs then 2 * x.pos else x.pos / 8)

/-- Offsets of a gather's stream that the LDGs before it will take. -/
def gatherSkip (t : Strand) (ent six : Nat) : Nat :=
  (t.acc.takeWhile (fun a => (entryOf a.op).all (fun e => e.2 != ent))).foldl (fun n a => match a.op with
    | .gather _ _ x _ rows cols => if x = six then n + rows * cols else n
    | _ => n) 0

/-- The two pages of a transfer: the source's header says how many bytes they hold (R350, R351). -/
def State.graftRanges (s : State) (slot src dst : Nat) : List (Nat × Nat) :=
  let half := match (s.engRead slot (src + 8) 8).1 with
    | .ok bs => let w := leNat bs; 2 ^ bits w 47 44 * (bits w 39 32 + 1) * bits w 31 16
    | _ => 0
  [(src, 64 + 4 * half), (dst, 64 + 2 * half)]

/-- The bytes that a GRAFT and a gather touch (R174): a transfer's two pages; the metadata that a gather still reads and its elements.
None while the metadata cannot be read: such a gather counts for every storage (log 71). -/
def sideRanges (s : State) (op : AccOp) : Option (List (Nat × Nat)) :=
  match op with
  | .engine (.graft src dst) _ => some (s.graftRanges s.strand.slot src.toNat dst.toNat)
  | .gather _ ent sid base rows cols =>
    (match s.strand.six.find? (fun x => x.id == sid) with
     | none => some []
     | some six =>
       let skip := gatherSkip s.strand ent sid
       let o := sixDraw .none six (skip + rows * cols) s
       match o.1 with
       | .ok offs => some ((six.at_, o.2.1.at_ - six.at_) :: (offs.drop skip).map (fun f => ((base + f) % 2 ^ 64, 4)))
       | _ => none)
  | _ => some []

/-- An operation of a path touches a storage of a mask (R182). -/
def onPathIn (s : State) (p : Path) (m : Stor) (op : AccOp) : Bool :=
  onPath p op && (touches s m op || (sideRanges s op).all (fun l => l.any (rangeIn s m)))

/-- An operation is a fence of some kind. -/
def isFence : AccOp → Bool
  | .mark => true
  | .fence _ _ _ => true
  | .afence => true
  | .pfence _ _ _ _ => true
  | .tlbinv _ _ _ => true
  | _ => false

/-- The later operation l waits behind the earlier fence e. -/
def behindFence (s : State) (e l : AccOp) : Bool :=
  let r := roleOf l
  match e with
  | .mark => r.ls || r.release
  | .fence kind _ stor =>
    (r.ls && touches s stor l && (kind.val != 2 || r.writes)) || r.release
  | .afence => (r.ls && touches s ⟨false, true, true⟩ l) || r.release
  | .pfence _ t stor _ => onPathIn s t stor l || (t == .ls && r.release)
  | .tlbinv _ _ _ => !(isFence l)
  | _ => false

/-- EVSIG, for which a later FENCE or PFENCE waits (R219). -/
def isSignal : AccOp → Bool
  | .evsig _ _ => true
  | _ => false

/-- The fence l waits for the earlier operation e. -/
def fenceWaits (s : State) (e l : AccOp) : Bool :=
  let r := roleOf e
  match l with
  | .mark => r.ls
  | .fence kind _ stor => (r.ls && touches s stor e && (kind.val != 1 || r.reads)) || isSignal e
  | .afence => r.ls && r.writes && touches s ⟨false, true, true⟩ e
  | .pfence f _ stor _ => onPathIn s f stor e || isSignal e
  | .tlbinv _ _ _ => r.ls || r.gat
  | _ => false

/-- The barrier an operation names. -/
def barOf : AccOp → Option (Nat × Nat)
  | .barinit d b _ => some (d, b)
  | .bararr d b _ _ => some (d, b)
  | .barexp d b _ _ => some (d, b)
  | _ => none

/-- Operations on objects in issue order: those of a strand at the event table and at the whorl unit; those of a stream at
one barrier; and a stream's EVSIG, EVCLR, BARARR and BALLOT after its barrier operations (R217, R225, R231, R379). Of two streams' operations at one barrier that issue in one
cycle, the A stream's comes first. -/
def objectOrder (e l : Acc) : Bool :=
  let a := (roleOf e.op).object
  let b := (roleOf l.op).object
  (a == 1 && b == 1) || (a == 3 && b == 3) ||
  (a == 2 && b == 2 && barOf e.op == barOf l.op && e.st == .a && e.cyc == l.cyc) ||
  (e.st == l.st && a == 2 &&
    ((b == 2 && barOf e.op == barOf l.op) ||
     (match l.op with
      | .evsig _ _ => true
      | .evclr _ => true
      | .bararr _ _ _ _ => true
      | .ballot _ _ _ => true
      | _ => false)))

/-- Taproot's engines take a strand's operations in issue order, each with its accesses made, so that one sees what the one before it
wrote (R359, R362, R409): a later one goes on beside a transfer or a reshard that has been accepted. -/
def engineOrder (e l : Acc) : Bool :=
  (roleOf l.op).engine &&
  (match e.op with
   | .engine (.graft _ _) _ => !e.sent
   | .engine (.reshard _) _ => !e.sent
   | .engine _ _ => true
   | _ => false)

/-- The earlier operation e is performed before the later operation l (R147, R177, R183, R217, R219, R231, R269, R359). -/
def mustPrecede (s : State) (e l : Acc) : Bool :=
  let a := roleOf e.op
  let b := roleOf l.op
  behindFence s e.op l.op || fenceWaits s e.op l.op ||
  (a.ls && b.ls && ((a.strong || b.strong) || (a.reads && b.reads) || (a.writes && b.writes && !(farApart s e l)) ||
    sharesByte e.op l.op || (afenced s e l && rangesMeet (s.physRanges e.op) (s.physRanges l.op)))) ||
  (a.ls && b.release) ||
  objectOrder e l || engineOrder e l ||
  (a.gat && b.gat) ||
  (match e.op with | .gcnt _ _ _ => b.ls | _ => false) ||
  (match e.op, l.op with
   | .gcnt t _ _, .gcnt u _ _ => t == u
   | _, _ => false)

/-- The k-th operation of the pipeline may be performed: no earlier one, in the side log or the pipeline, must be first. -/
def mayPerform (s : State) (k : Nat) : Bool :=
  match s.strand.acc[k]? with
  | none => false
  | some l => !l.sent && !((s.strand.sidelog ++ s.strand.acc.take k).any (fun e => mustPrecede s e l))

/-- A store, also one to an endpoint (R159), or a non-returning update enters the side log behind the entries that it holds (R145): the
side log holds it back no more, and nothing else does. -/
def mayLog (s : State) (k : Nat) : Bool :=
  match s.strand.acc[k]? with
  | none => false
  | some l => !s.strand.sidelog.isEmpty && !l.sent && !((s.strand.acc.take k).any (fun e => mustPrecede s e l)) &&
      (match l.op with
       | .store _ => true
       | .epStore _ _ _ => true
       | .atom _ _ _ _ _ _ r => r.isNone
       | _ => false)

/-- An operation taken off the pipeline. -/
def dropAcc (id : Nat) (s : State) : State :=
  { s with strand := { s.strand with acc := s.strand.acc.filter (fun a => a.id != id) } }

/-- An operation that has left for another package. -/
def markSent (id : Nat) (s : State) : State :=
  { s with strand := { s.strand with acc := s.strand.acc.map (fun a => if a.id = id then { a with sent := true } else a) } }

/-- An access of a path is held behind a PFENCE into the path that was issued before operation id and has not taken effect; `hits`
says which storage masks cover it (R182). -/
def pathFenced (t : Strand) (p : Path) (id : Nat) (hits : Stor → Bool) : Bool :=
  t.acc.any (fun a => decide (a.id < id) && (match a.op with
    | .pfence _ to_ stor _ => to_ == p && hits stor
    | _ => false))

/-- The same, or behind a TLBINV (R311). -/
def pathHeld (t : Strand) (p : Path) (id : Nat) (hits : Stor → Bool) : Bool :=
  pathFenced t p id hits || t.acc.any (fun a => decide (a.id < id) && a.op.isTlbinv)

/-- The storage of a drain-add by its peer's package: .dev for this package, .rem for another (DESIGN CHOICE: its tiles are no
locations of R174; log 71). -/
def colHas (s : State) (m : Stor) (pkg : Nat) : Bool := if pkg = s.pkg.num then m.dev else m.rem

/-- No drain-add of the strand in the foreground that a mask covers, issued before operation id, is still to complete (R171, R202). -/
def colBefore (s : State) (m : Stor) (id : Nat) : Bool :=
  s.core.cmuq.all (fun (i, w) => match w with
    | .dadd _ pkg _ _ _ _ => decide (id ≤ i) || !(colHas s m pkg)
    | .zero _ => true) &&
  s.pkg.dadds.all (fun d => d.h != s.strand.h || decide (id ≤ d.id) || !(colHas s m d.pkg))

-- ## Remote lines on their way (R175, R177)

/-- A read of a line by this package is on its way. -/
def Pkg.readOut (p : Pkg) (gpa : Nat) : Bool :=
  p.flows.any (fun f => f.dst == paPkg gpa && f.sent.any (fun q => match q.pkt.op with
    | .read pa n => overlap pa n (paLocal gpa) 64
    | _ => false))

/-- A read of some line by this package is on its way. -/
def Pkg.anyReadOut (p : Pkg) : Bool :=
  p.flows.any (fun f => f.sent.any (fun q => match q.pkt.op with
    | .read _ _ => true
    | _ => false))

/-- Every invalidation that writes of this package have caused has been applied (R177). -/
def Pkg.allSeen (p : Pkg) : Bool :=
  p.flows.all (fun f => f.sent.all (fun q => match q.pkt.op with
    | .inval _ => false
    | _ => true))

/-- What an engine writes with release at .sys may be performed (R180, R211): the invalidations have been applied, and the writes that
engines have sent to other packages are performed. -/
def Pkg.writesSeen (p : Pkg) : Bool :=
  p.allSeen && p.flows.all (fun f => f.sent.all (fun q => match q.asker, q.pkt.op with
    | .eng _, .write _ _ | .eng _, .atomic _ _ _ _ _ _ | .none, .write _ _ => false
    | _, _ => true))

-- ## Writing from the core, and errors

/-- An uncorrectable error found at an address that the strand in the foreground reads (R26, R322): false for a byte of another
package, whose home has not found it. -/
def State.errorAt (s : State) (via : List TlbEnt) (va : Nat) : Bool × State :=
  if inScratch va then
    let l := (va - Config.scratchBase) / 64
    (true, { s with core := { s.core with padBad := if s.core.padBad.contains l then s.core.padBad else s.core.padBad ++ [l] } })
  else
    let q := s.translateVia via va .read
    match q.1 with
    | .fault _ | .poison _ => (true, q.2)
    | .ok e =>
      let pa := homeOf q.2.pkg (e.addr va)
      if paPkg pa = q.2.pkg.num then (true, q.2.uncorrectable (paLocal pa)) else (false, q.2)

/-- Several ranges read one after the other. -/
def State.coreReadsVia (s : State) (who : Asker) (via : List TlbEnt) (rs : List (Nat × Nat)) : Eng (List Byte) × State :=
  rs.foldl (fun acc r =>
    match acc.1 with
    | .ok bs =>
      let q := acc.2.coreReadVia who via r.1 r.2
      match q.1 with
      | .ok b => (.ok (bs ++ b), q.2)
      | e => (e, q.2)
    | e => (e, acc.2)) (.ok [], s)

/-- Cells grouped into runs of consecutive addresses within one line. -/
def runsOf : List (Nat × Byte) → List (Nat × List Byte)
  | [] => []
  | c :: r =>
    match runsOf r with
    | [] => [(c.1, [c.2])]
    | (a, bs) :: q => if c.1 + 1 = a ∧ a % 64 ≠ 0 then (c.1, c.2 :: bs) :: q else (c.1, [c.2]) :: (a, bs) :: q

/-- The lowest fault that writes to ranges would meet, with its reason. -/
def State.writeFault (s : State) (k : AKind) (rs : List Nat) : Option (Nat × Nat) × State :=
  rs.foldl (fun acc a =>
    if inLocal a then acc
    else
      let q := acc.2.translate acc.2.strand.slot a k
      match q.1 with
      | .ok _ | .poison _ => (acc.1, q.2)
      | .fault r => ((match acc.1 with | some f => some (if f.1 ≤ a then f else (a, r)) | none => some (a, r)), q.2)) (none, s)

/-- A write that is discarded: reported with its context, strand and address, its request ended when an uncorrectable error is the
cause (R323, R339). -/
def State.discard (s : State) (va : Nat) (error : Option Nat) : State :=
  let s1 := s.report (.discarded s.strand.slot s.strand.h va)
  match error with
  | some pa => s1.dueError s.strand.h pa
  | none => s1

/-- The strand's traffic is C0 (R336): its launch started in class C0. -/
def State.isC0 (s : State) (t : Strand) : Bool :=
  match s.ctxAt t.slot with
  | some c => (c.launches.find? (fun l => l.id == t.launch.toNat)).any (fun l => l.cls == 0)
  | none => false

/-- The class of the foreground strand's packets. -/
def State.cls (s : State) : Nat := reqClass (s.isC0 s.strand)

/-- Bytes written by the core at their home: the scratchpad, the home of this package, or a packet to another package. A
write to a poisoned granule or to a refused package is discarded and reported (R323, R339). -/
def State.putRun (s : State) (id : Nat) (va : Nat) (bs : List Byte) : State :=
  if inScratch va then { s with core := s.core.padPut (va - Config.scratchBase) bs }
  else
    let q := s.translate s.strand.slot va .write
    match q.1 with
    | .fault _ => q.2
    | .poison a => q.2.discard va (some a)
    | .ok e =>
      let pa := homeOf q.2.pkg (e.addr va)
      if paPkg pa ≠ q.2.pkg.num then
        if q.2.pkg.allows (paPkg pa) then
          q.2.updPkg (fun p => (p.dropCopies pa bs.length).sendPkt q.2.core.num (paPkg pa) q.2.cls (.write (paLocal pa) bs)
            (.acc q.2.strand.h id) e.key)
        else q.2.discard va none
      else if poisoned q.2.pkg (paLocal pa) bs.length then q.2.discard va (some pa)
      else q.2.writeAs (paLocal pa) bs e.key

/-- An operation of the pipeline either is done or stays. -/
inductive Perf where
  | done (s : State)
  | stay (s : State)

/-- Taproot suspends a running strand while its side log is full (R145). -/
def fullLogStop (s : State) : State :=
  if s.strand.phase = .running ∧ Config.sideLog ≤ s.strand.sidelog.length then
    { s with strand := { s.strand.halt .stopping s.cyc with logFull := true } }
  else s

/-- A faulting store or update enters the side log with a report to firmware (R145, R309); with the log full it waits. -/
def toSideLog (a : Acc) (f : Option (Nat × Nat)) (k : AKind) (s : State) : Perf :=
  if Config.sideLog ≤ s.strand.sidelog.length then .stay (fullLogStop s)
  else
    let s1 := fullLogStop { s with strand := { s.strand with sidelog := s.strand.sidelog ++ [a] } }
    .done (match f with
      | some (va, r) => s1.updPkg (fun p => { p with faults := p.faults ++
          [{ slot := s.strand.slot, agent := .sidelog s.strand.h, va := va, kind := k, reason := r, stream := some a.st }] })
      | none => s1)

/-- A store performed: its runs written; it stays in the pipeline until other packages have answered. -/
def doStore (a : Acc) (cells : List (Nat × Byte)) (s : State) : Perf :=
  let rs := runsOf cells
  let q := s.writeFault .write (rs.map (·.1))
  match q.1 with
  | some f => toSideLog a (some f) .write q.2
  | none =>
    let s1 := rs.foldl (fun t r => t.putRun a.id r.1 r.2) q.2
    if s1.pkg.waitsFor (.acc s1.strand.h a.id) then .stay (markSent a.id s1) else .done s1

-- ## Update-only lines (R156)

/-- An update joined to a partial of the same operation and width. -/
def joinPart (p u : UPart) : UPart := { p with val := atomApply p.op p.w64 p.u p.val u.val 0#64 }

/-- A commutative update kept in the core's L1; a partial of another operation or width on the word merges the line first, as one
through a page of another key does, and a 257th line merges the oldest. -/
def keepUpdate (pa key va : Nat) (u : UPart) (s : State) : State :=
  let line := pa / 64
  let who := (s.strand.slot, s.strand.h, va)
  let clash := s.core.upd.any (fun l => l.line == line && (l.key != key || l.parts.any (fun p =>
    overlap p.off (if p.w64 then 8 else 4) u.off (if u.w64 then 8 else 4) && !(p.off == u.off && p.op == u.op && p.w64 == u.w64 && p.u == u.u))))
  let s1 := if clash then s.mergeAt s.core.num line else s
  if s1.core.upd.any (fun l => l.line == line) then
    let add := fun (l : ULine) =>
      if l.line ≠ line then l
      else
        let by_ := if l.by_.any (fun b => b.2.1 == who.2.1) then l.by_ else l.by_ ++ [who]
        if l.parts.any (fun p => p.off == u.off) then
          { l with parts := l.parts.map (fun p => if p.off = u.off then joinPart p u else p), by_ := by_ }
        else { l with parts := l.parts ++ [u], by_ := by_ }
    { s1 with core := { s1.core with upd := s1.core.upd.map add } }
  else
    let s2 := if Config.updLines ≤ s1.core.upd.length then
        (match s1.core.upd.head? with | some l => s1.mergeAt s1.core.num l.line | none => s1) else s1
    { s2 with core := { s2.core with upd := s2.core.upd ++ [{ line := line, key := key, parts := [u], by_ := [who] }] } }

/-- The entry that an atomic returns (R155). -/
def atomEntry (op : Fin 7) (w64 u : Bool) (old : Nat) : W64 :=
  if w64 then BitVec.ofNat 64 old
  else if u || op == 6 then BitVec.ofNat 64 (old % 2 ^ 32) else (BitVec.ofNat 32 old).signExtend 64

/-- A reserved load entry of the strand lands. -/
def landLoad (q : Fin 4) (ent : Nat) (v : QVal) (mark : Option (Cause × W64)) (s : State) : State :=
  { s with strand := s.strand.landQ q ent v mark s.cyc }

/-- The mark of a read that could not be made (R144). -/
def markOf (e : Eng α) : Option (Cause × W64) :=
  match e with
  | .ok _ => none
  | .fault va _ => some (.pageLoad, BitVec.ofNat 64 va)
  | .poison pa => some (.eccUncorr, BitVec.ofNat 64 pa)
  | .remote pa => some (.pageLoad, BitVec.ofNat 64 pa)

/-- An atomic performed (R155, R156, R304): in the scratchpad, at the home, in an update-only line, or by a packet. -/
def doAtom (a : Acc) (op : Fin 7) (w64 u : Bool) (va : Nat) (x y : W64) (ret : Option (Fin 4 × Nat)) (s : State) : Perf :=
  let n := if w64 then 8 else 4
  let land := fun (mark : Option (Cause × W64)) (old : Nat) (t : State) =>
    match ret with
    | some (q, ent) => landLoad q ent (.s (atomEntry op w64 u old)) mark t
    | none => t
  if inScratch va then
    let o := va - Config.scratchBase
    let old := leNat (s.core.scratch.read o n)
    let new := atomApply op w64 u (BitVec.ofNat 64 old) x y
    if s.core.padSick o n then .done (if ret.isSome then land (some (.eccUncorr, BitVec.ofNat 64 va)) 0 s else s.discard va (some va))
    else .done (land none old { s with core := s.core.padPut o (leBytes n new.toNat) })
  else
    let q := s.translateVia a.pages va .atomic
    match q.1 with
    | .fault r =>
      if ret.isSome then .done (land (some (.pageLoad, BitVec.ofNat 64 va)) 0 q.2) else toSideLog a (some (va, r)) .atomic q.2
    | .poison x => .done (if ret.isSome then land (some (.eccUncorr, BitVec.ofNat 64 x)) 0 q.2 else q.2.discard va (some x))
    | .ok e =>
      let pa := homeOf q.2.pkg (e.addr va)
      let pl := paLocal pa
      if paPkg pa ≠ q.2.pkg.num then
        if q.2.pkg.allows (paPkg pa) then
          .stay (markSent a.id (q.2.updPkg (fun p => (p.dropCopies pa n).sendPkt q.2.core.num (paPkg pa) q.2.cls
            (.atomic op w64 u pl x y) (.acc q.2.strand.h a.id) e.key)))
        else if ret.isSome then .done (land (some (.pageLoad, BitVec.ofNat 64 va)) 0 q.2)
        else .done (q.2.discard va none)
      else if poisoned q.2.pkg pl n then
        (if ret.isSome then .done (land (some (.eccUncorr, BitVec.ofNat 64 pa)) 0 q.2) else .done (q.2.discard va (some pa)))
      else if ret.isNone && op != 4 && op != 5 && !e.l2only then
        .done (keepUpdate pl e.key va { off := pl % 64, op := op, w64 := w64, u := u, val := x } q.2)
      else
        let r := q.2.readAs pl n e.key
        let old := leNat r.1
        .done (land none old (r.2.writeAs pl (leBytes n (atomApply op w64 u (BitVec.ofNat 64 old) x y).toNat) e.key))

-- ## Loads

/-- An access as the asker of remote lines. -/
def State.asker (s : State) (a : Acc) : Asker := .acc s.strand.h a.id

/-- A line of another package asked for (R177, R338; a gather's in the request class, R336), or the refusal of its package (R144). A line that a read of this package
is already out for is waited for, but for a page with ca = 1, each of whose reads goes to the home (R304): so the answers that
one agent sees keep the coherence order (R175). -/
def askLine (a : Acc) (pa : Nat) (refused : State → State) (s : State) : Perf :=
  let once := (opRanges a.op).any (fun r => (s.tlbHit r.1).any (·.l2only)) || a.pages.any (·.l2only)
  let cls := if (roleOf a.op).gat then 1 else s.cls
  let line := pa / 64 * 64
  if !(s.pkg.allows (paPkg pa)) then .done (refused s)
  else if s.pkg.readOut line && !once then .stay s
  else .stay (markSent a.id (s.updPkg (fun p => p.sendPkt s.core.num (paPkg pa) cls (.read (paLocal line) 64) (s.asker a) (s.keyOf pa))))

def doLoad (a : Acc) (q : Fin 4) (ent : Nat) (t : LTy) (va : Nat) (s : State) : Perf :=
  let r := s.coreReadVia (s.asker a) a.pages va (ltyBytes t)
  match r.1 with
  | .ok bs => .done (landLoad q ent (.s (ltyEntry t (leNat bs))) none r.2)
  | .remote pa => askLine a pa (landLoad q ent (.s 0#64) (some (.pageLoad, BitVec.ofNat 64 va))) r.2
  | e => .done (landLoad q ent (.s 0#64) (markOf e) r.2)

/-- The containers of rows read one after the other, in the layout of a register. -/
def rowsImage (rows cols : Nat) (bs : List Byte) : VReg :=
  (List.range 512).map (fun p =>
    if p / 32 < rows ∧ p % 32 < cols then BitVec.ofNat 32 (leNat ((bs.drop (4 * ((p / 32) * cols + p % 32))).take 4)) else 0#32)

/-- The lowest address of a list of addresses with reasons. -/
def lowestOf : List (Nat × Nat) → Option (Nat × Nat)
  | [] => none
  | x :: r => match lowestOf r with
    | none => some x
    | some y => some (if y.1 < x.1 then y else x)

/-- The bytes of several ranges. Where they cannot be had, a page that faults or a package that refuses comes first (R73), the lowest
address with its reason, 0 for a refusal (R144, R309); then an uncorrectable error; then the first line to be asked for. -/
def State.readsOrMark (s : State) (a : Acc) (via : List TlbEnt) (rs : List (Nat × Nat)) : Eng (List Byte) × State :=
  let r := s.coreReadsVia (s.asker a) via rs
  match r.1 with
  | .ok _ => r
  | e =>
    let each := (rs.flatMap (fun x => linePieces x.1 x.2)).map (fun pc => (pc.1, (s.coreReadVia (s.asker a) via pc.1 pc.2).1))
    let bad := each.filterMap (fun (va, x) => match x with
      | .fault at_ w => some (at_, w)
      | .remote pa => if s.pkg.allows (paPkg pa) then none else some (va, 0)
      | _ => none)
    let sick := each.findSome? (fun (_, x) => match x with | .poison pa => some pa | _ => none)
    (match lowestOf bad, sick with
     | some (va, w), _ => .fault va w
     | none, some pa => .poison pa
     | none, none => e, r.2)

def doLoadV (a : Acc) (q : Fin 4) (ent : Nat) (rows cols : Nat) (s : State) : Perf :=
  let r := s.readsOrMark a a.pages (opRanges a.op)
  match r.1 with
  | .ok bs => .done (landLoad q ent (.v rows cols (rowsImage rows cols bs)) none r.2)
  | .remote pa => askLine a pa id r.2
  | e => .done (landLoad q ent (.v rows cols VReg.zero) (markOf e) r.2)

/-- An endpoint's status word (R342). -/
def epStatus (t : Strand) (p : Pkg) (n : Nat) : W64 :=
  let e := t.eps.getD n { words := [], status := 0#64 }
  e.status ||| (if p.waitsFor (.ep t.h n) then 0x80#64 else 0#64) ||| BitVec.ofNat 64 e.words.length

/-- A count in an endpoint's status raised by one, wrapping: sent at 32, ovr at 16, refused at 8 (R342). -/
def epCount (lo width : Nat) (e : Ep) : Ep :=
  let old := (e.status >>> lo).toNat % 2 ^ width
  { e with status := (e.status &&& ~~~(BitVec.ofNat 64 (2 ^ width - 1) <<< lo)) |||
                     (BitVec.ofNat 64 ((old + 1) % 2 ^ width) <<< lo) }

/-- A closed packet sent to the destination of the endpoint (R341); to a destination that the lock block refuses it is discarded and
reported (R339). -/
def sendEp (n : Nat) (words : List W64) (s : State) : State :=
  let ent := tget s.pkg.epTab (16 * s.strand.slot + n)
  let refuse := { s with strand := { s.strand with eps := s.strand.eps.modify n (epCount 8 8) } }
  match ent with
  | none => refuse
  | some w =>
    let d := (w.extractLsb' 32 10).toNat
    if !w.getLsbD 0 then refuse
    else if !(s.pkg.allows d) then refuse.report (.discarded s.strand.slot s.strand.h (Config.localBase + 0x2000 * n))
    else s.updPkg (fun p => p.sendPkt s.core.num d s.cls
      (.endpoint (w.extractLsb' 8 8).toNat s.strand.ctx.toNat s.core.num n words) (.ep s.strand.h n))

/-- An endpoint store performed (R159). A 64th word that is itself the last closes the packet as the last word, and no overrun is
counted (log 73). -/
def doEpStore (n : Nat) (last : Bool) (w : W64) (s : State) : Perf :=
  let e := s.strand.eps.getD n { words := [], status := 0#64 }
  let ws := e.words ++ [w]
  let full := decide (64 ≤ ws.length)
  if last || full then
    let e1 := { e with words := [] }
    let e2 := if last then e1 else epCount 16 16 e1
    .done (sendEp n ws { s with strand := { s.strand with eps := s.strand.eps.set n e2 } })
  else .done { s with strand := { s.strand with eps := s.strand.eps.set n { e with words := ws } } }

-- ## Gathers (R157, R158)

def putSix (six : Six) (s : State) : State :=
  { s with strand := { s.strand with six := s.strand.six.map (fun x => if x.id = six.id then six else x) } }

/-- The engine produces the next offset of the k-th stream into its gather queue, when that has room (R157). Metadata that
cannot be read now is left for the LDG that needs it. -/
def gatherAhead (k : Nat) (s : State) : State :=
  match s.strand.six[k]? with
  | none => s
  | some six =>
    let who : Asker := .chunk s.strand.h six.id 0
    if 64 ≤ six.ready.length ∨ pathHeld s.strand .gat six.id (fun m => rangeIn s m (six.at_, 1)) then s
    else
      let o := sixTake who six 1 s (six.count - six.pos + 1)
      match o.1 with
      | .ok l => (putSix { o.2.1 with ready := six.ready ++ l } o.2.2).usedUp who
      | .remote pa =>
        if s.pkg.allows (paPkg pa) && !(s.pkg.waitsFor who) && !(s.pkg.readOut (pa / 64 * 64)) then
          s.updPkg (fun p => p.sendPkt s.core.num (paPkg pa) 1 (.read (paLocal pa / 64 * 64) 64) who (s.keyOf pa))
        else s
      | .fault _ _ | .poison _ => s

def doGather (a : Acc) (q : Fin 4) (ent sid base rows cols : Nat) (s : State) : Perf :=
  match s.strand.six.find? (fun x => x.id == sid) with
  | none => .done (landLoad q ent (.v rows cols VReg.zero) none s)
  | some six =>
    let o := sixDraw (s.asker a) six (rows * cols) s
    let keep := putSix o.2.1
    let bad := fun (m : Option (Cause × W64)) (t : State) => .done (landLoad q ent (.v rows cols VReg.zero) m (keep t))
    match o.1 with
    | .remote pa =>
      askLine a pa (fun t => landLoad q ent (.v rows cols VReg.zero) (some (.pageLoad, BitVec.ofNat 64 o.2.1.at_)) t) o.2.2
    | .fault va w => bad (markOf (Eng.fault va w : Eng Unit)) (o.2.2.faultAt a.st va .read w)
    | .poison pa => bad (markOf (Eng.poison pa : Eng Unit)) o.2.2
    | .ok offs =>
      let r := o.2.2.readsOrMark a [] (offs.map (fun f => ((base + f) % 2 ^ 64, 4)))
      match r.1 with
      | .ok bs =>
        let img := (List.range 512).map (fun p =>
          let k := (p / 32) * cols + p % 32
          if p / 32 < rows ∧ p % 32 < cols ∧ k < offs.length then BitVec.ofNat 32 (leNat ((bs.drop (4 * k)).take 4)) else 0#32)
        .done (landLoad q ent (.v rows cols img) none (keep r.2))
      | .remote pa => askLine a pa id r.2
      | .poison pa => bad (markOf (Eng.poison pa : Eng Unit)) r.2
      | .fault va w => bad (markOf (Eng.fault va w : Eng Unit)) (if w = 0 then r.2 else r.2.faultAt a.st va .read w)

-- ## Flushes and TLBINV

/-- A line written back from its home L2 slice, which then holds it no more: its granule of a tier-1 frame becomes dirty (R312). -/
def Pkg.writeBack (p : Pkg) (line : Nat) : Pkg :=
  if !(p.dirtyL2.contains line) then (if p.l2Bad.contains line then { p with l2Bad := p.l2Bad.filter (· != line) } else p)
  else if p.l2Bad.contains line then
    -- the write-back finds the error (R322)
    let f := (p.frame (64 * line)).getD (p.freshFrame (frameIx (64 * line)))
    { p with dirtyL2 := p.dirtyL2.filter (· != line), l2Bad := p.l2Bad.filter (· != line) }.setFrame (frameIx (64 * line))
      { f with poison := f.poison ||| (1#512 <<< granuleOf (64 * line))
               dirty := if (tier1Die (64 * line)).isSome then f.dirty ||| (1#512 <<< granuleOf (64 * line)) else f.dirty }
  else
    let pa := 64 * line
    let p1 := { p with dirtyL2 := p.dirtyL2.filter (· != line) }
    match p.frame pa with
    | some f => if (tier1Die pa).isSome then p1.setFrame (frameIx pa) { f with dirty := f.dirty ||| (1#512 <<< granuleOf pa) } else p1
    | none => p1

/-- CFLUSH and CINV of a range (R172): lines of the local window and of unmapped pages are skipped, and so are those past the last
virtual address, for neither instruction faults (log 74). CINV leaves a poisoned line of this core's L1 as it is, and CFLUSH.mem of a
remote line asks nothing of the memory tier of its home (DESIGN CHOICE; log 74). -/
def doFlush (mem inv : Bool) (va len : Nat) (s : State) : State :=
  (List.range (if len = 0 ∨ Config.localBase ≤ va then 0 else (min (va + len) Config.localBase - 1) / 64 - va / 64 + 1)).foldl (fun t i =>
    let a := (va / 64 + i) * 64
    let q := t.translate t.strand.slot a .read
    match q.1 with
    | .fault _ | .poison _ => q.2
    | .ok e =>
      let pa := homeOf q.2.pkg (e.addr a)
      if paPkg pa ≠ q.2.pkg.num then (if inv then q.2.updPkg (fun p => p.dropCopies pa 64) else q.2)
      else
        let u := q.2.mergeAt q.2.core.num (paLocal pa / 64)
        if mem then u.updPkg (fun p => p.writeBack (paLocal pa / 64)) else u) s

/-- The entries TLBINV drops (R311). -/
def doTlbinv (va len : Nat) (scope : Fin 3) (s : State) : State :=
  let top := min (va + len) Config.vaEnd
  match scope with
  | 0 => s.dropCore s.strand.slot va top
  | 1 => s.dropDie (dieOf s.core.num) s.strand.slot va top
  | 2 => s.dropPkg s.strand.slot va top

end Sys2Proof.Machine
end

