-- ==== Sys2Proof/Machine/Records.lean ====
section
/-! DEFINITION. What Taproot's engines share: looking up launches and tasks, posting words and states into records
(spec/12_queue.md R254, R255, spec/08_tile.md R206, R211), asking firmware about a fault (spec/15_page.md R309) and other
packages for a line (spec/07_consistency.md R177). -/

namespace Sys2Proof.Machine

def State.launchAt (s : State) (slot id : Nat) : Option Launch :=
  (s.ctxAt slot).bind (fun c => c.launches.find? (fun l => l.id == id))

def State.updLaunch (s : State) (slot id : Nat) (f : Launch → Launch) : State :=
  s.updCtx slot (fun c => { c with launches := c.launches.map (fun l => if l.id = id then f l else l) })

def State.taskAt (s : State) (n : Nat) : Option Task := s.pkg.tasks.find? (fun t => t.n == n)

def State.updTask (s : State) (n : Nat) (f : Task → Task) : State :=
  s.updPkg (fun p => { p with tasks := p.tasks.map (fun t => if t.n = n then f t else t) })

/-- A field of a context's record words (R281): word w, bits hi to lo. -/
def Ctx.fld (c : Ctx) (w hi lo : Nat) : Nat := bits ((c.words.getD w 0#64).toNat) hi lo

/-- The first object number of the tile tasks. -/
def taskObjs : Nat := 2 ^ 36

/-- The object under which the answers to a task's writes come back. -/
def taskObj (n : Nat) : Nat := taskObjs + n

/-- The die of an array: Bole arrays 0 to 15, then the MV arrays from 16 on (R203). -/
def dieOfArray (a : Nat) : Nat := if a < 16 then a / 8 else 2 + (a - 16) / 48

/-- The source of what an asker sends (R334): the core of a copy's strand; for the traffic of an array, whose core the rule does not
name, the lowest core of the array's die (DESIGN CHOICE; log 112); Taproot for its engines. -/
def State.sourceOf (s : State) (who : Asker) : Nat :=
  match who with
  | .chunk h _ _ => (s.findStrand h).elim taproot (·.core)
  | .eng obj =>
    if obj < taskObjs ∨ 2 ^ 37 ≤ obj then taproot
    else match s.pkg.arrays.find? (fun a => a.2 == obj - taskObjs) with
      | some (a, _) => let d := dieOfArray a; if d < 2 then 32 * d else 64 + 48 * (d - 2)
      | none => taproot
  | _ => taproot

/-- Bytes that an engine writes: at their home, or by a packet to another package, whose answer comes to the asker; a piece
whose page refuses the write is lost (log 11). -/
def State.engPostBy (s : State) (asker : Asker) (slot va : Nat) (bs : List Byte) : State :=
  (linePieces va bs.length).foldl (fun t pc =>
    let part := (bs.drop (pc.1 - va)).take pc.2
    let q := t.engTranslate slot pc.1 .write
    match q.1 with
    | .fault _ | .poison _ => q.2
    | .ok e =>
      let pa := homeOf q.2.pkg (e.addr pc.1)
      if paPkg pa ≠ q.2.pkg.num then
        if q.2.pkg.allows (paPkg pa) then
          q.2.updPkg (fun p => (p.dropCopies pa pc.2).sendPkt (q.2.sourceOf asker) (paPkg pa) 3 (.write (paLocal pa) part) asker e.key)
        else q.2
      else if poisoned q.2.pkg (paLocal pa) pc.2 then q.2
      else q.2.writeAs (paLocal pa) part e.key) s

def State.engPost (s : State) (slot va : Nat) (bs : List Byte) : State := s.engPostBy .none slot va bs

def State.engPostWord (s : State) (slot va : Nat) (w : W64) : State := s.engPost slot va (leBytes 8 w.toNat)

/-- A line of another package asked for by an engine, in the bulk class (R336), unless the question is already under way; nothing is
asked where an engine waits for this package itself (R391). -/
def State.askRemoteBy (s : State) (who : Asker) (pa : Nat) : State :=
  let line := pa / 64 * 64
  if paPkg pa = s.pkg.num || s.pkg.readOut line || !(s.pkg.allows (paPkg pa)) then s
  else s.updPkg (fun p => p.sendPkt (s.sourceOf who) (paPkg pa) 3 (.read (paLocal line) 64) who (s.keyOf line))

def State.askRemote (s : State) (pa : Nat) : State := s.askRemoteBy .none pa

-- ## Image slots (R288)

/-- KiB of the image slot of a stage: 384, 64 for each granule that spsave declares, and 32 for the accumulator save area (R288). -/
def imageKiB (spsave : BitVec 32) : Nat := 416 + 64 * ((List.range 32).filter (fun i => spsave.getLsbD i)).length

/-- Where firmware puts an image slot of a size: the lowest place of the image area that is free (DESIGN CHOICE: R288 leaves the
division of the area to firmware; log 24). -/
def Ctx.imageFit (c : Ctx) (kib : Nat) : Option Nat :=
  let free := fun o => decide (o + kib ≤ 64 * c.fld 8 63 32) && c.images.all (fun e => decide (o + kib ≤ e.2.1) || decide (e.2.1 + e.2.2 ≤ o))
  ((0 :: c.images.map (fun e => e.2.1 + e.2.2)).filter free).foldl (fun m o => some (m.elim o (min o))) none

/-- The address of a tile in the accumulator save area of a strand, the last 32 KiB of its slot (R288). -/
def State.saveVa (s : State) (t : Strand) (n : Nat) : Option Nat :=
  (s.ctxAt t.slot).bind (fun c => (c.images.find? (fun e => e.1 == t.h)).map (fun e =>
    c.fld 7 63 0 + 1024 * (e.2.1 + e.2.2 - 32) + 0x1000 * n))

/-- A tile's logical image (R188) written to the save area. -/
def State.saveTile (s : State) (t : Strand) (n : Nat) (tile : List W32) : State :=
  match s.saveVa t n with
  | some va => s.engPost t.slot va (tile.flatMap (fun c => leBytes 4 c.toNat))
  | none => s

/-- A tile as the save area holds it; the copy that the strand record keeps serves when the area cannot be read (log 24). -/
def State.savedTile (s : State) (t : Strand) (n : Nat) (kept : List W32) : List W32 × State :=
  match s.saveVa t n with
  | none => (kept, s)
  | some va =>
    let r := s.engRead t.slot va 4096
    match r.1 with
    | .ok bs => ((elemsOf 4 bs).map (fun c => BitVec.ofNat 32 c), r.2)
    | _ => (kept, s)

-- ## Launch and task states in their records

/-- The codes of R254. -/
def LState.code : LState → Nat
  | .pending => 1 | .ready => 2 | .running => 3 | .done => 4 | .cancelled => 5 | .refused => 6

/-- The codes of R206. -/
def TState.code : TState → Nat
  | .pending => 1 | .ready => 2 | .running => 3 | .stopping => 4 | .stopped => 5 | .done => 6 | .failed => 7 | .cancelled => 8

/-- A launch takes a state, which is written into its status word (R255). -/
def State.setLState (s : State) (slot id : Nat) (st : LState) : State :=
  match s.launchAt slot id with
  | none => s
  | some l => (s.updLaunch slot id (fun l => { l with state := st })).engPost slot (l.addr + 0x3E) [BitVec.ofNat 8 st.code]

def bitNat (b : Bool) (k : Nat) : Nat := if b then 2 ^ k else 0

/-- A task's status word (R206). -/
def Task.word (t : Task) : W64 :=
  BitVec.ofNat 64 (t.array * 2 ^ 40 + t.state.code * 2 ^ 32 + bitNat t.trit 15 + bitNat t.fb4 14 + bitNat t.nar 13 +
    t.flags.toNat * 2 ^ 8 + t.failKind * 2 ^ 4 + bitNat (t.failKind != 0 && t.failKind != 6) 0)

/-- A task takes a state, and its status word is written (R211). -/
def State.setTState (s : State) (n : Nat) (st : TState) : State :=
  let s1 := s.updTask n (fun t => { t with state := st })
  match s1.taskAt n with
  | none => s1
  | some t => s1.engPostWord t.slot (t.addr + 0x50) t.word

/-- A task state that is final (R211). -/
def TState.final : TState → Bool
  | .done => true | .failed => true | .cancelled => true
  | .pending => false | .ready => false | .running => false | .stopping => false | .stopped => false

/-- Launches of a context that are waiting become READY: every wait event signalled, in the store, every earlier launch of
the queue started (R253, R255, R256). -/
def State.refreshLaunches (s : State) (slot : Nat) : State :=
  match s.ctxAt slot with
  | none => s
  | some c =>
    let waiting := fun (l : Launch) => l.state == .pending || l.state == .ready
    let ready := c.launches.filter (fun l => l.state == .pending && l.waits.isEmpty && l.inStore &&
      !(c.launches.any (fun m => m.q == l.q && m.order < l.order && waiting m)))
    ready.foldl (fun t l => t.setLState slot l.id .ready) s

/-- A stopped strand that was parked becomes ready again (R279). -/
def Strand.unpark (t : Strand) : Strand :=
  if t.parked && t.phase == .stopped then { t with phase := .ready, parked := false, parkAt := 0 } else t

-- ## Answers from Taproot objects (R416)

/-- A result whose answer is still to come: an in-flight entry without a due cycle, a reserved queue entry, or nothing.
Its number is the strand's nid before. -/
def reserveS (d : SOp) (s : State) : State :=
  match d with
  | .reg n => { s with strand := { s.strand with
      pend := s.strand.pend ++ [{ id := s.strand.nid, dest := .scal s.stream n, due := none, left := BitVec.allOnes 512, val := .s 0#64 }],
      nid := s.strand.nid + 1 } }
  | .lq q => s.reserveQ true q (.s 0#64)
  | .sq q => s.reserveQ false q (.s 0#64)
  | .none => { s with strand := { s.strand with nid := s.strand.nid + 1 } }

/-- The answer of a number lands in the strand, wherever it was reserved. -/
def Strand.answer (t : Strand) (id : Nat) (v : W64) (c : Nat) : Strand :=
  { t with
    pend := t.pend.map (fun f => if f.id = id ∧ f.due = Option.none then { f with due := some c, val := .s v } else f)
    lq := t.lq.map (landEnt id (.s v) Option.none c)
    sq := t.sq.map (landEnt id (.s v) Option.none c) }

/-- The strand that waits gets its answer. -/
def State.answer (s : State) (h id : Nat) (v : W64) : State :=
  let c := match s.findStrand h with
    | some t => ((s.findCore t.core).map (·.cyc)).getD 0
    | none => 0
  s.updStrand h (fun t => settle c (t.answer id v c))

/-- A word that asks a Taproot object, which its first source names, and gets a result: its operation is handed over behind issue
(R416). -/
def askWord (d : SOp) (srcs : List SOp) (f : List W64 → Option (Nat → AccOp)) (s : State) : Out :=
  gatedPre ((known (knowns srcs s) 0).elim [] (fun v => causeIf (f [v]).isNone .illegal s.ir)) (srcs.flatMap sPops) [] s
    (let r := takeSs srcs s
     match f r.1 with
     | none => illegalOut s
     | some op =>
       gated (srcs.flatMap sPops) (sPushes d) s
         (retire s (addAcc (op r.2.strand.nid) (reserveS d r.2))))

end Sys2Proof.Machine
end

