-- ==== Sys2Proof/Machine/Event.lean ====
section
/-! DEFINITION. The event table and the event instructions (spec/09_event.md R214 to R222), the firmware request rings as
firmware reads them (spec/14_context.md R284), and the end of a strand at a cancellation point (R96, R221). -/

namespace Sys2Proof.Machine

-- ## Firmware request rings (R284)

def Ctx.ringBase (c : Ctx) : Nat := (c.words.getD 9 0#64).toNat
def Ctx.ringEvent (c : Ctx) : Nat := c.fld 10 63 48
def Ctx.ringSlots (c : Ctx) : Nat := c.fld 10 31 0

/-- A word of a context read by an engine, 0 where it cannot be read. -/
def State.engGet (s : State) (slot va : Nat) : Nat :=
  match (s.engRead slot va 8).1 with
  | .ok bs => leNat bs
  | _ => 0

/-- Requests of a context's ring that firmware has read and not served; a DESTROY that runs on has been (R284). -/
def Pkg.ringReqs (p : Pkg) (slot : Nat) : List FwReq :=
  p.fwreqs.filter (fun r => !r.host && r.slot == slot && !(r.words.getD 7 0#64).getLsbD 32)

/-- Firmware, woken on fwev, reads the new records of a context's ring in slot order. -/
def State.readRing (s : State) (slot : Nat) : State :=
  match s.ctxAt slot with
  | none => s
  | some c =>
    let prod := s.engGet slot c.ringBase
    let next := s.engGet slot (c.ringBase + 8) + (s.pkg.ringReqs slot).length
    let nslot := c.ringSlots
    if nslot = 0 then s
    else
      (List.range (min (prod - next) nslot)).foldl (fun t i =>
        let at_ := c.ringBase + 0x40 + 0x40 * ((next + i) % nslot)
        match (t.engRead slot at_ 64).1 with
        | .ok bs => t.updPkg (fun p => { p with
            fwreqs := p.fwreqs ++ [{ n := p.fwNo, host := false, slot := slot, at_ := at_, words := wordsOf bs }]
            fwNo := p.fwNo + 1 })
        | _ => t) s

-- ## The table (R215, R216)

def Ctx.event (c : Ctx) (name : Nat) : Option EvEnt := c.events.find? (fun e => e.name == name)

/-- Entries of the table that a context holds. -/
def Ctx.entries (c : Ctx) : Nat := (c.events.filter (fun e => !e.spilled)).length

/-- Records that a context's event overflow area holds: events, and waiters past the list of an entry. -/
def Ctx.overUsed (c : Ctx) : Nat :=
  c.events.foldl (fun n e => n + (if e.spilled then 1 + e.waiters.length else e.waiters.length - Config.eventWaiters)) 0

/-- An event needs a new record for itself or for a waiter, and the overflow area has no place for it (R216); `late` says that the
waiter arrives later, when the event may be CLEAR. -/
def Ctx.exhausted (c : Ctx) (name : Nat) (waiter late : Bool) : Bool :=
  let need := match c.event name with
    | none => if c.entries < c.evq then 0 else if waiter then 2 else 1
    | some e => if waiter && (late || !e.set) && (e.spilled || decide (Config.eventWaiters ≤ e.waiters.length)) then 1 else 0
  need != 0 && decide (c.evOverCap < c.overUsed + need)

/-- The entry of an event, CLEAR and in the table or, with the quota used up, in the overflow area. -/
def Ctx.newEvent (c : Ctx) (name : Nat) : EvEnt :=
  (c.event name).getD { name := name, set := false, waiters := [], spilled := decide (c.evq ≤ c.entries) }

/-- An event of the overflow area moves into the table when the quota has a free entry (R216): of several the oldest (DESIGN CHOICE: the
rule names none; log 101). -/
def Ctx.refill (c : Ctx) : Ctx :=
  match c.events.find? (fun e => e.spilled) with
  | none => c
  | some e =>
    if c.entries < c.evq then
      { c with events := c.events.map (fun (f : EvEnt) => if f.name = e.name then { f with spilled := false } else f) }
    else c

/-- Firmware waits on fwev as an engine waiter (R215, R284): while the event is CLEAR it is listed there; while it is SET firmware is
woken at once, and reads the ring at every signal. -/
def Ctx.withFirmware (c : Ctx) (e : EvEnt) : EvEnt :=
  if e.name = c.ringEvent ∧ c.ringSlots ≠ 0 ∧ !e.set ∧ !e.waiters.contains .firmware then { e with waiters := e.waiters ++ [.firmware] } else e

/-- An entry put back: it is freed while it is CLEAR and has no waiters (R215). -/
def Ctx.putEvent (c : Ctx) (e0 : EvEnt) : Ctx :=
  let e := c.withFirmware e0
  let keep := e.set || !e.waiters.isEmpty
  if c.events.any (fun f => f.name == e.name) then
    ({ c with events := c.events.filterMap (fun (f : EvEnt) => if f.name = e.name then (if keep then some e else none) else some f) }).refill
  else if keep then { c with events := c.events ++ [e] } else c

/-- A waiter woken (R217, R221). -/
def wake (slot name : Nat) (s : State) (w : Waiter) : State :=
  match w with
  | .strand h st => s.updStrand h (fun t => t.setSeq st { t.seq st with woken := true, waiting := false })
  | .task n =>
    let s1 := s.updTask n (fun t => { t with waits := t.waits.filter (· != name) })
    (match s1.taskAt n with
     | some t => if t.state == .pending && t.waits.isEmpty && !t.words.isEmpty then s1.setTState n .ready else s1
     | none => s1)
  | .launch sl id => (s.updLaunch sl id (fun l => { l with waits := l.waits.filter (· != name) })).refreshLaunches slot
  | .firmware => s.readRing slot

-- ## The operations of R217

/-- Waiters of an event woken in list order. -/
def wakeAll (slot name : Nat) (ws : List Waiter) (s : State) : State := ws.foldl (wake slot name) s

/-- EVSIG, or an engine's signal. The waiters past an entry's list, and those of an event in the overflow area, stay listed
under the SET event until firmware serves them (R216). -/
def State.signal (s : State) (slot name : Nat) : State :=
  match s.ctxAt slot with
  | none => s
  | some c =>
    let e := c.newEvent name
    let now := if e.set || e.spilled then [] else e.waiters.take Config.eventWaiters
    let left := if e.set || e.spilled then e.waiters else e.waiters.drop Config.eventWaiters
    let s1 := wakeAll slot name now (s.updCtx slot (fun c => c.putEvent { e with set := true, waiters := left }))
    if name = c.ringEvent ∧ c.ringSlots ≠ 0 ∧ !e.waiters.contains .firmware then s1.readRing slot else s1

/-- A signal with release at .sys over .dev.rem (R211, R255): at once, or behind the writes before it. -/
def State.signalLate (s : State) (slot name : Nat) : State :=
  if s.pkg.late.isEmpty && s.pkg.writesSeen then s.signal slot name
  else s.updPkg (fun p => { p with late := p.late ++ [.signal slot name] })

/-- EVCLR: waiters already woken stay woken, also those that firmware has still to serve. -/
def State.clearEvent (s : State) (slot name : Nat) : State :=
  match (s.ctxAt slot).bind (fun c => c.event name) with
  | none => s
  | some e =>
    let ws := if e.set then e.waiters else []
    wakeAll slot name ws (s.updCtx slot (fun c => c.putEvent { e with set := false, waiters := if e.set then [] else e.waiters }))

/-- A waiter arrives (EVWAIT, a task's or a launch's wait). -/
def State.waitEvent (s : State) (slot name : Nat) (w : Waiter) : State :=
  match s.ctxAt slot with
  | none => s
  | some c =>
    let e := c.newEvent name
    if e.set && !e.spilled then wake slot name s w
    else s.updCtx slot (fun c => c.putEvent { e with waiters := e.waiters ++ [w] })

/-- An operation that has issued and not reached the table holds the records that it may need: an EVSIG one for its event, an EVWAIT
one for its waiter too, whichever of the operations on the way comes first (R217). -/
def Ctx.ahead (c : Ctx) (a : Acc) : Ctx :=
  match a.op with
  | .evsig n _ => if (c.event n).isSome then c else c.putEvent { c.newEvent n with set := true }
  | .evwait n => let e := c.newEvent n; c.putEvent { e with waiters := e.waiters ++ [.strand 0 a.st] }
  | _ => c

/-- A context with the records that the words of its strands which have issued may need. -/
def State.ctxAhead (s : State) (slot : Nat) : Option Ctx :=
  (s.ctxAt slot).map (fun c => ((s.allStrands.filter (fun t => t.slot == slot)).flatMap (·.acc)).foldl Ctx.ahead c)

/-- A waiter recorded on several events; none when the overflow area has no place for one of its records (R216). -/
def State.recordWaits (s : State) (slot : Nat) (w : Waiter) (names : List Nat) : Option State :=
  names.foldl (fun o n => o.bind (fun t =>
    if (t.ctxAhead slot).any (fun c => c.exhausted n true false) then none else some (t.waitEvent slot n w))) (some s)

/-- A waiter removed by a cancel or a destruction (R217, R221). -/
def State.unwait (s : State) (slot : Nat) (p : Waiter → Bool) : State :=
  s.updCtx slot (fun c => c.events.foldl (fun d e =>
    if e.waiters.any p then d.putEvent { e with waiters := e.waiters.filter (fun w => !(p w)) } else d) c)

/-- What EVTEST returns (R222). -/
def State.testEvent (s : State) (slot name : Nat) : W64 :=
  match (s.ctxAt slot).bind (fun c => c.event name) with
  | none => 0#64
  | some e => if e.spilled then 2#64 else if e.set then 1#64 else 0#64

/-- Firmware serves an event of the overflow area, or waiters there: they are woken when it is SET, and the event moves into
the table when the quota has an entry (R216). -/
def execEventOverflowServe (slot name : Nat) (s : State) : Out :=
  match (s.ctxAt slot).bind (fun c => (c.event name).map (fun e => (c, e))) with
  | none => .next s
  | some (c, e) =>
    let ws := if e.set then e.waiters else []
    let spilled := e.spilled && decide (c.evq ≤ c.entries)
    .next (wakeAll slot name ws (s.updCtx slot (fun d =>
      d.putEvent { e with waiters := if e.set then [] else e.waiters, spilled := spilled })))

-- ## The end as cancelled (R96, R221, R236, R272)

/-- The strand in the foreground ends as cancelled: results in flight land, its queues, held record and uncommitted pushes
are discarded, its waiters are removed; it stops, and its end is recorded when it has stopped. -/
def endCancelled (s : State) : State :=
  let t := landAll s.cyc s.strand
  let end_ := fun (q : Seq) => { q with ended := true, waitFrom := none, atGo := false, woken := false, waiting := false }
  let t1 := { t with
    a := end_ t.a, x := end_ t.x, lq := List.replicate 4 [], sq := List.replicate 4 [], cancelEnd := true, phase := .stopping
    acc := t.acc.filter (fun a => match a.op with | .evwait _ => false | _ => true)
    record := none, queuePushed := [] }
  { s with strand := t1 }.unwait t.slot (fun w => match w with | .strand h _ => h == t.h | _ => false)

/-- A stream that waits at a pre-emption point: a pending pre-emption lands there (R70, R291), and where a cancel is pending too the
strand ends as cancelled instead. -/
def pointStall (s : State) : Out :=
  if !s.strand.preempt then stallOut s else if s.strand.cancelled then .next (endCancelled s) else .next s.preemptNow

/-- A word's answer through its gate, when the word is a pre-emption point. -/
def gatedPoint (pops : List Pop) (pushes : List (Bool × Fin 4)) (s : State) (k : Out) : Out :=
  match gate pops pushes s with
  | .go => k
  | .stall => pointStall s
  | .trap c v => trapOut c v s

-- ## The instructions (R218 to R222)

/-- The name of an event word; none when bits [63:16] are not all 0 (R218). -/
def eventName (v : W64) : Option Nat := if v.toNat < 65536 then some v.toNat else none

/-- The event overflow area is exhausted for the name (R216), with what the words that have issued before may need counted (DESIGN
CHOICE: their order at the table is not fixed; log 101). -/
def eventFull (s : State) (name : Nat) (waiter : Bool) : Bool := (s.ctxAhead s.strand.slot).any (fun c => c.exhausted name waiter true)

def execEvsig (name : SOp) (scope : Fin 3) (s : State) : Out :=
  gated (sPops name) [] s
    (let r := takeS name s
     match eventName r.1 with
     | none => illegalOut s
     | some n =>
       if eventFull s n false then trapOut .event r.1 s
       else retire s (addAcc (.evsig n scope) r.2))

def execEvclr (name : SOp) (s : State) : Out :=
  gated (sPops name) [] s
    (let r := takeS name s
     match eventName r.1 with
     | none => illegalOut s
     | some n => retire s (addAcc (.evclr n) r.2))

def execEvtest (d name : SOp) (s : State) : Out :=
  askWord d [name] (fun v => (eventName (v.getD 0 0#64)).map (fun n res => .evtest n res)) s

/-- EVWAIT (R220, R221): a pending cancel ends the strand; a woken stream goes on, as an acquire; else the waiter is sent
once and the stream stalls. It is a pre-emption point, issued (R291 step 1) or stalled. -/
def execEvwait (name : SOp) (scope : Fin 3) (s : State) : Out :=
  gatedPoint (sPops name) [] s
    (let r := takeS name s
     match eventName r.1 with
     | none => illegalOut s
     | some n =>
       if s.strand.cancelled then .next (endCancelled s)
       else if s.seq.woken then
         let q := { r.2.seq with woken := false }
         let t := addAcc (.fence 1 (Fin.castLE (by omega) scope) ⟨true, true, true⟩) (r.2.setSeq q)
         retireReset s (if s.strand.preempt then t.preemptNow else t)
       else
         if s.seq.waiting then pointStall s
         else if eventFull s n true then trapOut .event r.1 s
         else
           let t := addAcc (.evwait n) s
           pointStall (t.setSeq { t.seq with waiting := true }))

end Sys2Proof.Machine
end

