-- ==== Sys2Proof/Machine/Barrier.lean ====
section
/-! DEFINITION. Barriers and the barrier instructions (spec/10_barrier.md R223 to R238). -/

namespace Sys2Proof.Machine

-- ## Barriers

def barIs (slot die index : Nat) (b : Bar) : Bool := b.slot == slot && b.die == die && b.index == index && !b.saved

/-- The barrier of a context's index on a die, allotted and not saved away (R223, R294). -/
def State.barAt (s : State) (slot die index : Nat) : Option Bar := s.pkg.bars.find? (barIs slot die index)

def State.updBar (s : State) (slot die index : Nat) (f : Bar → Bar) : State :=
  s.updPkg (fun p => { p with bars := p.bars.map (fun b => if barIs slot die index b then f b else b) })

/-- The completion step of R225. -/
def Bar.complete (b : Bar) : Bar :=
  if b.active && b.arr == 0 && b.exp == 0 then
    { b with phase := b.phase + 1#32, lastf := b.pf, pf := false, arr := b.count }
  else b

/-- bar[10:0]. -/
def barNo (die index : Nat) : Nat := die * 256 + index

/-- A misuse recorded in the issuing stream; only the first is kept (R229). -/
def State.misused (s : State) (h : Nat) (st : Stream) (die index : Nat) : State :=
  s.updStrand h (fun t => t.setSeq st { t.seq st with
    misuse := some ((t.seq st).misuse.getD (BitVec.ofNat 64 (barNo die index))) })

/-- Init of R231, or a misuse. -/
def State.barInit (s : State) (slot h : Nat) (st : Stream) (die index cnt : Nat) : State :=
  match s.barAt slot die index with
  | none => s
  | some b =>
    if b.active && !(b.arr == b.count && b.exp == 0) then s.misused h st die index
    else s.updBar slot die index (fun b => { b with
      active := true, phase := if b.active then b.phase else 0#32, count := cnt, arr := cnt, exp := 0, pf := false, lastf := false })

/-- An arrival without the completion step: its answer (R232). -/
def State.barArrive (s : State) (slot h : Nat) (st : Stream) (die index : Nat) : W64 × State :=
  match s.barAt slot die index with
  | none => (BitVec.allOnes 64, s)
  | some b =>
    if !b.active || b.arr == 0 then (BitVec.allOnes 64, s.misused h st die index)
    else (b.phase.zeroExtend 64, s.updBar slot die index (fun b => { b with arr := b.arr - 1 }))

/-- Chunks of a copy that have not landed or failed. -/
def Copy.open_ (c : Copy) : Nat :=
  (c.chunks.filter (fun k => match k with
    | .landed => false | .failed _ => false | .pending => true | .waits => true)).length

/-- The copy in a slot of a strand, by its number. -/
def Strand.copyIn (t : Strand) (slot id : Nat) : Option Copy := ((t.slots[slot]?).join).bind (fun c => if c.id = id then some c else Option.none)

/-- A post reaches the barrier (R233). A copy whose counting a reset of the barrier's die has ended posts n = 0 (R238). -/
def State.barExpect (s : State) (slot h : Nat) (st : Stream) (die index cslot copy : Nat) : State :=
  match s.barAt slot die index with
  | none => s
  | some b =>
    let n := ((s.findStrand h).bind (fun t => t.copyIn cslot copy)).elim 0 (fun c => if c.bar = some (die, index) ∧ !c.cut then c.open_ else 0)
    if !b.active || decide (2 ^ 24 ≤ b.exp + n) then s.misused h st die index
    else
      (s.updBar slot die index (fun b => { b with exp := b.exp + n })).updStrand h (fun t => { t with
        slots := t.slots.map (fun c => c.map (fun c => if c.id = copy ∧ c.bar = some (die, index) then { c with posted := true } else c)) })

def State.barComplete (s : State) (slot die index : Nat) : State := s.updBar slot die index Bar.complete

/-- An attached chunk landed or failed (R225, R233). -/
def State.barChunk (s : State) (slot : Nat) (c : Copy) (failed : Bool) : State :=
  match c.bar with
  | none => s
  | some (die, index) =>
    if !c.posted || c.cut then s
    else (s.updBar slot die index (fun b => { b with exp := b.exp - 1, pf := b.pf || failed })).barComplete slot die index

-- ## One cycle (R225)

/-- What reaches a barrier. -/
inductive BarOp where
  | init | arr | exp
deriving DecidableEq, Repr

def barOpOf : AccOp → Option BarOp
  | .barinit _ _ _ => some .init
  | .bararr _ _ _ _ => some .arr
  | .barexp _ _ _ _ => some .exp
  | _ => none

/-- One operation of a strand applied at its barrier, without the completion step, and taken off the pipeline. -/
def barApply (h : Nat) (a : Acc) (s : State) : State :=
  let slot := (s.findStrand h).elim 0 (·.slot)
  let s1 := match a.op with
    | .barinit d b cnt => s.barInit slot h a.st d b cnt
    | .bararr d b _ res => let r := s.barArrive slot h a.st d b; r.2.answer h res r.1
    | .barexp d b cs copy => s.barExpect slot h a.st d b cs copy
    | _ => s
  s1.updStrand h (fun t => { t with acc := t.acc.filter (fun x => x.id != a.id) })

/-- The operations of one kind that reach a barrier now: of each strand of the context the ones that nothing holds back. -/
def barReaching (slot die index : Nat) (k : BarOp) (s : State) : List (Nat × Acc) :=
  (s.allStrands.filter (fun t => t.h != 0 && t.slot == slot)).flatMap (fun t =>
    let f := (s.focusCore t.core).focusStrand t.h
    t.acc.zipIdx.filterMap (fun (a, i) =>
      if barOf a.op == some (die, index) && barOpOf a.op == some k && mayPerform f i then some (t.h, a) else none))

/-- The cycle of a barrier in which every operation that nothing holds back reaches it. -/
def execBarrierCycle (die index : Nat) (s : State) : Out :=
  match (s.pkg.bars.filter (fun b => b.die == die && !b.saved))[index]? with
  | none => .next s
  | some b =>
    let go := fun (l : List (Nat × Acc)) (s : State) => l.foldl (fun t x => barApply x.1 x.2 t) s
    let inits := barReaching b.slot die b.index .init s
    let arrs := barReaching b.slot die b.index .arr s
    let exps := barReaching b.slot die b.index .exp s
    .next (go exps ((go arrs (go inits s)).barComplete b.slot die b.index))

-- ## The instructions (R227 to R235)

/-- A barrier id: none when bits [63:11] are not all 0. -/
def barId (v : W64) : Option (Nat × Nat) := if v.toNat < 2048 then some (v.toNat / 256, v.toNat % 256) else none

/-- A word whose first source names a barrier and whose second one has to be `ok`, after the checks of R228; `point` says that it
is a cancellation point (R236). What is wrong with its queues comes before BAR (R73), and so does a full queue, for which the word
has not issued. -/
def barWord (srcs : List SOp) (pushes : List (Bool × Fin 4)) (ok : W64 → Bool) (point : Bool) (s : State)
    (k : Nat → Nat → List W64 → State → Out) : Out :=
  let vs := knowns srcs s
  gatedPre (causeIf ((known vs 0).any (fun v => (barId v).isNone) || (known vs 1).any (fun v => !(ok v))) .illegal s.ir)
      (srcs.flatMap sPops) [] s
    (let r := takeSs srcs s
     let v := r.1.getD 0 0#64
     match barId v with
     | none => illegalOut s
     | some (die, index) =>
       if (r.1[1]?).any (fun v => !(ok v)) then illegalOut s
       else if point && s.strand.cancelled then .next (endCancelled s)
       else gated (srcs.flatMap sPops) pushes s
         (if (s.barAt s.strand.slot die index).isNone then trapOut .bar v s else k die index r.1 r.2))

def execBarinit (bar cnt : SOp) (s : State) : Out :=
  barWord [bar, cnt] [] (fun n => decide (1 ≤ n.toNat) && decide (n.toNat < 65536)) false s
    (fun die index v t => retire s (addAcc (.barinit die index (v.getD 1 0#64).toNat) t))

def execBararr (d bar : SOp) (scope : Fin 3) (s : State) : Out :=
  barWord [bar] (sPushes d) (fun _ => true) false s
    (fun die index _ t => retire s (addAcc (.bararr die index scope t.strand.nid) (reserveS d t)))

/-- BAREXP (R228, R233): the copy in the slot is attached at issue; a completed copy, or none, is not. -/
def execBarexp (bar slot : SOp) (s : State) : Out :=
  barWord [bar, slot] [] (fun k => decide (k.toNat < 16)) false s
    (fun die index v t =>
      let k := (v.getD 1 0#64).toNat
      match (t.strand.slots[k]?).join with
      | none => retire s (addAcc (.barexp die index k 0) t)
      | some c =>
        if c.open_ = 0 then retire s (addAcc (.barexp die index k 0) t)
        else if c.bar.isSome then trapOut .bar (v.getD 0 0#64) s
        else
          let u := { t with strand := { t.strand with slots := t.strand.slots.set k (some { c with bar := some (die, index) }) } }
          retire s (addAcc (.barexp die index k c.id) u))

/-- A barrier operation of the stream is still on its way to the barrier. -/
def barPending (s : State) (die index : Nat) : Bool :=
  s.strand.acc.any (fun a => a.st == s.stream && barOf a.op == some (die, index))

/-- BARWAIT (R229, R234 to R236). -/
def execBarwait (d bar ph : SOp) (scope : Fin 3) (s : State) : Out :=
  barWord [bar, ph] (sPushes d) (fun _ => true) true s
    (fun die index v t =>
      match s.seq.misuse with
      | some m => trapOut .bar m (s.setSeq { s.seq with misuse := none })
      | none =>
        match s.barAt s.strand.slot die index with
        | none => stallOut s
        | some b =>
          if !b.active then (if barPending s die index then stallOut s else trapOut .bar (v.getD 0 0#64) s)
          else if (0#32).slt (b.phase - (v.getD 1 0#64).truncate 32) then
            retire s (addAcc (.fence 1 (Fin.castLE (by omega) scope) ⟨true, true, true⟩)
              (putS d 1 ((if b.lastf then 0x100000000#64 else 0#64) ||| b.phase.zeroExtend 64) t))
          else stallOut s)

end Sys2Proof.Machine
end

