-- ==== Sys2Proof/Machine/Scalar.lean ====
section
/-! DEFINITION. The scalar integer instructions, opcodes 0x10 to 0x2C (spec/04_scalar.md R98 to R104). -/

namespace Sys2Proof.Machine

/-- An immediate sign-extended to 64 bits (R98). -/
def sx64 (w : BitVec n) : W64 := w.signExtend 64

/-- The values of one, two and three sources. -/
def arg1 (f : W64 → W64) : List W64 → W64
  | [a] => f a
  | _ => 0#64
def arg2 (f : W64 → W64 → W64) : List W64 → W64
  | [a, b] => f a b
  | _ => 0#64
def arg3 (f : W64 → W64 → W64 → W64) : List W64 → W64
  | [a, b, c] => f a b c
  | _ => 0#64

/-- DIV of R99: quotient toward zero; all ones for a zero divisor. -/
def divVal (u : Bool) (a b : W64) : W64 :=
  if b = 0#64 then BitVec.allOnes 64 else if u then a.udiv b else a.sdiv b

/-- REM of R99: the remainder takes the dividend's sign; the dividend for a zero divisor. -/
def remVal (u : Bool) (a b : W64) : W64 :=
  if b = 0#64 then a else if u then a.umod b else a.srem b

/-- Bits [127:64] of the exact product (R100). -/
def mulhVal (u : Bool) (a b : W64) : W64 :=
  if u then ((a.zeroExtend 128 * b.zeroExtend 128) >>> 64).truncate 64
  else ((a.signExtend 128 * b.signExtend 128) >>> 64).truncate 64

/-- The lesser and the greater of two values, signed or unsigned (R98). -/
def minVal (u : Bool) (a b : W64) : W64 := if (if u then a.ult b else a.slt b) then a else b
def maxVal (u : Bool) (a b : W64) : W64 := if (if u then a.ult b else a.slt b) then b else a

/-- Leading zero bits, 0 to 64 (R98). -/
def clzFrom (w : W64) : Nat → Nat
  | 0 => 0
  | k + 1 => if w.getLsbD k then 0 else 1 + clzFrom w k
def clzVal (w : W64) : W64 := BitVec.ofNat 64 (clzFrom w 64)

/-- The number of one bits among the n lowest. -/
def popFrom (w : W64) : Nat → Nat
  | 0 => 0
  | k + 1 => (if w.getLsbD k then 1 else 0) + popFrom w k
def popcVal (w : W64) : W64 := BitVec.ofNat 64 (popFrom w 64)

/-- LHI of R101: a 16-bit chunk replaced. -/
def lhiVal (v : BitVec 16) (sel : Fin 4) (a : W64) : W64 :=
  (a &&& ~~~(0xFFFF#64 <<< (16 * sel.val))) ||| (v.zeroExtend 64 <<< (16 * sel.val))

/-- The mask of the width lowest bits. -/
def lowMask (width : Nat) : W64 := BitVec.ofNat 64 (2 ^ width - 1)

/-- BFX of R102; the field's sign bit is its bit width − 1. -/
def bfxVal (sx : Bool) (pos w1 : Fin 64) (a : W64) : W64 :=
  let f := (a >>> pos.val) &&& lowMask (w1.val + 1)
  if sx && f.getLsbD w1.val then f ||| ~~~(lowMask (w1.val + 1)) else f

/-- BFI of R102. -/
def bfiVal (pos w1 : Fin 64) (a b : W64) : W64 :=
  let m := lowMask (w1.val + 1) <<< pos.val
  (a &&& ~~~m) ||| ((b <<< pos.val) &&& m)

/-- The conditions of R103. -/
def condHolds (c : Cond) (a b : W64) : Bool :=
  match c with
  | .eq => a == b
  | .ne => a != b
  | .lt => a.slt b
  | .ge => !(a.slt b)
  | .ltu => a.ult b
  | .geu => !(a.ult b)
  | .tst => (a &&& b) != 0#64

/-- A condition written to every position of the shape (R103). -/
def putCond (p : Fin 8) (b : Bool) (s : State) : State :=
  putP p (if b then BitVec.allOnes 512 else 0#512) 1 s

def execAdd (d s1 s2 : SOp) (s : State) : Out := scalarWord d [s1, s2] 1 (arg2 (· + ·)) s
def execSub (d s1 s2 : SOp) (s : State) : Out := scalarWord d [s1, s2] 1 (arg2 (· - ·)) s
def execAddi (d s1 : SOp) (imm : BitVec 24) (s : State) : Out := scalarWord d [s1] 1 (arg1 (· + sx64 imm)) s
def execMul (d s1 s2 : SOp) (s : State) : Out := scalarWord d [s1, s2] 4 (arg2 (· * ·)) s
def execMulh (u : Bool) (d s1 s2 : SOp) (s : State) : Out := scalarWord d [s1, s2] 4 (arg2 (mulhVal u)) s
def execDiv (u : Bool) (d s1 s2 : SOp) (s : State) : Out := scalarWord d [s1, s2] 20 (arg2 (divVal u)) s
def execRem (u : Bool) (d s1 s2 : SOp) (s : State) : Out := scalarWord d [s1, s2] 20 (arg2 (remVal u)) s
def execAnd (d s1 s2 : SOp) (s : State) : Out := scalarWord d [s1, s2] 1 (arg2 (· &&& ·)) s
def execOr (d s1 s2 : SOp) (s : State) : Out := scalarWord d [s1, s2] 1 (arg2 (· ||| ·)) s
def execXor (d s1 s2 : SOp) (s : State) : Out := scalarWord d [s1, s2] 1 (arg2 (· ^^^ ·)) s
def execAndi (d s1 : SOp) (imm : BitVec 24) (s : State) : Out := scalarWord d [s1] 1 (arg1 (· &&& sx64 imm)) s
def execOri (d s1 : SOp) (imm : BitVec 24) (s : State) : Out := scalarWord d [s1] 1 (arg1 (· ||| sx64 imm)) s
def execXori (d s1 : SOp) (imm : BitVec 24) (s : State) : Out := scalarWord d [s1] 1 (arg1 (· ^^^ sx64 imm)) s
/-- Shifts by s2[5:0] (R98). -/
def execShl (d s1 s2 : SOp) (s : State) : Out := scalarWord d [s1, s2] 1 (arg2 (fun a b => a <<< (b.toNat % 64))) s
def execShr (d s1 s2 : SOp) (s : State) : Out := scalarWord d [s1, s2] 1 (arg2 (fun a b => a >>> (b.toNat % 64))) s
def execSha (d s1 s2 : SOp) (s : State) : Out :=
  scalarWord d [s1, s2] 1 (arg2 (fun a b => a.sshiftRight (b.toNat % 64))) s
def execLimm (d : SOp) (imm : BitVec 24) (s : State) : Out := scalarWord d [] 1 (fun _ => sx64 imm) s
def execLhi (d s1 : SOp) (value : BitVec 16) (sel : Fin 4) (s : State) : Out :=
  scalarWord d [s1] 1 (arg1 (lhiVal value sel)) s
def execMin (u : Bool) (d s1 s2 : SOp) (s : State) : Out := scalarWord d [s1, s2] 1 (arg2 (minVal u)) s
def execMax (u : Bool) (d s1 s2 : SOp) (s : State) : Out := scalarWord d [s1, s2] 1 (arg2 (maxVal u)) s
def execClz (d s1 : SOp) (s : State) : Out := scalarWord d [s1] 1 (arg1 clzVal) s
def execPopc (d s1 : SOp) (s : State) : Out := scalarWord d [s1] 1 (arg1 popcVal) s
/-- SEL reads both sources whichever it writes (R104). -/
def execSel (d s1 s2 : SOp) (p : Fin 8) (s : State) : Out :=
  scalarWord d [s1, s2] 1 (arg2 (fun a b => if (s.seq.pred p).getLsbD 0 then a else b)) s
def execMad (d s1 s2 s3 : SOp) (s : State) : Out := scalarWord d [s1, s2, s3] 4 (arg3 (fun a b c => a * b + c)) s
def execCmp (c : Cond) (p : Fin 8) (s1 s2 : SOp) (s : State) : Out :=
  gated ([s1, s2].flatMap sPops) [] s
    (let r := takeSs [s1, s2] s
     retire s (putCond p (condHolds c (r.1.getD 0 0#64) (r.1.getD 1 0#64)) r.2))
def execCmpi (c : Cond) (p : Fin 8) (s1 : SOp) (imm : BitVec 21) (s : State) : Out :=
  gated (sPops s1) [] s
    (let r := takeS s1 s
     retire s (putCond p (condHolds c r.1 (sx64 imm)) r.2))
def execMov (d s1 : SOp) (s : State) : Out := scalarWord d [s1] 1 (arg1 id) s
def execBfx (sx : Bool) (d s1 : SOp) (pos w1 : Fin 64) (s : State) : Out :=
  scalarWord d [s1] 1 (arg1 (bfxVal sx pos w1)) s
def execBfi (d s1 s2 : SOp) (pos w1 : Fin 64) (s : State) : Out := scalarWord d [s1, s2] 1 (arg2 (bfiVal pos w1)) s

end Sys2Proof.Machine
end

