-- ==== Sys2Proof/Machine/Kv.lean ====
section
/-! DEFINITION. KV pages: header, layout, CRC-32C (spec/17_request.md R350 to R352), the shard region and the images of its
slots (spec/18_whorl.md R387, R388). -/

namespace Sys2Proof.Machine

-- ## CRC-32C (R352)

def crcBit (c : W32) : Nat → W32
  | 0 => c
  | k + 1 => crcBit (if c.getLsbD 0 then (c >>> 1) ^^^ 0x82F63B78#32 else c >>> 1) k

/-- CRC-32C: Castagnoli polynomial, reflected, initial value and final XOR all ones. -/
def crc32c (bs : List Byte) : W32 := ~~~(bs.foldl (fun c b => crcBit (c ^^^ b.zeroExtend 32) 8) 0xFFFFFFFF#32)

-- ## Pages (R350, R351)

/-- The header of a page. -/
structure Page where
  va : Nat
  ws : List W64
deriving DecidableEq, Repr

def Page.fld (p : Page) (w hi lo : Nat) : Nat := bits ((p.ws.getD w 0#64).toNat) hi lo
def Page.next (p : Page) : Nat := p.fld 0 63 0
def Page.layout (p : Page) : Nat := p.fld 1 63 56
def Page.scale (p : Page) : Nat := p.fld 1 55 48
def Page.lntok (p : Page) : Nat := p.fld 1 47 44
def Page.ntok (p : Page) : Nat := 2 ^ p.lntok
def Page.seal (p : Page) : Bool := p.fld 1 43 43 == 1
def Page.heads (p : Page) : Nat := p.fld 1 39 32 + 1
def Page.hd (p : Page) : Nat := p.fld 1 31 16
def Page.used (p : Page) : Nat := p.fld 1 15 0
def Page.reqh (p : Page) : Nat := p.fld 2 63 32
def Page.blk (p : Page) : Nat := p.fld 2 31 0
def Page.crc (p : Page) : Nat := p.fld 3 63 32
def Page.state (p : Page) : Nat := p.fld 4 2 0

/-- The header's fields are in range (R350, R364), its reserved ones apart; used from a lower bound to ntok. -/
def Page.sound (p : Page) (lowUsed : Nat) : Bool :=
  (p.layout == 1 || p.layout == 2) && decide (2 ≤ p.lntok) && decide (p.lntok ≤ 8) && decide (lowUsed ≤ p.used) &&
  decide (p.used ≤ p.ntok) && decide (8 ≤ p.hd) && decide (p.hd ≤ 512) && p.hd % 8 == 0 &&
  (p.layout == 1 || (p.scale != 0 && p.scale != 0x80 && p.scale != 0x7F && p.scale != 0xFF))

/-- The fields that place a page's elements are in range: what an attention task needs of a page beside the cases of R366 (log 107). -/
def Page.shaped (p : Page) : Bool :=
  (p.layout == 1 || p.layout == 2) && decide (2 ≤ p.lntok) && decide (p.lntok ≤ 8) && decide (8 ≤ p.hd) && decide (p.hd ≤ 512) && p.hd % 8 == 0

/-- The header's fields are in range and its reserved fields 0, which R364 checks; where no rule names a status for them they are
ignored (R7). -/
def Page.ok (p : Page) (lowUsed : Nat) : Bool :=
  p.sound lowUsed && p.fld 1 42 40 == 0 && p.fld 3 31 0 == 0 && p.fld 4 63 3 == 0 && p.fld 6 63 0 == 0 && p.fld 7 63 0 == 0

/-- Elements of K, or of V, of a page; bytes of an element; bytes of the body. -/
def Page.half (p : Page) : Nat := p.ntok * p.heads * p.hd
def Page.eb (p : Page) : Nat := if p.layout = 2 then 1 else 2
def Page.body (p : Page) : Nat := 2 * p.half * p.eb

/-- The element of K(t, h, c) or V(t, h, c) in the body (R351). -/
def Page.elem (p : Page) (v : Bool) (t h c : Nat) : Nat :=
  (if v then p.half else 0) + (if p.layout = 2 then (h * p.hd + c) * p.ntok + t else (t * p.heads + h) * p.hd + c)

/-- The bytes that the CRC covers: header bytes 0x08 to 0x17 and the body. -/
def Page.crcBytes (p : Page) (body : List Byte) : List Byte :=
  leBytes 8 (p.fld 1 63 0) ++ leBytes 8 (p.fld 2 63 0) ++ body

/-- A page's CRC verifies, or it is not sealed (R375, R376). -/
def Page.verifies (p : Page) (body : List Byte) : Bool := !p.seal || (crc32c (p.crcBytes body)).toNat == p.crc

-- ## The shard region of a context (R387, R390, R391)

/-- A shard record after reset. -/
def Shard.reset : Shard :=
  { m := List.replicate 9 0, gstate := 0, lost := 0#9, lane := 0, spare := 0, sbase := 0, nslot := 0, psize := 0, swept := 0, ahead := [],
    demand := [] }

/-- The shard record of a slot, and the same where its group is not OFF. -/
def State.shardRec (s : State) (slot : Nat) : Shard := (tget s.pkg.shards slot).getD Shard.reset
def State.shardAt (s : State) (slot : Nat) : Option Shard :=
  let g := s.shardRec slot
  if g.gstate = 0 then none else some g

def State.putShard (s : State) (slot : Nat) (g : Shard) : State := s.updPkg (fun p => { p with shards := tset p.shards slot g })
def State.updShard (s : State) (slot : Nat) (f : Shard → Shard) : State :=
  match s.shardAt slot with
  | none => s
  | some g => s.putShard slot (f g)

/-- The slot and lane of a page in the shard region of a context: none outside it, and on the parity lane. -/
def State.shardSlot (s : State) (slot va : Nat) : Option (Nat × Nat) :=
  match s.shardAt slot with
  | none => none
  | some r =>
    if (s.ctxAt slot).any (·.shardOn) && r.lane < 8 && r.psize != 0 && decide (r.sbase ≤ va) && decide (va < r.sbase + r.psize * r.nslot) then
      some ((va - r.sbase) / r.psize, r.lane)
    else none

/-- A page of the region has failed: its slot is to be rebuilt in place, unless nothing can be rebuilt any more (R390, R391). -/
def State.demandSlot (s : State) (slot va : Nat) : State :=
  match s.shardSlot slot va with
  | none => s
  | some (j, _) => s.updShard slot (fun g => if g.gstate = 3 ∨ g.demand.contains j then g else { g with demand := g.demand ++ [j] })

/-- A page of the region is being rebuilt: a read of it waits until the rebuild is written (R391). -/
def State.beingRebuilt (s : State) (slot va : Nat) : Bool :=
  (s.shardSlot slot va).any (fun (j, _) => (s.shardAt slot).any (fun g => g.demand.contains j))

/-- The page of a slot of the region fails: it cannot be read, or its CRC does not verify (R390). -/
def State.pageFails (s : State) (slot va : Nat) : Bool :=
  match s.shardSlot slot va with
  | none => false
  | some _ =>
    match (s.engRead slot va (s.shardRec slot).psize).1 with
    | .ok bs =>
      let p : Page := { va := va, ws := wordsOf (bs.take 0x40) }
      p.seal && !(decide (0x40 + p.body ≤ bs.length) && p.verifies ((bs.drop 0x40).take p.body))
    | .poison _ => true
    | .fault _ _ => false
    | .remote _ => false

-- ## Reading pages

/-- Bytes of a page read by an engine: it waits for one that is being rebuilt, as for a line of a package, its own, and demands that one
which it cannot read be rebuilt (R391). -/
def State.readOfPage (s : State) (slot page va n : Nat) : Eng (List Byte) × State :=
  if s.beingRebuilt slot page then (.remote (s.pkg.num * 2 ^ 48), s)
  else
    let r := s.engRead slot va n
    match r.1 with
    | .poison a => (.poison a, r.2.demandSlot slot page)
    | _ => r

/-- The header of the page at an address of a context. -/
def State.readPage (s : State) (slot va : Nat) : Eng Page × State :=
  let r := s.readOfPage slot va va 64
  match r.1 with
  | .ok bs => (.ok { va := va, ws := wordsOf bs }, r.2)
  | .fault a w => (.fault a w, r.2)
  | .poison a => (.poison a, r.2)
  | .remote a => (.remote a, r.2)

/-- Copies of other packages' lines in a range dropped, so that the next read goes to their homes; one of the lines. -/
def State.dropRead (s : State) (slot va n : Nat) : Option Nat × State :=
  (linePieces va n).foldl (fun acc pc =>
    let q := acc.2.engTranslate slot pc.1 .read
    match q.1 with
    | .fault _ | .poison _ => (acc.1, q.2)
    | .ok e =>
      let pa := homeOf q.2.pkg (e.addr pc.1)
      if paPkg pa = q.2.pkg.num then (acc.1, q.2)
      else (some pa, q.2.updPkg (fun p => { p with rcache := p.rcache.filter (fun l => l.pa != pa / 64 * 64) }))) (none, s)

/-- The body of a page whose CRC verifies, or none: one that does not is read again once from its home (R375, R376), and then
demanded to be rebuilt where it can be. -/
def State.readBody (s : State) (slot : Nat) (p : Page) : Eng (Option (List Byte)) × State :=
  let r := s.readOfPage slot p.va (p.va + 0x40) p.body
  let done := fun (t : State) => t.updPkg (fun q => { q with reread := q.reread.filter (· != (slot, p.va)) })
  match r.1 with
  | .fault a w => (.fault a w, r.2)
  | .poison a => (.poison a, r.2)
  | .remote a => (.remote a, r.2)
  | .ok body =>
    if p.verifies body then (.ok (some body), if r.2.pkg.reread.contains (slot, p.va) then done r.2 else r.2)
    else if r.2.pkg.reread.contains (slot, p.va) then (.ok none, (done r.2).demandSlot slot p.va)
    else
      let d := r.2.dropRead slot p.va (0x40 + p.body)
      match d.1 with
      | none => (.ok none, d.2.demandSlot slot p.va)
      | some pa => (.remote pa, d.2.updPkg (fun q => { q with reread := q.reread ++ [(slot, p.va)] }))

/-- The pages of a chain from a page on, at most n of them. -/
def State.readChain (s : State) (slot va : Nat) : Nat → Eng (List Page) × State
  | 0 => (.ok [], s)
  | n + 1 =>
    if va = 0 then (.ok [], s)
    else
      let r := s.readPage slot va
      match r.1 with
      | .ok p =>
        let q := r.2.readChain slot p.next n
        (match q.1 with
         | .ok ps => (.ok (p :: ps), q.2)
         | e => (e, q.2))
      | .fault a w => (.fault a w, r.2)
      | .poison a => (.poison a, r.2)
      | .remote a => (.remote a, r.2)

/-- A bound on the pages of a chain that an engine follows: a page's index has 32 bits (R350). -/
def chainBound : Nat := 2 ^ 32

-- ## Writes to a context that other packages may hold

/-- Whether bytes may be written: the first obstacle. `remote` names a package that the lock block refuses (R21). -/
def State.canPost (s : State) (slot va n : Nat) : Eng Unit × State :=
  (linePieces va n).foldl (fun acc pc =>
    match acc.1 with
    | .ok _ =>
      let q := acc.2.engTranslate slot pc.1 .write
      (match q.1 with
       | .fault r => (.fault pc.1 r, q.2)
       | .poison a => (.poison a, q.2)
       | .ok e =>
         let pa := homeOf q.2.pkg (e.addr pc.1)
         if paPkg pa ≠ q.2.pkg.num then (if q.2.pkg.allows (paPkg pa) then (.ok (), q.2) else (.remote pa, q.2))
         else if poisoned q.2.pkg (paLocal pa) pc.2 then (.poison pa, q.2) else (.ok (), q.2))
    | e => (e, acc.2)) (.ok (), s)

-- ## The shard (R387, R388)

/-- The image of a page (R388): zeros when it is not sealed or is released; else its bytes, 0x20 to 0x3F taken as 0. -/
def pageImage (bs : List Byte) : List Byte :=
  let w := wordsOf bs
  let p : Page := { va := 0, ws := w }
  if !p.seal || p.state == 5 then List.replicate bs.length 0#8
  else bs.take 0x20 ++ List.replicate 0x20 0#8 ++ bs.drop 0x40

def xorBytes (a b : List Byte) : List Byte := (a.zip b).map (fun p => p.1 ^^^ p.2)

/-- The parity package of a context's group. -/
def State.parityPkg (s : State) (slot : Nat) : Nat := (s.shardRec slot).m.getD 8 0

/-- The change of a parity page that follows a page's change: nothing outside a shard region. -/
def State.parityOf (s : State) (slot va : Nat) (img : List Byte) (st : Nat) : List EngWrite :=
  if (s.shardSlot slot va).isSome then [.parity va img st, .await] else []

/-- The image of the page as it stands, for taking it out of its parity page. -/
def State.imageNow (s : State) (slot va : Nat) : List Byte :=
  match s.shardAt slot with
  | none => []
  | some r => match (s.engRead slot va r.psize).1 with
    | .ok bs => pageImage bs
    | _ => List.replicate r.psize 0#8

/-- The image of the page with new header words and body in place. -/
def State.imageWith (s : State) (slot va : Nat) (ws : List W64) (body : List Byte) : List Byte :=
  match s.shardAt slot with
  | none => []
  | some r =>
    let bs := match (s.engRead slot va r.psize).1 with
      | .ok bs => bs
      | _ => List.replicate r.psize 0#8
    pageImage (ws.flatMap (fun w => leBytes 8 w.toNat) ++ body ++ bs.drop (0x40 + body.length))

end Sys2Proof.Machine
end

