-- ==== Sys2Proof/Machine/Tasks.lean ====
section
/-! DEFINITION. Tile tasks at Taproot: their fields and units, the queue and the overflow list, their ends, cancels and stops
(spec/08_tile.md R205, R208, R210 to R212, spec/17_request.md R366, R369). -/

namespace Sys2Proof.Machine

-- ## Fields, the queue and the overflow list (R205, R210)

def Task.kind (t : Task) : Nat := bits ((t.words.getD 1 0#64).toNat) 63 56
def Task.fld (t : Task) (w hi lo : Nat) : Nat := bits ((t.words.getD w 0#64).toNat) hi lo
/-- The task runs on Bole arrays (R205, R366). -/
def Task.bole (t : Task) : Bool := t.kind == 1 || t.kind == 0x10

/-- Queue entries of a kind that a context's tasks hold (R210). -/
def State.taskEntries (s : State) (slot : Nat) (bole : Bool) : Nat :=
  (s.pkg.tasks.filter (fun t => t.slot == slot && t.queued && t.bole == bole && !t.state.final && t.state != .stopped)).length

/-- The task overflow list of a context, the earliest first (R210, R286): one list for both array kinds (log 96). -/
def State.overflowTasks (s : State) (slot : Nat) : List Task :=
  s.pkg.tasks.filter (fun t => t.slot == slot && !t.queued && (t.state == .pending || t.state == .ready) && !t.words.isEmpty)

/-- Tasks of the overflow list enter the queue in list order as space frees (R210); at most n of them. -/
def State.refillTasks (s : State) (slot : Nat) : Nat → State
  | 0 => s
  | n + 1 =>
    match (s.overflowTasks slot).head? with
    | none => s
    | some t =>
      let quota := (s.ctxAt slot).elim 0 (fun c => if t.bole then c.tqb else c.tqm)
      if s.taskEntries slot t.bole < quota then
        (s.updPkg (fun p => { p with tasks := p.tasks.filter (fun x => x.n != t.n) ++ [{ t with queued := true }] })).refillTasks slot n
      else s

def State.refillAll (s : State) (slot : Nat) : State := s.refillTasks slot s.pkg.tasks.length

def Task.M (t : Task) : Nat := t.fld 3 63 44
def Task.K (t : Task) : Nat := t.fld 3 43 22
def Task.N (t : Task) : Nat := t.fld 3 21 0
def Task.afmt (t : Task) : Nat := t.fld 1 55 52
def Task.wfmt (t : Task) : Nat := t.fld 1 51 48

/-- A task that computes attention (R366). -/
def Task.attn (t : Task) : Bool := decide (0x10 ≤ t.kind)

/-- Activation rows come from a feeder ring (R208). -/
def Task.feed (t : Task) : Bool := t.fld 1 39 39 == 1 && !t.attn

/-- A task that has not come to its end or its stop feeds from the core that a strand was on (R208). -/
def State.feeder (s : State) (t : Strand) : Bool :=
  s.pkg.tasks.any (fun k => k.feed && !k.words.isEmpty && k.slot == t.slot && k.fld 8 63 55 == t.core && !k.state.final && k.state != .stopped)

-- ## Units (R208, R369, R417)

def ceilDiv (a b : Nat) : Nat := (a + b - 1) / b

/-- Rows and columns of a unit. -/
def Task.unitRows (t : Task) : Nat := if t.attn then (if t.bole then 256 else 64) else if t.bole then 1024 else 64
def Task.unitCols (t : Task) : Nat := if t.bole then 256 else 64
def Task.rowBlocks (t : Task) : Nat := ceilDiv t.M t.unitRows

/-- The first entry of an attention task's pages: where the page list or chain starts. -/
def Task.listForm (t : Task) : Bool := t.fld 5 0 0 == 1

/-- The address of page i of a task in list form. -/
def Task.listAt (t : Task) (i : Nat) : Nat := t.fld 5 63 0 - 1 + 8 * i

/-- The first page's address. -/
def State.firstPage (s : State) (t : Task) : Eng Nat × State :=
  if t.listForm then
    let r := s.engWord t.slot (t.listAt 0)
    (match r.1 with
     | .ok w => .ok w.toNat
     | .fault a q => .fault a q
     | .poison a => .poison a
     | .remote a => .remote a, r.2)
  else (.ok (t.fld 5 63 0), s)

/-- The number of units of a task; an attention task whose first page cannot be read has at least one more. -/
def State.taskUnits (s : State) (t : Task) : Nat :=
  if !t.attn then ceilDiv t.N t.unitCols * t.rowBlocks
  else
    match (s.firstPage t).1 with
    | .ok va =>
      (match (s.readPage t.slot va).1 with
       | .ok p => p.heads * t.rowBlocks
       | _ => t.next + 1)
    | _ => t.next + 1

/-- Array tiles of a unit: its K blocks (R203); nothing says how many an attention unit takes (log 13). -/
def Task.unitTiles (t : Task) (unit : Nat) : Nat :=
  if t.attn then Config.arrayTiles t.n unit
  else let d := if t.bole then 256 else 64; (t.fld 3 43 22 + d - 1) / d

/-- Array tiles that a dropped unit has run: not its last one, behind which it writes (R205, R208, log 13). -/
def Task.droppedTiles (t : Task) (unit : Nat) : Nat := min (t.unitTiles unit - 1) (Config.arrayTiles t.n unit)

/-- The tiles and cycles of a unit that is dropped count (R205). -/
def Task.dropped (t : Task) (unit : Nat) : Task :=
  { t with tiles := t.tiles + t.droppedTiles unit, kcyc := t.kcyc + Config.arrayCycles t.n unit }

/-- Word 0x58 of the record: tiles run and array cycles in units of 1,024 (R205). -/
def State.postTiles (s : State) (n : Nat) : State :=
  match s.taskAt n with
  | none => s
  | some t => s.engPostWord t.slot (t.addr + 0x58) (BitVec.ofNat 64 (t.tiles % 2 ^ 32 * 2 ^ 32 + t.kcyc / 1024 % 2 ^ 32))

/-- A task leaves the overflow list before it has entered the queue: the record before it links to the one behind it (R210). -/
def State.unlist (s : State) (t : Task) : State :=
  let l := s.overflowTasks t.slot
  match l.dropWhile (fun u => u.n != t.n), (l.takeWhile (fun u => u.n != t.n)).getLast? with
  | _ :: r, some u => s.engPostWord t.slot u.addr (BitVec.ofNat 64 (r.head?.elim 0 (·.addr)))
  | _, _ => s

/-- A task ends: units in progress are dropped, its arrays are free, its waiters gone, its state is written, done is
signalled (R211). -/
def State.endTask (s : State) (n : Nat) (st : TState) (kind : Nat) : State :=
  match s.taskAt n with
  | none => s
  | some t =>
    let s1 := ((s.unlist t).updTask n (fun t => { t.running.foldl (fun k u => k.dropped u.unit) t with
        failKind := if t.failKind = 0 ∨ st = .cancelled then kind else t.failKind
        running := [] })).updPkg
      (fun p => { p with arrays := p.arrays.filter (fun a => a.2 != n) })
    let s2 := ((s1.unwait t.slot (· == .task n)).postTiles n).setTState n st
    let s3 := if t.fld 1 35 35 = 1 then s2.signalLate t.slot (t.fld 1 31 16) else s2
    s3.refillAll t.slot

/-- A task with no unit in progress is STOPPED (R211). -/
def State.stopped (s : State) (t : Task) : State := (((s.unlist t).postTiles t.n).setTState t.n .stopped).refillAll t.slot

/-- The completed prefix. -/
def prefixFrom (done : List Nat) (p : Nat) : Nat → Nat
  | 0 => p
  | k + 1 => if done.contains p then prefixFrom done (p + 1) k else p

/-- A task with no unit in progress comes to its end, or to its stop: a unit that a die reset took from it while it was STOPPING is not
run again before the stop (DESIGN CHOICE: R211 and R212 leave it open; log 103). -/
def State.settleTask (s : State) (n : Nat) : State :=
  match s.taskAt n with
  | none => s
  | some t =>
    if !t.running.isEmpty then s
    else if t.failKind ≠ 0 then s.endTask n .failed t.failKind
    else if t.state = .stopping then s.stopped t
    else if t.redo.isEmpty ∧ s.taskUnits t ≤ t.prog then s.endTask n .done 0
    else s

/-- A unit leaves its array. -/
def State.dropUnit (s : State) (n unit : Nat) : State :=
  match (s.taskAt n).bind (fun t => t.running.find? (fun u => u.unit == unit)) with
  | none => s
  | some u => (s.updTask n (fun t => { t with running := t.running.filter (fun x => x.unit != unit) })).updPkg
      (fun p => { p with arrays := p.arrays.filter (fun a => a.1 != u.array) })

/-- Rows that issue per cycle into a Bole array (R417). -/
def Task.rowsPerCycle (t : Task) : Nat :=
  if t.afmt = 11 ∨ t.wfmt = 11 then 4 else if t.afmt = 2 ∨ t.afmt = 3 then 1 else 2

/-- The issue of the last K block's rows, from those of the two blocks before the next one and the end of the last load: n cycles
a block, loads of 256 cycles one at a time, each after the last row of its bank has left (R204, R417). -/
def boleIssue (n s2 s1 load : Nat) : Nat → Nat
  | 0 => s1
  | k + 1 => let l := max load (s2 + n + 511) + 256; boleIssue n s1 (max (s1 + n) l) l k

/-- The cycles that a unit of a matrix product takes at the least (R417): the loads of its first two blocks may have been made while
the array ran the unit before it. Nothing is said of attention. -/
def Task.pace (t : Task) (unit : Nat) : Nat :=
  if t.attn then 0
  else if t.bole then
    let m := min t.unitRows (t.M - unit % t.rowBlocks * t.unitRows)
    let n := ceilDiv m t.rowsPerCycle
    let blocks := t.unitTiles unit
    (if blocks ≤ 1 then 0 else boleIssue n 0 n 0 (blocks - 2)) + n + 511 + m
  else t.unitTiles unit * (if t.afmt = 2 then 128 else 64) + 64

/-- A unit is complete: prog advances over the prefix (R208). -/
def State.passUnit (s : State) (n unit : Nat) : State :=
  let s1 := (s.updTask n (fun t =>
    let done := t.doneUnits ++ [unit]
    let p := prefixFrom done t.prog done.length
    { t with prog := p, doneUnits := done.filter (fun u => decide (p ≤ u)), tiles := t.tiles + t.unitTiles unit
             kcyc := t.kcyc + max (t.pace unit) (Config.arrayCycles n unit) })).dropUnit n unit
  match s1.taskAt n with
  | none => s1
  | some t => ((s1.engPostWord t.slot (t.addr + 0x48) (BitVec.ofNat 64 t.prog)).postTiles n).settleTask n

/-- A cancel of a task: the unit in progress is dropped at the arrays' next tile boundary (R211), but one that has made its writes is
complete (R208, R369). One whose record has not been read is cancelled when it has been. -/
def State.cancelTask (s : State) (n : Nat) : State :=
  match s.taskAt n with
  | none => s
  | some t0 =>
    if t0.words.isEmpty then s.updTask n (fun t => { t with failKind := if t.failKind = 0 then 6 else t.failKind })
    else
      let s1 := (t0.running.filter (·.wrote)).foldl (fun v u => v.passUnit n u.unit) s
      match s1.taskAt n with
      | none => s1
      | some t =>
        match t.state with
        | .pending | .ready | .running | .stopping => s1.endTask n .cancelled 6
        | .stopped | .done | .failed | .cancelled => s1

/-- A stop of a task (R211, MPROG.stop). One whose record has not been read stops when it has been. -/
def State.stopTask (s : State) (n : Nat) : State :=
  match s.taskAt n with
  | none => s
  | some t =>
    match t.state with
    | .pending | .ready | .running =>
      if t.words.isEmpty then s.updTask n (fun t => { t with state := .stopping })
      else
        let s1 := s.unwait t.slot (· == .task n)
        if t.running.isEmpty then s1.stopped t else s1.setTState n .stopping
    | .stopping | .stopped | .done | .failed | .cancelled => s

end Sys2Proof.Machine
end

