-- ==== Sys2Proof/Machine/Units.lean ====
section
/-! DEFINITION. Units, launches and their ends (spec/13_group.md R262 to R277, spec/12_queue.md R252, R255, R256). -/

namespace Sys2Proof.Machine

-- ## Looking up

/-- A strand that has been offered and never placed: it holds no image slot yet (R275, R288). -/
def State.offerOnly (s : State) (t : Strand) : Bool :=
  t.phase == .ready && !((s.ctxAt t.slot).any (fun c => c.images.any (fun e => e.1 == t.h)))

/-- Strands placed for a unit that do not count as complete (R266). -/
def State.unitStrands (s : State) (slot id stage : Nat) : List Strand :=
  s.allStrands.filter (fun t => t.h != 0 && t.slot == slot && t.launch.toNat == id && t.unit.toNat == stage && !(s.offerOnly t))

/-- Offers of a unit that were never placed are withdrawn. -/
def State.dropOffers (s : State) (slot id : Nat) (p : Nat → Bool) : State :=
  { s with strands := s.strands.filter (fun (t : Strand) =>
      !(t.slot == slot && t.launch.toNat == id && p t.unit.toNat && s.offerOnly t)) }

/-- The loaded kernel of a handle. -/
def Ctx.kernel (c : Ctx) (handle : Nat) : Option Kernel := c.kernels.find? (fun k => k.handle == handle)

/-- The depth of the queue that a stage of a launch pushes into (R240). -/
def State.qdepth (s : State) (slot id stage : Nat) : Nat :=
  match s.launchAt slot id, s.ctxAt slot with
  | some l, some c => ((c.kernel l.handle).bind (fun k => k.stages[stage]?)).elim 0 (·.qdepth)
  | _, _ => 0

/-- The class that a strand's launch started with (R251); C3 for a strand of no launch. -/
def State.strandClass (s : State) (t : Strand) : Nat := (s.launchAt t.slot t.launch.toNat).elim 3 (·.cls)

/-- A stage queue is closed (R265). -/
def Launch.closed (l : Launch) (q : Nat) : Bool :=
  (l.sqs[q]?).any (·.closed) || (l.units[q]?).any (·.complete)

def Launch.queue (l : Launch) (q : Nat) : List SQRec := (l.sqs[q]?).elim [] (·.recs)

def Launch.unitCancelled (l : Launch) (u : Nat) : Bool := (l.units[u]?).any (·.cancelled)

/-- The input of a stage is closed and empty (R265). -/
def inputDone (s : State) (l : Launch) (slot stage : Nat) : Bool :=
  if stage = 0 then l.count ≤ l.handed || l.unitCancelled 0
  else l.closed (stage - 1) && (l.queue (stage - 1)).isEmpty &&
    (s.unitStrands slot l.id (stage - 1)).all (fun t => t.queuePushed.isEmpty)

/-- Committed records of a unit's input, or records not handed out for stage 0 (R275). -/
def occupancy (l : Launch) (stage : Nat) : Nat :=
  if stage = 0 then (if l.unitCancelled 0 then 0 else l.count - l.handed) else (l.queue (stage - 1)).length

-- ## The end of a launch (R255, R256, R266, R268)

def countKey (key : List Nat) (f : Counter → Counter) (l : List Counter) : List Counter :=
  if l.any (fun c => c.key == key) then l.map (fun c => if c.key = key then f c else c)
  else l ++ [f { key := key, accepted := 0, ended := 0 }]

/-- The job, phase and graph of a launch. -/
def Launch.keys (l : Launch) : List (List Nat) := [[l.job], [l.job, l.phase], [l.job, l.phase, l.graph]]

def LState.held : LState → Bool
  | .pending => true | .ready => true | .running => true
  | .done => false | .cancelled => false | .refused => false

/-- Launches of a context that hold an entry of its share of the store (R256). -/
def Ctx.stored (c : Ctx) : Nat := (c.launches.filter (fun l => l.state.held && l.inStore)).length

/-- The earliest record in the overflow area moves into a freed entry (R256). -/
def State.refillStore (s : State) (slot : Nat) : State :=
  match s.ctxAt slot with
  | none => s
  | some c =>
    match c.launches.find? (fun l => l.state == .pending && !l.inStore) with
    | some l => if c.stored < c.lsq then s.updLaunch slot l.id (fun l => { l with inStore := true }) else s
    | none => s

/-- A queue that is FLUSHING and has no unstarted launch left is DISABLED (R252). -/
def State.flushQueues (s : State) (slot : Nat) : State :=
  s.updCtx slot (fun c => { c with queues := c.queues.zipIdx.map (fun (q, i) =>
    if q.state = 3 ∧ !(c.launches.any (fun l => l.q == i && (l.state == .pending || l.state == .ready)))
    then { q with state := 0 } else q) })

/-- The lowest place of the launch overflow area that no launch holds (R256). -/
def Ctx.overPlace (c : Ctx) : Nat :=
  let held := (c.launches.filter (fun l => l.state.held && !l.inStore)).map (·.place)
  ((List.range (held.length + 1)).find? (fun i => !(held.contains i))).getD 0

/-- The address of a place of the launch overflow area. -/
def Ctx.overAddr (c : Ctx) (place : Nat) : Nat := c.fld 6 63 0 + 64 * place

/-- A launch leaves the overflow area for good: the record before it links to the one behind it (R256). -/
def State.unchained (s : State) (slot : Nat) (l : Launch) : State :=
  match s.ctxAt slot with
  | none => s
  | some c =>
    let area := c.launches.filter (fun m => m.state.held && !m.inStore)
    match area.dropWhile (fun m => m.id != l.id), (area.takeWhile (fun m => m.id != l.id)).getLast? with
    | _ :: r, some m => s.engPostWord slot (c.overAddr m.place) (BitVec.ofNat 64 (r.head?.elim 0 (fun x => c.overAddr x.place)))
    | _, _ => s

/-- A launch ends: its state, its counters, its place, its done event (R255, R256, R268). -/
def State.endLaunch (s : State) (slot id : Nat) (cancelled : Bool) : State :=
  match s.launchAt slot id with
  | none => s
  | some l =>
    let s1 := ((s.unchained slot l).unwait slot (· == .launch slot id)).setLState slot id (if cancelled then .cancelled else .done)
    let s2 := s1.updCtx slot (fun c =>
      let fin := c.finished + 1
      { c with
        finished := fin
        counters := l.keys.foldl (fun t k => countKey k (fun x => { x with ended := (x.ended + 1) % 2 ^ 32 }) t) c.counters
        launches := (c.launches.map (fun m => if m.id = id then { m with acqFrom := fin, waits := [] } else m)).filter
          (fun m => m.acqFrom = 0 || decide (fin < m.acqFrom + 65536)) })
    let s3 := if l.sig then s2.signalLate slot l.done else s2
    ((s3.refillStore slot).flushQueues slot).refreshLaunches slot

/-- A unit of a started launch is complete (R266, R270): its input is closed and empty, its strands are complete, and it has
had one, unless a cancel covered it. -/
def unitDone (s : State) (slot : Nat) (l : Launch) (stage : Nat) : Bool :=
  match l.units[stage]? with
  | none => false
  | some u => inputDone s l slot stage && (s.unitStrands slot l.id stage).isEmpty && (u.nextIndex != 0 || u.cancelled)

/-- Units found complete in stage order, then the launch's end (R266). -/
def State.settleLaunch (s : State) (slot id : Nat) : State :=
  match s.launchAt slot id with
  | none => s
  | some l0 =>
    if l0.state ≠ .running then s
    else
      let s1 := (List.range l0.units.length).foldl (fun t k =>
        match t.launchAt slot id with
        | none => t
        | some l =>
          if unitDone t slot l k then
            (t.dropOffers slot id (· == k)).updLaunch slot id (fun l => { l with
              units := l.units.modify k (fun u => { u with complete := true, offered := false })
              sqs := l.sqs.modify k (fun q => { q with closed := true }) })
          -- a covered unit's queue closes once its strands have ended (R270)
          else if l.unitCancelled k && (t.unitStrands slot id k).all (fun u => u.phase == .ended) then
            t.updLaunch slot id (fun l => { l with sqs := l.sqs.modify k (fun q => { q with closed := true }) })
          else t) s
      match s1.launchAt slot id with
      | none => s1
      | some l => if l.units.all (·.complete) then s1.endLaunch slot id (l.units.any (·.cancelled)) else s1

-- ## Commits (R264, R273)

/-- The uncommitted pushes of a strand go to its stage's queue, unless the next unit is cancelled, and its held record
counts; `keep` leaves the record held, counted (QCLOSE, END). -/
def State.commit (s : State) (h : Nat) (keep : Bool) : State :=
  match s.findStrand h with
  | none => s
  | some t =>
    let k := t.unit.toNat
    let done := match t.record with
      | some (_, false) => 1
      | _ => 0
    let s1 := s.updLaunch t.slot t.launch.toNat (fun l => { l with
      sqs := if l.unitCancelled (k + 1) then l.sqs else l.sqs.modify k (fun q => { q with recs := q.recs ++ t.queuePushed })
      units := l.units.modify k (fun u => { u with completed := (u.completed + done) % 2 ^ 32 }) })
    s1.updStrand h (fun t => { t with
      queuePushed := []
      doneTo := if done = 1 then t.nid else t.doneTo
      record := if keep then t.record.map (fun r => (r.1, true)) else none })

-- ## Cancels (R270)

/-- Units of a started launch covered by a cancel: their strands end at their next cancellation point, their tile tasks are
cancelled, their input is discarded. -/
def State.coverUnits (s : State) (slot id : Nat) (p : Nat → Bool) : State :=
  let s1 := s.updLaunch slot id (fun l => { l with
    units := l.units.zipIdx.map (fun (u, k) => if p k then { u with cancelled := true, offered := false } else u)
    sqs := l.sqs.zipIdx.map (fun (q, k) => if p (k + 1) then { q with recs := [] } else q) })
  let s2 : State := s1.mapStrands (fun t =>
    if t.h ≠ 0 ∧ t.slot = slot ∧ t.launch.toNat = id ∧ p t.unit.toNat then { t with cancelled := true }.unpark else t)
  let s3 : State := s2.dropOffers slot id p
  let ts := s3.pkg.tasks.filter (fun (t : Task) => t.slot == slot && t.launch == id && p t.unit)
  ts.foldl (fun (u : State) (t : Task) => u.cancelTask t.n) s3

/-- A cancel of one launch (R270): at once while it has not started. -/
def State.cancelLaunch (s : State) (slot id : Nat) : State :=
  match s.launchAt slot id with
  | none => s
  | some l =>
    match l.state with
    | .pending | .ready => s.endLaunch slot id true
    | .running => (s.coverUnits slot id (fun _ => true)).settleLaunch slot id
    | .done | .cancelled | .refused => s

/-- A cancel newly covers the launch. -/
def Launch.coverable (l : Launch) : Bool :=
  match l.state with
  | .pending | .ready => true
  | .running => l.units.any (fun u => !u.cancelled)
  | .done | .cancelled | .refused => false

/-- A cancel of one unit (R270): a launch that has not started keeps its state; the covered unit's output queue closes. -/
def State.cancelUnit (s : State) (slot id stage : Nat) : W64 × State :=
  match s.launchAt slot id with
  | none => (0#64, s)
  | some l =>
    match l.units[stage]? with
    | none => (0#64, s)
    | some u =>
      if !l.state.held then (0#64, s)
      else if u.cancelled then (1#64, s)
      else
        let s1 := s.coverUnits slot id (· == stage)
        let s2 := if (s1.unitStrands slot id stage).isEmpty && u.nextIndex == 0 then
            s1.updLaunch slot id (fun l => { l with sqs := l.sqs.modify stage (fun q => { q with closed := true }) }) else s1
        (1#64, s2.settleLaunch slot id)

/-- The layout of tgt at a level (R268). -/
def tgtOk (level : Fin 5) (v : W64) : Bool :=
  match level with
  | 0 => decide (v.toNat < 2 ^ 35)
  | 1 => decide (v.toNat < 2 ^ 32)
  | 2 => v.extractLsb' 0 16 == 0#16
  | 3 => v.extractLsb' 0 32 == 0#32
  | 4 => v.extractLsb' 0 48 == 0#48

/-- The key of a graph, phase or job target. -/
def tgtKey (level : Fin 5) (v : W64) : List Nat :=
  let n := v.toNat
  match level with
  | 0 => [] | 1 => []
  | 2 => [bits n 63 48, bits n 47 32, bits n 31 16]
  | 3 => [bits n 63 48, bits n 47 32]
  | 4 => [bits n 63 48]

/-- CANCEL applied (R270): its answer, and the state after. -/
def State.cancelTarget (s : State) (slot : Nat) (level : Fin 5) (v : W64) : W64 × State :=
  let id := bits v.toNat 31 0
  match level with
  | 0 => s.cancelUnit slot id (bits v.toNat 34 32)
  | 1 => match s.launchAt slot id with
    | none => (0#64, s)
    | some l => if l.coverable then (1#64, s.cancelLaunch slot id) else (0#64, s)
  | 2 | 3 | 4 =>
    let ls := ((s.ctxAt slot).elim [] (·.launches)).filter (fun l => l.keys.contains (tgtKey level v) && l.coverable)
    (BitVec.ofNat 64 ls.length, ls.foldl (fun t l => t.cancelLaunch slot l.id) s)

/-- GCNT's answer (R268). -/
def State.countTarget (s : State) (slot : Nat) (level : Fin 5) (v : W64) : W64 :=
  let id := bits v.toNat 31 0
  let none_ := BitVec.allOnes 64
  match level with
  | 0 => match (s.launchAt slot id).bind (fun l => l.units[bits v.toNat 34 32]?) with
    | none => none_
    | some u =>
      let n := ((s.unitStrands slot id (bits v.toNat 34 32)).filter (fun t =>
        !(t.a.ended && t.x.ended))).length
      BitVec.ofNat 64 (n * 2 ^ 48 + u.completed)
  | 1 => match s.launchAt slot id with
    | none => none_
    | some l => BitVec.ofNat 64 (l.units.length * 2 ^ 32 + (l.units.filter (·.complete)).length)
  | 2 | 3 | 4 => match ((s.ctxAt slot).elim [] (·.counters)).find? (fun c => c.key == tgtKey level v) with
    | none => none_
    | some c => BitVec.ofNat 64 (c.accepted * 2 ^ 32 + c.ended)

end Sys2Proof.Machine
end

