-- ==== Sys2Proof/Machine/Stops.lean ====
section
/-! DEFINITION. Stops of a strand and the cores that strands may use (spec/03_core.md R70, spec/07_consistency.md R187,
spec/06_access.md R146, R170, spec/12_queue.md R257, R259, R260, spec/14_context.md R291, spec/08_tile.md R189). -/

namespace Sys2Proof.Machine

-- ## Cores (R5, R259, R260, R287)

/-- A core's place in its die. -/
def posInDie (core : Nat) : Nat := if core < 64 then core % 32 else (core - 64) % 48

/-- A core reserved for C0 (R260). -/
def Pkg.reserved (p : Pkg) (core : Nat) : Bool := decide (posInDie core < max 1 (p.c0res.getD (dieOf core) 1#6).toNat)

/-- A context's strands of a class may run on a core: its die is allowed and out of reset, and a reserved core runs C0 only. -/
def State.mayRun (s : State) (slot cls core : Nat) : Bool :=
  match s.ctxAt slot with
  | none => false
  | some c =>
    c.state == 1 && c.dies.getLsbD (dieOf core) && (s.pkg.dies.getD (dieOf core) Die.start).up &&
      (cls == 0 || !(s.pkg.reserved core))

/-- A ready strand of an equal or higher class waits for the core of the strand in the foreground (R95). -/
def State.readyWaits (s : State) : Bool :=
  s.strands.any (fun t => t.phase == .ready && decide (s.strandClass t ≤ s.strandClass s.strand) &&
    s.mayRun t.slot (s.strandClass t) s.core.num)

-- ## When a stop is complete

/-- Operations that a stop does not wait for: none, but for the side log, which is kept apart (R187). Launches, cancels and
other questions wait too, because their results are in flight (R70), and a waiter has to be on its list (R221). -/
def Strand.drained (t : Strand) : Bool :=
  t.acc.isEmpty && t.pend.all (fun f => f.due.isSome) &&
  t.lq.all (fun l => l.all (fun e => e.due.isSome)) && t.sq.all (fun l => l.all (fun e => e.due.isSome)) &&
  t.ringPops.isEmpty && t.matIds.isEmpty

/-- An access of a load queue entry that has left for another package, all of whose bytes are in .rem storage (R279). -/
def remoteOut (s : State) (a : Acc) : Bool :=
  a.sent && (match a.op with
    | .load _ _ _ _ => true
    | .loadV _ _ _ _ _ _ => true
    | .atom _ _ _ _ _ _ r => r.isSome
    | _ => false) && (opRanges a.op).all (fun r => (pieces r.1 r.2).all (fun p => s.storageOf p.1 == 2))

/-- For a park: the accesses that are out to other packages stay out, with their entries (R279, R291). -/
def parkDrained (s : State) : Bool :=
  let t := s.strand
  let out := t.acc.filter (remoteOut s)
  let keeps := fun (e : QEnt) => e.due.isSome || out.any (fun a => match entryOf a.op with
    | some (_, n) => n == e.id
    | none => false)
  t.acc.all (remoteOut s) &&
  t.lq.all (fun l => l.all keeps) && t.sq.all (fun l => l.all (fun e => e.due.isSome)) &&
  t.pend.all (fun f => f.due.isSome) && t.ringPops.isEmpty && t.matIds.isEmpty

/-- Every copy and every started chain record has completed (R146, R170). -/
def Strand.copiesDone (t : Strand) : Bool :=
  t.slots.all (fun c => c.all (fun c => c.chunks.all (fun k => match k with
    | .landed => true | .failed _ => true | .pending => false | .waits => false))) &&
  t.chans.all (fun c => c.recs.isEmpty)

/-- No channel walks a chain any more (R146). -/
def Strand.chainsDone (t : Strand) : Bool := t.chans.all (fun c => c.recs.isEmpty && !c.walking)

/-- A stop that is complete acts as FENCE.full.pkg and AFENCE (R187): no access after the resumption reads a remote copy filled
before it, and accesses that a park leaves out are named by their physical bytes. -/
def stopFence (s : State) : State :=
  let t := s.strand
  let u := if t.acc.isEmpty then t else { t with afences := t.afences ++ [t.nid], nid := t.nid + 1 }
  { s with strand := u, pkg := { s.pkg with rcache := [] } }

-- ## Leaving a core

/-- The unspent credits of a context go back when its strand leaves a core (R257). -/
def Core.dropCredits (c : Core) (slot : Nat) : Core := { c with credits := tdel c.credits slot }

/-- The core of a strand is released, and its launch gets the cycles (R384); the strand that held the accumulator file and has ended leaves no live tile (R189). -/
def State.release (s : State) (core : Nat) (slot h : Nat) (ended : Bool) : State :=
  let s := match s.findStrand h, s.findCore core with
    | some t, some c => s.updLaunch slot t.launch.toNat (fun l => { l with cycles := l.cycles + (c.cyc - t.since) })
    | _, _ => s
  s.updCore core (fun c =>
    let c1 := { c.dropCredits slot with runs := 0 }
    if ended ∧ c1.accownValid ∧ c1.accownHold = h then { c1 with acclive := 0#8 } else c1)

/-- The record of a sequencer that stopped: one that did not trap has cause 0 and the address it stopped at (R72). -/
def Seq.stopRec (q : Seq) : Seq := if q.trapped then q else { q.counted q.last with tcause := .none, tpc := q.pc, tval := 0#64 }

/-- A stop that is complete takes effect (R70, R71): after END in both streams the strand has ended; else it is suspended.
An ended strand leaves the core; a suspended one keeps it for firmware, and goes on by itself when it was the side log that
stopped it, an entry is free and its context is ACTIVE (R145, R285). -/
def finishStop (s : State) : State :=
  let t := s.strand
  if t.phase ≠ .stopping ∨ !t.drained ∨ !(s.pkg.epQuiet t.h) then s
  else
    let t1 := landAll s.cyc t
    let s1 := stopFence { s with strand := { t1 with a := t1.a.stopRec, x := t1.x.stopRec } }
    if t.a.ended ∧ t.x.ended then
      ({ s1 with strand := { s1.strand with phase := .ended } }.release s.core.num t.slot t.h true).settleLaunch t.slot t.launch.toNat
    else
      let s2 := { s1 with strand := { s1.strand with phase := .suspended } }
      if t.logFull && !t.logIsFull && !t.a.trapped && !t.x.trapped && (s.ctxAt t.slot).any (fun c => c.state == 1) then resumeStrand s2 else s2

end Sys2Proof.Machine
end

