-- ==== Sys2Proof/Machine/Control.lean ====
section
/-! DEFINITION. The control instructions, opcodes 0x00 to 0x0A and 0x0D (spec/04_scalar.md R83 to R96). -/

namespace Sys2Proof.Machine

def execNop (s : State) : Out := retire s s

/-- GO (R84): the first to arrive waits; with the second both issue in one cycle, and each whose issue would pass the iteration bound
traps in that cycle (R72, R248). -/
def execGo (s : State) : Out :=
  let st := Stream.other s.stream
  let q := s.strand.seq st
  if q.ended then illegalOut s
  else if !q.atGo then stallOut (s.setSeq { s.seq with atGo := true })
  else if overBound s st then
    let v := BitVec.ofNat 64 s.strand.iterbound
    let t := { takeTrap .watchdog v { s with stream := st } with stream := s.stream }
    .next (if overBound s s.stream then takeTrap .watchdog v t else t)
  else
    -- the partner's GO may stand at a back edge, which is a pre-emption point too (R70)
    let s1 := { s with strand := s.strand.setSeq st (q.retire ⟨none, true⟩ true s.cyc) }
    retireReset s (if s.strand.preempt && atBackEdge q ⟨none, true⟩ true then s1.preemptNow else s1)

/-- A branch's target (R85). -/
def branchTo (pc : PC) (off : BitVec 30) : PC := pc + 8#56 * off.signExtend 56

def execBr (off : BitVec 30) (s : State) : Out := retireTo (branchTo s.seq.pc off) s s

/-- The link that CALL and JMP write. -/
def linkVal (s : State) : W64 := (s.seq.pc + 8#56).zeroExtend 64

def execCall (d : LinkDst) (off : BitVec 30) (s : State) : Out :=
  retireTo (branchTo s.seq.pc off) s (putLink d (linkVal s) s)

def execJmp (d : LinkDst) (s1 : SOp) (s : State) : Out :=
  gated (sPops s1) [] s
    (let r := takeS s1 s
     if r.1.extractLsb' 0 3 ≠ 0#3 ∨ r.1.extractLsb' 56 8 ≠ 0#8 then trapOut .align r.1 s
     else retireTo (r.1.truncate 56) s (putLink d (linkVal s) r.2))

/-- LOOP (R88). -/
def execLoop (c : LCount) (body : BitVec 14) (s : State) : Out :=
  let n : W64 := match c with
    | .reg r => s.seq.get r
    | .imm w => w.zeroExtend 64
  let q := s.seq
  if 2 ^ 32 ≤ n.toNat then illegalOut s
  else if n = 0#64 then retireTo (q.pc + 8#56 + 8#56 * body.zeroExtend 56) s s
  else if 6 ≤ q.loops.length then illegalOut s
  else
    let l : Loop := { start := q.pc + 8#56, body := body, rem := n.truncate 32, idx := 0#32 }
    retire s (s.setSeq { q with loops := l :: q.loops })

/-- BREAKL (R90). -/
def execBreakl (s : State) : Out :=
  match s.seq.loops with
  | [] => illegalOut s
  | l :: r => retireTo (l.start + 8#56 * l.body.zeroExtend 56) s (s.setSeq { s.seq with loops := r })

/-- LIDX (R91). -/
def execLidx (d : SOp) (n : Fin 6) (rem : Bool) (s : State) : Out :=
  match s.seq.loops[n.val]? with
  | none => illegalOut s
  | some l => scalarWord d [] 1 (fun _ => (if rem then l.rem else l.idx).zeroExtend 64) s

def execTrap (imm : BitVec 24) (s : State) : Out := trapOut .trap (imm.signExtend 64) s

/-- The holder of the accumulator file that has executed END in both streams leaves no live tile (R189). -/
def deadTiles (s : State) : State :=
  if s.core.accownValid && s.core.accownHold == s.strand.h then { s with core := { s.core with acclive := 0#8 } } else s

/-- END (R94): a recorded misuse is raised first (R229); the A stream commits (R264); results in flight land, those of the
other stream too (log 70); with both streams ended the strand stops, its queue entries are discarded and its tiles are dead. -/
def execEnd (s : State) : Out :=
  match s.seq.misuse with
  | some m => trapOut .bar m (s.setSeq { s.seq with misuse := none })
  | none =>
    if overBound s s.stream then trapOut .watchdog (BitVec.ofNat 64 s.strand.iterbound) s
    else
      let s1 := { s with strand := landAll s.cyc s.strand }
      let q := { s1.seq with ended := true, loops := [], last := s.cyc, waitFrom := none, atGo := false, started := true }
      let s2 := s1.setSeq q
      let s3 := match s.stream with
        | .a => s2.commit s.strand.h true
        | .x => s2
      let t := s3.strand
      .next (if t.a.ended && t.x.ended then
          deadTiles { s3 with strand := { t with phase := .stopping, lq := List.replicate 4 [], sq := List.replicate 4 [] } }
        else s3)

/-- YIELD (R95). -/
def execYield (s : State) : Out :=
  retireReset s (if s.strand.preempt || s.readyWaits then s.preemptNow else s)

/-- CPOINT (R96). A pending cancel ends the strand also where the CPOINT's issue would pass the iteration bound: a word that ends its
strand raises no WATCHDOG (DEDUCED; log 25). -/
def execCpoint (s : State) : Out :=
  if s.strand.cancelled then .next (endCancelled s)
  else retireReset s (if s.strand.preempt then s.preemptNow else s)

end Sys2Proof.Machine
end

