-- ==== Sys2Proof/Machine/Engine.lean ====
section
/-! DEFINITION. The writes that Taproot's engines make in an order of their own, held behind faults and full free rings
(spec/17_request.md R354, R355, R414), the transitions of requests among them (R346, R356, R357), and the end of a request (R348). -/

namespace Sys2Proof.Machine

-- ## Requests (R345, R346)

/-- The codes of R345. -/
def RState.code : RState → Nat
  | .admitted => 1 | .prefill => 2 | .handoff => 3 | .decode => 4 | .done => 5 | .cancelled => 6 | .restarting => 7

/-- Word 0x00 of a request record. -/
def Req.word (r : Req) (reason : Nat) : List Byte :=
  leBytes 8 (r.state.code * 2 ^ 56 + r.restarts * 2 ^ 48 + r.owner * 2 ^ 40 + reason * 2 ^ 32 + r.handle)

def State.reqAt (s : State) (handle : Nat) : Option Req := s.pkg.reqs.find? (fun r => r.handle == handle)
def State.updReq (s : State) (handle : Nat) (f : Req → Req) : State :=
  s.updPkg (fun p => { p with reqs := p.reqs.map (fun r => if r.handle = handle then f r else r) })

/-- The held request whose record lies at an address of a context. -/
def State.reqByRec (s : State) (slot rec : Nat) : Option Req := s.pkg.reqs.find? (fun r => r.slot == slot && r.recVa == rec)

/-- The request that a page's reqh names, in the context. -/
def State.pageReq (s : State) (slot : Nat) (p : Page) : Option Req := (s.reqAt p.reqh).bind (fun r => if r.slot = slot then some r else none)

def statusWord (code state value : Nat) : W64 := BitVec.ofNat 64 (code * 2 ^ 56 + state * 2 ^ 48 + value)

/-- The state of a request for a status word: 0 when it is not held. -/
def State.reqState (s : State) (handle : Nat) : Nat := (s.reqAt handle).elim 0 (·.state.code)

/-- The request that the page at an address names; none where the page cannot be read. -/
def State.reqOfPage (s : State) (slot va : Nat) : Option Req :=
  match (s.readPage slot va).1 with
  | .ok p => s.pageReq slot p
  | _ => none

/-- The state of the object that an operation concerns, and the value of its status word, when it is refused (R361, R362). -/
def State.opState (s : State) (slot : Nat) (op : EngOp) : Nat × Nat :=
  let page := fun (va : Nat) => ((s.reqOfPage slot va).elim 0 (·.state.code), 0)
  let rec_ := fun (va : W64) => (s.reqByRec slot va.toNat).elim (0, 0) (fun r => (r.state.code, r.handle))
  let whorl := fun (va : W64) => ((s.pkg.whorls.find? (fun w => w.slot == slot && w.recVa == va.toNat && decide (w.state < 4))).elim 0 (·.state), 0)
  let ring := fun (va : W64) => ((s.pkg.seqRings.find? (fun r => r.slot == slot && r.recVa == va.toNat)).elim 0 (·.state), 0)
  match op with
  | .graft src _ => page src.toNat
  | .kvseal va => page va.toNat
  | .kvcompact va => page (s.engGet slot va.toNat)
  | .beamix tbl _ => page (s.engGet slot (tbl.toNat + 0x40))
  | .migrAdmit va => rec_ va
  | .migrHand va => rec_ va
  | .migrDone va => rec_ va
  | .migrCancel va => rec_ va
  | .whorlOpen va => whorl va
  | .whorlClose va => whorl va
  | .whorlRing va => ring va
  | .whorlUnring va => ring va
  | .reshard _ => (0, 0)

-- ## One write

/-- What a write comes to. -/
inductive WRes where
  | done (s : State)
  | more (ws : List EngWrite) (s : State)   -- these come in its place
  | wait (s : State)
  | bad (code va : Nat) (s : State)         -- it cannot be made: 4 a page refused, 5 an uncorrectable error

/-- A page is mapped shared read-only. -/
def State.pageSro (s : State) (slot va : Nat) : Bool :=
  match (s.engTranslate slot va .read).1 with
  | .ok e => e.sro
  | .fault _ | .poison _ => false

/-- An access of an engine that does not go through: it waits for firmware (R414), for another package, or for a page that is being
rebuilt (R391); a poisoned granule fails it, and so does a package that the lock block refuses. -/
def heldBad (obj slot va : Nat) (k : AKind) (e : Eng Unit) (s : State) : WRes :=
  match e with
  | .ok _ => .wait s
  | .fault a r => .wait (s.askFirmware slot (.held obj) a k r)
  | .poison _ => if s.beingRebuilt slot va then .wait s else .bad 5 va s
  | .remote pa => if s.pkg.allows (paPkg pa) then .wait (s.askRemote pa) else .bad 4 va s

def Eng.unit : Eng α → Eng Unit
  | .ok _ => .ok ()
  | .fault a r => .fault a r
  | .poison a => .poison a
  | .remote a => .remote a

/-- A read for a write, and what follows. -/
def heldRead (obj slot va : Nat) (r : Eng α × State) (k : α → State → WRes) : WRes :=
  match r.1 with
  | .ok v => k v r.2
  | e => heldBad obj slot va .read e.unit r.2

/-- Bytes posted, and what comes in their place. -/
def postThen (obj slot va : Nat) (bs : List Byte) (next : List EngWrite) (s : State) : WRes :=
  let c := s.canPost slot va bs.length
  match c.1 with
  | .ok _ => .more next (c.2.engPostBy (.eng obj) slot va bs)
  | e => heldBad obj slot va .write e c.2

/-- A page's address put into a free ring, when it has room (R355): its slot, and, once that is performed, prod. -/
def ringPut (obj slot page ring : Nat) (slotDone : Bool) (s : State) : WRes :=
  heldRead obj slot ring (s.engRead slot ring 0x18) (fun bs s =>
    let prod := leNat (bs.take 8)
    let cons := leNat ((bs.drop 8).take 8)
    let nslot := leNat ((bs.drop 16).take 4)
    if slotDone then postThen obj slot ring (leBytes 8 (prod + 1)) [] s
    else if nslot = 0 ∨ (nslot : Int) ≤ (BitVec.ofNat 64 prod - BitVec.ofNat 64 cons).toInt then .wait s
    else postThen obj slot (ring + 0x40 + 8 * (prod % nslot)) (leBytes 8 page) [.await, .put page ring true] s)

/-- A launch of a request handed to Taproot as a firmware submission (R257, R346). -/
def State.submitFor (s : State) (r : Req) (decode : Bool) : State :=
  s.updPkg (fun p => { p with
    submits := p.submits ++ [{ n := p.submitNo, slot := r.slot, addr := r.recVa + (if decode then 0x80 else 0x40),
                               q := if decode then r.dq else r.pq, askedBy := none, core := 0, req := r.handle,
                               decode := decode, refused := false }]
    submitNo := p.submitNo + 1 })

/-- A reserved entry of a load queue, or nothing, gets an operation's status word. -/
def State.landWord (s : State) (h id : Nat) (w : W64) : State := s.answer h id w

/-- The reserved entry of an operation of a strand. -/
def State.retOf (s : State) (h id : Nat) : Option (Fin 4 × Nat) :=
  ((s.findStrand h).bind (fun t => t.acc.find? (fun a => a.id == id))).bind (fun a => match a.op with
    | .engine _ r => r
    | _ => none)

/-- An operation leaves the pipeline and the engine that ran it. -/
def State.opGone (s : State) (h id : Nat) : State :=
  (s.updPkg (fun p => { p with
    grafts := p.grafts.filter (fun x => !(x.h == h && x.id == id))
    reshards := p.reshards.filter (fun x => !(x.h == h && x.id == id)) })).updStrand h
    (fun t => { t with acc := t.acc.filter (fun a => a.id != id) })

/-- The end of an operation's writes: its status entry lands once they are performed, and it leaves the pipeline (R359). -/
def landing (h id : Nat) (ret : Option (Fin 4 × Nat)) (w : W64) : List EngWrite :=
  match ret with
  | some (_, e) => [.await, .land h e w, .gone h id (some e)]
  | none => [.await, .gone h id none]

/-- A change of a parity page sent in the bulk class, at most 512 bytes of its image to a packet, each with its CRC-32C (R328, R376,
R388). -/
def Pkg.sendParity (p : Pkg) (pkg ctx j lane : Nat) (img : List Byte) (st obj : Nat) : Pkg :=
  (List.range ((img.length + 511) / 512)).foldl (fun q i =>
    let part := (img.drop (512 * i)).take 512
    q.sendPkt taproot pkg 3 (.parity ctx j lane (512 * i) part st (crc32c part) false) (.eng obj)) p

/-- Writes for an object behind the ones that it holds (R414). -/
def State.queueHeld (s : State) (obj slot : Nat) (ws : List EngWrite) : State :=
  let add := fun (l : List Held) =>
    if l.any (fun h => h.obj == obj) then l.map (fun h => if h.obj = obj then { h with todo := h.todo ++ ws } else h)
    else l ++ [{ obj := obj, slot := slot, todo := ws, refused := false, err := none }]
  s.updPkg (fun p => { p with held := add p.held })

/-- The end of a request as a transition behind the ones that it holds (R346, R348). -/
def restarting (handle : Nat) : List EngWrite := [.await, .state handle .restarting 0 0, .fin]

/-- The request that a page names is ended: its parity page could not be changed (R388). -/
def State.endPage (s : State) (slot va : Nat) : State :=
  match s.reqOfPage slot va with
  | some r => s.queueHeld r.handle r.slot (restarting r.handle)
  | none => s

/-- The launches that the sequencer submitted for a request and that have not ended. -/
def State.boundLaunches (s : State) (r : Req) : List Nat :=
  (((s.ctxAt r.slot).elim [] (·.launches)).filter (fun l => l.request == r.handle && l.state.held)).map (·.id)

/-- Every bound launch is cancelled at launch level (R349, R357). -/
def State.cancelBound (s : State) (r : Req) : State := (s.boundLaunches r).foldl (fun t id => t.cancelLaunch r.slot id) s

/-- A transition that R346 has from a state: a request restarts from three of its states, and its last states are final. -/
def RState.leadsTo (a b : RState) : Bool :=
  match b with
  | .restarting => a == .prefill || a == .handoff || a == .decode
  | _ => a != .done && a != .cancelled

/-- The request after a transition: one that is ended, or cancelled, keeps whether its source pages are still to be released. -/
def Req.moved (r : Req) (st : RState) (owner : Nat) : Req :=
  let source := match r.state with
    | .decode => false
    | .restarting => r.inPrefill
    | _ => true
  match st with
  | .restarting => { r with state := st, owner := owner, ending := true, inPrefill := source }
  | .cancelled => { r with state := st, owner := owner, inPrefill := source }
  | _ => { r with state := st, owner := owner }

/-- Transfers of a cancelled request that have not begun to write are aborted with code 6; submissions are withdrawn (R357). -/
def State.abortWork (s : State) (handle : Nat) : State :=
  let stop := s.pkg.grafts.filter (fun g => g.req == handle && !g.begun)
  let s1 := s.updPkg (fun p => { p with submits := p.submits.filter (fun x => x.req != handle) })
  stop.foldl (fun t g =>
    let t1 := match t.retOf g.h g.id with
      | some (_, e) => t.landWord g.h e (statusWord 6 6 0)
      | none => t
    t1.opGone g.h g.id) s1

/-- A request takes a state and an owner, which are written into its record (R346); then what the state asks for at once: bound launches
and transfers are cancelled, and the releases of a cancelled request follow (R349, R357). -/
def transition (obj slot : Nat) (r : Req) (st : RState) (owner reason : Nat) (s : State) : WRes :=
  let r1 := r.moved st owner
  match postThen obj slot r.recVa (r1.word reason) [] s with
  | .more _ t =>
    let t1 := t.updReq r.handle (fun _ => r1)
    (match st with
     | .restarting => .done (t1.cancelBound r)
     | .cancelled => .more [.settle r.handle] ((t1.abortWork r.handle).cancelBound r)
     | .admitted | .prefill | .handoff | .decode | .done => .done t1)
  | w => w

/-- The releases of a cancelled or refused request (R354, R357): the source chain unless DECODE had been entered, then the
destination chain. -/
def releases (r : Req) : List EngWrite :=
  (if r.inPrefill then [EngWrite.chain r.srchead r.srcfree true chainBound] else []) ++ [.chain r.dsthead r.dstfree true chainBound]

/-- Landed and owned pages of a destination chain in order, until one is neither: those still to be made OWNED, and how
many there are. -/
def ownedRun : List Page → List Page × Nat
  | [] => ([], 0)
  | p :: r =>
    if p.state = 4 then let q := ownedRun r; (q.1, q.2 + 1)
    else if p.state = 3 ∧ p.fld 5 1 1 = 1 then let q := ownedRun r; (p :: q.1, q.2 + 1)
    else ([], 0)

/-- Landed pages become OWNED in token order; with every prompt block OWNED a request in HANDOFF enters DECODE: its source pages are
released, the state is written, ready is signalled, and declaunch is submitted (R356). -/
def ownBlocks (obj slot : Nat) (r : Req) (s : State) : WRes :=
  let c := s.readChain r.slot r.dsthead r.pblocks
  match c.1 with
  | .ok ps =>
    let run := ownedRun ps
    (match run.1 with
     | p :: _ => .more (c.2.parityOf slot p.va (List.replicate ((c.2.imageNow slot p.va).length) 0#8) 4 ++
         [.await, .bytes (p.va + 0x20) (leBytes 8 4), .await, .own r.handle]) c.2
     | [] =>
       if r.state = .handoff ∧ run.2 = r.pblocks then
         .more [.chain r.srchead r.srcfree true chainBound, .await, .state r.handle .decode 2 0, .await, .signal r.ready,
                .submit r.handle true] c.2
       else .done c.2)
  | .poison _ => .more (restarting r.handle) c.2
  | e => heldBad obj slot r.dsthead .read e.unit c.2

/-- The siblings that have neither ended nor posted are cancelled at launch level (R382). -/
def State.cancelLosers (s : State) (w : Whorl) : State :=
  (w.sibs.filter (fun b => b.fin == 0 && b.post == 0)).foldl (fun t b => t.cancelLaunch w.slot b.lid) s

/-- One write. -/
def oneWrite (obj slot : Nat) (w : EngWrite) (s : State) : WRes :=
  match w with
  | .bytes va data => postThen obj slot va data [] s
  | .release page ring mark =>
    if !mark || s.pageSro slot page then .more [.put page ring false] s
    else heldRead obj slot page (s.readPage slot page) (fun p s =>
      if p.state = 5 then .done s
      else .more (s.parityOf slot page (s.imageNow slot page) 5 ++ [.marked page ring]) s)
  | .marked page ring => postThen obj slot (page + 0x20) (leBytes 8 5) [.await, .put page ring false] s
  | .put page ring slotDone => ringPut obj slot page ring slotDone s
  | .chain head ring mark fuel =>
    if head = 0 ∨ fuel = 0 then .done s
    else heldRead obj slot head (s.readPage slot head) (fun p s => .more [.release head ring mark, .chain p.next ring mark (fuel - 1)] s)
  | .parity page img st =>
    (match s.ctxAt slot, s.shardSlot slot page with
     | some c, some (j, lane) =>
       if s.pkg.allows (s.parityPkg slot) then .done (s.updPkg (fun p => p.sendParity (s.parityPkg slot) c.num j lane img st obj))
       else .done (s.endPage slot page)
     | _, _ => .done s)
  | .await => if s.pkg.waitsFor (.eng obj) || !s.pkg.writesSeen then .wait s else .done s
  | .state req st owner reason =>
    (match s.reqAt req with
     | none => .done s
     | some r => if r.state.leadsTo st then transition obj slot r st owner reason s else .done s)
  | .own req =>
    (match s.reqAt req with
     | none => .done s
     | some r => if r.state = .prefill ∨ r.state = .handoff then ownBlocks obj slot r s else .done s)
  | .settle req =>
    (match s.reqAt req with
     | none => .done s
     | some r => if r.state ≠ .cancelled then .done s else if s.pkg.grafts.any (fun g => g.req == req) then .wait s else .more (releases r) s)
  | .signal name => .done (s.signal slot name)
  | .submit req decode =>
    (match s.reqAt req with
     | none => .done s
     | some r => .done (s.submitFor r decode))
  | .land h id w => .done (s.landWord h id w)
  | .gone h id _ => .done (s.opGone h id)
  | .losers handle =>
    .done ((s.pkg.whorls.find? (fun w => w.handle == handle)).elim s (fun w => s.cancelLosers w))
  | .dropWhorl handle => .done (s.updPkg (fun p => { p with whorls := p.whorls.filter (fun w => w.handle != handle) }))
  | .tokens va pserial page sum fuel =>
    if page = 0 ∨ fuel = 0 then postThen obj slot va (leBytes 8 (pserial * 2 ^ 32 + sum % 2 ^ 32)) [] s
    else
      let r := s.readPage slot page
      (match r.1 with
       | .ok p => .more [.tokens va pserial p.next (sum + p.used) (fuel - 1)] r.2
       | e => (match heldBad obj slot page .read e.unit r.2 with
         | .bad _ _ t => .more [.tokens va pserial 0 sum 0] t
         | w => w))
  | .list va n ring =>
    if n = 0 then .done s
    else heldRead obj slot va (s.engWord slot va) (fun w s => .more [.put w.toNat ring false, .list (va + 8) (n - 1) ring] s)
  | .drop req => .done (s.updPkg (fun p => { p with reqs := p.reqs.filter (fun r => r.handle != req || !(r.state == .done || r.state == .cancelled)) }))
  | .fin => .done s

-- ## Writes in order

/-- The writes that an object still holds. -/
def State.putHeld (s : State) (obj : Nat) (f : Held → Held) : State :=
  s.updPkg (fun p => { p with held := p.held.map (fun h => if h.obj = obj then f h else h) })

/-- The operation whose writes begin a list: its strand, its place in the pipeline and its reserved entry; none for writes outside any
instruction's status. -/
def heldOp : List EngWrite → Option (Nat × Nat × Option Nat)
  | [] => none
  | .gone h id e :: _ => some (h, id, e)
  | .fin :: _ => none
  | _ :: r => heldOp r

/-- What comes after the writes of the operation that begin a list. -/
def pastOp : List EngWrite → List EngWrite
  | [] => []
  | .gone _ _ _ :: r => r
  | _ :: r => pastOp r

/-- The same list with what ends the operation taken out. -/
def withoutOp : List EngWrite → List EngWrite
  | [] => []
  | .gone _ _ _ :: r => .fin :: r
  | .land _ _ _ :: r => withoutOp r
  | w :: r => w :: withoutOp r

/-- A release of a page, which is never dropped (R355). -/
def EngWrite.releases : EngWrite → Bool
  | .release _ _ _ => true
  | .marked _ _ => true
  | .put _ _ _ => true
  | .chain _ _ _ _ => true
  | .list _ _ _ => true
  | _ => false

/-- A write that cannot be made. Of an operation whose status is still to land, the status has code 4, or 5 with its request ended (R359,
R375), and its writes left are dropped, but a release that firmware has refused stays. Writes outside any status, a poisoned granule's
and a refused package's among them (DEDUCED: they are never dropped, R355; log 113), stay held, the address to be reported (R414). -/
def State.heldFails (s : State) (obj slot code va : Nat) (todo : List EngWrite) : State :=
  match heldOp todo with
  | none => s.putHeld obj (fun h => { h with todo := todo, refused := true, err := some va })
  | some (h, id, ent) =>
    let op := ((s.findStrand h).bind (fun t => t.acc.find? (fun a => a.id == id))).bind (fun a => match a.op with
      | .engine op _ => some op
      | _ => none)
    let o := op.elim (0, 0) (s.opState slot)
    let s1 := match ent with
      | some e => s.landWord h e (statusWord code o.1 o.2)
      | none => s
    let s2 := s1.opGone h id
    if code = 4 ∧ todo.head?.any (·.releases) then
      s2.putHeld obj (fun h => { h with todo := withoutOp todo, refused := true, err := some va })
    else s2.putHeld obj (fun h => { h with todo := pastOp todo ++ (if code = 5 ∧ obj < 2 ^ 32 then restarting obj else []) })

/-- The writes of an object in order, until one must wait or cannot be made. -/
def runWrites (obj : Nat) (s : State) : Nat → State
  | 0 => s
  | k + 1 =>
    match s.pkg.held.find? (fun h => h.obj == obj) with
    | none => s
    | some h =>
      match h.todo with
      | [] => s.updPkg (fun p => { p with held := p.held.filter (fun x => x.obj != obj) })
      | w :: _ =>
        if h.refused then s
        else
          match oneWrite obj h.slot w (s.putHeld obj (fun h => { h with todo := h.todo.drop 1 })) with
          | .done t => runWrites obj t k
          | .more ws t => runWrites obj (t.putHeld obj (fun h => { h with todo := ws ++ h.todo })) k
          | .wait t => t.putHeld obj (fun h => { h with todo := w :: h.todo })
          | .bad code va t => runWrites obj (t.heldFails obj h.slot code va h.todo) k

/-- More than any list of writes needs. -/
def writeFuel : Nat := 2 ^ 40

/-- The held writes of an object go on, unless firmware has refused one (R414). -/
def State.runHeld (s : State) (obj : Nat) : State := runWrites obj s writeFuel

/-- Writes of an engine for an object, behind the ones it already holds (R414). -/
def State.engDo (s : State) (obj slot : Nat) (ws : List EngWrite) : State := (s.queueHeld obj slot ws).runHeld obj

/-- A page release that waits for room in its free ring is tried again. -/
def execFreeRingRelease (n : Nat) (s : State) : Out :=
  .next (match s.pkg.held[n]? with
    | some h => s.runHeld h.obj
    | none => s)

/-- A held write is tried again, after firmware has mapped or repaired its page (R414). -/
def execEngineWriteHeld (n : Nat) (s : State) : Out :=
  .next (match s.pkg.held[n]? with
    | some h => s.runHeld h.obj
    | none => s)

-- ## Transitions of requests (R346)

/-- The writes of an object that are not made yet: later transitions of it wait behind them (R414). -/
def State.holds (s : State) (obj : Nat) : Bool := s.pkg.held.any (fun h => h.obj == obj)

/-- A request takes a state and an owner, with release at .sys, behind what it holds; then what follows. -/
def State.setReq (s : State) (handle : Nat) (st : RState) (owner reason : Nat) (after : List EngWrite) : State :=
  match s.reqAt handle with
  | none => s
  | some r => s.engDo handle r.slot ([.await, .state handle st owner reason, .await] ++ after)

/-- A request is ended (R348): it enters RESTARTING, its launches are cancelled. In RESTARTING the error is absorbed. -/
def State.endRequest (s : State) (handle : Nat) : State :=
  match s.reqAt handle with
  | none => s
  | some r =>
    match r.state with
    | .prefill | .handoff | .decode => s.engDo handle r.slot (restarting handle)
    | .admitted | .done | .cancelled | .restarting => s

/-- Work of a strand meets an error that ends its request (R348); work bound to none is reported per strand. -/
def State.endBound (s : State) (h : Nat) (va : Nat) : State :=
  match s.findStrand h with
  | none => s
  | some t => if t.request ≠ 0 then s.endRequest t.request else s.report (.discarded t.slot h va)

/-- The writes that cancel a request (R346, R357). -/
def cancelWrites (handle reason : Nat) : List EngWrite := [.await, .state handle .cancelled 3 reason]

/-- A request is cancelled by the sequencer: a launch was refused, or it has no restarts left. -/
def State.cancelRequest (s : State) (handle reason : Nat) : State :=
  match s.reqAt handle with
  | none => s
  | some r => s.engDo handle r.slot (cancelWrites handle reason ++ [.await, .drop handle, .fin])

end Sys2Proof.Machine
end

