-- ==== Sys2Proof/Machine/Copy.lean ====
section
/-! DEFINITION. Rings, region formats, copies, chains and DRAIN (spec/06_access.md R149, R160 to R171, R415,
spec/15_page.md R320, R321). -/

namespace Sys2Proof.Machine

-- ## Rings (R160)

def Ring.fld (r : Ring) (hi lo : Nat) : Nat := bits r.img.toNat hi lo
/-- Tiles of a ring, bytes of a tile, base. -/
def Ring.count (r : Ring) : Nat := r.fld 41 32 + 1
def Ring.tileBytes (r : Ring) : Nat := (r.fld 31 24 + 1) * 512
def Ring.base (r : Ring) : Nat := r.fld 20 0
/-- The scratchpad byte address of a counted tile. -/
def Ring.tileAt (r : Ring) (j : Nat) : Nat := r.base + j % r.count * r.tileBytes

/-- A configuration image that RINGCFG takes (R161). -/
def ringOk (img : W64) : Bool :=
  let r := Ring.ofImage img
  img.extractLsb' 42 22 == 0#22 && img.extractLsb' 21 3 == 0#3 && decide (r.fld 41 32 ≤ 511) && decide (r.fld 31 24 ≤ 127) &&
  r.base % 512 == 0 && r.base / 0x40000 == (r.base + r.count * r.tileBytes - 1) / 0x40000

def Strand.ring (t : Strand) (k : Nat) : Ring := t.rings.getD k (Ring.ofImage 0#64)
def Strand.setRing (t : Strand) (k : Nat) (r : Ring) : Strand := { t with rings := t.rings.set k r }

/-- The tail passes every tile that is complete, in order (R160). -/
def tailOn (r : Ring) : Nat → Ring
  | 0 => r
  | k + 1 =>
    if r.complete.contains r.tail.toNat then
      tailOn { r with tail := r.tail + 1#32, complete := r.complete.filter (· != r.tail.toNat) } k
    else r

/-- A reserved tile is complete, perhaps failed (R160, R165). -/
def Ring.finish (r : Ring) (j : Nat) (failed : Bool) : Ring :=
  let r1 := { r with complete := r.complete ++ [j], failed := if failed then r.failed ++ [j] else r.failed }
  tailOn r1 r1.complete.length

/-- The head passes n tiles, whose failed marks go. -/
def Ring.pop (r : Ring) (n : Nat) : Ring :=
  { r with
    head := r.head + BitVec.ofNat 32 n
    failed := r.failed.filter (fun j => !(decide ((BitVec.ofNat 32 j - r.head).toNat < n))) }

/-- Landed tiles that the head has not passed. -/
def Ring.held (r : Ring) : Nat := (r.tail - r.head).toNat
/-- Reserved tiles that the head has not passed. -/
def Ring.taken (r : Ring) : Nat := (r.resv - r.head).toNat

def execRingcfg (k : Fin 16) (img : SOp) (s : State) : Out :=
  gated (sPops img) [] s
    (let r := takeS img s
     let old := s.strand.ring k.val
     if !(ringOk r.1) then illegalOut s
     else if old.resv ≠ old.tail then trapOut .queue (BitVec.ofNat 64 k.val) s
     else retire s { r.2 with strand := r.2.strand.setRing k.val (Ring.ofImage r.1) })

def execRstat (d : SOp) (k : Fin 16) (sel : Fin 4) (s : State) : Out :=
  let r := s.strand.ring k.val
  scalarWord d [] 1 (fun _ => match sel with
    | 0 => r.head.zeroExtend 64
    | 1 => r.tail.zeroExtend 64
    | 2 => r.resv.zeroExtend 64
    | 3 => r.img) s

def execRpop (k : Fin 16) (n : BitVec 6) (s : State) : Out :=
  let r := s.strand.ring k.val
  if r.held < n.toNat then trapOut .queue (BitVec.ofNat 64 k.val) s
  else retire s { s with strand := s.strand.setRing k.val (r.pop n.toNat) }

def execBfmt (fr : Fin 8) (fmt : Fin 13) (s : State) : Out :=
  retire s { s with strand := { s.strand with fr := s.strand.fr.set fr.val fmt } }

-- ## The checks of CPY (R164, R167)

/-- The format of the region of a scratchpad address. -/
def Strand.fmtAt (t : Strand) (va : Nat) : Nat := (t.fr.getD ((va - Config.scratchBase) / 0x40000) 0).val

/-- A scratchpad range touches regions of one format only. -/
def oneFormat (t : Strand) (va n : Nat) : Bool :=
  (List.range 8).all (fun k =>
    let lo := Config.scratchBase + 0x40000 * k
    !(overlap va n lo 0x40000) || (t.fr.getD k 0).val == t.fmtAt va)

/-- The formats of the two ends and whether the copy converts. -/
def copyFormats (t : Strand) (src dst : Nat) : Nat × Nat × Bool :=
  if inScratch src && inScratch dst then
    let a := t.fmtAt src
    let b := t.fmtAt dst
    (a, b, a != b && a != 0 && b != 0)
  else (0, 0, false)

/-- The source length of a copy. -/
def srcLen (a b : Nat) (conv : Bool) (len : Nat) : Nat :=
  match conv, groupOf a b with
  | true, some (sg, dg) => len / dg * sg
  | _, _ => len

/-- The checks of R164 on a copy: none when it may start. -/
def copyBad (t : Strand) (src dst : W64) (len : Nat) (tile : Option Nat) : Option (Cause × W64) :=
  -- every ILLEGAL comes before ALIGN (R73)
  let f := copyFormats t src.toNat dst.toNat
  let lenBad := match tile with
    | some n => len != n
    | none => len == 0 || decide (65536 < len) || len % 4 != 0
  let groupBad := f.2.2 && (match groupOf f.1 f.2.1 with
    | some (_, dg) => len % dg != 0
    | none => true)
  let n := srcLen f.1 f.2.1 f.2.2 len
  let both := inScratch src.toNat && inScratch dst.toNat
  if lenBad || groupBad || (both && !(oneFormat t src.toNat n && oneFormat t dst.toNat len)) then some (.illegal, 0#64)
  else if misplaced src n 4 false then some (.align, src)
  else if misplaced dst len 512 false then some (.align, dst)
  else none

/-- The causes of a copy that show while a queue of it is wrong (R73): with every operand read its checks; else a length that no copy
has, formats that no copy converts, and an address out of place. -/
def copyCauses (t : Strand) (ir : W64) (src dst len : Option W64) (tile : Option Nat) : List (Cause × W64) :=
  match src, dst, len with
  | some a, some b, some n => (copyBad t a b n.toNat tile).toList.map (fun c => if c.1 = .illegal then (.illegal, ir) else c)
  | _, _, _ =>
  (match src, dst with
   | some a, some b => let f := copyFormats t a.toNat b.toNat; causeIf (f.2.2 && (groupOf f.1 f.2.1).isNone) .illegal ir
   | _, _ => []) ++
  len.elim [] (fun n => causeIf (match tile with
    | some k => n.toNat != k
    | none => n.toNat == 0 || decide (65536 < n.toNat) || n.toNat % 4 != 0) .illegal ir) ++
  src.elim [] (fun a => causeIf (misplaced a ((len.map (·.toNat)).getD 4) 4 false) .align a) ++
  dst.elim [] (fun a => causeIf (misplaced a ((len.map (·.toNat)).getD 4) 512 false) .align a)

/-- A copy at its start: its chunks of 512 destination bytes, all outstanding. -/
def Copy.start (t : Strand) (ord src dst len : Nat) (ring : Option (Nat × Nat)) : Copy :=
  let f := copyFormats t src dst
  { id := t.nid, ord := ord, src := src, dst := dst, len := len, srcFmt := f.1, dstFmt := f.2.1, conv := f.2.2, ring := ring,
    chunks := List.replicate ((len + 511) / 512) .pending, flags := 0#5, nar := false, fb4 := false, trit := false,
    bar := none, posted := false, cut := false }

/-- The lowest free copy slot (R164). -/
def Strand.freeSlot (t : Strand) : Option Nat := t.slots.findIdx? (fun c => c.all (fun c => c.open_ == 0))

/-- A copy put into a slot. -/
def startCopy (k src dst len : Nat) (ring : Option (Nat × Nat)) (s : State) : State :=
  let t := s.strand
  { s with strand := { t with slots := t.slots.set k (some (Copy.start t t.nid src dst len ring)), nid := t.nid + 1 } }

/-- A check of a copy as a word's answer. -/
def copyTrap (c : Cause × W64) (s : State) : Out := if c.1 = .illegal then illegalOut s else trapOut c.1 c.2 s

def execCpy (d src dst len : SOp) (s : State) : Out :=
  let pops := [src, dst, len].flatMap sPops
  let v := knowns [src, dst, len] s
  gatedPre (copyCauses s.strand s.ir (known v 0) (known v 1) (known v 2) none) pops (sPushes d) s
    (match s.strand.freeSlot with
     | none => stallOut s
     | some k =>
       let r := takeSs [src, dst, len] s
       let a := r.1.getD 0 0#64
       let b := r.1.getD 1 0#64
       let n := (r.1.getD 2 0#64).toNat
       match copyBad s.strand a b n none with
       | some c => copyTrap c s
       | none => retire s (putS d 1 (BitVec.ofNat 64 k) (startCopy k a.toNat b.toNat n none r.2)))

def execCpyRing (d src len : SOp) (k : Fin 16) (s : State) : Out :=
  let pops := [src, len].flatMap sPops
  let ring := s.strand.ring k.val
  let v := knowns [src, len] s
  let out := BitVec.ofNat 64 (Config.scratchBase + ring.tileAt ring.resv.toNat)
  gatedPre (copyCauses s.strand s.ir (known v 0) (some out) (known v 1) (some ring.tileBytes)) pops (sPushes d) s
    (match s.strand.freeSlot with
     | none => stallOut s
     | some sl =>
       if ring.count ≤ ring.taken then stallOut s
       else
         let r := takeSs [src, len] s
         let a := r.1.getD 0 0#64
         let n := (r.1.getD 1 0#64).toNat
         let dst := Config.scratchBase + ring.tileAt ring.resv.toNat
         match copyBad s.strand a (BitVec.ofNat 64 dst) n (some ring.tileBytes) with
         | some c => copyTrap c s
         | none =>
           let s1 := startCopy sl a.toNat dst n (some (k.val, ring.resv.toNat)) r.2
           retire s (putS d 1 (BitVec.ofNat 64 sl)
             { s1 with strand := s1.strand.setRing k.val { ring with resv := ring.resv + 1#32 } }))

-- ## Observing a slot (R165, R166)

def Chunk.done : Chunk → Bool
  | .landed => true | .failed _ => true | .pending => false | .waits => false
def Chunk.failKind : Chunk → Nat
  | .failed k => k
  | .landed => 0 | .pending => 0 | .waits => 0

/-- The status word of a copy (R165): the kind is that of the lowest failed chunk (R321). -/
def Copy.status (c : Copy) : W64 :=
  let landed := (c.chunks.filter (· == .landed)).length
  let kind := ((c.chunks.find? (fun k => k.failKind != 0)).map Chunk.failKind).getD 0
  BitVec.ofNat 64 (landed * 2 ^ 16 + bitNat c.trit 15 + bitNat c.fb4 14 + bitNat c.nar 13 + c.flags.toNat * 2 ^ 8 +
    kind * 2 ^ 4 + bitNat (kind != 0) 0)

/-- The copy most recently issued into a slot named by a register; none for a number above 15. -/
def slotNo (v : W64) : Option Nat := if v.toNat < 16 then some v.toNat else none

def execCwait (d slot mlo mhi : SOp) (s : State) : Out :=
  let pops := [slot, mlo, mhi].flatMap sPops
  gatedPre ((known (knowns [slot, mlo, mhi] s) 0).elim [] (fun v => causeIf (slotNo v).isNone .illegal s.ir)) pops [] s
    (let r := takeSs [slot, mlo, mhi] s
     match slotNo (r.1.getD 0 0#64) with
     | none => illegalOut s
     | some k =>
       let mask := (r.1.getD 1 0#64).toNat + (r.1.getD 2 0#64).toNat * 2 ^ 64
       let c := (s.strand.slots[k]?).join
       let ready := c.all (fun c => c.chunks.zipIdx.all (fun (x, i) => !(mask.testBit i) || x.done))
       if ready then gated pops (sPushes d) s (retire s (putS d 1 (c.elim 0#64 Copy.status) r.2)) else stallOut s)

def execCtest (d slot chunk : SOp) (s : State) : Out :=
  let pops := [slot, chunk].flatMap sPops
  gatedPre ((known (knowns [slot, chunk] s) 0).elim [] (fun v => causeIf (slotNo v).isNone .illegal s.ir)) pops (sPushes d) s
    (let r := takeSs [slot, chunk] s
     match slotNo (r.1.getD 0 0#64) with
     | none => illegalOut s
     | some k =>
       let n := (r.1.getD 1 0#64).toNat
       let v : W64 := match ((s.strand.slots[k]?).join).bind (fun c => c.chunks[n]?) with
         | none => 1#64
         | some .landed => 1#64
         | some (.failed _) => 2#64
         | some .pending => 0#64
         | some .waits => 0#64
       retire s (putS d 1 v r.2))

-- ## A chunk (R164, R165, R415)

/-- The bytes of a conversion group of a copy at its source and destination. -/
def Copy.group (c : Copy) : Nat × Nat := if c.conv then (groupOf c.srcFmt c.dstFmt).getD (1, 1) else (1, 1)

/-- The first destination byte of chunk k, counting whole groups (R415). The last chunk of a copy may then cover no group
(trit to s8, 1,540 bytes: its fourth chunk); it stays a chunk that has to land, with no bytes (DESIGN CHOICE: the spec does not
say; log 75). -/
def Copy.chunkAt (c : Copy) (k : Nat) : Nat := let g := c.group.2; min c.len ((512 * k + g - 1) / g * g)

/-- The chunk at the copy's ends: destination offset and bytes, source offset and bytes. -/
def Copy.span (c : Copy) (k : Nat) : (Nat × Nat) × (Nat × Nat) :=
  let lo := c.chunkAt k
  let n := c.chunkAt (k + 1) - lo
  let g := c.group
  ((lo, n), (lo / g.2 * g.1, n / g.2 * g.1))

/-- A place where a write would go, or why it does not. -/
def State.writeLook (s : State) (va n : Nat) : Eng Bool × State :=
  (linePieces va n).foldl (fun acc pc =>
    match acc.1 with
    | .ok far =>
      if inScratch pc.1 then acc
      else
        let q := acc.2.translate acc.2.strand.slot pc.1 .write
        (match q.1 with
         | .fault r => (.fault pc.1 r, q.2)
         | .poison a => (.poison a, q.2)
         | .ok e =>
           let pa := homeOf q.2.pkg (e.addr pc.1)
           if paPkg pa ≠ q.2.pkg.num then (if q.2.pkg.allows (paPkg pa) then (.ok true, q.2) else (.remote pa, q.2))
           else if poisoned q.2.pkg (paLocal pa) pc.2 then (.poison pa, q.2) else (.ok far, q.2))
    | _ => acc) (.ok false, s)

/-- Bytes of a chunk written at their homes; other packages answer to the chunk, in the bulk class (R336). -/
def State.writeChunk (s : State) (asker : Asker) (va : Nat) (bs : List Byte) : State :=
  (linePieces va bs.length).foldl (fun t pc =>
    let part := (bs.drop (pc.1 - va)).take pc.2
    if inScratch pc.1 then
      { t with core := t.core.padPut (pc.1 - Config.scratchBase) part }
    else
      let q := t.translate t.strand.slot pc.1 .write
      match q.1 with
      | .fault _ | .poison _ => q.2
      | .ok e =>
        let pa := homeOf q.2.pkg (e.addr pc.1)
        if paPkg pa ≠ q.2.pkg.num then
          q.2.updPkg (fun p => (p.dropCopies pa pc.2).sendPkt q.2.core.num (paPkg pa) 3 (.write (paLocal pa) part) asker e.key)
        else q.2.writeAs (paLocal pa) part e.key) s

/-- One attempt at a chunk of a copy of the strand in the foreground: it lands, fails, waits for firmware, or stays
outstanding. `bad` says that the read meets an uncorrectable error, at its first byte (R322). -/
def chunkStep (c : Copy) (k : Nat) (bad : Bool) (ag : Agent) (s : State) : Copy × State :=
  let put := fun (x : Chunk) => { c with chunks := c.chunks.set k x }
  match c.chunks[k]? with
  | some .pending =>
    let sp := c.span k
    let who := Asker.chunk s.strand.h c.id k
    if s.pkg.waitsFor who || pathHeld s.strand .cpy c.ord (fun m =>
        rangeIn s m (c.src + sp.2.1, sp.2.2) || rangeIn s m (c.dst + sp.1.1, sp.1.2)) then (c, s)
    else
      let found := if bad then s.errorAt [] (c.src + sp.2.1) else (true, s)
      if !found.1 then (put (.failed 2), found.2)
      else
      let r := found.2.coreRead who (c.src + sp.2.1) sp.2.2
      match r.1 with
      | .fault va w => (put .waits, r.2.askFirmware s.strand.slot ag va .read w)
      | .poison _ => (put (.failed 2), r.2)
      | .remote pa => if r.2.pkg.allows (paPkg pa) then (c, r.2.askRemoteBy who pa) else (put (.failed 3), r.2)
      | .ok bs =>
        let w := (r.2.usedUp who).writeLook (c.dst + sp.1.1) sp.1.2
        match w.1 with
        | .fault va x => (put .waits, w.2.askFirmware s.strand.slot ag va .write x)
        | .poison _ => (put (.failed 2), w.2)
        | .remote _ => (put (.failed 3), w.2)
        | .ok far =>
          let o := if c.conv then convBytes c.srcFmt c.dstFmt c.group.1 bs else (bs, 0#5, 0#3)
          let c1 := { c with
            flags := c.flags ||| o.2.1, nar := c.nar || o.2.2 &&& tNar != 0#3, fb4 := c.fb4 || o.2.2 &&& tFb4 != 0#3
            trit := c.trit || o.2.2 &&& tTrit != 0#3 }
          let s1 := w.2.writeChunk who (c.dst + sp.1.1) o.1
          ((if far then c1 else { c1 with chunks := c1.chunks.set k .landed }), s1)
  | some .waits => (c, s)
  | some .landed => (c, s)
  | some (.failed _) => (c, s)
  | none => (c, s)

/-- Where a strand keeps a copy: a slot, or a record of a channel (16 + 4 × channel + record). -/
def Strand.copyAt (t : Strand) (sl : Nat) : Option Copy :=
  if sl < 16 then (t.slots[sl]?).join
  else ((t.chans[(sl - 16) / 4]?).bind (fun c => c.recs[(sl - 16) % 4]?)).bind (·.copy)

def Strand.setCopy (t : Strand) (sl : Nat) (c : Copy) : Strand :=
  if sl < 16 then { t with slots := t.slots.set sl (some c) }
  else { t with chans := t.chans.modify ((sl - 16) / 4) (fun ch => { ch with
    recs := ch.recs.modify ((sl - 16) % 4) (fun r => { r with copy := some c }) }) }

/-- The agent that a fault of a chunk names (R309). -/
def copyAgent (h sl chunk : Nat) : Agent :=
  if sl < 16 then .copy h sl chunk else .chainCopy h ((sl - 16) / 4) ((sl - 16) % 4) chunk

/-- What follows when a chunk of a copy has changed: the barrier that counts it (R233), and a ring tile when the copy has
completed (R160, R165). -/
def copyChanged (h sl chunk : Nat) (old new : Copy) (s : State) : State :=
  let s1 := s.updStrand h (fun t => t.setCopy sl new)
  let ch := new.chunks.getD chunk .pending
  if (old.chunks.getD chunk .pending).done || !ch.done then s1
  else
    let slot := (s1.findStrand h).elim 0 (·.slot)
    -- an uncorrectable error ends the request of the strand (R323)
    let s2 := (s1.barChunk slot new (ch.failKind != 0))
    let s2 := if ch.failKind = 2 then s2.endBound h (new.dst + 512 * chunk) else s2
    match new.ring with
    | some (k, j) =>
      if new.open_ = 0 then
        s2.updStrand h (fun t => t.setRing k ((t.ring k).finish j (new.chunks.any (fun x => x.failKind != 0))))
      else s2
    | none => s2

/-- A chunk's end decided elsewhere: by firmware's answer, or by another package's. -/
def State.chunkEnds (s : State) (h sl chunk : Nat) (x : Chunk) : State :=
  match (s.findStrand h).bind (fun t => t.copyAt sl) with
  | none => s
  | some c => copyChanged h sl chunk c { c with chunks := c.chunks.set chunk x } s

/-- A chunk of a copy is read, converted and written (R165); kind 2 says that its source has an uncorrectable error. -/
def execCopyChunkLands (h slot chunk kind : Nat) (s : State) : Out :=
  .next (s.onStrand h (fun s =>
    match s.strand.copyAt slot with
    | none => s
    | some c =>
      let r := chunkStep c chunk (kind == 2) (copyAgent h slot chunk) s
      copyChanged h slot chunk c r.1 r.2))

-- ## Chains (R169)

/-- CHAIN. With head 0 the chain is at its end at once: nothing is walked and the channel stays free (DESIGN CHOICE: the rule
says of a next pointer only that 0 ends the chain; log 76). -/
def execChain (ch : Fin 4) (head : SOp) (s : State) : Out :=
  gated (sPops head) [] s
    (let r := takeS head s
     let c := s.strand.chans.getD ch.val { id := 0, next := 0, walking := false, recs := [], held := [] }
     if c.walking || !c.recs.isEmpty then stallOut s
     else if misplaced r.1 64 64 false then trapOut .align r.1 s
     else
       let t := r.2.strand
       retire s { r.2 with
         strand := { t with
           chans := t.chans.set ch.val { id := t.nid, next := r.1.toNat, walking := r.1 != 0#64, recs := [], held := [] }, nid := t.nid + 1 } })

/-- The words of a chain record: none when a check of R164 or the alignment of next fails; its reserved bits are ignored (R7).
Its copy orders with the chain that it belongs to. -/
def chainCopy (t : Strand) (ord : Nat) (w : List W64) : Option (Copy × Option Nat) :=
  let f := fun (i hi lo : Nat) => bits ((w.getD i 0#64).toNat) hi lo
  let len := f 3 31 0
  let src := w.getD 1 0#64
  if f 0 5 0 ≠ 0 then none
  else if f 3 33 33 = 1 then
    let k := f 3 37 34
    let r := t.ring k
    let dst := Config.scratchBase + r.tileAt r.resv.toNat
    if (copyBad t src (BitVec.ofNat 64 dst) len (some r.tileBytes)).isSome then none
    else some (Copy.start t ord src.toNat dst len (some (k, r.resv.toNat)), some k)
  else
    let dst := w.getD 2 0#64
    if (copyBad t src dst len none).isSome then none else some (Copy.start t ord src.toNat dst.toNat len none, none)

/-- New chain records are blocked: the strand is being pre-empted, or has been (R170). -/
def Strand.chainsHeld (t : Strand) : Bool := t.phase == .preempting || t.phase == .stopped || t.phase == .ready

/-- The next record of a channel, read once: a ring record that waits for a free tile keeps its words (R169). -/
def chainRead (c : Chan) (s : State) : Eng (List W64) × State :=
  if c.held.isEmpty then
    let r := s.coreRead (.chunk s.strand.h c.id 0) c.next 64
    match r.1 with
    | .ok bs => (.ok (wordsOf bs), r.2.usedUp (.chunk s.strand.h c.id 0))
    | .fault a w => (.fault a w, r.2)
    | .poison a => (.poison a, r.2)
    | .remote a => (.remote a, r.2)
  else (.ok c.held, s)

/-- The channel in the foreground strand reads and starts its next record, when it may. A ring record whose ring has no free
tile is not a started one: a pre-emption does not wait for it (DEDUCED: the strand that would free a tile has stopped;
log 77). -/
def chainStart (h ch : Nat) (s : State) : State :=
  let stop := fun (t : State) => { t with strand := { t.strand with chans := t.strand.chans.modify ch (fun c => { c with walking := false }) } }
  match s.strand.chans[ch]? with
  | none => s
  | some c =>
    if !c.walking || decide (4 ≤ c.recs.length) || s.strand.chainsHeld || s.pkg.waitsFor (.chunk s.strand.h c.id 0) ||
        pathHeld s.strand .cpy c.id (fun m => rangeIn s m (c.next, 64)) ||
        s.pkg.faults.any (fun f => f.agent == .chain h ch) then s
    else
      let r := chainRead c s
      match r.1 with
      | .fault va w => r.2.askFirmware s.strand.slot (.chain h ch) va .read w
      | .poison pa => (stop r.2).noteError h pa
      | .remote pa => if r.2.pkg.allows (paPkg pa) then r.2.askRemoteBy (.chunk s.strand.h c.id 0) pa else stop r.2
      | .ok w =>
        let s1 := r.2
        if (w.getD 3 0#64).getLsbD 32 = false then stop s1
        else
          let ring := s1.strand.ring (bits (w.getD 3 0#64).toNat 37 34)
          if (w.getD 3 0#64).getLsbD 33 && decide (ring.count ≤ ring.taken) then
            { s1 with strand := { s1.strand with chans := s1.strand.chans.modify ch (fun c => { c with held := w }) } }
          else
            let cp := chainCopy s1.strand c.id w
            let next := (w.getD 0 0#64).toNat
            let on := cp.isSome && next != 0
            let t := s1.strand
            let t1 := { t with
              chans := t.chans.modify ch (fun c => { c with
                next := next, walking := on, held := [], recs := c.recs ++ [{ addr := c.next, ctl := w.getD 3 0#64, copy := cp.map (·.1), step := 0 }] })
              nid := t.nid + 1 }
            { s1 with strand := match cp.bind (·.2) with
              | some k => t1.setRing k { t1.ring k with resv := (t1.ring k).resv + 1#32 }
              | none => t1 }

/-- The step of a channel's oldest record after the one that it has made. -/
def chainStep (ch : Nat) (s : State) : State :=
  { s with strand := { s.strand with chans := s.strand.chans.modify ch (fun c => { c with
      recs := c.recs.modify 0 (fun r => { r with step := r.step + 1 }) }) } }

/-- A word of a record written on the cpy path: in the scratchpad, at its home, or by a packet. A page that faults waits for
firmware; a word that cannot be written is discarded and reported (R323, R339). -/
def chainPut (who : Asker) (ch va : Nat) (w : W64) (s : State) : State :=
  let r := s.writeLook va 8
  match r.1 with
  | .ok _ => chainStep ch (r.2.writeChunk who va (leBytes 8 w.toNat))
  | .fault a y => r.2.askFirmware s.strand.slot (.chain s.strand.h ch) a .write y
  | .poison a => chainStep ch (r.2.discard va (some a))
  | .remote _ => chainStep ch (r.2.discard va none)

/-- The oldest record of the channel, all its chunks done, makes its next step: its status is written, then own is cleared, then the
event is signalled and the record is over (R169 steps 3 and 4). Clearing own is a release at system scope: what was written before has
been performed, and every invalidation that it caused has been applied (R178). The status of a record of kind 5 has the fault bit
too, and the record's own is cleared and its event signalled as for any other (DESIGN CHOICE: the rule states the kind and the walk's
end; log 78). -/
def chainFinish (ch : Nat) (s : State) : State :=
  match s.strand.chans[ch]?, (s.strand.chans[ch]?).bind (·.recs.head?) with
  | some c, some r =>
    let who := Asker.chunk s.strand.h c.id 1
    let slot := s.strand.slot
    if r.copy.any (fun c => c.open_ != 0) || s.pkg.waitsFor who || s.pkg.faults.any (fun f => f.agent == .chain s.strand.h ch) then s
    else if r.step = 0 then
      chainPut who ch (r.addr + 0x20) (match r.copy with
        | some c => c.status
        | none => 0x51#64) s
    else if r.step = 1 then
      if s.pkg.allSeen then chainPut who ch (r.addr + 0x18) (r.ctl &&& ~~~0x100000000#64) s else s
    else
      -- the records behind it move up, with their reports
      let up := fun (f : FaultRep) => match f.agent with
        | .chainCopy g k i x => if g = s.strand.h ∧ k = ch ∧ 0 < i then { f with agent := .chainCopy g k (i - 1) x } else f
        | _ => f
      let s2 := ({ s with strand := { s.strand with chans := s.strand.chans.modify ch (fun c => { c with recs := c.recs.drop 1 }) } }).updPkg
        (fun p => { p with faults := p.faults.map up })
      if r.ctl.getLsbD 38 then s2.signal slot (bits r.ctl.toNat 55 40) else s2
  | _, _ => s

/-- A channel goes on: its oldest record ends when its chunks have, and it starts the next one. -/
def execChainRecordComplete (h ch : Nat) (s : State) : Out :=
  .next (s.onStrand h (fun s => chainStart h ch (chainFinish ch (chainFinish ch (chainFinish ch s)))))

-- ## DRAIN (R171)

/-- A copy still has chunks to land into or out of a storage of a mask. -/
def copyTouches (s : State) (m : Stor) (c : Copy) : Bool :=
  (List.range c.chunks.length).any (fun k => !(c.chunks.getD k .landed).done &&
    (rangeIn s m (c.src + (c.span k).2.1, (c.span k).2.2) || rangeIn s m (c.dst + (c.span k).1.1, (c.span k).1.2)))

/-- Every copy and chain record of the strand that was handed over before operation id and touches a storage of a mask has
completed; of a chain that is still walked the storages are not known, and it counts for every mask. -/
def copiesBefore (s : State) (m : Stor) (id : Nat) : Bool :=
  s.strand.slots.all (fun c => c.all (fun c => decide (id < c.ord) || !(copyTouches s m c))) &&
  s.strand.chans.all (fun c => decide (id < c.id) || (!c.walking && c.recs.all (fun r => r.copy.all (fun c => !(copyTouches s m c)))))

/-- Every earlier access of a path into the storages of a mask has completed: a matrix word reads and writes the scratchpad, a
GRAFT its two pages, a drain-add goes to its peer's package (log 71). -/
def pathDone (p : Path) (m : Stor) (s : State) : Bool :=
  let t := s.strand
  match p with
  | .ls => (t.acc ++ t.sidelog).all (fun a => !((roleOf a.op).writes && touches s m a.op))
  | .cpy => copiesBefore s m t.nid
  | .gat => t.acc.all (fun a => !(onPathIn s .gat m a.op))
  | .mat => !m.sp || t.matIds.isEmpty
  | .grf => t.acc.all (fun a => !(onPathIn s .grf m a.op)) &&
      s.pkg.grafts.all (fun g => g.h != t.h || !((s.graftRanges g.slot g.src g.dst).any (rangeIn s m)))
  | .col => colBefore s m t.nid

def execDrain (path : Fin 6) (stor : Stor) (s : State) : Out :=
  if pathDone (pathOf path) stor s then retire s s else stallOut s

end Sys2Proof.Machine
end

