-- ==== Sys2Proof/Machine/Matrix.lean ====
section
/-! DEFINITION. The accumulator file and the core matrix unit (spec/08_tile.md R188 to R202). -/

namespace Sys2Proof.Machine

-- ## The holder (R189, R190)

/-- accown (R189). -/
def Core.accown (c : Core) : W64 :=
  BitVec.ofNat 64 (c.accownHold * 2 ^ 32 + bitNat c.accownValid 16) ||| c.accownCtx.zeroExtend 64

/-- A matrix use by the strand in the foreground (R190): the state in which the word executes, or the tval of ACCFIRST. -/
def matrixUse (s : State) : Except W64 State :=
  let c := s.core
  let t := s.strand
  if c.accownValid && c.accownHold == t.h then .ok s
  else if t.spill.isNone && (!c.accownValid || (c.accownCtx == t.ctx && c.acclive == 0#8)) then
    -- the counts belong to the holder (R202)
    let s1 := s.updStrand c.accownHold (fun u => { u with arrivals := c.arrivals, refusals := c.refusals })
    .ok { s1 with core := { c with accownValid := true, accownHold := t.h, accownCtx := t.ctx, arrivals := t.arrivals, refusals := t.refusals } }
  else .error (if c.accownValid then c.accownCtx.zeroExtend 64 else 0#64)

/-- A word that is a matrix use: `s0` is the state at its issue, `s` the one after its sources are read. -/
def matrixWordAt (s0 s : State) (k : State → Out) : Out :=
  match matrixUse s with
  | .ok s1 => k s1
  | .error v => trapOut .accfirst v s0

def matrixWord (s : State) (k : State → Out) : Out := matrixWordAt s s k

/-- ACCFIRST as a cause of a word, when its strand may not use the tiles (R190): it comes before the causes of the word's
queues (R73). -/
def accCause (s : State) : List (Cause × W64) :=
  match matrixUse s with
  | .ok _ => []
  | .error v => [(.accfirst, v)]

def setLive (n : Fin 8) (b : Bool) (s : State) : State :=
  let m : BitVec 8 := 1#8 <<< n.val
  { s with core := { s.core with acclive := if b then s.core.acclive ||| m else s.core.acclive &&& ~~~m } }

def Core.tile (c : Core) (n : Nat) : List W32 := c.tiles.getD n (List.replicate 1024 0#32)
def setTile (n : Nat) (v : List W32) (s : State) : State := { s with core := { s.core with tiles := s.core.tiles.set n v } }

/-- A tile of zeros. -/
def zeroTile : List W32 := List.replicate 1024 0#32

-- ## The unit (R193, R194)

/-- The unit may start an elastic word (R194, R182). -/
def unitReady (s : State) : Bool :=
  s.core.cmuq.isEmpty && decide (s.core.feedEnd ≤ s.cyc) && !(pathHeld s.strand .mat s.strand.nid (fun m => m.sp))

/-- An elastic word starts: it feeds for n cycles, frees its input tiles at the end of the feed, and completes in a cycle
or with its output tile (R197, R200). -/
def feed (n : Nat) (pops : List (Fin 16)) (due : Nat) (out : Option (Nat × Nat × List Byte)) (s : State) : State :=
  let e := s.cyc + n
  let t := s.strand
  { s with
    core := { s.core with feedEnd := e }
    strand := { t with
      ringPops := t.ringPops ++ pops.map (fun k => (e, k, 1))
      matIds := t.matIds ++ [{ id := t.nid, due := some due, out := out }]
      nid := t.nid + 1 } }

/-- A word appended to the wait queue (R194); an idle unit starts it in the cycle it issues. -/
def enqueue (w : CmuWord) (s : State) : State :=
  let t := s.strand
  let c := s.core
  { s with
    core := { c with cmuq := c.cmuq ++ [(t.nid, w)], feedEnd := if c.cmuq.isEmpty then max c.feedEnd s.cyc else c.feedEnd }
    strand := { t with matIds := t.matIds ++ [{ id := t.nid, due := none, out := none }], nid := t.nid + 1 } }

def Strand.matDue (t : Strand) (id cyc : Nat) : Strand :=
  { t with matIds := t.matIds.map (fun m => if m.id = id then { m with due := some cyc } else m) }

def Strand.matGone (t : Strand) (id : Nat) : Strand := { t with matIds := t.matIds.filter (fun m => m.id != id) }

/-- The packages and cores of a peer word (R201). -/
def peerPkg (v : W64) : Nat := bits v.toNat 41 32
def peerCore (v : W64) : Nat := bits v.toNat 24 16

/-- The packets of a drain-add for another package: 512 bytes of the tile in each (R328). -/
def DAdd.ops (d : DAdd) : List PktOp :=
  (List.range 8).map (fun i => .dadd d.peer d.tile.val d.ctx.toNat d.m (512 * i) ((d.data.drop (128 * i)).take 128))

/-- The word at the head of the wait queue starts, in the cycle in which the unit has fed the word before it. -/
def cmuStart (s : State) : State :=
  match s.core.cmuq with
  | [] => s
  | (id, w) :: r =>
    let at_ := s.core.feedEnd
    let s1 := { s with core := { s.core with cmuq := r } }
    match w with
    | .zero acc =>
      let s2 := setTile acc.val zeroTile s1
      { s2 with core := { s2.core with feedEnd := at_ + 1 }, strand := s2.strand.matDue id (at_ + 1) }
    | .dadd acc pkg core tile free m =>
      let data := s1.core.tile acc.val
      let s2 := if free then setLive acc false (setTile acc.val zeroTile s1) else s1
      let d : DAdd := { n := s2.pkg.daddNo, h := s2.strand.h, id := id, ctx := s2.strand.ctx, core := s2.core.num, pkg := pkg,
                        peer := core, tile := tile, m := m, data := data }
      let s3 := { s2 with core := { s2.core with feedEnd := at_ + 64 } }
      s3.updPkg (fun p =>
        let q := { p with dadds := p.dadds ++ [d], daddNo := p.daddNo + 1 }
        if pkg ≠ p.num ∧ p.allows pkg then d.ops.foldl (fun q op => q.sendPkt d.core pkg 3 op (.mdadd d.n)) q else q)

/-- The word at the head of the wait queue is a drain-add that a PFENCE into the col path holds (R182). -/
def headFenced (s : State) : Bool :=
  match s.core.cmuq.head? with
  | some (id, .dadd _ pkg _ _ _ _) => pathFenced s.strand .col id (fun m => colHas s m pkg)
  | _ => false

/-- The words of the queue start as the unit becomes free by a cycle. -/
def cmuRun (c : Nat) (s : State) : Nat → State
  | 0 => s
  | k + 1 => if !s.core.cmuq.isEmpty && decide (s.core.feedEnd ≤ c) && !(headFenced s) then cmuRun c (cmuStart s) k else s

/-- Bytes of an output tile written at an offset of the tile. -/
def writeTile (k j off : Nat) (bs : List Byte) (s : State) : State :=
  { s with core := s.core.padPut ((s.strand.ring k).tileAt j + off) bs }

/-- A matrix word completes: its output tile is written and counts as landed (R199). -/
def matLand (m : MatWord) (s : State) : State :=
  let s1 := match m.out with
    | some (k, j, bs) =>
      let s1 := writeTile k j 0 bs s
      { s1 with strand := s1.strand.setRing k ((s1.strand.ring k).finish j false) }
    | none => s
  { s1 with strand := s1.strand.matGone m.id }

/-- The matrix unit up to a cycle: queued words start, rings are popped at the ends of feeds, words complete. -/
def cmuAdvance (c : Nat) (s : State) : State :=
  let s1 := cmuRun c s s.core.cmuq.length
  let pops := s1.strand.ringPops.filter (fun p => decide (p.1 ≤ c))
  let t := pops.foldl (fun (t : Strand) p => t.setRing p.2.1.val ((t.ring p.2.1.val).pop p.2.2)) s1.strand
  let s2 := { s1 with strand := { t with ringPops := t.ringPops.filter (fun p => !(decide (p.1 ≤ c))) } }
  (s2.strand.matIds.filter (fun m => m.due.any (fun d => decide (d ≤ c)))).foldl (fun u m => matLand m u) s2

/-- Container c of the tile that the k-th matrix word writes lands early; past the last one the word completes (log 1). -/
def landMat (k c : Nat) (s : State) : State :=
  match s.strand.matIds[k]? with
  | none => s
  | some m =>
    match m.out with
    | none => s
    | some (r, j, bs) => if 4 * c < bs.length then writeTile r j (4 * c) ((bs.drop (4 * c)).take 4) s else matLand m s

/-- An operation with a core and the strand it runs in the foreground. -/
def State.atCore (s : State) (n : Nat) (f : State → State) : State :=
  ((f (s.toCore n)).focusCore s.core.num).focusStrand s.strand.h

/-- The head of a core's wait queue starts once the unit is free and no PFENCE holds it. -/
def execCmuWordStart (core : Nat) (s : State) : Out :=
  .next (s.atCore core (fun s => if decide (s.core.num = core) && decide (s.core.feedEnd ≤ s.cyc) && !(headFenced s) then cmuStart s else s))

-- ## MMA and MMAZ (R195 to R197)

def isF32 : AccTy → Bool
  | .f32 => true
  | .s32 => false

/-- The format of the region that holds a ring. -/
def Strand.ringFmt (t : Strand) (r : Ring) : Nat := (t.fr.getD (r.base / 0x40000) 0).val

/-- K, bytes of an operand row, and the accumulator type of an accepted pair of formats (R196). -/
def mmaPair (a b : Nat) : Option (Nat × Nat × AccTy) :=
  if (a = 2 ∧ b = 2) ∨ (a = 3 ∧ b = 3) then some (32, 64, .f32)
  else if (a = 4 ∨ a = 5) ∧ (b = 4 ∨ b = 5) then some (64, 64, .f32)
  else if a = 8 ∧ b = 8 then some (64, 64, .s32)
  else if a = 11 ∧ b = 11 then some (128, 96, .f32)
  else none

/-- The elements of a row of packed elements of a format (R43, R48, R196), and the tstat bits that decoding raises. -/
def rowElems (fmt n : Nat) (bs : List Byte) : List FNum × BitVec 3 :=
  if fmt = 11 then
    let l := (List.range n).map (fun i => fb4Decode ((bs.drop (12 * (i / 16))).take 12) (i % 16))
    (l.map (·.1), l.foldl (fun f x => f ||| x.2) 0#3)
  else if fmt = 12 then
    let l := (List.range ((n + 4) / 5)).map (fun i => tritDecode (bs.getD i 0#8).toNat)
    (((l.flatMap (·.1)).take n).map (fun t => ofSInt (tritInt t)), l.foldl (fun f x => f ||| x.2) 0#3)
  else
    (((elemsOf (elemBytes fmt) bs).take n).map (fun c => (elemDecode fmt c).num), 0#3)

/-- The integers of a row of s8 or trit elements, and the tstat bits that decoding raises. -/
def rowInts (fmt n : Nat) (bs : List Byte) : List Int × BitVec 3 :=
  if fmt = 12 then
    let l := (List.range ((n + 4) / 5)).map (fun i => tritDecode (bs.getD i 0#8).toNat)
    (((l.flatMap (·.1)).take n).map tritInt, l.foldl (fun f x => f ||| x.2) 0#3)
  else ((bs.take n).map (fun b => sintOf 8 b.toNat), 0#3)

/-- The sum of products. -/
def dotInt (a b : List Int) : Int := (a.zip b).foldl (fun s p => s + p.1 * p.2) 0

/-- One element of a product: its container and its flags (R53, R197). -/
def mmaElem (m : AMd) (c : W32) (a b : List FNum) : W32 × BitVec 5 :=
  let r := matAccum m.rnd a.length (f32Val c) (a.zip b)
  let d := deliverF fmtF32 m.rnd m.sat r.1
  (BitVec.ofNat 32 d.1, r.2)

/-- The accumulator tile after a product of operand tiles of K elements a row. -/
def mmaTile (m : AMd) (fa fb K row : Nat) (c : List W32) (a b : List Byte) : List W32 × Flags2 :=
  let cut := fun (bs : List Byte) (i : Nat) => (bs.drop (row * i)).take row
  if isF32 m.ty then
    let ra := (List.range 32).map (fun i => rowElems fa K (cut a i))
    let rb := (List.range 32).map (fun i => rowElems fb K (cut b i))
    let l := (List.range 1024).map (fun p =>
      mmaElem m (c.getD p 0#32) (ra.getD (p / 32) ([], 0#3)).1 (rb.getD (p % 32) ([], 0#3)).1)
    (l.map (·.1), l.foldl (fun f x => f ||| x.2) 0#5, (ra ++ rb).foldl (fun f x => f ||| x.2) 0#3)
  else
    let ra := (List.range 32).map (fun i => (rowInts fa K (cut a i)).1)
    let rb := (List.range 32).map (fun i => (rowInts fb K (cut b i)).1)
    ((List.range 1024).map (fun p =>
      BitVec.ofNat 32 (wrapOrClamp 32 m.sat ((c.getD p 0#32).toInt + dotInt (ra.getD (p / 32) []) (rb.getD (p % 32) [])))), 0#5, 0#3)

/-- The scratchpad-window address of a ring's head tile. -/
def Ring.headVa (r : Ring) : W64 := BitVec.ofNat 64 (Config.scratchBase + r.tileAt r.head.toNat)
/-- The head tile is marked failed (R165). -/
def Ring.headBad (r : Ring) : Bool := r.failed.contains r.head.toNat

/-- MMA and MMAZ: they wait for their rings and the unit, and the formats are those at issue (R194, R196). With the head tiles of both
rings failed, or both in error, tval has the address of ring ka's, which R197 leaves open (DESIGN CHOICE; log 105). -/
def mmaWord (zero : Bool) (acc : Fin 8) (ka kb : Fin 16) (keepA keepB : Bool) (m : AMd) (s : State) : Out :=
  let ra := s.strand.ring ka.val
  let rb := s.strand.ring kb.val
  let fa := s.strand.ringFmt ra
  let fb := s.strand.ringFmt rb
  if ka = kb then illegalOut s
  else if !(unitReady s) || ra.held == 0 || rb.held == 0 then stallOut s
  else match mmaPair fa fb with
  | none => illegalOut s
  | some (K, row, ty) =>
    if ty ≠ m.ty ∨ ra.tileBytes < 32 * row ∨ rb.tileBytes < 32 * row then illegalOut s
    else
      matrixWord s (fun s1 =>
        if ra.headBad then trapOut .pageLoad ra.headVa s
        else if rb.headBad then trapOut .pageLoad rb.headVa s
        else match (s1.core.sickAt (ra.tileAt ra.head.toNat) (32 * row)).or (s1.core.sickAt (rb.tileAt rb.head.toNat) (32 * row)) with
        | some va => trapOut .eccUncorr va s
        | none =>
          let a := s1.core.scratch.read (ra.tileAt ra.head.toNat) (32 * row)
          let b := s1.core.scratch.read (rb.tileAt rb.head.toNat) (32 * row)
          let r := mmaTile m fa fb K row (if zero then zeroTile else s1.core.tile acc.val) a b
          let pops := (if keepA then [] else [ka]) ++ (if keepB then [] else [kb])
          retire s (feed 32 pops (s.cyc + 32) none (putFlags r.2.1 r.2.2 48 (setLive acc true (setTile acc.val r.1 s1)))))

def execMma (acc : Fin 8) (ka kb : Fin 16) (keepA keepB : Bool) (m : AMd) (s : State) : Out := mmaWord false acc ka kb keepA keepB m s
def execMmaz (acc : Fin 8) (ka kb : Fin 16) (keepA keepB : Bool) (m : AMd) (s : State) : Out := mmaWord true acc ka kb keepA keepB m s

-- ## MZERO, MLDACC, MSTACC (R198, R199)

/-- tval of QUEUE for a full wait queue (R194). -/
def cmuFull : W64 := 0x100#64

def execMzero (acc : Fin 8) (s : State) : Out :=
  matrixWord s (fun s1 =>
    if 4 ≤ s1.core.cmuq.length then trapOut .queue cmuFull s
    else retire s (setLive acc true (enqueue (.zero acc) s1)))

/-- The accumulator type as a format code. -/
def accCode : AccTy → Nat
  | .f32 => 1
  | .s32 => 6

/-- A tile of elements of a format converted to the accumulator type (R198). -/
def loadTile (m : AMd) (fmt : Nat) (bs : List Byte) : List W32 × Flags2 :=
  if fmt = 0 then ((elemsOf 4 bs).map (fun c => BitVec.ofNat 32 c), 0#5, 0#3)
  else
    let l := (elemsOf (elemBytes fmt) bs).map (fun c => elemEncode (accCode m.ty) m.rnd m.sat (elemDecode fmt c))
    (l.map (fun r => BitVec.ofNat 32 r.1), l.foldl (fun f r => orFlags f r.2) (0#5, 0#3))

def execMldacc (acc : Fin 8) (k : Fin 16) (keep : Bool) (m : AMd) (s : State) : Out :=
  let r := s.strand.ring k.val
  let fmt := s.strand.ringFmt r
  let n := 1024 * (if fmt = 0 then 4 else elemBytes fmt)
  if !(unitReady s) || r.held == 0 then stallOut s
  else if 11 ≤ fmt ∨ r.tileBytes < n then illegalOut s
  else
    matrixWord s (fun s1 =>
      if r.headBad then trapOut .pageLoad r.headVa s
      else match s1.core.sickAt (r.tileAt r.head.toNat) n with
      | some va => trapOut .eccUncorr va s
      | none =>
        let o := loadTile m fmt (s1.core.scratch.read (r.tileAt r.head.toNat) n)
        retire s (feed 64 (if keep then [] else [k]) (s.cyc + 64) none
          (putFlags o.2.1 o.2.2 80 (setLive acc true (setTile acc.val o.1 s1)))))

/-- A tile read as the accumulator type and converted to a format (R199). -/
def storeTile (m : AMd) (fmt : Nat) (tile : List W32) : List Byte × Flags2 :=
  if fmt = 0 then (tile.flatMap (fun c => leBytes 4 c.toNat), 0#5, 0#3)
  else
    let vals := tile.map (fun c => elemDecode (accCode m.ty) c.toNat)
    if fmt = 11 then
      (List.range 64).foldl (fun acc i =>
        let e := fb4Encode (((vals.drop (16 * i)).take 16).map EVal.num) m.rnd
        (acc.1 ++ e.1, orFlags acc.2 (e.2, 0#3))) ([], 0#5, 0#3)
    else packElems (elemBytes fmt) (vals.map (elemEncode fmt m.rnd m.sat))

def execMstacc (k : Fin 16) (acc : Fin 8) (free : Bool) (m : AMd) (s : State) : Out :=
  let r := s.strand.ring k.val
  let fmt := s.strand.ringFmt r
  let n := if fmt = 11 then 768 else 1024 * (if fmt = 0 then 4 else elemBytes fmt)
  if !(unitReady s) || decide (r.count ≤ r.taken) then stallOut s
  else if fmt = 12 ∨ r.tileBytes < n then illegalOut s
  else
    matrixWord s (fun s1 =>
      let o := storeTile m fmt (s1.core.tile acc.val)
      let s2 := if free then setLive acc false (setTile acc.val zeroTile s1) else s1
      let s3 := { s2 with strand := s2.strand.setRing k.val { r with resv := r.resv + 1#32 } }
      retire s (feed 64 [] (s.cyc + 96) (some (k.val, r.resv.toNat, o.1)) (putFlags o.2.1 o.2.2 96 s3)))

-- ## MDADD and MWAIT (R201, R202)

/-- A peer word that R201 admits. -/
def peerOk (v : W64) : Bool :=
  v.extractLsb' 42 22 == 0#22 && v.extractLsb' 25 7 == 0#7 && v.extractLsb' 3 13 == 0#13 &&
  decide (peerPkg v ≤ 992) && decide (peerCore v ≤ 351)

def execMdadd (acc : Fin 8) (peer : SOp) (free : Bool) (m : AMd) (s : State) : Out :=
  gatedPre (accCause s) (sPops peer) [] s
    (let r := takeS peer s
     let v := r.1
     if !(peerOk v) then illegalOut s
     else
       matrixWordAt s r.2 (fun s1 =>
         if 4 ≤ s1.core.cmuq.length then trapOut .queue cmuFull s
         else retire s (enqueue (.dadd acc (peerPkg v) (peerCore v) ⟨v.toNat % 8, Nat.mod_lt _ (by decide)⟩ free m) s1)))

/-- One element of a drain-add (R201): RoundToFP32 of the peer's value and the sent one, or their s32 sum. -/
def daddElem (m : AMd) (p c : W32) : W32 :=
  if isF32 m.ty then BitVec.ofNat 32 (deliverOp fmtF32 m.rnd m.sat (addX m.rnd (f32Val p) (f32Val c))).1
  else BitVec.ofNat 32 (wrapOrClamp 32 m.sat (p.toInt + c.toInt))

def daddTile (m : AMd) (peer sent : List W32) : List W32 := (peer.zip sent).map (fun x => daddElem m x.1 x.2)

/-- A count of 16 bits raised by one (R202). -/
def bump (l : List Nat) (n : Nat) : List Nat := l.modify n (fun x => (x + 1) % 65536)

/-- The strand of a context that last held the file of a core and whose spilled image has the tile live (log 15). -/
def State.spilledOn (s : State) (core : Nat) (ctx : BitVec 16) (tile : Nat) : Option Strand :=
  s.allStrands.find? (fun t => t.h != 0 && t.core == core && t.ctx == ctx && t.spill.any (fun p => p.1.getLsbD tile))

/-- A tile reaches its peer on this package (R201): whether it is applied, and the state after. -/
def State.daddApply (s : State) (core tile : Nat) (ctx : BitVec 16) (m : AMd) (data : List W32) : Bool × State :=
  match s.findCore core with
  | none => (false, s)
  | some c =>
    if c.accownValid && c.accownCtx == ctx && c.acclive.getLsbD tile then
      (true, s.updCore core (fun c => { c with tiles := c.tiles.set tile (daddTile m (c.tile tile) data), arrivals := bump c.arrivals tile }))
    else
      match s.spilledOn core ctx tile with
      | none => (false, s)
      | some t =>
        let old := s.savedTile t tile ((t.spill.bind (fun p => tget p.2 tile)).getD zeroTile)
        let sum := daddTile m old.1 data
        (true, (old.2.saveTile t tile sum).updStrand t.h (fun t => { t with
          arrivals := bump t.arrivals tile
          spill := t.spill.map (fun p => (p.1, tset p.2 tile sum)) }))

/-- The sender learns that a drain-add has been applied or refused (R202): the refusal count is the holder's. -/
def State.daddDone (s : State) (d : DAdd) (applied : Bool) : State :=
  let s1 := (s.updPkg (fun p => { p with dadds := p.dadds.filter (fun x => x.n != d.n) })).updStrand d.h (fun t => t.matGone d.id)
  if applied then s1
  else if (s1.findCore d.core).any (fun c => c.accownValid && c.accownHold == d.h) then
    s1.updCore d.core (fun c => { c with refusals := c.refusals + 1 })
  else s1.updStrand d.h (fun t => { t with refusals := t.refusals + 1 })

/-- A tile of this package reaches a peer on it, or is refused here for its package (R21). One for another package waits
for that package's answer. -/
def execMdaddArrival (n : Nat) (s : State) : Out :=
  .next (match s.pkg.dadds[n]? with
    | none => s
    | some d =>
      if d.pkg = s.pkg.num then
        let r := s.daddApply d.peer d.tile.val d.ctx d.m d.data
        r.2.daddDone d r.1
      else if s.pkg.allows d.pkg then s else s.daddDone d false)

/-- MWAIT (R202). -/
def execMwait (d : SOp) (sel : MSel) (s : State) : Out :=
  match sel with
  | .all =>
    matrixWord s (fun s1 =>
      if !s.strand.matIds.isEmpty then stallOut s
      else
        gated [] (sPushes d) s
          (retire s (putS d 1 (BitVec.ofNat 64 s1.core.refusals) { s1 with core := { s1.core with refusals := 0 } })))
  | .tile n cnt =>
    gatedPre (accCause s) (sPops cnt) [] s
      (let r := takeS cnt s
       if 65535 < r.1.toNat then illegalOut s
       else
         matrixWordAt s r.2 (fun s1 =>
           let have_ := s1.core.arrivals.getD n.val 0
           if have_ < r.1.toNat then stallOut s
           else
             gated (sPops cnt) (sPushes d) s
               (retire s (putS d 1 (BitVec.ofNat 64 have_)
                 { s1 with core := { s1.core with arrivals := s1.core.arrivals.set n.val (have_ - r.1.toNat) } }))))

end Sys2Proof.Machine
end

