-- ==== Sys2Proof/Machine/Issue.lean ====
section
/-! DEFINITION. What the next step is: fetching and checking the next word of the strand in the foreground (spec/03_core.md
R54, R61, R62, R65 to R67, R73, spec/11_kernel.md R249), and the turns of the schedule (log 1). -/

namespace Sys2Proof.Machine

/-- The vector-class instructions, opcodes 0x40 to 0x9F (R60). -/
def vectorClass (w : W64) : Bool := decide (0x40#8 ≤ opOf w) && decide (opOf w < 0xA0#8)

/-- The profile of an opcode (R64): 0 gb1, 1 gv1, 2 gi1, 3 gm1. -/
def profileOf (w : W64) : Nat :=
  let op := (opOf w).toNat
  if (0x40 ≤ op ∧ op ≤ 0x5E) ∨ (0x80 ≤ op ∧ op ≤ 0x87) then 1
  else if (0x5F ≤ op ∧ op ≤ 0x64) ∨ op = 0x88 ∨ (0x90 ≤ op ∧ op ≤ 0x94) ∨ 0xF0 ≤ op then 2
  else if 0xD0 ≤ op ∧ op ≤ 0xD8 then 3
  else 0

/-- The code object of the strand declares the opcode's profile (R62, R244); gb1 always. -/
def declared (t : Strand) (w : W64) : Bool :=
  match profileOf w with
  | 0 => true
  | 1 => t.gv
  | 2 => t.gi
  | _ => t.gm

/-- The elastic words of R66, whose start the power controller may delay (R21): the words of queues among them. -/
def elastic (i : Instr) : Bool :=
  queueWord i || match i with
  | .go | .evwait _ _ | .barwait _ _ _ _ | .cwait _ _ _ _ | .drain _ _ | .cpy _ _ _ _ | .cpyRing _ _ _ _ | .chain _ _
  | .mma _ _ _ _ _ _ | .mmaz _ _ _ _ _ _ | .mldacc _ _ _ _ | .mstacc _ _ _ _ | .mwait _ _ | .qpop _ _ | .qpush _
  | .launch _ _ _ => true
  | _ => false

/-- The instruction-cache line that holds an address of the running strand (R249). -/
def State.lineAt (s : State) (pc : PC) : Option ILine :=
  s.core.icache.find? (fun l => l.slot == s.strand.slot && l.line == pc.toNat / 256)

/-- The word at an address of a line. -/
def ILine.word (l : ILine) (pc : PC) : W64 := l.words.getD (pc.toNat % 256 / 8) 0#64

/-- The cycle in which a stream's next word is looked at (R65): none for a stream that issues nothing. -/
def dueOf (s : State) (st : Stream) : Option Nat :=
  let q := s.strand.seq st
  if q.ended || q.trapped then none
  else
    let gap := match s.lineAt q.pc with
      | some l => (hdrOf (l.word q.pc)).gap.toNat
      | none => 0
    let d := q.last + gap + 1
    some (max s.core.cyc (max d (q.tried + 1)))

/-- The stream whose word comes next, and its cycle: the earlier of the two, A before X in one cycle. -/
def nextStream (s : State) : Option (Stream × Nat) :=
  match dueOf s .a, dueOf s .x with
  | none, none => none
  | some a, none => some (.a, a)
  | none, some x => some (.x, x)
  | some a, some x => if x < a then some (.x, x) else some (.a, a)

/-- What a step does: a meaning runs at a state, it runs and reads an operand code with an uncorrectable error, it runs while a
read of a granule of tier 2 fails that loses no data (`was` is the package before), or the answer is known already. -/
inductive Next where
  | run (i : Instr) (s : State)
  | err (i : Instr) (s : State) (v : W64)
  | late (i : Instr) (s : State) (was : Pkg) (pa : Nat)
  | out (o : Out)

/-- A core's clock moved on: the results whose window has ended land (R68), and the matrix unit goes on (R194). -/
def advance (c : Nat) (s : State) : State :=
  cmuAdvance c { s with core := { s.core with cyc := c }, strand := settle c s.strand }

/-- QPOP and EVWAIT: a stream that stalls there is at a pre-emption point (R291). -/
def stallsAtPoint : Instr → Bool
  | .qpop _ _ | .evwait _ _ => true
  | _ => false

/-- The checks of R62 and R67 on a word in their order, then its guard (R61). The guard of an EVWAIT has been read when its waiter
was sent: the word that waits is the one that issues (DEDUCED from R220: "The word then issues"; log 99). -/
def checkWord (w : W64) (s : State) : Next :=
  match decode w with
  | .error _ => .out (illegalOut s)
  | .ok (h, i) =>
    if !(i.legal s.stream) then .out (illegalOut s)
    else if !s.seq.started && i != .go then .out (illegalOut s)
    else if !(declared s.strand w) then .out (trapOut .profile w s)
    else if !(vectorClass w) && !(guardScalar h s.seq) && !s.seq.waiting && !s.seq.woken then .out (retireFalse s)
    else if elastic i && decide (s.cyc < s.core.throttle) then .out (if stallsAtPoint i then pointStall s else stallOut s)
    else .run i s

/-- The word of a stream fetched in a cycle: a line that is absent or poisoned stalls the stream until it
has been fetched again (R65, R250). -/
def fetchAt (st : Stream) (c : Nat) (s : State) : Next :=
  let s1 := { advance c s with stream := st }
  match s1.lineAt s1.seq.pc with
  | none => .out (lineStall s1)
  | some l =>
    if l.poisoned then .out (lineStall s1)
    else checkWord (l.word s1.seq.pc) { s1 with ir := l.word s1.seq.pc }

/-- The strand in the foreground may issue: it runs on a core whose die is out of reset, or it is stopping and the other
stream's word falls into the same cycle (R70, R72, R331). -/
def mayIssue (s : State) (c : Nat) : Bool :=
  s.strand.h != 0 && s.core.runs == s.strand.h && (s.pkg.dies.getD (dieOf s.core.num) Die.start).up &&
    (s.strand.phase == .running || (s.strand.phase == .stopping && decide (c ≤ s.core.cyc)))

/-- An uncorrectable error in a register, queue or tile that the next word of a stream reads (R26), named by its operand code;
a code that the word does not read is no error of it. -/
def issueError (st : Stream) (v : W64) (s : State) : Next :=
  match dueOf s st with
  | none => .out (.next s)
  | some c =>
    if !(mayIssue s c) then .out (.next s)
    else match fetchAt st c s with
      | .run i t => if (readCodes i (vectorClass t.ir)).contains v then .err i t v else .out (.next s)
      | .err _ _ _ | .late _ _ _ _ => .out (.next s)
      | .out o => .out o

/-- The answer of a word that reads an uncorrectable error at a state: ECC_UNCORR, unless it waits or a cause of R73 comes
first. -/
def eccOver (v : W64) (t : State) (o : Out) : Out :=
  match o with
  | .next u =>
    let q := u.strand.seq t.stream
    if q.trapped then (if q.tcause.rank ≤ Cause.eccUncorr.rank then o else trapOut .eccUncorr v t)
    else if q.last = t.seq.last then o else trapOut .eccUncorr v t
  | .fault f => .fault f
  | .refused r => .refused r

/-- The next word of the strand in the foreground. -/
def issueNext (s : State) : Next :=
  match nextStream s with
  | none => .out (.next s)
  | some (st, c) => if mayIssue s c then fetchAt st c s else .out (.next s)

end Sys2Proof.Machine
end

