-- ==== Sys2Proof/Machine/Group.lean ====
section
/-! DEFINITION. CANCEL, GCNT, QPUSH, QPOP, QCLOSE and LAUNCH (spec/13_group.md R263 to R275, spec/12_queue.md R257,
R258). -/

namespace Sys2Proof.Machine

-- ## CANCEL and GCNT (R267, R268)

def execCancel (d tgt : SOp) (level : Fin 5) (s : State) : Out :=
  askWord d [tgt] (fun v => let t := v.getD 0 0#64; if tgtOk level t then some (fun res => .cancel t level res) else none) s

def execGcnt (d tgt : SOp) (level : Fin 5) (s : State) : Out :=
  askWord d [tgt] (fun v => let t := v.getD 0 0#64; if tgtOk level t then some (fun res => .gcnt t level res) else none) s

-- ## Stage queues

/-- The stage of the strand in the foreground. -/
def State.stage (s : State) : Nat := s.strand.unit.toNat
def State.stageVal (s : State) : W64 := s.strand.unit.zeroExtend 64
/-- The launch of the strand in the foreground. -/
def State.launch (s : State) : Option Launch := s.launchAt s.strand.slot s.strand.launch.toNat

/-- QPUSH (R271). -/
def execQpush (val : SOp) (s : State) : Out :=
  gated (sPops val) [] s
    (let k := s.stage
     let bad := trapOut .queue s.stageVal s
     if s.strand.lastStage then bad
     else
       match s.launch with
       | none => bad
       | some l =>
         if l.closed k || decide (16 ≤ s.strand.queuePushed.length) then bad
         else if s.qdepth s.strand.slot l.id k ≤ (l.queue k).length + s.strand.queuePushed.length then stallOut s
         else
           let r := takeS val s
           let t := r.2.strand
           retire s { r.2 with
             strand := { t with queuePushed := t.queuePushed ++ [{ val := r.1, from_ := t.h, upto := t.nid }] } })

/-- QCLOSE (R273). -/
def execQclose (s : State) : Out :=
  if s.strand.lastStage then trapOut .queue s.stageVal s
  else
    let slot := s.strand.slot
    let id := s.strand.launch.toNat
    let k := s.stage
    if s.launch.any (fun l => l.closed k) then retire s s
    else
    let s1 := s.commit s.strand.h true
    let s2 := s1.updLaunch slot id (fun l => { l with sqs := l.sqs.modify k (fun q => { q with closed := true }) })
    retire s (s2.settleLaunch slot id)

/-- The release of a committed record has been performed, as one of EVSIG would be (R219): no earlier ls access of the strand that
pushed it is left, and no earlier fence or PFENCE to ls (R271). -/
def released (s : State) (r : SQRec) : Bool :=
  match s.findStrand r.from_ with
  | none => true
  | some t => (t.acc ++ t.sidelog).all (fun a => decide (r.upto ≤ a.id) || !((roleOf a.op).ls || behindFence s a.op (.evsig 0 0)))

/-- What the input of the strand in the foreground offers. -/
inductive Input where
  | record (v : W64) (counted : Bool) (s : State)   -- with the state after it has been taken
  | empty                          -- closed and empty
  | wait

/-- The next record of the strand's input (R263, R265); first the record it held when its die was reset (R277). -/
def nextInput (s : State) : Input :=
  match s.strand.replay, s.launch with
  | some v, _ => .record v.1 v.2 { s with strand := { s.strand with replay := none } }
  | none, none => .empty
  | none, some l =>
    let slot := s.strand.slot
    let k := s.stage
    if k = 0 then
      if inputDone s l slot 0 then .empty
      else .record (BitVec.ofNat 64 (l.inbase + l.handed * l.insize)) false (s.updLaunch slot l.id (fun l => { l with handed := l.handed + 1 }))
    else
      match (l.queue (k - 1)).head? with
      | some r =>
        if released s r then
          .record r.val false (s.updLaunch slot l.id (fun l => { l with sqs := l.sqs.modify (k - 1) (fun q => { q with recs := q.recs.drop 1 }) }))
        else .wait
      | none => if inputDone s l slot k then .empty else .wait

/-- Strands that a stage holds: placed, not ended in both streams (R268), and not withdrawn already, for one of those will end
(DEDUCED: a unit that is not complete holds a strand, R274; log 79). -/
def State.heldStrands (s : State) (slot id stage : Nat) : List Strand :=
  (s.unitStrands slot id stage).filter (fun t => !(t.a.ended && t.x.ended) && !t.withdrawn)

/-- The strand is withdrawn at its QPOP (R275). -/
def withdraws (s : State) : Bool :=
  match s.launch with
  | none => false
  | some l =>
    let k := s.stage
    s.strand.replay.isNone && decide (2 ≤ (s.heldStrands s.strand.slot l.id k).length) &&
      (occupancy l k == 0 || (!s.strand.lastStage && decide (s.qdepth s.strand.slot l.id k ≤ (l.queue k).length)))

/-- The commit of the strand fits its queue (R264). -/
def commitFits (s : State) : Bool :=
  s.strand.queuePushed.isEmpty ||
  match s.launch with
  | none => true
  | some l => decide ((l.queue s.stage).length + s.strand.queuePushed.length ≤ s.qdepth s.strand.slot l.id s.stage)

/-- QPOP's two results: the record and its predicate. -/
def qpopOut (d : SOp) (pd : Fin 8) (v : W64) (got : Bool) (s0 s : State) : Out :=
  let s1 := putP pd (if got then BitVec.allOnes 512 else 0#512) 1 (putS d 1 v s)
  retireReset s0 (if s.strand.preempt then s1.preemptNow else s1)

/-- QPOP (R272). -/
def execQpop (d : SOp) (pd : Fin 8) (s : State) : Out :=
  gatedPoint [] (sPushes d) s
    (if s.strand.cancelled then .next (endCancelled s)
     else if !(commitFits s) then pointStall s
     else
       let s1 := s.commit s.strand.h false
       let report := fun (t : State) => qpopOut d pd 0#64 false s t
       if s1.strand.withdrawn || s1.strand.reported then report s1
       else if withdraws s1 then report { s1 with strand := { s1.strand with withdrawn := true } }
       else
         match nextInput s1 with
         | .empty => report { s1 with strand := { s1.strand with reported := true } }
         | .wait => pointStall s1
         | .record v counted s2 =>
           let s3 := { s2 with strand := { s2.strand with record := some (v, counted) } }
           qpopOut d pd v true s (addAcc (.fence 1 2 ⟨false, true, true⟩) s3))

-- ## LAUNCH (R257, R258)

/-- Credits that the core in the foreground holds of the strand's context. -/
def Core.credit (c : Core) (slot : Nat) : Nat := (tget c.credits slot).getD 0

def execLaunch (d rec : SOp) (q : Fin 16) (s : State) : Out :=
  let out := fun (a : W64) => misplaced a 64 64 false || inLocal a.toNat
  gatedPre ((known (knowns [rec] s) 0).elim [] (fun a => causeIf (out a) .align a)) (sPops rec) (sPushes d) s
    (let slot := s.strand.slot
     if s.core.credit slot = 0 then
       stallOut (s.updCtx slot (fun c =>
         if c.creditWait.contains s.core.num then c else { c with creditWait := c.creditWait ++ [s.core.num] }))
     else
       let r := takeS rec s
       if out r.1 then trapOut .align r.1 s
       else
         let n := r.2.core.credit slot - 1
         let s1 := { r.2 with core := { r.2.core with credits := if n = 0 then tdel r.2.core.credits slot else tset r.2.core.credits slot n } }
         retire s (addAcc (.launch r.1.toNat q s1.strand.nid) (reserveS d s1)))

end Sys2Proof.Machine
end

