-- ==== Sys2Proof/Machine/Special.lean ====
section
/-! DEFINITION. The special functions (spec/05_vector.md R127, R128, spec/17_request.md R370). A transcendental value is
computed in fixed point to 320 bits with a sticky bit below, far beyond what rounding to 24 bits needs, so that the
rounded result is the correctly rounded one (log 8). -/

namespace Sys2Proof.Machine

/-- Fraction bits of the fixed-point computations. -/
def fxP : Nat := 320
def fxOne : Nat := 2 ^ fxP

/-- A value q × 2^e, or a little above it when something was cut off. -/
def stick (neg : Bool) (q : Nat) (cut : Bool) (e : Int) : FNum := .fin neg (2 * q + (if cut then 1 else 0)) (e - 1)

/-- z + z³ / 3 + z⁵ / 5 + … in fixed point: `t` is z^(2k−1), `zz` z². -/
def atanhSum (zz t k : Nat) : Nat → Nat
  | 0 => 0
  | f + 1 => t / k + atanhSum zz (t * zz / fxOne) (k + 2) f

/-- ln 2 = 2 atanh(1/3). -/
def ln2 : Nat := 2 * atanhSum (fxOne / 9) (fxOne / 3) 1 110

/-- 1 + r + r² / 2 + … in fixed point from the term t = r^(n−1) / (n−1)!. -/
def expSum (r t n : Nat) : Nat → Nat
  | 0 => 0
  | f + 1 => t + expSum r (t * r / fxOne / n) (n + 1) f

/-- e^x for a fixed-point x: a mantissa in fixed point and a power of two. -/
def expFix (x : Int) : Nat × Int :=
  let k := x.fdiv (ln2 : Int)
  (expSum (x - k * (ln2 : Int)).toNat fxOne 1 90, k)

/-- A finite value with magnitude below 2^10 in fixed point. -/
def toFix (neg : Bool) (m : Nat) (e : Int) : Int :=
  let v : Int := if 0 ≤ e + (fxP : Int) then ((m * 2 ^ (e + (fxP : Int)).toNat : Nat) : Int) else ((m / 2 ^ (-(e + (fxP : Int))).toNat : Nat) : Int)
  if neg then -v else v

/-- The magnitude m × 2^e is at least 2^k. -/
def atLeast (m : Nat) (e k : Int) : Bool := decide (k < e + (bitLen m : Int))

/-- e^x of a finite nonzero value. -/
def expOf (neg : Bool) (m : Nat) (e : Int) : FNum :=
  if atLeast m e 8 then .fin false 3 (if neg then -600 else 600)
  else let r := expFix (toFix neg m e); stick false r.1 true (r.2 - (fxP : Int))

/-- ln x of a finite positive value other than 1: the significand is taken in 3/4 to 3/2. -/
def logOf (m : Nat) (e : Int) : FNum :=
  let l := bitLen m
  let up := decide (4 * m < 3 * 2 ^ l)
  let k : Int := e + (l : Int) - (if up then 1 else 0)
  let y := if up then m * 2 ^ (fxP + 1) / 2 ^ l else m * 2 ^ fxP / 2 ^ l
  let d := if y < fxOne then fxOne - y else y - fxOne
  let z := d * fxOne / (y + fxOne)
  let a : Int := 2 * (atanhSum (z * z / fxOne) z 1 110 : Nat)
  let v : Int := (if y < fxOne then -a else a) + k * (ln2 : Int)
  stick (decide (v < 0)) v.natAbs true (-(fxP : Int))

/-- m1 × 2^e1 / (m2 × 2^e2). -/
def divOf (neg : Bool) (m1 : Nat) (e1 : Int) (m2 : Nat) (e2 : Int) : FNum :=
  let s := 64 + bitLen m2
  stick neg (m1 * 2 ^ s / m2) (m1 * 2 ^ s % m2 != 0) (e1 - e2 - (s : Int))

/-- The integer square root, bit by bit from bit k − 1 down. -/
def isqrtFrom (n r : Nat) : Nat → Nat
  | 0 => r
  | k + 1 => if (r + 2 ^ k) * (r + 2 ^ k) ≤ n then isqrtFrom n (r + 2 ^ k) k else isqrtFrom n r k
def isqrt (n : Nat) : Nat := isqrtFrom n 0 (bitLen n / 2 + 1)

/-- √(m × 2^e). -/
def sqrtOf (m : Nat) (e : Int) : FNum :=
  let s : Nat := 128 + (if e % 2 = 0 then 0 else 1)
  let n := m * 2 ^ s
  let q := isqrt n
  stick false q (q * q != n) ((e - (s : Int)) / 2)

/-- 1 / √(m × 2^e). -/
def rsqrtOf (m : Nat) (e : Int) : FNum :=
  let s : Nat := 2 * bitLen m + 128 + (if e % 2 = 0 then 0 else 1)
  let q := isqrt (2 ^ s / m)
  stick false q (q * q * m != 2 ^ s) ((-e - (s : Int)) / 2)

/-- tanh x of a finite nonzero value. -/
def tanhOf (neg : Bool) (m : Nat) (e : Int) : FNum :=
  if atLeast m e 7 then .fin neg (2 ^ 256 - 1) (-256)
  else if !(atLeast m e (-40)) then
    -- x − x³ / 3 + 2 x⁵ / 15
    let y := (toFix false (m * m) (2 * e)).toNat
    let t := fxOne - y / 3 + 2 * (y * y / fxOne) / 15
    .fin neg (m * (if t = fxOne then fxOne - 1 else t)) (e - (fxP : Int))
  else
    let r := expFix (2 * toFix false m e)
    let g := r.1 * 2 ^ r.2.toNat
    stick neg ((g - fxOne) * fxOne / (g + fxOne)) true (-(fxP : Int))

/-- 1 / (1 + e^−x) of a finite nonzero value. -/
def sigOf (neg : Bool) (m : Nat) (e : Int) : FNum :=
  if atLeast m e 8 then (if neg then .fin false 3 (-600) else .fin false (2 ^ 256 - 1) (-256))
  else
    let r := expFix (toFix false m e)
    let g := r.1 * 2 ^ r.2.toNat
    stick false ((if neg then fxOne else g) * 2 ^ 1000 / (fxOne + g)) true (-1000)

def posInf : FNum := .inf false
def oneX : FNum := .fin false 1 0

/-- A special function's exact value with the invalid and divide flags (R128). -/
abbrev Sf := FNum × BitVec 5

def nanOr (x : FNum) (r : Sf) : Sf := if x.isNaN then (quiet x, flagIf x.isSNaN fInvalid) else r

def expX (x : FNum) : Sf := nanOr x (match x with
  | .inf b => (if b then .fin false 0 0 else posInf, 0#5)
  | .fin b m e => (if m = 0 then oneX else expOf b m e, 0#5)
  | .nan b f => (.nan b f, 0#5))

def logX (x : FNum) : Sf := nanOr x (match x with
  | .inf b => if b then (canonNaN, fInvalid) else (posInf, 0#5)
  | .fin b m e =>
    if m = 0 then (.inf true, fDivide)
    else if b then (canonNaN, fInvalid)
    else if eqX (.fin false m e) oneX then (.fin false 0 0, 0#5)
    else (logOf m e, 0#5)
  | .nan b f => (.nan b f, 0#5))

def divX (x y : FNum) : Sf :=
  match nanOf [x, y] with
  | some n => (n, flagIf (anySNaN [x, y]) fInvalid)
  | none =>
    match x, y with
    | .inf _, .inf _ => (canonNaN, fInvalid)
    | .inf a, .fin b _ _ => (.inf (a != b), 0#5)
    | .fin a _ _, .inf b => (.fin (a != b) 0 0, 0#5)
    | .fin a m e, .fin b k f =>
      if k = 0 then (if m = 0 then (canonNaN, fInvalid) else (.inf (a != b), fDivide))
      else if m = 0 then (.fin (a != b) 0 0, 0#5)
      else (divOf (a != b) m e k f, 0#5)
    | _, _ => (canonNaN, 0#5)

def rcpX (x : FNum) : Sf := divX oneX x

def rsqX (x : FNum) : Sf := nanOr x (match x with
  | .inf b => if b then (canonNaN, fInvalid) else (.fin false 0 0, 0#5)
  | .fin b m e =>
    if m = 0 then (.inf b, fDivide) else if b then (canonNaN, fInvalid) else (rsqrtOf m e, 0#5)
  | .nan b f => (.nan b f, 0#5))

def sqrtX (x : FNum) : Sf := nanOr x (match x with
  | .inf b => if b then (canonNaN, fInvalid) else (posInf, 0#5)
  | .fin b m e =>
    if m = 0 then (.fin b 0 0, 0#5) else if b then (canonNaN, fInvalid) else (sqrtOf m e, 0#5)
  | .nan b f => (.nan b f, 0#5))

def tanhX (x : FNum) : Sf := nanOr x (match x with
  | .inf b => (.fin b 1 0, 0#5)
  | .fin b m e => (if m = 0 then .fin b 0 0 else tanhOf b m e, 0#5)
  | .nan b f => (.nan b f, 0#5))

def sigX (x : FNum) : Sf := nanOr x (match x with
  | .inf b => (if b then .fin false 0 0 else oneX, 0#5)
  | .fin b m e => (if m = 0 then .fin false 1 (-1) else sigOf b m e, 0#5)
  | .nan b f => (.nan b f, 0#5))

/-- A special function delivered in a format: the code and the flags. -/
def deliverSf (F : Fmt) (rnd : Rnd) (sat : Bool) (r : Sf) : Nat × BitVec 5 :=
  let d := deliverF F rnd sat r.1
  (d.1, d.2 ||| r.2)

/-- FExpQ (R370) of two FP32 codes: the E4M3 code and the flags. -/
def expQ (sc mx : Nat) : Nat × BitVec 5 :=
  if decodeF fmtF32 sc = .inf true then (0, 0#5)
  else
    let x := deliverOp fmtF32 .rn false (addX .rn (decodeF fmtF32 sc) (subNeg (decodeF fmtF32 mx)))
    let xv := decodeF fmtF32 x.1
    if xv.isNaN then ((deliverF fmtE4M3 .rn false xv).1, x.2)
    else
      let e := deliverSf fmtF32 .rn false (expX xv)
      let r := deliverF fmtE4M3 .rn true (scaleX (decodeF fmtF32 e.1) (-8))
      (r.1, x.2 ||| e.2 ||| r.2)
where
  subNeg : FNum → FNum := negX

end Sys2Proof.Machine
end

