-- ==== Sys2Proof/Machine/Request.lean ====
section
/-! DEFINITION. The request sequencer, the Graft engine, KV compaction and beams (spec/17_request.md R345 to R375). -/

namespace Sys2Proof.Machine

-- ## Status words and waits (R359, R361)

/-- An operation answers now. -/
def answerNow (ret : Option (Fin 4 × Nat)) (w : W64) (s : State) : Perf :=
  .done (match ret with
    | some (_, id) => s.landWord s.strand.h id w
    | none => s)

/-- An operation that was accepted: it stays in the pipeline until its writes have been performed (R359). -/
def accepted (a : Acc) (obj : Nat) (ws : List EngWrite) (s : State) : Perf := .stay ((markSent a.id s).engDo obj s.strand.slot ws)

/-- An engine operation whose access did not go through: it waits for firmware, for another package or for a page that is being
rebuilt (R391), or it fails with code 5 and ends its request, or with code 4 at a package that the lock block refuses (R348, R359,
R361). -/
def engineBad (a : Acc) (ret : Option (Fin 4 × Nat)) (req : Nat) (k : AKind) (e : Eng Unit) (s : State) : Perf :=
  let o := fun (t : State) => match a.op with
    | .engine op _ => t.opState t.strand.slot op
    | _ => (0, 0)
  match e with
  | .ok _ => .stay s
  | .fault va r => .stay (s.askFirmware s.strand.slot (.engine s.strand.h a.id) va k r)
  | .poison pa =>
    let s1 := if req ≠ 0 then s.endRequest req else s.endBound s.strand.h pa
    answerNow ret (statusWord 5 (if req ≠ 0 then s1.reqState req else (o s1).1) (o s1).2) s1
  | .remote pa => if s.pkg.allows (paPkg pa) then .stay (s.askRemote pa) else answerNow ret (statusWord 4 (o s).1 (o s).2) s

/-- An access and what follows it. -/
def onRead (r : Eng α × State) (bad : Eng Unit → State → Perf) (k : α → State → Perf) : Perf :=
  match r.1 with
  | .ok v => k v r.2
  | .fault a w => bad (.fault a w) r.2
  | .poison a => bad (.poison a) r.2
  | .remote a => bad (.remote a) r.2

/-- The object under which an operation of no request keeps its writes. -/
def opObj (h id : Nat) : Nat := 2 ^ 40 + h * 2 ^ 48 + id

/-- The object of a page's writes. -/
def pageObj (h id : Nat) (r : Option Req) : Nat := r.elim (opObj h id) (·.handle)

/-- The strand in the foreground belongs to the prefill side, or to the decode side, of a request (R347). -/
def onSide (s : State) (r : Req) (decode : Bool) : Bool :=
  let id := if decode then r.dec else r.pre
  id != 0 && s.strand.slot == r.slot && s.strand.request == r.handle && s.strand.launch.toNat == id

-- ## MIGR (R345, R346, R362)

/-- The counter of handles (R345, R378): it skips 0 when it wraps. -/
def nextNo (bits_ n : Nat) : Nat := if (n + 1) % 2 ^ bits_ = 0 then 1 else (n + 1) % 2 ^ bits_

def doAdmit (a : Acc) (ret : Option (Fin 4 × Nat)) (rec : Nat) (s : State) : Perf :=
  let slot := s.strand.slot
  onRead (s.engRead slot rec 192) (engineBad a ret 0 .read) (fun bs s =>
    let w := wordsOf bs
    let f := fun (i hi lo : Nat) => bits ((w.getD i 0#64).toNat) hi lo
    let old := s.reqByRec slot rec
    let fail := fun (code : Nat) => answerNow ret (statusWord code (old.elim 0 (·.state.code)) (old.elim 0 (·.handle))) s
    if f 1 31 16 ≠ 0 ∨ f 1 7 0 ≠ 0 ∨ f 6 63 0 ≠ 0 ∨ f 7 31 0 ≠ 0 ∨ f 1 63 48 = 0 ∨ f 2 5 0 ≠ 0 ∨ f 3 5 0 ≠ 0 ∨ f 4 5 0 ≠ 0 ∨
        f 5 5 0 ≠ 0 then fail 4
    else if old.isSome ∨ f 0 63 56 ≠ 0 then fail 1
    else if Config.requests ≤ (s.pkg.reqs.filter (fun r => r.state != .done && r.state != .cancelled)).length then fail 3
    else
      onRead (s.canPost slot rec 192) (engineBad a ret 0 .write) (fun _ s =>
        let n := s.pkg.reqNo
        let r : Req := { handle := n, slot := slot, recVa := rec, state := .admitted, owner := 0, restarts := 0, pblocks := f 1 63 48,
                         ready := f 1 47 32, pq := f 1 15 12, dq := f 1 11 8, srchead := f 2 63 0, dsthead := f 3 63 0,
                         srcfree := f 4 63 0, dstfree := f 5 63 0, pre := 0, dec := 0, ending := false, inPrefill := true }
        let s1 := s.updPkg (fun p => { p with reqs := p.reqs ++ [r], reqNo := nextNo 32 n })
        accepted a n ([.bytes (rec + 0x3C) (leBytes 4 0), .await, .state n .admitted 0 0] ++ landing s1.strand.h a.id ret (statusWord 0 1 n) ++
          [.submit n false, .fin]) s1))

/-- A MIGR of a held request: it waits behind what the request still holds (R414), and is then judged by the state it finds. -/
def onHeld (ret : Option (Fin 4 × Nat)) (rec : Nat) (s : State) (k : Req → Perf) : Perf :=
  match s.reqByRec s.strand.slot rec with
  | none => answerNow ret (statusWord 1 0 0) s
  | some r => if s.holds r.handle then .stay s else k r

def doHand (a : Acc) (ret : Option (Fin 4 × Nat)) (rec : Nat) (s : State) : Perf :=
  onHeld ret rec s (fun r =>
    if r.state ≠ .prefill then answerNow ret (statusWord 1 r.state.code r.handle) s
    else if !(onSide s r false) then answerNow ret (statusWord 2 r.state.code r.handle) s
    else
      accepted a r.handle ([.await, .state r.handle .handoff 2 0] ++ landing s.strand.h a.id ret (statusWord 0 3 r.handle) ++
        [.own r.handle, .fin]) s)

/-- MIGR.done: the releases hold the transition back (R355, log 114). -/
def doDone (a : Acc) (ret : Option (Fin 4 × Nat)) (rec : Nat) (s : State) : Perf :=
  onHeld ret rec s (fun r =>
    if r.state ≠ .decode then answerNow ret (statusWord 1 r.state.code r.handle) s
    else if !(onSide s r true) then answerNow ret (statusWord 2 r.state.code r.handle) s
    else
      accepted a r.handle ([EngWrite.chain r.dsthead r.dstfree true chainBound, .await, .state r.handle .done 3 0] ++
        landing s.strand.h a.id ret (statusWord 0 5 r.handle) ++ [.drop r.handle, .fin]) s)

def doCancel (a : Acc) (ret : Option (Fin 4 × Nat)) (rec : Nat) (s : State) : Perf :=
  onHeld ret rec s (fun r =>
    if r.state = .done ∨ r.state = .cancelled then answerNow ret (statusWord 1 r.state.code r.handle) s
    else
      accepted a r.handle (cancelWrites r.handle 2 ++ landing s.strand.h a.id ret (statusWord 0 6 r.handle) ++ [.drop r.handle, .fin]) s)

-- ## KVSEAL (R364)

/-- The header with word 1 and the CRC replaced, for a body. -/
def Page.withCrc (p : Page) (w1 : W64) (body : List Byte) : Page :=
  let q : Page := { p with ws := p.ws.set 1 w1 }
  let crc := (crc32c (q.crcBytes body)).toNat
  { q with ws := q.ws.set 3 (BitVec.ofNat 64 (crc * 2 ^ 32 + p.fld 3 31 0)) }

/-- The bytes of a header's words from one to another. -/
def Page.bytesOf (p : Page) (lo hi : Nat) : List Byte := (List.range (hi - lo)).flatMap (fun i => leBytes 8 ((p.ws.getD (lo + i) 0#64).toNat))

def doSeal (a : Acc) (ret : Option (Fin 4 × Nat)) (va : Nat) (s : State) : Perf :=
  let slot := s.strand.slot
  let h := s.strand.h
  onRead (s.readPage slot va) (engineBad a ret 0 .read) (fun p s =>
    let rq := s.pageReq slot p
    let fail := fun (code : Nat) (s : State) => answerNow ret (statusWord code (s.reqState (rq.elim 0 (·.handle))) 0) s
    if !(p.ok 1) then fail 4 s
    else if p.state ≠ 1 then fail 1 s
    else
      match rq with
      | none => fail 1 s
      | some r =>
        if !(onSide s r (p.layout == 2)) then fail 2 s
        else
          onRead (s.readChain slot (if p.layout = 2 then r.dsthead else 0) chainBound) (engineBad a ret r.handle .read) (fun ps s =>
            if p.layout = 2 ∧ p.blk ≠ (ps.filter (fun q => q.state == 4)).length then fail 1 s
            else
              onRead (s.readBody slot p) (engineBad a ret r.handle .read) (fun body s =>
                match body with
                | none => fail 3 (s.endRequest r.handle)
                | some body =>
                  onRead (s.canPost slot va 0x40) (engineBad a ret r.handle .write) (fun _ s =>
                    let q := p.withCrc (BitVec.ofNat 64 (p.fld 1 63 0 + (if p.seal then 0 else 2 ^ 43))) body
                    let st := if p.layout = 2 then 4 else 2
                    accepted a r.handle
                      ([EngWrite.bytes (va + 8) (q.bytesOf 1 2), .bytes (va + 0x18) (q.bytesOf 3 4)] ++
                       s.parityOf slot va (s.imageWith slot va q.ws body) st ++
                       [.await, .bytes (va + 0x20) (leBytes 8 st)] ++ landing h a.id ret (statusWord 0 r.state.code p.blk) ++ [.fin]) s))))

-- ## GRAFT (R363)

/-- The least k from −9 to 8 with amax ≤ 448 × 2^k, else 8; 0 for amax = 0. -/
def graftScale (amax : FNum) : Int :=
  if amax.isZero then 0
  else
    match (List.range 18).find? (fun (i : Nat) => !(ltX (.fin false 448 ((i : Int) - 9)) amax)) with
    | some i => (i : Int) - 9
    | none => 8

/-- The E4M3 code of 2^k. -/
def scaleCode (k : Int) : Nat := (roundTo fmtE4M3 .rn false false 1 k).1

/-- A BF16 element of a body. -/
def bf16At (body : List Byte) (i : Nat) : FNum := decodeF fmtBF16 (leNat ((body.drop (2 * i)).take 2))

/-- A destination body converted from a source body (R363), and the flags raised. -/
def graftBody (src : Page) (body : List Byte) : Int × List Byte × BitVec 5 :=
  let dst : Page := { src with ws := src.ws.set 1 (BitVec.ofNat 64 (src.fld 1 63 0 % 2 ^ 56 + 2 * 2 ^ 56)) }
  let places := fun (v : Bool) (t : Nat) => (List.range src.heads).flatMap (fun h => (List.range src.hd).map (fun c => (v, t, h, c)))
  let vals := ((List.range src.used).flatMap (fun t => places false t ++ places true t)).map (fun (v, t, h, c) =>
    bf16At body (src.elem v t h c))
  let fin := vals.filter (fun x => !(x.isNaN || x.isInf))
  let k := graftScale (maxMag fin)
  -- byte i of the destination body is K or V of (t, h, c): the layout is head-dimension-major
  let out := (List.range (2 * dst.half)).map (fun i =>
    let v := decide (dst.half ≤ i)
    let j := i % dst.half
    let t := j % dst.ntok
    let hc := j / dst.ntok
    if t < src.used then deliverF fmtE4M3 .rn true (scaleX (bf16At body (src.elem v t (hc / src.hd) (hc % src.hd))) k) else (0, 0#5))
  (k, out.map (fun r => BitVec.ofNat 8 r.1), out.foldl (fun f r => f ||| r.2) 0#5)

def doGraft (a : Acc) (ret : Option (Fin 4 × Nat)) (src dst : Nat) (s : State) : Perf :=
  let slot := s.strand.slot
  let h := s.strand.h
  onRead (s.readPage slot src) (engineBad a ret 0 .read) (fun p s =>
    onRead (s.readPage slot dst) (engineBad a ret 0 .read) (fun d s =>
      let rq := s.pageReq slot p
      let fail := fun (code : Nat) (s : State) => answerNow ret (statusWord code (s.reqState (rq.elim 0 (·.handle))) 0) s
      if !(p.ok 0) || p.layout != 1 then fail 4 s
      else if p.state ≠ 2 then fail 1 s
      else if d.state ≠ 1 then fail 1 s
      else
        match rq with
        | none => fail 1 s
        | some r =>
          if r.state ≠ .prefill ∧ r.state ≠ .handoff then fail 1 s
          else if !(onSide s r false) then fail 2 s
          else
            onRead (s.readBody slot p) (engineBad a ret r.handle .read) (fun body s =>
              match body with
              | none => fail 3 (s.endRequest r.handle)
              | some _ =>
                onRead (s.canPost slot src 0x40) (engineBad a ret r.handle .write) (fun _ s =>
                  let s1 := (markSent a.id s).updPkg (fun q => { q with grafts := q.grafts ++
                    [{ h := h, id := a.id, slot := slot, req := r.handle, blk := p.blk, src := src, dst := dst, flight := none,
                       again := false, begun := false, landed := false }] })
                  .stay (s1.engDo r.handle slot (s.parityOf slot src (List.replicate ((s.imageNow slot src).length) 0#8) 3 ++
                    [EngWrite.bytes (src + 0x20) (leBytes 8 3), .fin]))))))

def State.updGraft (s : State) (g : Graft) (f : Graft → Graft) : State :=
  s.updPkg (fun p => { p with grafts := p.grafts.map (fun x => if x.h = g.h ∧ x.id = g.id then f x else x) })

/-- A transfer that failed: its status code, and the end of its request where the code says so (R363, R375). -/
def State.failGraft (s : State) (g : Graft) (code : Nat) : State :=
  let s1 := if code = 4 then s else s.endRequest g.req
  let s2 := match s.retOf g.h g.id with
    | some (_, e) => s1.landWord g.h e (statusWord code (s1.reqState g.req) 0)
    | none => s1
  (s2.opGone g.h g.id).runHeld g.req

/-- Bytes of a context lie in the tier 1 of a die (R299). -/
def State.onDie (s : State) (die slot va n : Nat) : Bool :=
  (pieces va n).any (fun pc => match (s.engTranslate slot pc.1 .read).1 with
    | .ok e => let pa := homeOf s.pkg (e.addr pc.1); paPkg pa == s.pkg.num && tier1Die (paLocal pa) == some die
    | .fault _ | .poison _ => false)

/-- Bytes of a context lie in the tier 1 of a die that is in reset (R358). -/
def State.dieAway (s : State) (slot va n : Nat) : Bool :=
  (List.range 8).any (fun d => !((s.pkg.dies.getD d Die.start).up) && s.onDie d slot va n)

/-- A read or a write of a transfer that does not go through. -/
def graftBad (g : Graft) (k : AKind) (e : Eng Unit) (s : State) : State :=
  match e with
  | .ok _ => s
  | .fault va w => s.askFirmware g.slot (.engine g.h g.id) va k w
  | .poison _ => s.failGraft g 5
  | .remote pa => if s.pkg.allows (paPkg pa) then s.askRemote pa else s.failGraft g 4

/-- A transfer reads its block at the source (R363, R376). -/
def readGraft (g : Graft) (s : State) : State :=
  let r := s.readPage g.slot g.src
  match r.1 with
  | .ok p =>
    let b := r.2.readBody g.slot p
    (match b.1 with
     | .ok (some body) =>
       let data := p.ws.flatMap (fun w => leBytes 8 w.toNat) ++ body
       b.2.updGraft g (fun g => { g with flight := some ⟨data, crc32c data⟩ })
     | .ok none => b.2.failGraft g 3
     | e => graftBad g .read e.unit b.2)
  | e => graftBad g .read e.unit r.2

/-- A transfer lands (R363): the body, header words 0x08 to 0x18, gstat and the state of the destination, then its status
entry; then blocks become OWNED in order (R356), or the cancel is settled (R357). -/
def landGraft (g : Graft) (data : List Byte) (s : State) : State :=
  let p : Page := { va := g.src, ws := wordsOf (data.take 0x40) }
  let o := graftBody p (data.drop 0x40)
  let w1 := BitVec.ofNat 64 (2 * 2 ^ 56 + scaleCode o.1 * 2 ^ 48 + p.lntok * 2 ^ 44 + 2 ^ 43 + (p.heads - 1) * 2 ^ 32 +
    p.hd * 2 ^ 16 + p.used)
  let hdr : Page := { va := g.dst, ws := [0#64, w1, BitVec.ofNat 64 (p.reqh * 2 ^ 32 + p.blk), 0#64, 3#64, 0#64, 0#64, 0#64] }
  let d := hdr.withCrc w1 o.2.1
  let c := s.canPost g.slot g.dst (0x40 + o.2.1.length)
  match c.1 with
  | .ok _ =>
    ((c.2.updGraft g (fun g => { g with landed := true })).engDo g.req g.slot
      ([EngWrite.bytes (g.dst + 0x40) o.2.1, .bytes (g.dst + 8) (d.bytesOf 1 4)] ++
       c.2.parityOf g.slot g.dst (c.2.imageWith g.slot g.dst d.ws o.2.1) 3 ++
       [.bytes (g.dst + 0x28) (leBytes 8 (o.2.2.toNat * 2 ^ 8 + 2)), .await, .bytes (g.dst + 0x20) (leBytes 8 3)] ++
       landing g.h g.id (c.2.retOf g.h g.id) (statusWord 0 (c.2.reqState g.req) p.blk) ++ [.own g.req, .fin])).runHeld g.req
  | e => graftBad g .write e.unit c.2

/-- A step of a transfer, which stands still while a die that it reads from or writes to is in reset (R358): the block is read at its
source; at the destination its CRC is checked, and it is sent once more when it does not verify (R376); the destination begins to be
written; it lands. -/
def graftStep (g : Graft) (s : State) : State :=
  if g.landed || (s.graftRanges g.slot g.src g.dst).any (fun r => s.dieAway g.slot r.1 r.2) then s
  else
    match g.flight with
    | none => readGraft g s
    | some f =>
      if crc32c f.data ≠ f.crc then
        if g.again then s.failGraft g 3 else s.updGraft g (fun g => { g with flight := none, again := true })
      else if g.begun then landGraft g f.data s
      else s.updGraft g (fun g => { g with begun := true })

def execGraftTransferLanding (n : Nat) (s : State) : Out :=
  .next (match s.pkg.grafts[n]? with
    | none => s
    | some g => graftStep g s)

-- ## KVCOMPACT (R371, R372)

/-- A page with its body. -/
structure FullPage where
  hdr : Page
  body : List Byte

/-- The bodies of pages, or the first page whose CRC fails, or which holds an uncorrectable error, with the code (R375). -/
def State.readBodies (s : State) (slot : Nat) : List Page → Eng (Except (Page × Nat) (List FullPage)) × State
  | [] => (.ok (.ok []), s)
  | p :: r =>
    let b := s.readBody slot p
    match b.1 with
    | .ok none => (.ok (.error (p, 3)), b.2)
    | .poison _ => (.ok (.error (p, 5)), b.2)
    | .ok (some bs) =>
      let q := b.2.readBodies slot r
      (match q.1 with
       | .ok (.ok l) => .ok (.ok ({ hdr := p, body := bs } :: l))
       | e => e, q.2)
    | .fault a w => (.fault a w, b.2)
    | .remote a => (.remote a, b.2)

/-- The request that a failing page names is ended (R375). -/
def State.endPageCrc (s : State) (slot : Nat) (p : Page) : State :=
  match s.pageReq slot p with
  | some r => s.endRequest r.handle
  | none => s

/-- The page and slot of token j of a chain (R351): a page holds no more tokens than ntok (log 107). -/
def tokenAt : List FullPage → Nat → Option (FullPage × Nat)
  | [], _ => none
  | p :: r, j => let n := min p.hdr.used p.hdr.ntok; if j < n then some (p, j) else tokenAt r (j - n)

def e4m3Val (c : Nat) : FNum := decodeF fmtE4M3 c

/-- The greatest of scale codes by value. -/
def maxScale : List Nat → Nat
  | [] => 0
  | [c] => c
  | c :: r => let d := maxScale r; if ltX (e4m3Val c) (e4m3Val d) then d else c

/-- An element moved from one scale to another (R372): its bits when the scale stays. -/
def rescale (code old new : Nat) : Nat × BitVec 5 :=
  if old = new then (code, 0#5)
  else deliverSf fmtE4M3 .rn true (divX (mulX (e4m3Val code) (e4m3Val old)).1 (e4m3Val new))

/-- The new body of page i, with its scale, filled slots and the flags raised. -/
def compactPage (ps : List FullPage) (keep : List Nat) (first : Page) (i : Nat) : Nat × Nat × List Byte × BitVec 5 :=
  let n := first.ntok
  let mine := (keep.drop (i * n)).take n
  let toks := mine.map (fun j => tokenAt ps j)
  let sc := maxScale (toks.filterMap (fun t => t.map (fun x => x.1.hdr.scale)))
  let out := (List.range (2 * first.half)).map (fun k =>
    let v := decide (first.half ≤ k)
    let j := k % first.half
    match (toks[j % n]?).join with
    | some (pg, slot) =>
      let hc := j / n
      rescale ((pg.body.getD (pg.hdr.elem v slot (hc / first.hd) (hc % first.hd)) 0#8).toNat) pg.hdr.scale sc
    | none => (0, 0#5))
  (sc, mine.length, out.map (fun r => BitVec.ofNat 8 r.1), out.foldl (fun f r => f ||| r.2) 0#5)

def ascending : List Nat → Bool
  | [] => true
  | [_] => true
  | a :: b :: r => decide (a < b) && ascending (b :: r)

def doCompact (a : Acc) (ret : Option (Fin 4 × Nat)) (rec : Nat) (s : State) : Perf :=
  let slot := s.strand.slot
  let h := s.strand.h
  onRead (s.engRead slot rec 64) (engineBad a ret 0 .read) (fun bs s =>
    let w := wordsOf bs
    let f := fun (i hi lo : Nat) => bits ((w.getD i 0#64).toNat) hi lo
    let nkeep := f 2 63 32
    if f 2 31 0 ≠ 0 ∨ f 5 63 17 ≠ 0 ∨ nkeep = 0 ∨ f 1 63 0 % 4 ≠ 0 then answerNow ret (statusWord 4 0 0) s
    else
      onRead (s.readChain slot (f 0 63 0) chainBound) (engineBad a ret 0 .read) (fun ps s =>
        let first := ps.headD { va := 0, ws := [] }
        let rq := s.pageReq slot first
        let req := rq.elim 0 (·.handle)
        let fail := fun (code : Nat) (s : State) => answerNow ret (statusWord code (s.reqState req) 0) s
        if ps.any (fun p => p.layout != 2 || p.reqh != first.reqh || p.heads != first.heads || p.hd != first.hd ||
            p.lntok != first.lntok) then fail 4 s
        else if ps.any (fun p => p.state != 4) then fail 1 s
        else
          onRead (s.engRead slot (f 1 63 0) (4 * nkeep)) (engineBad a ret req .read) (fun kb s =>
            let keep := elemsOf 4 kb
            let total := ps.foldl (fun n p => n + p.used) 0
            if total < nkeep || keep.any (fun j => decide (total ≤ j)) || !(ascending keep) then fail 4 s
            else
              onRead (s.readBodies slot ps) (engineBad a ret req .read) (fun full s =>
                match full with
                | .error bad => fail bad.2 (s.endPageCrc slot bad.1)
                | .ok full =>
                  let stb := f 3 63 0
                  onRead (s.engRead slot stb (if stb = 0 then 0 else 4 * total)) (engineBad a ret req .read) (fun tb s =>
                    let g := (nkeep + first.ntok - 1) / first.ntok
                    let news := (List.range g).map (fun i => (i, compactPage full keep first i))
                    let flags := news.foldl (fun (x : BitVec 5) n => x ||| n.2.2.2.2) 0#5
                    let pages := news.flatMap (fun (i, sc, used, body, _) =>
                      match ps[i]? with
                      | none => []
                      | some p =>
                        let w1 := BitVec.ofNat 64 (p.fld 1 63 56 * 2 ^ 56 + sc * 2 ^ 48 + p.fld 1 47 16 * 2 ^ 16 + used)
                        let q0 := p.withCrc w1 body
                        let q : Page := if i + 1 = g then { q0 with ws := q0.ws.set 0 0#64 } else q0
                        [EngWrite.bytes (p.va + 0x40) body] ++
                        (if i + 1 = g then [.bytes p.va (q.bytesOf 0 2)] else [.bytes (p.va + 8) (q.bytesOf 1 2)]) ++
                        [.bytes (p.va + 0x18) (q.bytesOf 3 4)] ++
                        s.parityOf slot p.va (xorBytes (s.imageNow slot p.va) (s.imageWith slot p.va q.ws body)) 4)
                    let old := elemsOf 4 tb
                    let table := if stb = 0 then [] else
                      [EngWrite.bytes stb ((keep.map (fun j => old.getD j 0) ++ List.replicate (total - nkeep) 0).flatMap (fun v => leBytes 4 v))]
                    let gone := (ps.drop g).map (fun p => EngWrite.release p.va (f 4 63 0) true)
                    let st := statusWord 0 (s.reqState req) (flags.toNat * 2 ^ 8)
                    let record := [EngWrite.bytes (rec + 0x30) (leBytes 8 (g * 2 ^ 32 + (ps.length - g))), .bytes (rec + 0x38) (leBytes 8 st.toNat)]
                    let sig := if f 5 16 16 = 1 then [EngWrite.signal (f 5 15 0)] else []
                    onRead (s.canPost slot rec 0x40) (engineBad a ret req .write) (fun _ s =>
                      accepted a (pageObj h a.id rq) (pages ++ table ++ gone ++ [.await] ++ record ++ landing h a.id ret st ++ sig ++ [.fin]) s))))))

-- ## BEAMIX (R373, R374)

/-- The entries of a row: those before the first 0. -/
def rowEntries (es : List Nat) : List Nat := es.takeWhile (· != 0)

def dedup : List Nat → List Nat
  | [] => []
  | a :: r => a :: (dedup r).filter (· != a)

/-- The headers of pages named by address. -/
def State.readPages (s : State) (slot : Nat) : List Nat → Eng (List Page) × State
  | [] => (.ok [], s)
  | a :: r =>
    let p := s.readPage slot a
    match p.1 with
    | .ok pg =>
      let q := p.2.readPages slot r
      (match q.1 with
       | .ok l => .ok (pg :: l)
       | e => e, q.2)
    | .fault a w => (.fault a w, p.2)
    | .poison a => (.poison a, p.2)
    | .remote a => (.remote a, p.2)

def doBeamix (a : Acc) (ret : Option (Fin 4 × Nat)) (tbl perm : Nat) (s : State) : Perf :=
  let slot := s.strand.slot
  let h := s.strand.h
  onRead (s.engRead slot tbl 64) (engineBad a ret 0 .read) (fun bs s =>
    let w := wordsOf bs
    let f := fun (i hi lo : Nat) => bits ((w.getD i 0#64).toNat) hi lo
    let B := f 0 63 56
    let P := f 0 47 32
    if B = 0 ∨ 64 < B ∨ P = 0 ∨ 256 < P then answerNow ret (statusWord 4 0 0) s
    else
      onRead (s.engRead slot (tbl + 0x40) (8 * B * P)) (engineBad a ret 0 .read) (fun eb s =>
        let es := elemsOf 8 eb
        let rows := (List.range B).map (fun i => (es.drop (P * i)).take P)
        let named := dedup (rows.flatMap rowEntries)
        onRead (s.readPages slot named) (engineBad a ret 0 .read) (fun ps s =>
          let rq := (ps.head?).bind (fun p => s.pageReq slot p)
          let req := rq.elim 0 (·.handle)
          let fail := fun (code : Nat) (s : State) => answerNow ret (statusWord code (s.reqState req) 0) s
          if ps.any (fun p => p.state != 4) then fail 1 s
          else
            onRead (s.readBodies slot ps) (engineBad a ret req .read) (fun full s =>
              match full with
              | .error bad => fail bad.2 (s.endPageCrc slot bad.1)
              | .ok _ =>
                onRead (s.engRead slot perm B) (engineBad a ret req .read) (fun pb s =>
                  let pm := pb.map (·.toNat)
                  if f 1 5 0 ≠ 0 ∨ f 2 5 0 ≠ 0 ∨ pm.any (fun k => k != 0xFF && decide (B ≤ k)) then fail 4 s
                  else
                    let new := pm.map (fun k => if k = 0xFF then List.replicate P 0 else rows.getD k (List.replicate P 0))
                    let kept := new.flatMap rowEntries
                    let gone := named.filter (fun p => !(kept.contains p))
                    let live := (new.filter (fun r => r.headD 0 != 0)).length
                    let gen := (f 3 31 0 + 1) % 2 ^ 32
                    let xhead := f 1 63 0
                    let free := f 2 63 0
                    let last := decide (live = 0 ∧ xhead ≠ 0)
                    let cross := if last then [EngWrite.chain xhead free false chainBound, .bytes (tbl + 8) (leBytes 8 0)] else []
                    onRead (s.readChain slot (if last then xhead else 0) chainBound) (engineBad a ret req .read) (fun xs s =>
                      let st := statusWord 0 (s.reqState req) (gone.length + xs.length)
                      onRead (s.canPost slot tbl (0x40 + 8 * B * P)) (engineBad a ret req .write) (fun _ s =>
                        accepted a (pageObj h a.id rq)
                          ([EngWrite.bytes (tbl + 0x40) ((new.flatMap id).flatMap (fun v => leBytes 8 v))] ++
                           gone.map (fun p => .release p free true) ++
                           [.bytes (tbl + 0x18) (leBytes 8 (live * 2 ^ 32 + gen))] ++ cross ++ landing h a.id ret st ++ [.fin]) s)))))))

-- ## The instructions (R359, R360)

/-- An address operand of R359 is bad. -/
def engineAddr (v : W64) (align : Nat) : Bool := misplaced v 8 align false || inLocal v.toNat

/-- A word that hands an engine operation to the pipeline: its addresses are checked in order. -/
def engineWord (d : LqDst) (srcs : List (SOp × Nat)) (op : List W64 → EngOp) (s : State) : Out :=
  let ops := srcs.map (·.1)
  -- the first address that can be read and is bad (R73)
  let pre := ((knowns ops s).zip (srcs.map (·.2))).filterMap (fun (v, al) => v.bind (fun v => if engineAddr v al then some (Cause.align, v) else none))
  gatedPre (pre.take 1) (ops.flatMap sPops) [] s
    (let r := takeSs ops s
     match (r.1.zip (srcs.map (·.2))).find? (fun (v, al) => engineAddr v al) with
     | some (v, _) => trapOut .align v s
     | none =>
       match d with
       | .lq q =>
         gated (ops.flatMap sPops) [(true, q)] s
           (retire s (addLoad q (.s 0#64) (fun ent => .engine (op r.1) (some (q, ent))) r.2))
       | .none => retire s (addAcc (.engine (op r.1) none) r.2))

def execGraft (d : LqDst) (src dst : SOp) (s : State) : Out :=
  engineWord d [(src, 64), (dst, 64)] (fun v => .graft (v.getD 0 0#64) (v.getD 1 0#64)) s
/-- KVWALK is a load of the page's next field (R365); the prefetches of its walk engine change no value. A page of a shard region that has
failed is to be rebuilt once it is named (R391). -/
def execKvwalk (d : Fin 4) (page : SOp) (s : State) : Out :=
  let t := match (known (knowns [page] s) 0) with
    | some v => if s.pageFails s.strand.slot v.toNat then s.demandSlot s.strand.slot v.toNat else s
    | none => s
  loadWord .s64 false d page 0#64 id t
def execKvseal (d : LqDst) (page : SOp) (s : State) : Out := engineWord d [(page, 64)] (fun v => .kvseal (v.getD 0 0#64)) s
def execKvcompact (d : LqDst) (rec : SOp) (s : State) : Out := engineWord d [(rec, 64)] (fun v => .kvcompact (v.getD 0 0#64)) s
def execBeamix (d : LqDst) (tbl perm : SOp) (s : State) : Out :=
  engineWord d [(tbl, 64), (perm, 8)] (fun v => .beamix (v.getD 0 0#64) (v.getD 1 0#64)) s
def execMigrAdmit (d : LqDst) (rec : SOp) (s : State) : Out := engineWord d [(rec, 64)] (fun v => .migrAdmit (v.getD 0 0#64)) s
def execMigrHand (d : LqDst) (rec : SOp) (s : State) : Out := engineWord d [(rec, 64)] (fun v => .migrHand (v.getD 0 0#64)) s
def execMigrDone (d : LqDst) (rec : SOp) (s : State) : Out := engineWord d [(rec, 64)] (fun v => .migrDone (v.getD 0 0#64)) s
def execMigrCancel (d : LqDst) (rec : SOp) (s : State) : Out := engineWord d [(rec, 64)] (fun v => .migrCancel (v.getD 0 0#64)) s

end Sys2Proof.Machine
end

