-- ==== Sys2Proof/Machine/Launch.lean ====
section
/-! DEFINITION. Accepting launches, launch credits, launch queues, what a free core takes, offers and ends of strands
(spec/12_queue.md R251 to R260, spec/13_group.md R266, R274 to R277, spec/14_context.md R288, R292, R293). -/

namespace Sys2Proof.Machine

-- ## Places and credits (R256, R257)

/-- Credits of a context that its cores hold unspent. -/
def State.creditsOut (s : State) (slot : Nat) : Nat := s.allCores.foldl (fun n c => n + c.credit slot) 0

/-- Places that LAUNCH words have taken whose records are not yet accepted. -/
def State.placesAsked (s : State) (slot : Nat) : Nat :=
  (s.pkg.submits.filter (fun r => r.slot == slot && r.askedBy.isSome)).length +
  s.allStrands.foldl (fun n t => if t.slot = slot then
    n + (t.acc.filter (fun a => match a.op with | .launch _ _ _ => true | _ => false)).length else n) 0

/-- Places of a context, in its share and in its overflow area, that nothing holds. -/
def State.freePlaces (s : State) (c : Ctx) : Nat :=
  c.lsq + 64 * c.fld 5 31 0 -
    ((c.launches.filter (fun l => l.state.held)).length + s.creditsOut c.slot + s.placesAsked c.slot)

def Core.giveCredit (c : Core) (slot : Nat) : Core :=
  if c.credit slot < 4 then { c with credits := tset c.credits slot (c.credit slot + 1) } else c

/-- A core runs a strand of a context. -/
def State.coreRuns (s : State) (core slot : Nat) : Bool :=
  match s.findCore core with
  | none => false
  | some c => c.runs != 0 && (s.findStrand c.runs).any (fun t => t.slot == slot)

/-- A credit is granted to a core that runs a strand of the context and holds fewer than 4; when places are scarce, to the
core whose LAUNCH has waited longest. A strand that left the core parked at LAUNCH is made ready by it (R279). -/
def execLaunchCreditGrant (core slot : Nat) (s : State) : Out :=
  .next (match s.ctxAt slot, s.findCore core with
    | some c, some k =>
      let free := s.freePlaces c
      let turn := decide (c.creditWait.length < free) || c.creditWait.head? == some core || c.creditWait.isEmpty
      if free = 0 ∨ !turn then s
      else
        let s1 := s.updCtx slot (fun c => { c with creditWait := c.creditWait.filter (· != core) })
        let s2 := s1.mapStrands (fun t => if t.slot = slot ∧ t.core = core ∧ t.parkAt = 3 then t.unpark else t)
        if s.coreRuns core slot && decide (k.credit slot < 4) then s2.updCore core (fun c => c.giveCredit slot) else s2
    | _, _ => s)

-- ## Accepting a record (R254 to R257)

/-- The fields of a launch record (R254). -/
structure LRec where
  ws : List W64

def LRec.fld (r : LRec) (w hi lo : Nat) : Nat := bits ((r.ws.getD w 0#64).toNat) hi lo
def LRec.handle (r : LRec) : Nat := r.fld 1 63 48
def LRec.nwait (r : LRec) : Nat := r.fld 1 47 45
def LRec.waits (r : LRec) : List Nat := (List.range r.nwait).map (fun i => r.fld 2 (16 * i + 15) (16 * i))

/-- The reserved fields are 0 and the others in range. -/
def LRec.ok (r : LRec) : Bool :=
  r.fld 1 43 32 == 0 && r.fld 1 15 0 == 0 && r.fld 5 15 0 == 0 && r.fld 6 31 0 == 0 && decide (r.nwait ≤ 4) &&
  r.handle != 0 && decide (8 ≤ r.fld 3 31 0) && decide (r.fld 3 31 0 ≤ 2048) && r.fld 3 31 0 % 8 == 0 && r.fld 4 63 0 % 8 == 0

/-- A record accepted into the overflow area is written there, and the one accepted before it links to it through next (R256). -/
def State.overflowed (s : State) (c : Ctx) (l : Launch) (ws : List W64) (status : W64) : State :=
  let at_ := c.overAddr l.place
  let s1 := s.engPost c.slot at_ (((ws.set 0 0#64).set 7 status).flatMap (fun w => leBytes 8 w.toNat))
  match (c.launches.filter (fun m => m.state.held && !m.inStore)).getLast? with
  | some m => s1.engPostWord c.slot (c.overAddr m.place) (BitVec.ofNat 64 at_)
  | none => s1

/-- The launch of a record accepted. -/
def Launch.ofRec (r : LRec) (x : Submit) (c : Ctx) (k : Kernel) : Launch :=
  let n := k.stages.length
  { id := c.ctr, order := c.accepted + 1, q := x.q, handle := r.handle, addr := x.addr, waits := dedup r.waits,
    sig := r.fld 1 44 44 == 1, done := r.fld 1 31 16, count := r.fld 3 63 32, insize := r.fld 3 31 0, inbase := r.fld 4 63 0,
    job := r.fld 5 63 48, phase := r.fld 5 47 32, graph := r.fld 5 31 16, maxcores := r.fld 6 63 32, state := .pending,
    inStore := decide (c.stored < c.lsq), place := c.overPlace, cls := 3, aged := false, handed := 0,
    sqs := List.replicate (n - 1) { recs := [], closed := false },
    units := List.replicate n { nextIndex := 0, completed := 0, cancelled := false, complete := false, offered := false },
    request := x.req, cycles := 0, acqFrom := 0 }

/-- Its waits recorded in the event table; none when the overflow area has no place for one (R216). -/
def waitsOn (slot id : Nat) (names : List Nat) (s : State) : Option State := s.recordWaits slot (.launch slot id) names

/-- The answer to whoever submitted a record; a refused credit returns to its core (R257). A record of a request moves the
request (R346, R349); a launch accepted while the request waits to restart, or after it was cancelled, is cancelled like those before
it (R349, R357). -/
def State.submitted (s : State) (x : Submit) (code id : Nat) : State :=
  let s0 := s.updPkg (fun p => { p with submits := p.submits.filter (fun y => y.n != x.n) })
  let s1 := match x.askedBy with
    | some (h, res) =>
      let t := s0.answer h res (BitVec.ofNat 64 (code * 2 ^ 56 + id))
      if 2 ≤ code ∧ t.coreRuns x.core x.slot then t.updCore x.core (fun c => c.giveCredit x.slot) else t
    | none => s0
  match s1.reqAt x.req with
  | none => s1
  | some r =>
    if 2 ≤ code then s1.cancelRequest r.handle 1
    else
      let s2 := s1.updReq r.handle (fun r => if x.decode then { r with dec := id } else { r with pre := id })
      if r.state = .cancelled ∨ r.state = .done ∨ (r.state = .restarting ∧ r.ending) then s2.cancelLaunch x.slot id
      else if !x.decode then s2.setReq r.handle .prefill 1 0 [.fin]
      else if r.state = .restarting then s2.setReq r.handle .decode 2 0 [.fin] else s2

/-- A refusal: the status word, but for code 5, and the answer. -/
def State.refuseLaunch (s : State) (x : Submit) (code : Nat) : State :=
  let s1 := if code = 5 then s.report (.heldRefused x.slot x.n x.addr)
            else s.engPostWord x.slot (x.addr + 0x38) (BitVec.ofNat 64 (code * 2 ^ 56 + 6 * 2 ^ 48))
  s1.submitted x code 0

/-- A record that Taproot has read: the refusals in the order 2, 3, 4, 6, then acceptance. -/
def acceptRecord (x : Submit) (r : LRec) (c : Ctx) (s : State) : State :=
  if !r.ok then s.refuseLaunch x 2
  else
    match c.kernel r.handle with
    | none => s.refuseLaunch x 3
    | some k =>
      let q := c.queues.getD x.q { weight := 1, cls := 3, state := 0, cur := 0 }
      if q.state = 0 ∨ q.state = 3 then s.refuseLaunch x 4
      else
        let l := Launch.ofRec r x c k
        let s1 := s.updCtx c.slot (fun c => { c with
          ctr := nextNo 32 c.ctr
          accepted := c.accepted + 1
          launches := c.launches ++ [l]
          counters := l.keys.foldl (fun t key => countKey key (fun y => { y with accepted := (y.accepted + 1) % 2 ^ 32 }) t) c.counters })
        let code := if l.inStore then 0 else 1
        let status : W64 := BitVec.ofNat 64 (code * 2 ^ 56 + 1 * 2 ^ 48 + l.id)
        let s2 := s1.engPostWord c.slot (l.addr + 0x38) status
        let s3 := if l.inStore then s2 else s2.overflowed c l r.ws status
        -- the status word is written before the launch may become READY
        match waitsOn c.slot l.id (dedup r.waits) s3 with
        | none => s.refuseLaunch x 6
        | some s4 => (s4.submitted x code l.id).refreshLaunches c.slot

/-- The record of a submission reaches Taproot: the earliest of its context goes first, and one of firmware's waits for a
place (R257); a fault on its page waits for firmware (R258). -/
def execLaunchRecordAccept (n : Nat) (s : State) : Out :=
  .next (match s.pkg.submits.find? (fun x => x.n == n) with
    | none => s
    | some x =>
      match s.ctxAt x.slot with
      | none => s
      | some c =>
        if (s.pkg.submits.find? (fun y => y.slot == x.slot)).any (fun y => y.n != n) then s
        else if x.askedBy.isNone && s.freePlaces c == 0 then s
        else if x.refused then s.refuseLaunch x 5
        else
          let r := s.engRead x.slot x.addr 64
          match r.1 with
          | .ok bs => acceptRecord x { ws := wordsOf bs } c r.2
          | .fault va why => r.2.askFirmware x.slot (.launch 0 n) va .read why
          | .poison _ => r.2.refuseLaunch x 5
          | .remote pa => if r.2.pkg.allows (paPkg pa) then r.2.askRemote pa else r.2.refuseLaunch x 5)

-- ## Launch queues (R251, R252)

def State.updQueue (s : State) (slot q : Nat) (f : LQueue → LQueue) : State :=
  s.updCtx slot (fun c => { c with queues := c.queues.modify q f })

/-- Firmware writes 1 to a queue's state: cur starts at 0 when the queue leaves DISABLED (R259). -/
def State.enableQueue (s : State) (slot q : Nat) : State :=
  s.updQueue slot q (fun k =>
    if k.state = 0 then { k with state := 1, cur := 0 } else if k.state = 2 then { k with state := 1 } else k)

/-- Firmware writes 2 to it. -/
def State.pauseQueue (s : State) (slot q : Nat) : State :=
  s.updQueue slot q (fun k => if k.state = 1 then { k with state := 2 } else k)

def execQueueEnable (slot q : Nat) (s : State) : Out := .next (s.enableQueue slot q)
def execQueuePause (slot q : Nat) (s : State) : Out := .next (s.pauseQueue slot q)

/-- The queue is FLUSHING: its launches that have not started are cancelled, and without any it is DISABLED. -/
def State.disableQueue (s : State) (slot q : Nat) : State :=
  match (s.ctxAt slot).bind (fun c => (c.queues[q]?).map (fun k => (c, k))) with
  | none => s
  | some (c, k) =>
    if k.state = 1 ∨ k.state = 2 then
      let s1 := s.updQueue slot q (fun k => { k with state := 3 })
      ((c.launches.filter (fun l => l.q == q && (l.state == .pending || l.state == .ready))).foldl
        (fun t l => t.cancelLaunch slot l.id) s1).flushQueues slot
    else s

def execQueueDisable (slot q : Nat) (s : State) : Out := .next (s.disableQueue slot q)

/-- The launches of a queue that have not started, the earliest first. -/
def Ctx.waiting (c : Ctx) (q : Nat) : List Launch := c.launches.filter (fun l => l.q == q && (l.state == .pending || l.state == .ready))

/-- The head launch of a queue has been READY for longer than the ageing limit of its class (R259, R260). -/
def execAgeingLimitExpiry (slot q : Nat) (s : State) : Out :=
  .next (match (s.ctxAt slot).bind (fun c => ((c.waiting q).head?).bind (fun l => (c.queues[q]?).map (fun k => (l, k)))) with
    | none => s
    | some (l, k) =>
      let limit := if k.cls = 3 then s.pkg.age3 else if k.cls = 2 then s.pkg.age2 else 0#16
      if l.state = .ready ∧ limit ≠ 0#16 then s.updLaunch slot l.id (fun l => { l with aged := true }) else s)

-- ## Starting strands (R240, R274, R277, R288)

/-- A strand handle that may be given (R189). -/
def State.handleFree (s : State) (h : Nat) : Bool :=
  h != 0 && decide (h < 65536) && (s.findStrand h).isNone && s.allCores.all (fun c => c.accownHold != h)

/-- The start image of a stage (R240): start shapes, ring images, program counters, profiles. -/
def Strand.start (h : Nat) (c : Ctx) (l : Launch) (k : Kernel) (stage : Nat) (d : StageD) : Strand :=
  let shape : BitVec 13 := if d.rows = 0 ∧ d.cols = 0 then shape16x32 else BitVec.ofNat 13 (d.rows * 256 + d.cols)
  { Strand.none with
    h := h, phase := .ready, slot := c.slot, ctx := BitVec.ofNat 16 c.num, unit := BitVec.ofNat 3 stage,
    launch := BitVec.ofNat 32 l.id, unitNo := stage, kernel := k.handle, gi := k.gi, gm := k.gm, gv := k.gv,
    iterbound := d.iterbound, spsave := d.spsave, lastStage := decide (stage + 1 = k.stages.length),
    a := Seq.start (BitVec.ofNat 56 (k.va + d.aoff)), x := Seq.start (BitVec.ofNat 56 (k.va + d.xoff)),
    vshape := shape, ashape := shape, rings := d.rings.map Ring.ofImage, request := l.request }

/-- A stage of the kernel of a launch. -/
def Ctx.stageOf (c : Ctx) (l : Launch) (stage : Nat) : Option (Kernel × StageD) :=
  (c.kernel l.handle).bind (fun k => (k.stages[stage]?).map (fun d => (k, d)))

/-- A new strand of a stage, ready and not yet placed (R275). -/
def State.offer (s : State) (c : Ctx) (l : Launch) (stage h : Nat) : State :=
  match c.stageOf l stage with
  | none => s
  | some (k, d) =>
    { s with strands := putStrand (Strand.start h c l k stage d) s.strands }.updLaunch c.slot l.id (fun l =>
      { l with units := l.units.modify stage (fun u => { u with offered := true }) })

/-- Cores that a launch holds. -/
def State.coresHeld (s : State) (slot id : Nat) : Nat :=
  (s.allStrands.filter (fun t => t.h != 0 && t.slot == slot && t.launch.toNat == id &&
    s.allCores.any (fun c => c.runs == t.h))).length

/-- A launch may take another core. -/
def State.coreRoom (s : State) (slot : Nat) (l : Launch) : Bool := l.maxcores == 0 || decide (s.coresHeld slot l.id < l.maxcores)

/-- The core whose accumulator file a strand holds. -/
def State.fileOf (s : State) (h : Nat) : Option Core := s.allCores.find? (fun c => c.accownValid && c.accownHold == h)

/-- The live tiles of a core's file with their numbers. -/
def Core.liveTiles (c : Core) : List (Nat × List W32) :=
  ((List.range 8).filter (fun n => c.acclive.getLsbD n)).map (fun n => (n, c.tiles.getD n []))

/-- The live tiles of a strand spilled into its save area in ascending order, with the mask and the counts (R191, R288). -/
def State.spillTiles (s : State) (c : Core) (h : Nat) : State :=
  match s.findStrand h with
  | none => s
  | some t => (c.liveTiles.foldl (fun u e => u.saveTile t e.1 e.2) s).updStrand h (fun t =>
      { t with spill := some (c.acclive, c.liveTiles), arrivals := c.arrivals, refusals := c.refusals })

/-- The live tiles of a strand spilled from the file of a core that it leaves (R293). -/
def State.spillFrom (s : State) (c : Core) (h : Nat) : State :=
  (s.spillTiles c h).updCore c.num (fun c => { c with acclive := 0#8, accownHold := 0 })

/-- Bytes of the granules that spsave declares. -/
def declaredOnly (spsave : BitVec 32) (m : Mem) : Mem := m.filter (fun c => spsave.getLsbD (c.1 / 0x10000))

/-- The declared granules of an image put into a scratchpad (R292): the other bytes stay when strands of the same context
wrote them and `zero` does not ask for zeros, else they are 0. -/
def restorePad (t : Strand) (c : Core) (zero : Bool) : Core :=
  let keep := if zero || c.scratchCtx != t.ctx.toNat then [] else c.scratch.filter (fun b => !(t.spsave.getLsbD (b.1 / 0x10000)))
  { c with scratch := t.spimage.foldl (fun m b => m.set b.1 b.2) keep, scratchCtx := t.ctx.toNat
           padBad := (if zero || c.scratchCtx != t.ctx.toNat then [] else c.padBad.filter (fun l => !(t.spsave.getLsbD (l / 1024)))) ++ t.spBad }

/-- A ready strand goes onto a core (R292, R293): a new one takes its index, a saved one is restored, and both sequencers start or
restart (R71), also those of a strand that stopped before its first GO pair. -/
def State.place (s : State) (h core : Nat) (zero : Bool) : State :=
  match s.findStrand h with
  | none => s
  | some t0 =>
    let s0 := match s.fileOf h with
      | some c => if c.num = core then s else s.spillFrom c h
      | none => s
    let new := (s0.launchAt t0.slot t0.launch.toNat).bind (fun l => l.units[t0.unit.toNat]?)
    let fresh := !((s0.ctxAt t0.slot).any (fun c => c.images.any (fun e => e.1 == h)))
    let s1 := if fresh then
        (s0.updCtx t0.slot (fun c => { c with images := c.images ++ [(h, (c.imageFit (imageKiB t0.spsave)).getD 0, imageKiB t0.spsave)] })).updLaunch t0.slot t0.launch.toNat (fun l =>
          { l with units := l.units.modify t0.unit.toNat (fun u => { u with nextIndex := u.nextIndex + 1, offered := false }) })
      else s0
    match s1.findCore core with
    | none => s
    | some c =>
      let s2 := s1.updCore core (fun c => { restorePad t0 c zero with runs := h })
      let go := fun (t : Strand) =>
        { t with core := core, since := c.cyc, slice := c.cyc, readyAt := 0, spimage := ([] : Mem), spBad := [], parked := false, parkAt := 0, preempt := false
                 a := t.a.restart c.cyc, x := t.x.restart c.cyc, phase := if t.logIsFull then .stopping else .running, logFull := t.logIsFull, wants := none, failsVa := none, failsPa := none
                 index := if fresh then BitVec.ofNat 16 (new.elim 0 (·.nextIndex)) else t.index }
      s2.updStrand h go

/-- The image slot of a strand is there or can be reserved. -/
def State.slotRoom (s : State) (t : Strand) : Bool :=
  (s.ctxAt t.slot).any (fun c => c.images.any (fun e => e.1 == t.h) || (c.imageFit (imageKiB t.spsave)).isSome)

-- ## What a free core takes (R259, R276)

/-- The order of ready strands: the one ready longest, then the lower context number, launch, stage and index. -/
def readyKey (t : Strand) : List Nat := [t.readyAt, t.ctx.toNat, t.launch.toNat, t.unit.toNat, t.index.toNat]

def lexLt : List Nat → List Nat → Bool
  | a :: r, b :: q => decide (a < b) || (a == b && lexLt r q)
  | _, _ => false

/-- The first of a list in an order. -/
def firstBy (lt : α → α → Bool) : List α → Option α
  | [] => none
  | a :: r =>
    match firstBy lt r with
    | none => some a
    | some b => if lt b a then some b else some a

/-- A ready strand of a class that may go onto a core; one whose tiles wait in the file of another free core goes there, and a
pre-empted feeder goes back to its core (R208). -/
def State.readyFor (s : State) (core cls : Nat) (t : Strand) : Bool :=
  t.h != 0 && (t.core == core || !(t.a.started || t.x.started) || !(s.feeder t)) && t.phase == .ready && s.strandClass t == cls && s.mayRun t.slot cls core && s.slotRoom t &&
  ((s.launchAt t.slot t.launch.toNat).any (fun l => s.coreRoom t.slot l)) &&
  (match s.fileOf t.h with
   | some c => c.num == core || c.acclive == 0#8 || c.runs != 0 || !(s.mayRun t.slot cls c.num)
   | none => true)

/-- The effective class of a queue (R259). -/
def effClass (k : LQueue) (l : Launch) : Nat := if l.aged && decide (2 ≤ k.cls) then k.cls - 1 else k.cls

/-- The queues of PickLaunch: context, queue number, queue, head launch. -/
def State.pickable (s : State) (core cls : Nat) : List (Ctx × Nat × LQueue × Launch) :=
  s.pkg.ctxs.flatMap (fun c => c.queues.zipIdx.filterMap (fun (k, q) =>
    match (c.waiting q).head? with
    | some l =>
      if k.state = 1 ∧ l.state = .ready ∧ effClass k l = cls ∧ s.mayRun c.slot cls core ∧ s.coreRoom c.slot l then some (c, q, k, l) else none
    | none => none))

/-- PickLaunch: the launch, after the counters of the queues have moved. -/
def State.pickLaunch (s : State) (core cls : Nat) : Option (Ctx × Launch × LQueue) × State :=
  let qs := s.pickable core cls
  let sum : Nat := qs.foldl (fun n e => n + e.2.2.1.weight) 0
  let s1 := qs.foldl (fun (t : State) e => t.updQueue e.1.slot e.2.1 (fun k => { k with cur := k.cur + (k.weight : Int) })) s
  let better := fun (a b : Ctx × Nat × LQueue × Launch) =>
    let va := a.2.2.1.cur + (a.2.2.1.weight : Int)
    let vb := b.2.2.1.cur + (b.2.2.1.weight : Int)
    decide (vb < va) || (va == vb && lexLt [a.1.num, a.2.1] [b.1.num, b.2.1])
  match firstBy better qs with
  | none => (none, s)
  | some e => (some (e.1, e.2.2.2, e.2.2.1), s1.updQueue e.1.slot e.2.1 (fun k => { k with cur := k.cur - (sum : Int) }))

/-- The first ready strand of a class that may go onto a core (R276). -/
def State.firstReady (s : State) (core cls : Nat) : Option Strand :=
  firstBy (fun a b => lexLt (readyKey a) (readyKey b)) (s.allStrands.filter (fun t => s.readyFor core cls t))

/-- A free core takes a ready strand next: it is the first of the highest class that has a candidate (R259). -/
def State.takesNext (s : State) (core h : Nat) : Bool :=
  ((List.range 4).findSome? (fun cls => match s.firstReady core cls with
    | some t => some (t.h == h)
    | none => if (s.pickable core cls).isEmpty then none else some false)).getD false

/-- One class of a free core: a ready strand, else a launch, which starts with its first strand (R274); nothing happens where the
launch needs a handle and `h` is none that may be given. -/
def dispatchClass (core h cls : Nat) (s : State) : Option State :=
  match s.firstReady core cls with
  | some t => some (s.place t.h core false)
  | none =>
    if !(s.handleFree h) then (if (s.pickable core cls).isEmpty then none else some s)
    else
      let p := s.pickLaunch core cls
      match p.1 with
      | none => none
      | some (c, l, k) =>
        let s1 := (p.2.updLaunch c.slot l.id (fun l => { l with cls := k.cls })).setLState c.slot l.id .running
        if l.units.head?.any (·.cancelled) then some ((s1.settleLaunch c.slot l.id).refreshLaunches c.slot)
        else
          let s2 := s1.offer c l 0 h
          let s3 := if (s2.findStrand h).any (fun t => s2.slotRoom t) then s2.place h core false else s2
          some (s3.refreshLaunches c.slot)

/-- The running strand that a ready strand of a higher class pre-empts when no core that it may use is free (R290): of the
lowest class, and of those the one that has run longest. One of class C0 pre-empts on reserved cores only. -/
def State.victim (s : State) (u : Strand) : Option Nat :=
  let cls := s.strandClass u
  let cores := s.allCores.filter (fun c => s.mayRun u.slot cls c.num)
  if cores.any (fun c => c.runs == 0) then none
  else
    let ts := cores.filterMap (fun c => (s.findStrand c.runs).bind (fun t =>
      if cls < s.strandClass t ∧ t.phase = .running ∧ (cls ≠ 0 ∨ s.pkg.reserved c.num) then some (c.cyc - t.slice, t) else none))
    (firstBy (fun a b => decide (s.strandClass b.2 < s.strandClass a.2) ||
      (s.strandClass a.2 == s.strandClass b.2 && decide (b.1 < a.1))) ts).map (·.2.h)

/-- A core that is free takes the first candidate of the classes in order C0 to C3; `h` is the handle of a new strand. On a
core that is not, a ready strand of a higher class may make a pre-emption pending (R290). -/
def execCoreFreeDispatch (core h : Nat) (s : State) : Out :=
  .next (match s.findCore core with
    | none => s
    | some c =>
      if !((s.pkg.dies.getD (dieOf core) Die.start).up) then s
      else if c.runs ≠ 0 then
        (if s.allStrands.any (fun u => u.h != 0 && u.phase == .ready && s.victim u == some c.runs) then
          s.updStrand c.runs (fun t => { t with preempt := true }) else s)
      else ((List.range 4).findSome? (fun cls => dispatchClass core h cls s)).getD s)

/-- A stage offers a strand (R274, R275): its first one when its input has a record or closes, and another one while it holds
none that has not ended and more input may come; further ones when its input is full enough. -/
def mayOffer (s : State) (c : Ctx) (l : Launch) (stage : Nat) : Bool :=
  match l.units[stage]?, c.stageOf l stage with
  | some u, some (_, d) =>
    let depth := if stage = 0 then 256 else s.qdepth c.slot l.id (stage - 1)
    let occ := occupancy l stage
    let first := (s.unitStrands c.slot l.id stage).all (fun t => t.a.ended && t.x.ended) &&
      (if u.nextIndex = 0 then stage == 0 || occ != 0 || l.closed (stage - 1) else !(inputDone s l c.slot stage))
    let more := decide (max 2 (depth / 4) ≤ occ) && s.coreRoom c.slot l && u.nextIndex != 0 &&
      (decide (stage + 1 = l.units.length) || decide ((l.queue stage).length < d.qdepth))
    l.state == .running && !u.complete && !u.cancelled && !u.offered && (first || more)
  | _, _ => false

def execStageStrandOffer (slot launch stage h : Nat) (s : State) : Out :=
  .next (match s.ctxAt slot, s.launchAt slot launch with
    | some c, some l => if mayOffer s c l stage && s.handleFree h then s.offer c l stage h else s
    | _, _ => s)

-- ## The end of a strand (R146, R266, R288)

/-- A strand gone, with its image slot. -/
def State.dropStrand (s : State) (h : Nat) : State :=
  match s.findStrand h with
  | none => s
  | some t =>
    let s1 : State := if s.strand.h = h then { s with strand := Strand.none } else { s with strands := s.strands.filter (fun u => u.h != h) }
    s1.updCtx t.slot (fun c => { c with images := c.images.filter (fun e => e.1 != h) })

/-- An ended strand whose side log is empty and whose copies and chains are done counts as complete; the ends of its unit
and of its launch follow. -/
def execStrandComplete (h : Nat) (s : State) : Out :=
  .next (match s.findStrand h with
    | none => s
    | some t =>
      if t.phase = .ended ∧ t.sidelog.isEmpty ∧ t.acc.isEmpty ∧ t.copiesDone ∧ t.chainsDone ∧ s.pkg.epQuiet t.h then
        (s.dropStrand h).settleLaunch t.slot t.launch.toNat
      else s)

end Sys2Proof.Machine
end

