-- ==== Sys2Proof/Machine/Kernel.lean ====
section
/-! DEFINITION. Firmware requests (spec/14_context.md R284), loading and unloading kernels, the instruction cache and its
errors, the watchdog (spec/11_kernel.md R239 to R250). -/

namespace Sys2Proof.Machine

-- ## Firmware requests (R284)

def FwReq.fld (r : FwReq) (w hi lo : Nat) : Nat := bits ((r.words.getD w 0#64).toNat) hi lo
def FwReq.op (r : FwReq) : Nat := r.fld 0 63 56
def FwReq.sig (r : FwReq) : Bool := r.fld 0 16 16 == 1
def FwReq.arg0 (r : FwReq) : Nat := r.fld 1 63 0
def FwReq.arg1 (r : FwReq) : Nat := r.fld 2 63 0

/-- The context that a request concerns; none for CREATE and MODE. -/
def FwReq.slotOf (r : FwReq) : Option Nat :=
  if !r.host then some r.slot else if r.op = 8 ∨ r.op = 9 then none else some (r.fld 0 41 32)

/-- A reserved field is set, or the op is unknown. -/
def FwReq.malformed (r : FwReq) : Bool :=
  r.fld 0 55 42 != 0 || r.fld 0 31 17 != 0 || r.op == 0 || decide (9 < r.op) || (r.words.drop 3).take 4 != List.replicate 4 0#64

/-- The ring of a request does not accept its op: RESUME, CREATE and MODE come from the host. -/
def FwReq.wrongRing (r : FwReq) : Bool := !r.host && (r.op == 4 || r.op == 8 || r.op == 9)

/-- The request that a record names, when firmware may serve it now: the first of its ring, and of the requests that concern
its context. A MODE that waits for the contexts to go, and a DESTROY already answered, hold nothing up; a DESTROY of the host is answered at
its end. -/
def State.reqTurn (s : State) (n : Nat) : Option FwReq :=
  match s.pkg.fwreqs.find? (fun r => r.n == n) with
  | none => none
  | some r =>
    let earlier := (s.pkg.fwreqs.takeWhile (fun q => q.n != n)).filter (fun q =>
      !(s.pkg.modeReq.any (fun m => m.1 == q.n)) && (q.host || !(q.words.getD 7 0#64).getLsbD 32))
    if earlier.any (fun q => (q.host == r.host && (r.host || q.slot == r.slot)) || (q.slotOf.isSome && q.slotOf == r.slotOf)) then none else some r

/-- A request served: word 0x38, then cons, then the done event. -/
def State.serve (s : State) (r : FwReq) (status value : Nat) : State :=
  let word := BitVec.ofNat 64 (status * 2 ^ 56 + 2 ^ 32 + value)
  let s1 := s.updPkg (fun p => { p with fwreqs := p.fwreqs.filter (fun q => q.n != r.n) })
  let s2 := if r.host then s1.report (.served r.n word)
    else
      match s1.ctxAt r.slot with
      | none => s1
      | some c =>
        let t := s1.engPostWord r.slot (r.at_ + 0x38) word
        t.engPostWord r.slot (c.ringBase + 8) (BitVec.ofNat 64 (t.engGet r.slot (c.ringBase + 8) + 1))
  match r.slotOf with
  | some slot => if r.sig && decide (status < 0xFE) then s2.signal slot (r.fld 0 15 0) else s2
  | none => s2

/-- A request of an op served by a function of the request and its context. -/
def State.onReq (s : State) (n op : Nat) (f : FwReq → Ctx → State → State) : State :=
  match s.reqTurn n with
  | none => s
  | some r =>
    if r.op ≠ op ∨ r.malformed ∨ r.wrongRing then s
    else
      match r.slotOf.bind (fun k => s.ctxAt k) with
      | none => s
      | some c => f r c s

/-- Requests that are served as bad when their turn comes (R284). -/
def State.serveBad (s : State) : Nat → State
  | 0 => s
  | k + 1 =>
    match s.pkg.fwreqs.find? (fun r => (s.reqTurn r.n).isSome && (r.malformed || r.wrongRing ||
        (r.slotOf.isSome && (r.slotOf.bind (fun c => s.ctxAt c)).isNone && !(r.words.getD 7 0#64).getLsbD 32))) with
    | none => s
    | some r => (s.serve r (if r.malformed then 0xFE else 0xFF) 0).serveBad k

/-- Firmware reads the new records of the host ring by DMA (R284): not when the ring does not lie inside the host DMA window
(R19). -/
def execHostDoorbell (recs : List (List W64)) (s : State) : Out :=
  let base := bits s.pkg.hrbase.toNat 63 12 * 4096
  let n := bits s.pkg.hrbase.toNat 11 0 + 1
  let lo := bits s.pkg.lock.hbase.toNat 63 12 * 4096
  let hi := bits s.pkg.lock.hlim.toNat 63 12 * 4096
  if !(decide (lo ≤ base) && decide (base + 64 + 64 * n ≤ hi)) then .next (s.report (.dmaRefused base))
  else
    let held := (s.pkg.fwreqs.filter (fun r => r.host)).length
    let new := recs.take (n - held)
    let s1 := new.foldl (fun (t : State) w => t.updPkg (fun p => { p with
      fwreqs := p.fwreqs ++ [{ n := p.fwNo, host := true, slot := 0, at_ := 0, words := (w ++ List.replicate 8 0#64).take 8 }]
      fwNo := p.fwNo + 1 })) s
    .next (s1.serveBad s1.pkg.fwreqs.length)

-- ## Instruction-cache lines (R249, R250)

/-- The lines that a context has pinned (R241). -/
def Ctx.pins (c : Ctx) : List Nat := dedup (c.kernels.flatMap (·.pins))

/-- The lines that a context has pinned on the cores of a die (R286, R294). -/
def Ctx.pinsOn (c : Ctx) (die : Nat) : List Nat := dedup ((c.kernels.filter (fun k => k.pinDies.getLsbD die)).flatMap (·.pins))

/-- Lines pinned on the cores of a die if a context pinned all of its lines there, and `more` too. -/
def State.pinsWith (s : State) (c : Ctx) (die : Nat) (more : List Nat := []) : Nat :=
  (s.pkg.ctxs.filter (fun x => x.slot != c.slot)).foldl (fun n x => n + (x.pinsOn die).length) 0 + (dedup (c.pins ++ more)).length

/-- A line put into the cache of a core: of the same line one copy, and the oldest unpinned line leaves a full cache. -/
def Core.putLine (c : Core) (l : ILine) : Core :=
  let rest := c.icache.filter (fun k => !(k.slot == l.slot && k.line == l.line))
  let fit := if rest.length < Config.icacheLines then rest
    else match rest.findIdx? (fun k => !k.pinned) with
      | some i => rest.eraseIdx i
      | none => rest
  { c with icache := fit ++ [l] }

/-- The bytes of a range of a page at their homes, some of which may lie in another package, whose lines are asked for: of a page with
ca = 1 no copy of the remote cache serves (R304). -/
def State.fetchBytes (s : State) (pa n key : Nat) (l2only : Bool) : Eng (List Byte) × State :=
  (linePieces pa n).foldl (fun (acc : Eng (List Byte) × State) pc =>
    match acc.1 with
    | .ok bs =>
      let home := homeOf acc.2.pkg pc.1
      if paPkg home = acc.2.pkg.num then
        let r := acc.2.readAs (paLocal home) pc.2 key
        (if poisoned r.2.pkg (paLocal home) pc.2 then .poison home else .ok (bs ++ r.1), r.2)
      else
        (match acc.2.pkg.copyOf .none l2only home with
         | some l => (.ok (bs ++ (l.data.drop (home % 64)).take pc.2), acc.2)
         | none =>
           let f := acc.2.farLine home
           (f.1, match f.1 with
             | .remote pa => f.2.askRemote pa
             | _ => f.2))
    | e => (e, acc.2)) (.ok [], s)

/-- The kernel of a context whose object holds a line, else the one of the strand that fetched it. -/
def State.kernelOf (s : State) (slot line own : Nat) : Nat :=
  ((s.ctxAt slot).bind (fun c => c.kernels.find? (fun k => overlap (256 * line) 256 k.va k.objsize))).elim own (·.handle)

/-- The latent record of a poisoned line (R250): core, context, kernel and physical address, 0 for an unmapped one. -/
def State.latentLine (s : State) (core slot own line : Nat) : State :=
  s.report (.latent core slot (s.kernelOf slot line own) line (match (s.engTranslate slot (256 * line) .fetch).1 with
    | .ok e => e.addr (256 * line)
    | .fault _ | .poison _ => 0))

/-- The stream of the strand in the foreground that waits for a line. -/
def waitsLine (s : State) (line : Nat) : Option Stream :=
  let want := fun (q : Seq) => !q.ended && !q.trapped && decide (q.last < q.tried) && q.pc.toNat / 256 == line &&
    !(s.core.icache.any (fun l => l.slot == s.strand.slot && l.line == line && !l.poisoned))
  if want s.strand.a then some .a else if want s.strand.x then some .x else none

/-- A trap at the word that a waiting stream could not fetch. -/
def trapFetch (st : Stream) (c : Cause) (v : W64) (s : State) : State :=
  { takeTrap c v { s with stream := st } with stream := s.stream }

/-- A line fetched for the strand in the foreground (R249, R250): for execution when a stream waits for it, else as a
prefetch, which never traps. `bad` says that an uncorrectable error is found in the memory copy. -/
def fetchLine (line : Nat) (bad : Bool) (s : State) : State :=
  let slot := s.strand.slot
  let need := waitsLine s line
  let r := s.translate slot (256 * line) .fetch
  match r.1 with
  | .fault why =>
    (match need with
     | some st =>
       let pc := (r.2.strand.seq st).pc
       trapFetch st .pageLoad (pc.zeroExtend 64) (r.2.faultAt st pc.toNat .fetch why)
     | none => r.2)
  | .poison a =>
    (match need with
     | some st => (trapFetch st .eccUncorr (BitVec.ofNat 64 a) r.2).endBound r.2.strand.h a
     | none => r.2)
  | .ok e =>
    let pa := homeOf r.2.pkg (e.addr (256 * line))
    let pin := (r.2.ctxAt slot).any (fun c => c.pins.contains line)
    let s1 := if bad && paPkg pa == r.2.pkg.num then r.2.uncorrectable (paLocal pa) else r.2
    let q := s1.fetchBytes (e.addr (256 * line)) 256 e.key e.l2only
    let put := fun (poisoned : Bool) (ws : List W64) =>
      { q.2 with core := q.2.core.putLine { slot := slot, line := line, pinned := pin, poisoned := poisoned, words := ws } }
    match q.1, need with
    | .ok bs, _ => (put false (wordsOf bs)).usedUp .none
    | .poison at_, some st => (trapFetch st .eccUncorr (BitVec.ofNat 64 at_) q.2).endBound q.2.strand.h at_
    | .poison _, none => (put true []).latentLine q.2.core.num slot q.2.strand.kernel line
    | .remote far, some st =>
      if q.2.pkg.allows (paPkg far) then q.2 else trapFetch st .pageLoad ((q.2.strand.seq st).pc.zeroExtend 64) q.2
    | _, _ => q.2

/-- Done with a core and the strand it runs in the foreground. -/
def State.atCoreStrand (s : State) (core : Nat) (f : State → State) : State :=
  match s.findCore core with
  | none => s
  | some c => if c.runs = 0 then s else s.onStrand c.runs f

/-- The lines of the targets of a word at an address: BR, CALL, and a LOOP's body and what follows it (R249). -/
def targetsOf (w : W64) (pc : PC) : List Nat :=
  let ln := fun (p : PC) => p.toNat / 256
  match decode w with
  | .ok (_, .br off) => [ln (branchTo pc off)]
  | .ok (_, .call _ off) => [ln (branchTo pc off)]
  | .ok (_, .loop _ body) => [ln (pc + 8#56), ln (pc + 8#56 + 8#56 * body.zeroExtend 56)]
  | _ => []

/-- The lines that a stream of the strand in the foreground may prefetch (R249): its own, four ahead, and those of the targets in
the ones that it holds. -/
def prefetches (s : State) (q : Seq) : List Nat :=
  let seq := (List.range 5).map (fun i => q.pc.toNat / 256 + i)
  seq ++ (s.core.icache.filter (fun l => l.slot == s.strand.slot && seq.contains l.line)).flatMap (fun l =>
    (List.range 32).flatMap (fun i => let p : PC := BitVec.ofNat 56 (256 * l.line + 8 * i); targetsOf (l.word p) p))

/-- A line that may be fetched now: a stream's, or a pinned one of its context that an error has made absent. -/
def mayFill (s : State) (line : Nat) : Bool :=
  (!s.strand.a.ended && (prefetches s s.strand.a).contains line) || (!s.strand.x.ended && (prefetches s s.strand.x).contains line) ||
    (s.ctxAt s.strand.slot).any (fun c => c.pins.contains line)

/-- A line arrives in the cache of the core that runs a strand. -/
def execIcacheLineFill (core line : Nat) (s : State) : Out :=
  .next (s.atCoreStrand core (fun t => if t.strand.phase = .running && mayFill t line then fetchLine line false t else t))

/-- A line poisoned in the cache of a core, with its latent record (R250). -/
def State.poisonLine (s : State) (core slot own line : Nat) (pin : Bool) : State :=
  (s.updCore core (fun c =>
    if c.icache.any (fun l => l.slot == slot && l.line == line) then
      { c with icache := c.icache.map (fun l => if l.slot = slot ∧ l.line = line then { l with poisoned := true } else l) }
    else c.putLine { slot := slot, line := line, pinned := pin, poisoned := true, words := [] })).latentLine core slot own line

/-- An error in a code line (R250): parity found at fetch; an uncorrectable error in the data of a prefetch, or of the fill of a line
that a context has pinned on the core; one of a fetch for execution whose memory copy reads good, or bad, when it is read again. -/
def execIcacheError (core line : Nat) (kind : ICacheErr) (s : State) : Out :=
  match kind with
  | .parity =>
    .next (s.atCoreStrand core (fun t =>
      { t with core := { t.core with icache := t.core.icache.filter (fun l => !(l.slot == t.strand.slot && l.line == line)) } }.report
        (.icacheFixed core line)))
  | .prefetch =>
    .next (s.atCoreStrand core (fun t =>
      if (waitsLine t line).isSome || !(mayFill t line) then t
      else t.poisonLine core t.strand.slot t.strand.kernel line ((t.ctxAt t.strand.slot).any (fun c => c.pins.contains line))))
  | .pin slot =>
    .next (if (s.ctxAt slot).any (fun c => c.dies.getLsbD (dieOf core) && (c.pinsOn (dieOf core)).contains line) then
        s.poisonLine core slot 0 line true
      else s)
  | .fetchGood => .next (s.atCoreStrand core (fun t => if (waitsLine t line).isSome then fetchLine line false t else t))
  | .fetchBad => .next (s.atCoreStrand core (fun t => if (waitsLine t line).isSome then fetchLine line true t else t))

/-- A word that meets no cause of R73 before WATCHDOG: it checks nothing, and no queue is among its operands. -/
def plainWord (i : Instr) : Bool :=
  !(queueWord i) && match i with
  | .nop | .br _ | .call _ _ | .add _ _ _ | .sub _ _ _ | .addi _ _ _ | .mul _ _ _ | .and _ _ _ | .or _ _ _ | .xor _ _ _
  | .shl _ _ _ | .shr _ _ _ | .sha _ _ _ | .limm _ _ | .mov _ _ | .clz _ _ | .popc _ _ => true
  | _ => false

/-- The next word of a stream is due and would take its iteration count above the bound (R248): WATCHDOG at that word. A word that
may meet another cause takes WATCHDOG when it issues, if no cause comes before it (R73). -/
def execWatchdog (st : Stream) (s : State) : Out :=
  match nextStream s with
  | none => .next s
  | some (u, c) =>
    if u ≠ st ∨ !(mayIssue s c) then .next s
    else match fetchAt st c s with
      | .run i t => if plainWord i && overBound t st then trapOut .watchdog (BitVec.ofNat 64 t.strand.iterbound) t else .next s
      | _ => .next s

-- ## Code objects (R239 to R245)

/-- A code object as read. -/
structure Obj where
  va : Nat
  hdr : List W64
  bytes : List Byte

def Obj.fld (o : Obj) (w hi lo : Nat) : Nat := bits ((o.hdr.getD w 0#64).toNat) hi lo
def Obj.size (o : Obj) : Nat := o.fld 3 63 0
def Obj.stages (o : Obj) : Nat := o.fld 2 6 4 + 1
def Obj.npin (o : Obj) : Nat := o.fld 2 15 8
def Obj.word (o : Obj) (off : Nat) : Nat := leNat ((o.bytes.drop off).take 8)
/-- Field of the descriptor of a stage (R240). -/
def Obj.desc (o : Obj) (st off hi lo : Nat) : Nat := bits (o.word (0x40 + 0xC0 * st + off)) hi lo

def Obj.stage (o : Obj) (st : Nat) : StageD :=
  { aoff := o.desc st 0 63 32, awords := o.desc st 0 31 0, xoff := o.desc st 8 63 32, xwords := o.desc st 8 31 0,
    iterbound := o.desc st 0x10 63 32, spsave := BitVec.ofNat 32 (o.desc st 0x18 63 32), rows := o.desc st 0x18 28 24,
    cols := o.desc st 0x18 21 16, qdepth := o.desc st 0x18 12 0,
    rings := (List.range 16).map (fun k => BitVec.ofNat 64 (o.word (0x40 + 0xC0 * st + 0x40 + 8 * k))) }

def Obj.pinEntry (o : Obj) (i : Nat) : Nat := o.word (o.fld 4 63 32 + 8 * i)

/-- The ranges of the object that shall not overlap (R245): header and descriptors, sections, pin table, data. -/
def Obj.parts (o : Obj) : List (Nat × Nat) :=
  (0, 0x40 + 0xC0 * o.stages) :: ((List.range o.stages).flatMap (fun st =>
    let d := o.stage st; [(d.aoff, 8 * d.awords), (d.xoff, 8 * d.xwords)]) ++ [(o.fld 4 63 32, 8 * o.npin), (o.fld 4 31 0, o.fld 5 63 32)])

def disjoint : List (Nat × Nat) → Bool
  | [] => true
  | a :: r => r.all (fun b => a.2 == 0 || b.2 == 0 || !(overlap a.1 a.2 b.1 b.2)) && disjoint r

/-- The lines that a pin entry covers, as 256-byte blocks of the object. -/
def pinBlocks (e : Nat) : List Nat := (List.range (bits e 15 0)).map (fun i => bits e 63 32 / 256 + i)

/-- A block holds a word of a code section. -/
def Obj.hasCode (o : Obj) (b : Nat) : Bool :=
  (List.range o.stages).any (fun st => let d := o.stage st; overlap d.aoff (8 * d.awords) (256 * b) 256 || overlap d.xoff (8 * d.xwords) (256 * b) 256)

/-- The pinned lines of the object. -/
def Obj.pins (o : Obj) : List Nat :=
  if o.fld 2 0 0 = 0 then [] else dedup (((List.range o.npin).flatMap (fun i => pinBlocks (o.pinEntry i))).map (fun b => o.va / 256 + b))

/-- The structure of the object (status 3). -/
def Obj.structOk (o : Obj) : Bool :=
  o.va % 4096 == 0 && o.fld 1 63 16 == 0 && o.fld 2 63 16 == 0 && o.fld 2 7 7 == 0 && o.fld 2 3 1 == 0 && o.fld 5 31 0 == 0 &&
  o.fld 6 63 0 == 0 && o.fld 7 63 0 == 0 && decide (o.npin ≤ 64) && o.fld 4 63 32 % 8 == 0 && o.fld 4 31 0 % 8 == 0 &&
  (o.parts).all (fun p => decide (p.1 + p.2 ≤ o.size)) && disjoint o.parts &&
  (List.range o.stages).all (fun st =>
    let d := o.stage st
    o.desc st 0x10 31 0 == 0 && o.desc st 0x18 31 29 == 0 && o.desc st 0x18 23 22 == 0 && o.desc st 0x18 15 13 == 0 &&
    (List.range 4).all (fun i => o.word (0x40 + 0xC0 * st + 0x20 + 8 * i) == 0) && d.aoff % 8 == 0 && d.xoff % 8 == 0 &&
    d.awords != 0 && d.xwords != 0 && ((d.rows == 0 && d.cols == 0) || shapeOk d.rows d.cols) &&
    (if st + 1 = o.stages then d.qdepth == 0 else decide (16 ≤ d.qdepth) && decide (d.qdepth ≤ 4096)) && d.rings.all ringOk) &&
  (o.fld 2 0 0 == 0 || (List.range o.npin).all (fun i =>
    let e := o.pinEntry i
    bits e 63 32 % 256 == 0 && bits e 31 16 == 0 && bits e 15 0 != 0 && decide (bits e 15 0 ≤ 64) && (pinBlocks e).all o.hasCode))

/-- The leaf that maps an address: where it lies and its value. -/
def leafFrom (va : Nat) (level table : Nat) (s : State) : Option (Nat × Nat) :=
  let a := paLocal table + 8 * walkIndex va level
  let w := (s.readWord a).1
  if w % 2 = 0 then none
  else if bits w 1 1 = 1 then some (a, w)
  else
    match level with
    | 0 => none
    | l + 1 => leafFrom va l (bits w 57 12 * 4096) s

def State.leafAt (s : State) (slot va : Nat) : Option (Nat × Nat) := (s.ctxAt slot).bind (fun c => leafFrom va 4 c.root s)

/-- The entries that hold a leaf: the 16 of a 64 KiB page (R302). -/
def leafEntries (a w : Nat) : List Nat := if bits w 11 10 = 1 then (List.range 16).map (fun i => a / 128 * 128 + 8 * i) else [a]

/-- A leaf rewritten in every entry that holds it. -/
def State.putLeaf (s : State) (a old new : Nat) : State :=
  (leafEntries a old).foldl (fun t e => t.writeHome (t.pkg.entryAt e) (leBytes 8 new)) s

/-- The writable leaves of an object made read-only (R246): an address of each with the entry's earlier value. -/
def protectPages (slot : Nat) : List (Nat × Nat) → State → List (Nat × W64) × State
  | [], s => ([], s)
  | p :: r, s =>
    match s.leafAt slot p.1 with
    | some (a, w) =>
      if bits w 6 6 = 1 then
        let q := protectPages slot r (s.putLeaf a w (w - 64))
        ((p.1, BitVec.ofNat 64 w) :: q.1, q.2)
      else protectPages slot r s
    | none => protectPages slot r s

/-- Every pinned line of a context filled into the cores on which it may run strands and that lack it (R246, R249); a poisoned copy in
memory poisons the line there (R250). A line that cannot be read now is filled when it is next fetched. -/
def State.fillPins (s : State) (c : Ctx) : State :=
  let s1 := s.updCtx c.slot (fun x => { x with kernels := x.kernels.map (fun k => { k with pinDies := k.pinDies ||| c.dies }) })
  c.pins.foldl (fun (t : State) line =>
    let lacks := fun (k : Core) => c.dies.getLsbD (dieOf k.num) &&
      !(k.icache.any (fun l => l.slot == c.slot && l.line == line && l.pinned && !l.poisoned))
    if !(t.allCores.any lacks) then t
    else
      let r := t.engRead c.slot (256 * line) 256
      match r.1 with
      | .ok bs => r.2.mapCores (fun k =>
          if lacks k then k.putLine { slot := c.slot, line := line, pinned := true, poisoned := false, words := wordsOf bs } else k)
      | .poison _ => (r.2.allCores.filter lacks).foldl (fun u k => u.poisonLine k.num c.slot 0 line true) r.2
      | .remote pa => r.2.askRemote pa
      | .fault _ _ => r.2) s1

/-- The lowest handle that no kernel of the context holds (R245). -/
def Ctx.freeHandle (c : Ctx) : Nat := ((List.range 65536).find? (fun h => h != 0 && !(c.kernels.any (fun k => k.handle == h)))).getD 0

/-- The checks of R245 in order: the status, and the object when it is loaded. -/
def loadCheck (c : Ctx) (va : Nat) (s : State) : Nat × Option Obj × State :=
  let fail := fun (st : Nat) (s : State) => ((st, none, s) : Nat × Option Obj × State)
  if Config.localBase < va + 64 ∨ !(s.residentRange c.slot va 64) then fail 6 s
  else
    let r := s.engRead c.slot va 64
    match r.1 with
    | .ok hb =>
      let o0 : Obj := { va := va, hdr := wordsOf hb, bytes := [] }
      if o0.fld 0 63 32 ≠ 0x314B4C4B ∨ o0.fld 0 31 16 ≠ 1 ∨ o0.fld 0 15 0 ≠ 64 then fail 1 r.2
      else if Config.localBase < va + o0.size ∨ !(r.2.residentRange c.slot va o0.size) then fail 6 r.2
      else
        let q := r.2.engRead c.slot va o0.size
        (match q.1 with
         | .ok bs =>
           let o := { o0 with bytes := bs }
           let s := q.2
           let pins := o.pins
           let allowed := (List.range 8).filter (fun n => c.dies.getLsbD n)
           if o.fld 1 3 0 = 0 ∨ 1 < o.fld 1 3 0 ∨ 1 < o.fld 1 7 4 ∨ 1 < o.fld 1 11 8 ∨ 1 < o.fld 1 15 12 then fail 2 s
           else if !o.structOk then fail 3 s
           else if 64 < (dedup (c.pins ++ pins)).length then fail 4 s
           else if allowed.any (fun n => decide (192 < s.pinsWith c n pins)) then fail 5 s
           else if 256 ≤ c.kernels.length ∨ 4096 ≤ s.pkg.ctxs.foldl (fun n k => n + k.kernels.length) 0 then fail 7 s
           else if (List.range o.stages).any (fun st => decide (64 * c.fld 8 63 32 < imageKiB (o.stage st).spsave)) then fail 9 s
           else (0, some o, s)
         | _ => fail 6 q.2)
    | _ => fail 6 r.2

/-- LOAD (R245, R246). -/
def execLoad (n : Nat) (s : State) : Out :=
  .next (s.onReq n 1 (fun r c s =>
    let q := loadCheck c r.arg0 s
    match q.2.1 with
    | none => q.2.2.serve r q.1 0
    | some o =>
      let h := c.freeHandle
      let p := protectPages c.slot (pieces o.va o.size) q.2.2
      let k : Kernel := { handle := h, va := o.va, objsize := o.size, gi := o.fld 1 15 12 != 0, gm := o.fld 1 11 8 != 0,
                          gv := o.fld 1 7 4 != 0, stages := (List.range o.stages).map o.stage, pins := o.pins, perms := p.1, pinDies := c.dies }
      let s1 := (p.2.updCtx c.slot (fun c => { c with kernels := c.kernels ++ [k] })).dropPkg c.slot o.va (o.va + o.size)
      -- no line of an earlier object at these addresses is left
      let s2 := s1.mapCores (fun m => { m with icache := m.icache.filter (fun l =>
        !(l.slot == c.slot && overlap (256 * l.line) 256 o.va o.size)) })
      (s2.fillPins { c with kernels := c.kernels ++ [k] }).serve r 0 h))

/-- Another loaded kernel of the context covers the leaf of an address, whichever of its entries that is (R302). -/
def coversLeaf (slot va : Nat) (s : State) (k : Kernel) : Bool :=
  (s.leafAt slot va).any (fun m => (pieces k.va k.objsize).any (fun p =>
    (s.leafAt slot p.1).any (fun e => (leafEntries e.1 e.2).contains m.1)))

/-- The leaf of an address, made read-only, gets back its permission to be written; a migration may have changed the rest of it, and
moved the table. -/
def State.restoreWrite (s : State) (slot va : Nat) : State :=
  match s.leafAt slot va with
  | some (a, w) => if bits w 6 6 = 0 then s.putLeaf a w (w + 64) else s
  | none => s

/-- A kernel leaves its context (R247): its leaves get back their earlier permissions, unless another kernel still covers
them, which then keeps them; its pins are released. -/
def State.unloadKernel (s : State) (c : Ctx) (k : Kernel) : State :=
  let rest := c.kernels.filter (fun x => x.handle != k.handle)
  let step := fun (acc : List Kernel × State) (e : Nat × W64) =>
    match acc.1.findIdx? (fun x => coversLeaf c.slot e.1 s x) with
    | some i => (acc.1.modify i (fun x => { x with perms := x.perms ++ [e] }), acc.2)
    | none => (acc.1, acc.2.restoreWrite c.slot e.1)
  let q := k.perms.foldl step (rest, s)
  let left := dedup (q.1.flatMap (·.pins))
  (q.2.updCtx c.slot (fun c => { c with kernels := q.1 })).mapCores (fun m =>
    { m with icache := m.icache.map (fun l => if l.slot = c.slot ∧ !(left.contains l.line) then { l with pinned := false } else l) })

/-- UNLOAD (R247): refused while a launch of the kernel is pending or running. -/
def execUnload (n : Nat) (s : State) : Out :=
  .next (s.onReq n 2 (fun r c s =>
    match c.kernel r.arg0 with
    | none => s.serve r 10 0
    | some k =>
      if c.launches.any (fun l => l.handle == k.handle && l.state.held) then s.serve r 8 0
      else (s.unloadKernel c k).serve r 0 0))

end Sys2Proof.Machine
end

