-- ==== Sys2Proof/Machine/Predicate.lean ====
section
/-! DEFINITION. The predicate instructions, opcodes 0x30 to 0x37 (spec/04_scalar.md R105 to R107). -/

namespace Sys2Proof.Machine

/-- The linear index of a position of a shape: i × C + j (R105). -/
def linear (b : BitVec 13) (p : Nat) : Nat := (p / 32) * shCols b + p % 32

/-- The position of a linear index. -/
def position (b : BitVec 13) (k : Nat) : Nat := 32 * (k / shCols b) + k % shCols b

/-- The number of elements of a shape. -/
def shSize (b : BitVec 13) : Nat := shRows b * shCols b

/-- A predicate word over the shape of its stream. -/
def predWord (pd : Fin 8) (v : Pred) (s : State) : Out := retire s (putP pd v 1 s)

/-- The number of 1 elements of a predicate within a shape. -/
def countIn (b : BitVec 13) (v : Pred) : Nat := ((List.range 512).filter (fun p => inShape b p && v.getLsbD p)).length

/-- The lowest linear index whose element is 1. -/
def firstIn (b : BitVec 13) (v : Pred) : Option Nat :=
  (List.range (shSize b)).find? (fun k => v.getLsbD (position b k))

def execPand (pd ps1 ps2 : Fin 8) (s : State) : Out := predWord pd (s.seq.pred ps1 &&& s.seq.pred ps2) s
def execPor (pd ps1 ps2 : Fin 8) (s : State) : Out := predWord pd (s.seq.pred ps1 ||| s.seq.pred ps2) s
def execPxor (pd ps1 ps2 : Fin 8) (s : State) : Out := predWord pd (s.seq.pred ps1 ^^^ s.seq.pred ps2) s
def execPnot (pd ps1 : Fin 8) (s : State) : Out := predWord pd (~~~(s.seq.pred ps1)) s

/-- The first-n mask of R107: n is SInt(s1) + imm clamped to 0 to rows × columns. -/
def psetMask (b : BitVec 13) (v : W64) (imm : BitVec 24) : Pred :=
  let n := (v.toInt + imm.toInt).toNat
  predOf (fun p => inShape b p && decide (linear b p < n))

def execPset (pd : Fin 8) (s1 : SOp) (imm : BitVec 24) (s : State) : Out :=
  gated (sPops s1) [] s
    (let r := takeS s1 s
     retire s (putP pd (psetMask s.shape r.1 imm) 1 r.2))

def execPany (pd ps1 : Fin 8) (s : State) : Out :=
  predWord pd (if countIn s.shape (s.seq.pred ps1) = 0 then 0#512 else BitVec.allOnes 512) s

def execPcnt (d : SOp) (ps1 : Fin 8) (s : State) : Out :=
  scalarWord d [] 1 (fun _ => BitVec.ofNat 64 (countIn s.shape (s.seq.pred ps1))) s

def execPfirst (d : SOp) (ps1 : Fin 8) (s : State) : Out :=
  scalarWord d [] 1
    (fun _ => match firstIn s.shape (s.seq.pred ps1) with
      | some k => BitVec.ofNat 64 k
      | none => BitVec.allOnes 64) s

end Sys2Proof.Machine
end

