-- ==== Sys2Proof/Machine/Vector.lean ====
section
/-! DEFINITION. The vector-class instructions, opcodes 0x40 to 0x64 and 0x80 to 0x88 (spec/05_vector.md R108 to R134,
spec/17_request.md R370). -/

namespace Sys2Proof.Machine

-- ## Lanes (R110)

/-- Lane b of width w of a container. -/
def lane (w : Nat) (c : W32) (b : Nat) : Nat := c.toNat / 2 ^ (w * b) % 2 ^ w

/-- Lanes of width w packed, the first lowest. -/
def packLanes (w : Nat) (ls : List Nat) : W32 := BitVec.ofNat 32 (ls.foldr (fun l acc => l % 2 ^ w + 2 ^ w * acc) 0)

/-- The containers of a shape in linear order. -/
def linVals (sh : BitVec 13) (v : VReg) : List W32 := (List.range (shSize sh)).map (fun k => v.getD (position sh k) 0#32)

/-- Lane n of a list of containers in linear order. -/
def linLane (w : Nat) (cs : List W32) (n : Nat) : Nat := lane w (cs.getD (n / (32 / w)) 0#32) (n % (32 / w))

/-- Byte n of a list of containers in linear order. -/
def linByte (cs : List W32) (n : Nat) : Byte := BitVec.ofNat 8 (linLane 8 cs n)

/-- The lanes of row i of width w, in row lane index order. -/
def rowLanes (sh : BitVec 13) (w : Nat) (v : VReg) (i : Nat) : List Nat :=
  (List.range (shCols sh)).flatMap (fun j => (List.range (32 / w)).map (lane w (v.getD (32 * i + j) 0#32)))

-- ## Results

/-- What an element-wise function makes of one container: its value and flags. -/
abbrev Elem := W32 × Flags2

def noFlags : Flags2 := (0#5, 0#3)

/-- Flags of several lanes or elements together. -/
def allFlags (l : List Flags2) : Flags2 := l.foldl (fun a b => (a.1 ||| b.1, a.2 ||| b.2)) noFlags

/-- The elements of a mask computed; elsewhere 0 and no flag (R112). -/
def build (m : Pred) (f : Nat → Elem) : VReg × Flags2 :=
  let l := (List.range 512).map (fun p => if m.getLsbD p then f p else (0#32, noFlags))
  (l.map (·.1), allFlags (l.map (·.2)))

/-- A container made lane by lane. -/
def laneElem (w : Nat) (f : Nat → Nat × BitVec 5) : Elem :=
  let ls := (List.range (32 / w)).map f
  (packLanes w (ls.map (·.1)), (ls.foldl (fun a x => a ||| x.2) 0#5, 0#3))

/-- The container at a position of the n-th source. -/
def srcAt (vs : List VReg) (n p : Nat) : W32 := (vs.getD n VReg.zero).getD p 0#32

/-- A vector word: sources read in field order, a result per guard-true element, flags, one last-result slot. -/
def vectorWord (d : VDst) (srcs : List VSrc) (L : Nat) (f : List VReg → Pred → VReg × Flags2) (s : State) : Out :=
  gated (srcs.flatMap vPops) (vPushes d) s
    (let r := takeVs srcs s
     let m := guardMask s
     let q := f r.1 m
     retire s (putFlags q.2.1 q.2.2 L (putV d m q.1 L r.2)))

/-- An element-wise word on lanes of a type: `f` takes the lanes of the sources (R115). -/
def laneWord (d : VDst) (srcs : List VSrc) (w L : Nat) (f : List Nat → Nat × BitVec 5) (s : State) : Out :=
  vectorWord d srcs L (fun vs m => build m (fun p =>
    laneElem w (fun b => f (vs.map (fun v => lane w (v.getD p 0#32) b))))) s

/-- A word on whole containers that raises no flag. -/
def wholeWord (d : VDst) (srcs : List VSrc) (L : Nat) (f : List VReg → Nat → W32) (s : State) : Out :=
  vectorWord d srcs L (fun vs m => build m (fun p => (f vs p, noFlags))) s

/-- A word that writes a predicate from its sources (R117). -/
def vpredWord (p : Fin 8) (srcs : List VSrc) (L : Nat) (f : List VReg → Nat → Bool × BitVec 5) (s : State) : Out :=
  gated (srcs.flatMap vPops) [] s
    (let r := takeVs srcs s
     let m := guardMask s
     let fl := (List.range 512).foldl (fun a k => if m.getLsbD k then a ||| (f r.1 k).2 else a) 0#5
     retire s (putFlags fl 0#3 L (putVP p m (predOf (fun k => m.getLsbD k && (f r.1 k).1)) L r.2)))

/-- A word with one vector source followed by scalar sources, popped in field order (R56). -/
def mixedWord (d : VDst) (s1 : VSrc) (ss : List SOp) (L : Nat) (f : VReg → List W64 → Nat → W32) (s : State) : Out :=
  gated (vPops s1 ++ ss.flatMap sPops) (vPushes d) s
    (let r := takeV s1 s
     let q := takeSs ss r.2
     let m := guardMask s
     retire s (putV d m (build m (fun p => (f r.1 q.1 p, noFlags))).1 L q.2))

-- ## Arithmetic (R115, R116)

def lane1 (f : Nat → Nat × BitVec 5) : List Nat → Nat × BitVec 5
  | [a] => f a
  | _ => (0, 0#5)
def lane2 (f : Nat → Nat → Nat × BitVec 5) : List Nat → Nat × BitVec 5
  | [a, b] => f a b
  | _ => (0, 0#5)
def lane3 (f : Nat → Nat → Nat → Nat × BitVec 5) : List Nat → Nat × BitVec 5
  | [a, b, c] => f a b c
  | _ => (0, 0#5)

/-- The sign bit of every value inverted, a NaN's too (R115). -/
def flipX : FNum → FNum
  | .nan b f => .nan (!b) f
  | .inf b => .inf (!b)
  | .fin b k e => .fin (!b) k e

/-- A two-source operation on a type: exact on values, or on integers (R51, R41). -/
def arith2 (m : Md) (fx : FNum → FNum → FNum × Bool) (ix : Int → Int → Int) (a b : Nat) : Nat × BitVec 5 :=
  if m.ty.isF then deliverOp (fmtOf m.ty) m.rnd m.sat (fx (decodeF (fmtOf m.ty) a) (decodeF (fmtOf m.ty) b))
  else (wrapOrClamp m.ty.width m.sat (ix (sintOf m.ty.width a) (sintOf m.ty.width b)), 0#5)

def arith3 (m : Md) (fx : FNum → FNum → FNum → FNum × Bool) (ix : Int → Int → Int → Int) (a b c : Nat) :
    Nat × BitVec 5 :=
  if m.ty.isF then
    deliverOp (fmtOf m.ty) m.rnd m.sat (fx (decodeF (fmtOf m.ty) a) (decodeF (fmtOf m.ty) b) (decodeF (fmtOf m.ty) c))
  else (wrapOrClamp m.ty.width m.sat (ix (sintOf m.ty.width a) (sintOf m.ty.width b) (sintOf m.ty.width c)), 0#5)

def execVadd (d : VDst) (s1 s2 : VSrc) (m : Md) (s : State) : Out :=
  laneWord d [s1, s2] m.ty.width 2 (lane2 (arith2 m (addX m.rnd) (· + ·))) s
def execVsub (d : VDst) (s1 s2 : VSrc) (m : Md) (s : State) : Out :=
  laneWord d [s1, s2] m.ty.width 2 (lane2 (arith2 m (fun a b => addX m.rnd a (negX b)) (· - ·))) s
def execVmul (d : VDst) (s1 s2 : VSrc) (m : Md) (s : State) : Out :=
  laneWord d [s1, s2] m.ty.width 3 (lane2 (arith2 m mulX (· * ·))) s
def execVfma (d : VDst) (s1 s2 s3 : VSrc) (m : Md) (s : State) : Out :=
  laneWord d [s1, s2, s3] m.ty.width 4 (lane3 (arith3 m (fmaX m.rnd) (fun a b c => a * b + c))) s
def execVfms (d : VDst) (s1 s2 s3 : VSrc) (m : Md) (s : State) : Out :=
  laneWord d [s1, s2, s3] m.ty.width 4
    (lane3 (arith3 m (fun a b c => fmaX m.rnd a b (flipX c)) (fun a b c => a * b - c))) s

/-- a is less than b, −0 less than +0 (R116). -/
def lessZ (a b : FNum) : Bool := ltX a b || (eqX a b && a.neg? && !b.neg?)

/-- The lesser or greater lane (R116). -/
def pick (t : Ty) (least : Bool) (a b : Nat) : Nat × BitVec 5 :=
  if t.isF then
    let x := decodeF (fmtOf t) a
    let y := decodeF (fmtOf t) b
    match nanOf [x, y] with
    | some n => ((deliverF (fmtOf t) .rn false n).1, flagIf (anySNaN [x, y]) fInvalid)
    | none => (if (if least then lessZ y x else lessZ x y) then b else a, 0#5)
  else
    let x := sintOf t.width a
    let y := sintOf t.width b
    (if (if least then decide (y < x) else decide (x < y)) then b else a, 0#5)

def execVmin (d : VDst) (s1 s2 : VSrc) (t : Ty) (s : State) : Out := laneWord d [s1, s2] t.width 2 (lane2 (pick t true)) s
def execVmax (d : VDst) (s1 s2 : VSrc) (t : Ty) (s : State) : Out := laneWord d [s1, s2] t.width 2 (lane2 (pick t false)) s

/-- VABS and VNEG of a lane (R116). -/
def absLane (t : Ty) (sat : Bool) (a : Nat) : Nat × BitVec 5 :=
  if t.isF then (a % 2 ^ (t.width - 1), 0#5) else (wrapOrClamp t.width sat (sintOf t.width a).natAbs, 0#5)
def negLane (t : Ty) (sat : Bool) (a : Nat) : Nat × BitVec 5 :=
  if t.isF then ((a + 2 ^ (t.width - 1)) % 2 ^ t.width, 0#5) else (wrapOrClamp t.width sat (-(sintOf t.width a)), 0#5)

def execVabs (d : VDst) (s1 : VSrc) (t : Ty) (sat : Bool) (s : State) : Out :=
  laneWord d [s1] t.width 2 (lane1 (absLane t sat)) s
def execVneg (d : VDst) (s1 : VSrc) (t : Ty) (sat : Bool) (s : State) : Out :=
  laneWord d [s1] t.width 2 (lane1 (negLane t sat)) s

-- ## Comparison, selection, logic (R117, R118)

/-- The condition of a code from an order and its equality. -/
def byOrder (c : Nat) (lt eq : Bool) : Bool :=
  match c with
  | 0 => eq
  | 1 => !eq
  | 2 => lt
  | 3 => lt || eq
  | 4 => !lt && !eq
  | _ => !lt

/-- VCMP of two lanes (R117). -/
def cmpLane (t : Ty) (c : Nat) (a b : Nat) : Bool × BitVec 5 :=
  if t.isF then
    let x := decodeF (fmtOf t) a
    let y := decodeF (fmtOf t) b
    if x.isNaN || y.isNaN then (c == 1 || c == 10, flagIf (anySNaN [x, y]) fInvalid)
    else (c != 10 && byOrder c (ltX x y) (eqX x y), 0#5)
  else if c < 6 then (byOrder c (decide (sintOf t.width a < sintOf t.width b)) (a == b), 0#5)
  else (byOrder (c - 4) (decide (a < b)) (a == b), 0#5)

/-- A condition over the lanes of two containers: it holds in all (R117). -/
def cmpElem (w : Nat) (f : Nat → Nat → Bool × BitVec 5) (vs : List VReg) (p : Nat) : Bool × BitVec 5 :=
  let ls := (List.range (32 / w)).map (fun b => f (lane w (srcAt vs 0 p) b) (lane w (srcAt vs 1 p) b))
  (ls.all (·.1), ls.foldl (fun a x => a ||| x.2) 0#5)

def execVcmp (pd : Fin 8) (s1 s2 : VSrc) (c : Fin 11) (t : Ty) (s : State) : Out :=
  vpredWord pd [s1, s2] 2 (cmpElem t.width (cmpLane t c.val)) s

def execVsel (d : VDst) (s1 s2 : VSrc) (p : Fin 8) (s : State) : Out :=
  wholeWord d [s1, s2] 2 (fun vs k => if (s.strand.x.pred p).getLsbD k then srcAt vs 0 k else srcAt vs 1 k) s
def execVand (d : VDst) (s1 s2 : VSrc) (s : State) : Out :=
  wholeWord d [s1, s2] 2 (fun vs k => srcAt vs 0 k &&& srcAt vs 1 k) s
def execVor (d : VDst) (s1 s2 : VSrc) (s : State) : Out :=
  wholeWord d [s1, s2] 2 (fun vs k => srcAt vs 0 k ||| srcAt vs 1 k) s
def execVxor (d : VDst) (s1 s2 : VSrc) (s : State) : Out :=
  wholeWord d [s1, s2] 2 (fun vs k => srcAt vs 0 k ^^^ srcAt vs 1 k) s

-- ## Shifts (R119)

def shlLane (t : Ty) (sat : Bool) (a b : Nat) : Nat × BitVec 5 :=
  let n := min b t.width
  (if sat then wrapOrClamp t.width true (sintOf t.width a * (2 ^ n : Nat)) else a * 2 ^ n % 2 ^ t.width, 0#5)

/-- VShr of R119: the quotient by 2^n rounded to an integer. The rule's prose gives 0 for a shift by w, its pseudocode 1 where the
quotient rounds up (.u nearest, .ru); the model takes the pseudocode (DEDUCED, log 90). -/
def shrLane (t : Ty) (u : Bool) (rnd : Rnd) (a b : Nat) : Nat × BitVec 5 :=
  let n := min b t.width
  let x : Int := if u then (a : Int) else sintOf t.width a
  ((roundInt rnd (decide (x < 0)) x.natAbs (-(n : Int))).1 % (2 ^ t.width : Nat) |>.toNat, 0#5)

def execVshl (d : VDst) (s1 s2 : VSrc) (t : Ty) (sat : Bool) (s : State) : Out :=
  laneWord d [s1, s2] t.width 2 (lane2 (shlLane t sat)) s
def execVshr (u : Bool) (d : VDst) (s1 s2 : VSrc) (t : Ty) (rnd : Rnd) (s : State) : Out :=
  laneWord d [s1, s2] t.width 2 (lane2 (shrLane t u rnd)) s

-- ## Conversion (R120)

/-- VCvt: lanes of width ws to lanes of width wd, part by part, with a conversion of one lane. -/
def cvtElem (ws wd part : Nat) (f : Nat → Nat × Flags2) (sh : BitVec 13) (cs : List W32) (p : Nat) : Elem :=
  let ls := 32 / ws
  let ld := 32 / wd
  let N := shSize sh
  let out := (List.range ld).map (fun b =>
    let n := ld * linear sh p + b
    if ld ≤ ls then f (linLane ws cs (part * N * ld + n))
    else if part * N * ls ≤ n ∧ n < part * N * ls + N * ls then f (linLane ws cs (n - part * N * ls))
    else (0, noFlags))
  (packLanes wd (out.map (·.1)), allFlags (out.map (·.2)))

/-- A conversion word. -/
def cvtWord (d : VDst) (s1 : VSrc) (ws wd part L : Nat) (f : Nat → Nat × Flags2) (s : State) : Out :=
  let sh := s.strand.vshape
  vectorWord d [s1] L (fun vs m => let cs := linVals sh (vs.getD 0 VReg.zero); build m (cvtElem ws wd part f sh cs)) s

def execVcvt (d : VDst) (s1 : VSrc) (src : Ty) (part : Fin 4) (m : Md) (s : State) : Out :=
  cvtWord d s1 src.width m.ty.width part.val 3 (fun c => let r := convert src m.ty m.rnd m.sat c; (r.1, r.2, 0#3)) s

/-- The VTF conversions (R120, R47). -/
def vtfLane (conv : Nat) (rnd : Rnd) (c : Nat) : Nat × Flags2 :=
  match conv with
  | 0 => tfDeliver 16 1 rnd (some (decodeF fmtF32 c))
  | 1 => let r := deliverF fmtF32 .rn false (orNaN (tfDecode 16 1 c)); (r.1, r.2, 0#3)
  | 2 => tfDeliver 8 0 rnd (some (decodeF fmtBF16 c))
  | 3 => let r := deliverF fmtBF16 .rn false (orNaN (tfDecode 8 0 c)); (r.1, r.2, 0#3)
  | 4 => tfDeliver 8 0 rnd (some (decodeF fmtF32 c))
  | _ => let r := deliverF fmtF32 .rn false (orNaN (tfDecode 8 0 c)); (r.1, r.2, 0#3)

def execVtf (d : VDst) (s1 : VSrc) (conv : Fin 6) (part : Fin 4) (rnd : Rnd) (s : State) : Out :=
  cvtWord d s1 (32 / (vtfLanes conv).1) (32 / (vtfLanes conv).2) part.val 3 (vtfLane conv.val rnd) s

-- ## Filling and moving (R121 to R123, R109)

def execVbcast (d : VDst) (s1 : SOp) (t : Ty) (s : State) : Out :=
  gated (sPops s1) (vPushes d) s
    (let r := takeS s1 s
     let c := packLanes t.width (List.replicate t.lanes (r.1.toNat % 2 ^ t.width))
     retire s (putV d (guardMask s) (List.replicate 512 c) 2 r.2))

def execViota (d : VDst) (s1 s2 : SOp) (t : Ty) (sat : Bool) (s : State) : Out :=
  gated ([s1, s2].flatMap sPops) (vPushes d) s
    (let r := takeSs [s1, s2] s
     let m := guardMask s
     let v := build m (fun p => laneElem t.width (fun b =>
       (wrapOrClamp t.width sat ((r.1.getD 0 0#64).toInt +
         ((t.lanes * linear s.strand.vshape p + b : Nat) : Int) * (r.1.getD 1 0#64).toInt), 0#5)))
     retire s (putV d m v.1 2 r.2))

def execVmov (d : VDst) (s1 : VSrc) (s : State) : Out := wholeWord d [s1] 2 (fun vs p => srcAt vs 0 p) s

/-- A shape register's value. -/
def shapeOf (rows cols : Nat) : BitVec 13 := BitVec.ofNat 13 (256 * rows + cols)

def execVshape (rows : BitVec 5) (cols : BitVec 6) (s : State) : Out :=
  if shapeOk rows.toNat cols.toNat then
    let s1 := pushLast VReg.zero 1 s
    let on := guardAt (hdrOf s.ir) s.strand.x 0
    retire s (if on then { s1 with strand := { s1.strand with vshape := shapeOf rows.toNat cols.toNat } } else s1)
  else illegalOut s

/-- VTRN: the result has the shape columns × rows, and the guard of (j, i) is element (i, j) (R122). -/
def execVtrn (d : VDst) (s1 : VSrc) (s : State) : Out :=
  let sh := s.strand.vshape
  if 16 < shCols sh then illegalOut s
  else
    gated (vPops s1) (vPushes d) s
      (let r := takeV s1 s
       let g := guardMask s
       let turn := fun p => 32 * (p % 32) + p / 32
       let m := predOf (fun p => decide (p % 32 < 16) && g.getLsbD (turn p))
       retire s (putVsh (shapeOf (shCols sh) (shRows sh)) d m (build m (fun p => (r.1.getD (turn p) 0#32, noFlags))).1 4 r.2))

def execVrot (row : Bool) (d : VDst) (s1 : VSrc) (s2 : SOp) (s : State) : Out :=
  let sh := s.strand.vshape
  mixedWord d s1 [s2] 4 (fun v ss p =>
    let n := (ss.getD 0 0#64).toNat
    if row then v.getD (32 * ((p / 32 + n % shRows sh) % shRows sh) + p % 32) 0#32
    else v.getD (32 * (p / 32) + (p % 32 + n % shCols sh) % shCols sh) 0#32) s

def execVperm (d : VDst) (s1 s2 : VSrc) (s : State) : Out :=
  let sh := s.strand.vshape
  wholeWord d [s1, s2] 4 (fun vs p =>
    let c := (srcAt vs 1 p).toNat
    if c < shSize sh then srcAt vs 0 (position sh c) else 0#32) s

def execVins (d : VDst) (s1 : VSrc) (s2 s3 : SOp) (s : State) : Out :=
  let sh := s.strand.vshape
  mixedWord d s1 [s2, s3] 2 (fun v ss p =>
    if linear sh p = (ss.getD 1 0#64).toNat then (ss.getD 0 0#64).truncate 32 else v.getD p 0#32) s

/-- VEXT: a scalar result under the guard of element (0, 0), and a last-result slot with its value (R123). With a false guard the slot
holds what the destination holds (R61): of a register the model takes the landed value, without writes in flight (DESIGN CHOICE,
log 91). -/
def execVext (d : SOp) (s1 : VSrc) (s2 : SOp) (s : State) : Out :=
  let sh := s.strand.vshape
  gated (vPops s1 ++ sPops s2) (sPushes d) s
    (let r := takeV s1 s
     let q := takeS s2 r.2
     let c := if q.1.toNat < shSize sh then r.1.getD (position sh q.1.toNat) 0#32 else 0#32
     let on := guardAt (hdrOf s.ir) s.strand.x 0
     let w : W64 := if on then c.signExtend 64 else 0#64
     let held : W64 := match d with
       | .reg n => if on then w else s.seq.get n
       | .sq _ => w
       | .lq _ => w
       | .none => w
     let s2 := match d with
       | .reg n => if on then putS (.reg n) 2 w q.2 else q.2
       | .sq k => putS (.sq k) 2 w q.2
       | .lq k => putS (.lq k) 2 w q.2
       | .none => q.2
     retire s (pushLast (VReg.zero.set 0 (held.truncate 32)) 2 s2))

-- ## Classes and scaling (R124)

/-- The class of a lane. -/
def classOf (F : Fmt) (c : Nat) : Nat :=
  match decodeF F c with
  | .nan b f => if FNum.isSNaN (.nan b f) then 0 else 1
  | .inf b => if b then 2 else 9
  | .fin b m _ =>
    if m = 0 then (if b then 5 else 6)
    else if m < 2 ^ F.p then (if b then 4 else 7) else (if b then 3 else 8)

def execVclass (d : VDst) (s1 : VSrc) (t : Ty) (s : State) : Out :=
  laneWord d [s1] t.width 2 (lane1 (fun a => (classOf (fmtOf t) a, 0#5))) s

/-- s1 × 2^e; beyond 2^2000 either way the rounded result no longer changes (R124). -/
def scaleLane (m : Md) (a b : Nat) : Nat × BitVec 5 :=
  let k := sintOf m.ty.width b
  let k1 : Int := if k < -2000 then -2000 else if 2000 < k then 2000 else k
  let x := decodeF (fmtOf m.ty) a
  deliverF (fmtOf m.ty) m.rnd m.sat (scaleX x (-k1))

def execVscale (d : VDst) (s1 s2 : VSrc) (m : Md) (s : State) : Out :=
  laneWord d [s1, s2] m.ty.width 3 (lane2 (scaleLane m)) s

-- ## Row reductions (R125, R126, R134)

/-- A word whose rows are combined: `f i` is the value for row i with its flags, raised when the row has an element whose
guard is true (R112). -/
def rowWord (d : VDst) (srcs : List VSrc) (L : Nat) (f : List VReg → Nat → W32 × BitVec 5) (s : State) : Out :=
  vectorWord d srcs L (fun vs m =>
    let rows := (List.range 16).map (fun i =>
      if (List.range 32).any (fun j => m.getLsbD (32 * i + j)) then f vs i else (0#32, 0#5))
    (((List.range 512).map (fun p => (rows.getD (p / 32) (0#32, 0#5)).1)),
     (rows.foldl (fun a r => a ||| r.2) 0#5, 0#3))) s

/-- A float lane widened to FP32: a signalling NaN is quieted and raises invalid (R37). -/
def widen (t : Ty) (c : Nat) : Nat × BitVec 5 := deliverF fmtF32 .rn false (decodeF (fmtOf t) c)

/-- The greatest or least of a list of FP32 codes or s32 values under R116. -/
def pickAll (t : Ty) (least : Bool) (l : List Nat) : Nat × BitVec 5 :=
  match l with
  | [] => (0, 0#5)
  | x :: r => r.foldl (fun a y => let q := pick t least a.1 y; (q.1, a.2 ||| q.2)) (x, 0#5)

/-- VRED of the lanes of a row. -/
def redRow (op : RedOp) (m : Md) (ls : List Nat) : W32 × BitVec 5 :=
  if m.ty.isF then
    let w := ls.map (widen m.ty)
    let fl := w.foldl (fun a x => a ||| x.2) 0#5
    let r : Nat × BitVec 5 := match op with
      | .add => let q := treeSum m.rnd 8 (w.map (fun x => decodeF fmtF32 x.1)); ((deliverF fmtF32 .rn false q.1).1, q.2)
      | .max => pickAll .f32 false (w.map (·.1))
      | .min => pickAll .f32 true (w.map (·.1))
    (BitVec.ofNat 32 r.1, fl ||| r.2)
  else
    let v := ls.map (sintOf m.ty.width)
    let r : Int := match op with
      | .add => v.foldl (· + ·) 0
      | .max => v.foldl (fun a b => if a < b then b else a) (v.headD 0)
      | .min => v.foldl (fun a b => if b < a then b else a) (v.headD 0)
    (BitVec.ofNat 32 (wrapOrClamp 32 m.sat r), 0#5)

def execVred (op : RedOp) (d : VDst) (s1 : VSrc) (m : Md) (s : State) : Out :=
  let sh := s.strand.vshape
  rowWord d [s1] 8 (fun vs i => redRow op m (rowLanes sh m.ty.width (vs.getD 0 VReg.zero) i)) s

/-- One step of VSCAN. -/
def scanOp (op : RedOp) (m : Md) (a b : Nat) : Nat × BitVec 5 :=
  match op with
  | .add => arith2 m (addX m.rnd) (· + ·) a b
  | .max => pick m.ty false a b
  | .min => pick m.ty true a b

/-- The running results of a row with the flags of each step. -/
def scanRow (op : RedOp) (m : Md) (acc : Nat) : List Nat → List (Nat × BitVec 5)
  | [] => []
  | x :: r => let q := scanOp op m acc x; q :: scanRow op m q.1 r

/-- VSCAN of a row: its first value is copied, a signalling NaN quieted (R37). -/
def scanAll (op : RedOp) (m : Md) : List Nat → List (Nat × BitVec 5)
  | [] => []
  | x :: r => let x1 := if m.ty.isF then widen m.ty x else (x, 0#5); x1 :: scanRow op m x1.1 r

def execVscan (op : RedOp) (d : VDst) (s1 : VSrc) (m : Md) (s : State) : Out :=
  let sh := s.strand.vshape
  vectorWord d [s1] 12 (fun vs g =>
    let rows := (List.range (shRows sh)).map (fun i => scanAll op m (rowLanes sh 32 (vs.getD 0 VReg.zero) i))
    let last := fun i => (List.range 32).foldl (fun a j => if g.getLsbD (32 * i + j) then j + 1 else a) 0
    let fl := (List.range (shRows sh)).foldl (fun a i =>
      ((rows.getD i []).take (last i)).foldl (fun b x => b ||| x.2) a) 0#5
    ((List.range 512).map (fun p => BitVec.ofNat 32 (((rows.getD (p / 32) []).getD (p % 32) (0, 0#5)).1)), (fl, 0#3))) s

/-- The exact products of two rows of float lanes, with the flags of invalid ones. -/
def prodRow (t : Ty) (a b : List Nat) : List FNum × BitVec 5 :=
  let l := (a.zip b).map (fun p => mulX (decodeF (fmtOf t) p.1) (decodeF (fmtOf t) p.2))
  (l.map (·.1), flagIf (l.any (·.2)) fInvalid)

def execVdot (d : VDst) (s1 s2 s3 : VSrc) (m : Md) (s : State) : Out :=
  let sh := s.strand.vshape
  vectorWord d [s1, s2, s3] 8 (fun vs g =>
    let row := fun k i => rowLanes sh m.ty.width (vs.getD k VReg.zero) i
    let trees := (List.range 16).map (fun i =>
      if m.ty.isF && (List.range 32).any (fun j => g.getLsbD (32 * i + j)) then
        let p := prodRow m.ty (row 0 i) (row 1 i)
        let q := treeSum m.rnd 8 p.1
        (q.1, p.2 ||| q.2)
      else (FNum.fin false 0 0, 0#5))
    let sums := (List.range 16).map (fun i =>
      (((row 0 i).zip (row 1 i)).foldl (fun (a : Int) p => a + sintOf m.ty.width p.1 * sintOf m.ty.width p.2) 0))
    build g (fun p =>
      if m.ty.isF then
        let t := trees.getD (p / 32) (FNum.fin false 0 0, 0#5)
        let r := f32Of m.rnd (addX m.rnd (f32Val (srcAt vs 2 p)) t.1)
        (r.1, (t.2 ||| r.2, 0#3))
      else (BitVec.ofNat 32 (wrapOrClamp 32 m.sat ((srcAt vs 2 p).toInt + sums.getD (p / 32) 0)), noFlags))) s

def execVtdot (d : VDst) (s1 s2 s3 : VSrc) (sat : Bool) (s : State) : Out :=
  let sh := s.strand.vshape
  wholeWord d [s1, s2, s3] 8 (fun vs p =>
    let acc := ((rowLanes sh 8 (srcOf vs 0) (p / 32)).zip (rowLanes sh 8 (srcOf vs 1) (p / 32))).foldl
      (fun (a : Int) q => let w := sintOf 8 q.1; if 0 < w then a + sintOf 8 q.2 else if w < 0 then a - sintOf 8 q.2 else a) 0
    BitVec.ofNat 32 (wrapOrClamp 32 sat ((srcAt vs 2 p).toInt + acc))) s
where
  srcOf (vs : List VReg) (n : Nat) : VReg := vs.getD n VReg.zero

-- ## Special functions (R127)

/-- A special function of one source. -/
def sfWord (d : VDst) (s1 : VSrc) (m : Md) (L : Nat) (f : FNum → Sf) (s : State) : Out :=
  laneWord d [s1] m.ty.width L (lane1 (fun a => deliverSf (fmtOf m.ty) m.rnd m.sat (f (decodeF (fmtOf m.ty) a)))) s

def execFexp (d : VDst) (s1 : VSrc) (t : Ty) (sat : Bool) (s : State) : Out := sfWord d s1 ⟨t, .rn, sat⟩ 12 expX s
def execFlog (d : VDst) (s1 : VSrc) (t : Ty) (sat : Bool) (s : State) : Out := sfWord d s1 ⟨t, .rn, sat⟩ 12 logX s
def execFrcp (d : VDst) (s1 : VSrc) (t : Ty) (sat : Bool) (s : State) : Out := sfWord d s1 ⟨t, .rn, sat⟩ 10 rcpX s
def execFrsq (d : VDst) (s1 : VSrc) (t : Ty) (sat : Bool) (s : State) : Out := sfWord d s1 ⟨t, .rn, sat⟩ 10 rsqX s
def execFsqrt (d : VDst) (s1 : VSrc) (m : Md) (s : State) : Out := sfWord d s1 m 14 sqrtX s
def execFtanh (d : VDst) (s1 : VSrc) (t : Ty) (sat : Bool) (s : State) : Out := sfWord d s1 ⟨t, .rn, sat⟩ 16 tanhX s
def execFsig (d : VDst) (s1 : VSrc) (t : Ty) (sat : Bool) (s : State) : Out := sfWord d s1 ⟨t, .rn, sat⟩ 16 sigX s
def execFdiv (d : VDst) (s1 s2 : VSrc) (m : Md) (s : State) : Out :=
  laneWord d [s1, s2] m.ty.width 18
    (lane2 (fun a b => deliverSf (fmtOf m.ty) m.rnd m.sat (divX (decodeF (fmtOf m.ty) a) (decodeF (fmtOf m.ty) b)))) s

/-- FEXPQ (R370): an E4M3 lane for each element, placed by part. -/
def execFexpq (d : VDst) (s1 s2 : VSrc) (part : Fin 4) (s : State) : Out :=
  let sh := s.strand.vshape
  vectorWord d [s1, s2] 14 (fun vs m =>
    let a := linVals sh (vs.getD 0 VReg.zero)
    let b := linVals sh (vs.getD 1 VReg.zero)
    let N := shSize sh
    build m (fun p => laneElem 8 (fun k =>
      let n := 4 * linear sh p + k
      if part.val * N ≤ n ∧ n < part.val * N + N then
        expQ (a.getD (n - part.val * N) 0#32).toNat (b.getD (n - part.val * N) 0#32).toNat
      else (0, 0#5)))) s

-- ## Tapered comparison, FB4, trits (R130 to R133)

def tcmpLane (t : Ty) (c : Nat) (a b : Nat) : Bool × BitVec 5 :=
  if c = 6 then (a == 2 ^ (t.width - 1), 0#5)
  else (byOrder c (decide (sintOf t.width a < sintOf t.width b)) (a == b), 0#5)

def execVtcmp (pd : Fin 8) (s1 s2 : VSrc) (c : Fin 7) (t : Ty) (s : State) : Out :=
  vpredWord pd [s1, s2] 2 (cmpElem t.width (tcmpLane t c.val)) s

/-- The number of FB4 blocks a word covers, when the shape and the part admit it (R131). -/
def fb4Blocks (sh : BitVec 13) (ln part : Nat) : Option Nat :=
  let n := shSize sh * ln
  if n % 16 = 0 ∧ 12 * (part + 1) * (n / 16) ≤ 4 * shSize sh then some (n / 16) else none

/-- Block m of a byte stream. -/
def fb4At (cs : List W32) (m : Nat) : List Byte := (List.range 12).map (fun k => linByte cs (12 * m + k))

def execVfb4d (d : VDst) (s1 : VSrc) (part : Fin 5) (m : Md) (s : State) : Out :=
  let sh := s.strand.vshape
  match fb4Blocks sh m.ty.lanes part.val with
  | none => illegalOut s
  | some B =>
    vectorWord d [s1] 4 (fun vs g =>
      let cs := linVals sh (vs.getD 0 VReg.zero)
      build g (fun p =>
        let out := (List.range m.ty.lanes).map (fun b =>
          let n := m.ty.lanes * linear sh p + b
          let v := fb4Decode (fb4At cs (part.val * B + n / 16)) (n % 16)
          let r := deliverF (fmtOf m.ty) m.rnd m.sat v.1
          (r.1, (r.2, v.2)))
        (packLanes m.ty.width (out.map (·.1)), allFlags (out.map (·.2))))) s

def execVfb4e (d : VDst) (s1 : VSrc) (part : Fin 5) (t : Ty) (rnd : Rnd) (s : State) : Out :=
  let sh := s.strand.vshape
  match fb4Blocks sh t.lanes part.val with
  | none => illegalOut s
  | some B =>
    vectorWord d [s1] 8 (fun vs g =>
      let cs := linVals sh (vs.getD 0 VReg.zero)
      let blocks := (List.range B).map (fun k =>
        fb4Encode ((List.range 16).map (fun i => decodeF (fmtOf t) (linLane t.width cs (16 * k + i)))) rnd)
      build g (fun p =>
        let k := linear sh p
        if part.val * B ≤ k / 3 ∧ k / 3 < part.val * B + B then
          let blk := blocks.getD (k / 3 - part.val * B) ([], 0#5)
          (packLanes 8 ((List.range 4).map (fun b => (blk.1.getD (4 * (k % 3) + b) 0#8).toNat)), (blk.2, 0#3))
        else (0#32, noFlags))) s

def execVtrit (d : VDst) (s1 : VSrc) (part : Fin 5) (s : State) : Out :=
  let sh := s.strand.vshape
  vectorWord d [s1] 3 (fun vs g =>
    let cs := linVals sh (vs.getD 0 VReg.zero)
    let nl := 4 * shSize sh
    build g (fun p =>
      let out := (List.range 4).map (fun b =>
        let m := part.val * nl + 4 * linear sh p + b
        let q := tritDecode (linByte cs (m / 5)).toNat
        ((tritInt (q.1.getD (m % 5) 0) % 256).toNat, ((0#5, q.2) : Flags2)))
      (packLanes 8 (out.map (·.1)), allFlags (out.map (·.2))))) s

end Sys2Proof.Machine
end

