-- ==== Sys2Proof/Machine/Select.lean ====
section
/-! DEFINITION. Selection and the top-k buffer, opcodes 0x90 to 0x94 (spec/05_vector.md R135 to R140). -/

namespace Sys2Proof.Machine

/-- A candidate's key (R135): none for a NaN or NAR, else a value to compare. The types: 0 f32, 1 s32, 2 tf16, 3 tf8. -/
def keyOf (ktype : Nat) (c : W32) : Option FNum :=
  match ktype with
  | 0 => let x := f32Val c; if x.isNaN then none else some x
  | 1 => some (ofSInt c.toInt)
  | 2 => if lane 16 c 0 = 0x8000 then none else some (ofSInt (sintOf 16 (lane 16 c 0)))
  | _ => if lane 8 c 0 = 0x80 then none else some (ofSInt (sintOf 8 (lane 8 c 0)))

/-- Candidate a precedes candidate b (R135). -/
def precedes (ktype : Nat) (a b : TopEnt) : Bool :=
  match keyOf ktype a.val, keyOf ktype b.val with
  | some _, none => true
  | none, some _ => false
  | none, none => a.idx.ult b.idx
  | some x, some y => ltX y x || (!(ltX x y) && a.idx.ult b.idx)

/-- A candidate put in its place among ranked ones. -/
def rankIn (ktype : Nat) (c : TopEnt) : List TopEnt → List TopEnt
  | [] => [c]
  | d :: r => if precedes ktype c d then c :: d :: r else d :: rankIn ktype c r

/-- Candidates in rank order. -/
def ranked (ktype : Nat) (l : List TopEnt) : List TopEnt := l.foldl (fun acc c => rankIn ktype c acc) []

/-- The candidates of a row: its containers with their columns. -/
def rowCands (sh : BitVec 13) (v : VReg) (i : Nat) : List TopEnt :=
  (List.range (shCols sh)).map (fun j => ⟨v.getD (32 * i + j) 0#32, BitVec.ofNat 32 j⟩)

def ktypeOf (t : Ty) : Nat := if t.isF then 0 else 1

/-- The k first candidates of each row of a shape. -/
def rowRanks (sh : BitVec 13) (t : Ty) (k : Nat) (v : VReg) : List (List TopEnt) :=
  (List.range (shRows sh)).map (fun i => (ranked (ktypeOf t) (rowCands sh v i)).take k)

def execVtopk (idx : Bool) (d : VDst) (s1 : VSrc) (k : BitVec 6) (t : Ty) (s : State) : Out :=
  let sh := s.strand.vshape
  if shCols sh < k.toNat then illegalOut s
  else
    vectorWord d [s1] 12 (fun vs m =>
      let rows := rowRanks sh t k.toNat (vs.getD 0 VReg.zero)
      build m (fun p =>
        match (rows.getD (p / 32) [])[p % 32]? with
        | some c => (if idx then c.idx else c.val, noFlags)
        | none => (0#32, noFlags))) s

def execVtopkm (pd : Fin 8) (s1 : VSrc) (k : BitVec 6) (t : Ty) (s : State) : Out :=
  let sh := s.strand.vshape
  if shCols sh < k.toNat then illegalOut s
  else
    vpredWord pd [s1] 12 (fun vs p =>
      let row := (ranked (ktypeOf t) (rowCands sh (vs.getD 0 VReg.zero) (p / 32))).take k.toNat
      (row.any (fun c => c.idx.toNat == p % 32), 0#5)) s

def execVargmx (d : VDst) (s1 : VSrc) (t : Ty) (s : State) : Out :=
  let sh := s.strand.vshape
  vectorWord d [s1] 8 (fun vs m =>
    let rows := rowRanks sh t 1 (vs.getD 0 VReg.zero)
    build m (fun p => (((rows.getD (p / 32) []).headD ⟨0#32, 0#32⟩).idx, noFlags))) s

-- ## The top-k buffer (R137 to R139)

/-- The fields of topk. -/
def tkSeen (w : W64) : Nat := (w.extractLsb' 32 25).toNat
def tkType (w : W64) : Nat := (w.extractLsb' 8 3).toNat
def tkK (w : W64) : Nat := (w.extractLsb' 0 7).toNat

/-- topk with new seen and held. -/
def tkWith (w : W64) (seen held : Nat) : W64 :=
  (w &&& 0x000000000000077F#64) ||| (BitVec.ofNat 64 (seen % 2 ^ 25) <<< 32) ||| (BitVec.ofNat 64 (held % 256) <<< 16)

/-- topk as every word issued so far leaves it: the newest value in flight, else the register. -/
def Strand.topkNow (t : Strand) : W64 :=
  match t.pend.reverse.find? (fun f => f.dest == .topk) with
  | some f => f.val.scalar
  | Option.none => t.topk

/-- The candidates a TOPKS offers: the guard-true containers of the shape with their stream indices (R138). -/
def offered (sh : BitVec 13) (m : Pred) (seen : Nat) (v : VReg) : List TopEnt :=
  (List.range (shSize sh)).filterMap (fun k =>
    if m.getLsbD (position sh k) then some ⟨v.getD (position sh k) 0#32, BitVec.ofNat 32 (seen + k)⟩ else none)

/-- TOPKS (R138). Its table row has no L; the 0 of its last-result slot lands at issue + 1, as VSHAPE's does (DESIGN CHOICE, log 92). -/
def execTopks (s1 : VSrc) (s : State) : Out :=
  let sh := s.strand.vshape
  let w := s.strand.topkNow
  let seen := tkSeen w + shSize sh
  if tkK w = 0 ∨ 2 ^ 24 < seen then illegalOut s
  else
    gated (vPops s1) [] s
      (let r := takeV s1 s
       let buf := ((offered sh (guardMask s) (tkSeen w) r.1).foldl (fun acc c => rankIn (tkType w) c acc) s.strand.topbuf).take (tkK w)
       let s2 := putResult .topk 3#512 (.s (tkWith w seen buf.length)) 24 { r.2 with strand := { r.2.strand with topbuf := buf } }
       retire s (pushLast VReg.zero 1 s2))

def execTopkd (d : VDst) (sel : Fin 2) (s : State) : Out :=
  let sh := s.strand.vshape
  let k := tkK s.strand.topkNow
  if k = 0 then illegalOut s
  else
    vectorWord d [] 24 (fun _ m => build m (fun p =>
      let n := linear sh p
      match s.strand.topbuf[n]? with
      | some c => (if sel = 0 then c.val else c.idx, noFlags)
      | none => (if n < k ∧ sel = 1 then 0xFFFFFFFF#32 else 0#32, noFlags))) s

end Sys2Proof.Machine
end

