-- ==== Sys2Proof/Machine/SReg.lean ====
section
/-! DEFINITION. The special registers: RDS and WRS (spec/03_core.md R74, R75, spec/04_scalar.md R97), and the registers'
own maps (R34, R35, R108, R137, R153, R189, R213). -/

namespace Sys2Proof.Machine

/-- prog0 to prog3 (R213): 0 for an unbound slot and until the record has been read. -/
def State.progWord (s : State) (n : Nat) : W64 :=
  match ((s.strand.prog[n]?).join).bind s.taskAt with
  | none => 0#64
  | some t =>
    if t.words.isEmpty && t.state == .pending then 0#64
    else BitVec.ofNat 64 (t.state.code * 2 ^ 59 + t.prog % 2 ^ 32)

/-- The value of a special register, reserved bits 0. -/
def State.sreg (s : State) (n : BitVec 12) : W64 :=
  let t := s.strand
  match n.toNat with
  | 0x001 => t.vshape.zeroExtend 64
  | 0x002 => t.fpflags.zeroExtend 64
  | 0x003 => t.tstat.zeroExtend 64
  | 0x010 => s.core.accown
  | 0x011 => s.core.acclive.zeroExtend 64
  | 0x020 => BitVec.ofNat 64 s.core.cyc
  | 0x021 => t.index.zeroExtend 64
  | 0x022 => t.unit.zeroExtend 64
  | 0x023 => t.launch.zeroExtend 64
  | 0x024 => t.ctx.zeroExtend 64
  | 0x025 => BitVec.ofNat 64 (s.core.num * 2 ^ 16 + dieOf s.core.num)
  | 0x026 => BitVec.ofNat 64 s.pkg.num
  | 0x030 => s.progWord 0
  | 0x031 => s.progWord 1
  | 0x032 => s.progWord 2
  | 0x033 => s.progWord 3
  | 0x040 => t.topk
  | 0x050 => t.ashape.zeroExtend 64
  | _ => 0#64

/-- RDS (R97): a read of acclive is a matrix use (R190). -/
def execRds (d : SOp) (n : BitVec 12) (s : State) : Out :=
  if n = 0x011#12 then
    matrixWord s (fun s1 => gated [] (sPushes d) s (retire s (putS d 1 (s.sreg n) s1)))
  else scalarWord d [] 1 (fun _ => s.sreg n) s

/-- The registers that WRS may write (R74). -/
def sregWritable (n : BitVec 12) : Bool :=
  n == 0x001#12 || n == 0x002#12 || n == 0x003#12 || n == 0x011#12 || n == 0x040#12 || n == 0x050#12

/-- The value of a shape register from a written word: its reserved bits are ignored (R108). -/
def shapeBits (v : W64) : BitVec 13 := (v.truncate 13 : BitVec 13) &&& 0x1F3F#13

def shapeRegOk (v : W64) : Bool := shapeOk (shRows (shapeBits v)) (shCols (shapeBits v))

/-- A value that the register's own map admits (R97 check 3). -/
def sregOkValue (n : BitVec 12) (v : W64) : Bool :=
  if n = 0x001#12 ∨ n = 0x050#12 then shapeRegOk v
  else if n = 0x040#12 then
    decide ((v.extractLsb' 0 7).toNat ≤ 64) && decide ((v.extractLsb' 8 3).toNat ≤ 3) && decide ((v.extractLsb' 32 25).toNat ≤ 2 ^ 24)
  else true

/-- topk as a WRS leaves it (R137): held 0, reserved bits 0. -/
def topkOf (v : W64) : W64 := v &&& 0x01FFFFFF0000077F#64

/-- A special register written. -/
def State.setSreg (s : State) (n : BitVec 12) (v : W64) : State :=
  let t := s.strand
  match n.toNat with
  | 0x001 => { s with strand := { t with vshape := shapeBits v } }
  | 0x002 => { s with strand := { t with fpflags := v.truncate 5 } }
  | 0x003 => { s with strand := { t with tstat := v.truncate 3 } }
  | 0x011 => { s with core := { s.core with acclive := v.truncate 8 } }
  | 0x040 => { s with strand := { t with topk := topkOf v, topbuf := [], pend := t.pend.filter (fun f => f.dest != .topk) } }
  | 0x050 => { s with strand := { t with ashape := shapeBits v } }
  | _ => s

/-- WRS (R97), with its checks in order; a write of acclive is a matrix use (R190). -/
def execWrs (n : BitVec 12) (s1 : SOp) (s : State) : Out :=
  if !(sregWritable n) then trapOut .priv (n.zeroExtend 64) s
  else
    gatedPre (if n = 0x011#12 then accCause s else []) (sPops s1) [] s
      (let r := takeS s1 s
       if !(sregOkValue n r.1) then illegalOut s
       else if n = 0x011#12 then matrixWordAt s r.2 (fun t => retire s (t.setSreg n r.1))
       else retire s (r.2.setSreg n r.1))

end Sys2Proof.Machine
end

