-- ==== Sys2Proof/Machine/Tile.lean ====
section
/-! DEFINITION. TASK, MPROG and the tile tasks on the arrays (spec/08_tile.md R203 to R213), attention tasks among them
(spec/17_request.md R366 to R369). -/

namespace Sys2Proof.Machine

-- ## TASK and MPROG (R209, R213)

/-- A task as TASK hands it over: its record is not read yet, and a progress slot shows it as PENDING until then (DESIGN CHOICE: R206 and
R213 give no state for it; log 104). -/
def Task.fresh (n : Nat) (t : Strand) (cls addr : Nat) : Task :=
  { n := n, slot := t.slot, strand := t.h, launch := t.launch.toNat, unit := t.unit.toNat, request := t.request, cls := cls,
    addr := addr, words := [], state := .pending, queued := false, waits := [], next := 0, redo := [], prog := 0, doneUnits := [],
    running := [], failKind := 0, flags := 0#5, nar := false, fb4 := false, trit := false, array := 0, tiles := 0, kcyc := 0 }

/-- TASK (R209): the slot names the task from its issue on. -/
def execTask (rec : SOp) (slot : Fin 5) (s : State) : Out :=
  gated (sPops rec) [] s
    (let r := takeS rec s
     if misplaced r.1 128 128 false || inLocal r.1.toNat then trapOut .align r.1 s
     else
       let n := r.2.pkg.taskNo
       let s1 := r.2.updPkg (fun p => { p with
         tasks := p.tasks ++ [Task.fresh n s.strand (s.strandClass s.strand) r.1.toNat], taskNo := n + 1 })
       let s2 : State := if slot.val < 4 then { s1 with strand := { s1.strand with prog := s1.strand.prog.set slot.val (some n) } } else s1
       retire s (addAcc (.task n) s2))

/-- MPROG (R213): the value is the one at landing, when a stop that the word asks for has been taken. -/
def execMprog (d : SOp) (n : Fin 4) (stop : Bool) (s : State) : Out :=
  gated [] (sPushes d) s
    (let s1 := match stop, (s.strand.prog[n.val]?).join with
       | true, some k => s.stopTask k
       | _, _ => s
     retire s (putS d 1 (s1.progWord n.val) s1))

-- ## The record (R205, R211, R366)

/-- The formats that a kind of array multiplies (R203): whether the sum is s32; none for an unsupported pair. -/
def gemmPair (bole : Bool) (a w : Nat) : Option Bool :=
  let fp8 := fun (f : Nat) => f == 4 || f == 5
  if (a = 2 ∧ w = 2) ∨ (fp8 a ∧ fp8 w) ∨ (a = 4 ∧ w = 11) then some false
  else if (a = 8 ∧ w = 8) ∨ (a = 8 ∧ w = 12) then some true
  else if bole ∧ ((a = 3 ∧ w = 3) ∨ (a = 11 ∧ w = 11)) then some false
  else none

/-- Bytes of n packed elements of a format. -/
def rowBytes (fmt n : Nat) : Nat :=
  if fmt = 11 then n / 16 * 12 else if fmt = 12 then n / 5 else if fmt = 0 then 4 * n else n * elemBytes fmt

def Task.cfmt (t : Task) : Nat := t.fld 1 47 44
def Task.acc (t : Task) : Bool := t.fld 1 43 43 == 1
def Task.sat (t : Task) : Bool := t.fld 1 40 40 == 1
def Task.nwait (t : Task) : Nat := t.fld 1 38 36
def Task.rnd (t : Task) : Rnd :=
  match t.fld 1 42 41 with
  | 0 => .rn | 1 => .rz | 2 => .rd | _ => .ru

/-- The names that the task waits for. -/
def Task.waitNames (t : Task) : List Nat := (List.range t.nwait).map (fun i => t.fld 2 (16 * i + 15) (16 * i))

/-- A matrix product's record is good (R205). -/
def Task.gemmOk (t : Task) : Bool :=
  let w := fun i => t.fld i 63 0
  let four := fun (n : Nat) => n % 4 == 0
  let fb4 := t.afmt == 11 || t.wfmt == 11
  (t.kind == 1 || t.kind == 2) && (gemmPair t.bole t.afmt t.wfmt).isSome && decide (1 ≤ t.cfmt) && decide (t.cfmt ≤ 10) &&
  decide (t.nwait ≤ 4) && t.fld 1 34 32 == 0 && t.fld 1 15 0 == 0 && decide (1 ≤ t.M) && decide (1 ≤ t.K) && decide (1 ≤ t.N) &&
  (!fb4 || t.K % 16 == 0) && (t.wfmt != 12 || t.K % 5 == 0) && (!t.feed || (t.kind == 1 && decide (t.fld 8 63 55 ≤ 351))) &&
  four (w 4) && four (w 5) && four (w 6) && four (t.fld 7 31 0) && four (t.fld 7 63 32) && four (t.fld 8 31 0) && t.fld 8 50 32 == 0 &&
  (t.feed || decide (rowBytes t.afmt t.K ≤ t.fld 7 31 0)) && decide (rowBytes t.wfmt t.K ≤ t.fld 7 63 32) &&
  decide (t.N * elemBytes t.cfmt ≤ t.fld 8 31 0) && w 12 == 0 && w 13 == 0 && w 14 == 0 && w 15 == 0

/-- An attention record is good (R366). -/
def Task.attnOk (t : Task) : Bool :=
  (t.kind == 0x10 || t.kind == 0x11) && (t.afmt == 2 || t.afmt == 4) && t.wfmt == 0 && decide (1 ≤ t.cfmt) && decide (t.cfmt ≤ 10) &&
  t.fld 1 43 39 == 0 && decide (t.nwait ≤ 4) && t.fld 1 34 32 == 0 && t.fld 1 15 0 == 0 &&
  decide (1 ≤ t.M) && decide (1 ≤ t.K) && decide (1 ≤ t.N) && !(f32Val (BitVec.ofNat 32 (t.fld 12 63 32))).isNaN &&
  (t.fld 5 0 0 == 0 || t.fld 5 63 0 % 8 == 1) && t.fld 14 63 0 == 0 && t.fld 15 63 0 == 0

def Task.recordOk (t : Task) : Bool := if t.attn then t.attnOk else t.gemmOk

/-- The record of a task has been read and is good: it is PENDING, in the queue or linked into the overflow list, and waits
for its events; a cancel or a stop that came before takes effect (R210, R211, R216). -/
def State.enterTask (s : State) (t : Task) : State :=
  let n := t.n
  if t.failKind = 6 then s.endTask n .cancelled 6
  else if t.state = .stopping then s.stopped t
  else
    match s.ctxAt t.slot with
    | none => s
    | some c =>
      let names := dedup t.waitNames
      if (s.recordWaits t.slot (.task n) names).isNone then s.endTask n .failed 5
      else
        let quota := if t.bole then c.tqb else c.tqm
        let listed := (s.overflowTasks t.slot).filter (fun u => u.n != n)
        let fits := listed.all (fun u => u.bole != t.bole) && decide (s.taskEntries t.slot t.bole < quota)
        let s1 := s.updTask n (fun u => { u with queued := fits, waits := names })
        let s2 := match fits, listed.getLast? with
          | false, some u => s1.engPostWord t.slot u.addr (BitVec.ofNat 64 t.addr)
          | _, _ => s1
        let s3 := names.foldl (fun u w => u.waitEvent t.slot w (.task n)) (s2.setTState n .pending)
        match s3.taskAt n with
        | none => s3
        | some u => if u.waits.isEmpty && u.state == .pending then s3.setTState n .ready else s3

/-- Taproot reads a task's record (R209, R211): a record that cannot be read is not written. -/
def execTaskRecordRead (n : Nat) (s : State) : Out :=
  .next (match s.taskAt n with
    | none => s
    | some t =>
      if !t.words.isEmpty || t.state.final ||
          s.allStrands.any (fun u => u.acc.any (fun a => match a.op with | .task k => k == n | _ => false)) ||
          s.pkg.faults.any (fun f => f.agent == .task n) then s
      else
        let r := s.engRead t.slot t.addr 128
        let dead := fun (u : State) (kind : Nat) => u.updTask n (fun t => { t with state := .failed, failKind := kind })
        match r.1 with
        | .fault va w => r.2.askFirmware t.slot (.task n) va .read w
        | .poison _ =>
          let u := dead r.2 2
          if t.request ≠ 0 then u.endRequest t.request else u.report (.discarded t.slot t.strand t.addr)
        | .remote pa => if r.2.pkg.allows (paPkg pa) then r.2.askRemote pa else dead r.2 3
        | .ok bs =>
          let t1 := { t with words := wordsOf bs }
          let t2 := { t1 with prog := t1.fld 9 63 0, next := t1.fld 9 63 0 }
          -- a record enters its list when it is read (R210)
          let s1 := r.2.updPkg (fun p => { p with tasks := p.tasks.filter (fun u => u.n != n) ++ [t2] })
          if !t2.recordOk then (s1.updTask n (fun u => { u with failKind := 0 })).endTask n .failed 5 else s1.enterTask t2)

-- ## Units (R208, R369)

/-- An array number as the status word shows it (R206). -/
def arrayNo (a : Nat) : Nat := if a < 16 then a else a - 16

/-- An array may run units of a task: of its kind, free, on a die of the context that is out of reset (R208, R287). Those of a
PAUSED context run on (R285). -/
def State.arrayFits (s : State) (t : Task) (a : Nat) : Bool :=
  decide (a < 304) && (t.bole == decide (a < 16)) && !(s.pkg.arrays.any (fun x => x.1 == a)) &&
  (s.ctxAt t.slot).any (fun c => (c.state == 1 || c.state == 2) && c.dies.getLsbD (dieOfArray a)) && (s.pkg.dies.getD (dieOfArray a) Die.start).up

/-- A task has a unit to dispatch. -/
def State.dispatchable (s : State) (t : Task) : Bool :=
  t.queued && t.failKind == 0 && !t.words.isEmpty &&
  (match t.state with
   | .ready => true | .running => !t.redo.isEmpty || decide (t.next < s.taskUnits t)
   | .pending => false | .stopping => false | .stopped => false | .done => false | .failed => false | .cancelled => false)

/-- No task of a higher class, or of its class and earlier in the queue, could use the array (R210). -/
def State.taskFirst (s : State) (t : Task) (a : Nat) : Bool :=
  let before := s.pkg.tasks.takeWhile (fun u => u.n != t.n)
  !(s.pkg.tasks.any (fun u => u.n != t.n && s.dispatchable u && s.arrayFits u a &&
      (decide (u.cls < t.cls) || (u.cls == t.cls && before.any (fun v => v.n == u.n)))))

/-- The HTS gives the next unit of a task to a free array; a READY task with no unit left is DONE (R208, R211). -/
def execTaskUnitDispatch (n array : Nat) (s : State) : Out :=
  .next (match s.taskAt n with
    | none => s
    | some t =>
      if !(s.dispatchable t) then s
      else if t.state = .ready ∧ s.taskUnits t ≤ t.next then s.endTask n .done 0
      else if !(s.arrayFits t array && s.taskFirst t array) then s
      else
        let take := match t.redo with
          | (u, rows) :: r => ({ t with redo := r }, u, rows)
          | [] => ({ t with next := t.next + 1 }, t.next, [])
        let unit : TaskUnit := { unit := take.2.1, array := array, out := none, wrote := false, waits := false, rows := take.2.2 }
        let s1 := (s.updTask n (fun _ => { take.1 with running := t.running ++ [unit], array := arrayNo array })).updPkg
          (fun p => { p with arrays := p.arrays ++ [(array, n)] })
        if t.state = .ready then s1.setTState n .running else s1)

-- ## The end of a unit (R211, R212)

/-- A unit fails: nothing of it is written, no further unit is dispatched, and failures of kind 2, 4 and 7 end the request
(R212, R348); `req` is the request. An uncorrectable error of a task bound to none is reported (R323). -/
def State.failUnit (s : State) (n unit kind req : Nat) : State :=
  match s.taskAt n with
  | none => s
  | some t =>
    let s1 := (s.updTask n (fun t => { t.dropped unit with failKind := if t.failKind = 0 then kind else t.failKind })).dropUnit n unit
    let s2 := if (kind = 2 ∨ kind = 4 ∨ kind = 7) ∧ req ≠ 0 then s1.endRequest req
      else if kind = 2 then s1.report (.discarded t.slot t.strand t.addr) else s1
    s2.settleTask n

/-- Changes of one unit in progress. -/
def State.updUnit (s : State) (n unit : Nat) (f : TaskUnit → TaskUnit) : State :=
  s.updTask n (fun t => { t with running := t.running.map (fun u => if u.unit = unit then f u else u) })

-- ## What a unit computes

/-- Several ranges of a context read. -/
def State.readRanges (s : State) (slot : Nat) : List (Nat × Nat) → Eng (List (List Byte)) × State
  | [] => (.ok [], s)
  | r :: q =>
    let x := s.engRead slot r.1 r.2
    match x.1 with
    | .ok bs =>
      let y := x.2.readRanges slot q
      (match y.1 with
       | .ok l => .ok (bs :: l)
       | e => e, y.2)
    | .fault a w => (.fault a w, x.2)
    | .poison a => (.poison a, x.2)
    | .remote a => (.remote a, x.2)

/-- What a unit comes to: what it is to write, a failure with the request it ends, or an access that did not go through. -/
inductive UnitRes where
  | writes (o : UnitOut)
  | fail (kind req : Nat)
  | bad (k : AKind) (e : Eng Unit)

/-- A read, and what follows it. -/
def unitRead (r : Eng α × State) (k : α → State → UnitRes × State) : UnitRes × State :=
  match r.1 with
  | .ok v => k v r.2
  | .fault a w => (.bad .read (.fault a w), r.2)
  | .poison a => (.bad .read (.poison a), r.2)
  | .remote a => (.bad .read (.remote a), r.2)

/-- Pairs of operands padded to a whole number of groups with products of +0 (R207). -/
def padded (ps : List (FNum × FNum)) : List (FNum × FNum) :=
  ps ++ List.replicate ((8 - ps.length % 8) % 8) (.fin false 0 0, .fin false 0 0)

/-- One element of a product in floating point (R207). -/
def gemmFloat (t : Task) (c : EVal) (a w : List FNum) : Nat × Flags2 :=
  let ps := padded (a.zip w)
  let r := matAccum t.rnd ps.length c.num ps
  let d := elemEncode t.cfmt t.rnd t.sat (.f r.1)
  (d.1, orFlags (r.2, 0#3) d.2)

/-- The s32 value that a decoded C element adds to the sum (R207, R41). -/
def accInt (rnd : Rnd) (c : EVal) : Int × BitVec 5 :=
  match c with
  | .i v => (v, 0#5)
  | .f x => let d := deliverInt 32 rnd x; (sintOf 32 d.1, d.2)
  | .nar => let d := deliverInt 32 rnd canonNaN; (sintOf 32 d.1, d.2)

/-- One element of an integer product (R207). -/
def gemmInt (t : Task) (c : EVal) (a w : List Int) : Nat × Flags2 :=
  let c0 := accInt t.rnd c
  let v := sintOf 32 (wrapOrClamp 32 t.sat (c0.1 + dotInt a w))
  let d := elemEncode t.cfmt t.rnd t.sat (.i v)
  (d.1, orFlags (c0.2, 0#3) d.2)

/-- A unit of a matrix product (R207, R208): units are numbered by column block, then by row block. -/
def gemmUnit (t : Task) (u : TaskUnit) (s : State) : UnitRes × State :=
  let r0 := u.unit % t.rowBlocks * t.unitRows
  let c0 := u.unit / t.rowBlocks * t.unitCols
  let rows := min t.unitRows (t.M - r0)
  let cols := min t.unitCols (t.N - c0)
  let ab := rowBytes t.afmt t.K
  let wb := rowBytes t.wfmt t.K
  let cb := elemBytes t.cfmt
  let aAt := fun (i : Nat) => (t.fld 4 63 0 + (r0 + i) * t.fld 7 31 0, ab)
  let cAt := fun (i : Nat) => t.fld 6 63 0 + (r0 + i) * t.fld 8 31 0 + c0 * cb
  let aRows := if t.feed then (.ok ((List.range rows).map (fun i => (u.rows.drop (i * ab)).take ab)), s)
               else s.readRanges t.slot ((List.range rows).map aAt)
  unitRead aRows (fun as s =>
    unitRead (s.readRanges t.slot ((List.range cols).map (fun j => (t.fld 5 63 0 + (c0 + j) * t.fld 7 63 32, wb)))) (fun ws s =>
      unitRead (s.readRanges t.slot (if t.acc then (List.range rows).map (fun i => (cAt i, cols * cb)) else [])) (fun cs s =>
        let cVal := fun (i j : Nat) =>
          if t.acc then elemDecode t.cfmt (leNat (((cs.getD i []).drop (j * cb)).take cb)) else
          (if gemmPair t.bole t.afmt t.wfmt = some true then .i 0 else .f (.fin false 0 0))
        let out : List (List (Nat × Flags2)) × BitVec 3 :=
          if gemmPair t.bole t.afmt t.wfmt = some true then
            let da := as.map (rowInts t.afmt t.K)
            let dw := ws.map (rowInts t.wfmt t.K)
            ((List.range rows).map (fun i => (List.range cols).map (fun j =>
                gemmInt t (cVal i j) (da.getD i ([], 0#3)).1 (dw.getD j ([], 0#3)).1)),
             (da ++ dw).foldl (fun f x => f ||| x.2) 0#3)
          else
            let da := as.map (rowElems t.afmt t.K)
            let dw := ws.map (rowElems t.wfmt t.K)
            ((List.range rows).map (fun i => (List.range cols).map (fun j =>
                gemmFloat t (cVal i j) (da.getD i ([], 0#3)).1 (dw.getD j ([], 0#3)).1)),
             (da ++ dw).foldl (fun f x => f ||| x.2) 0#3)
        let packed := out.1.map (packElems cb)
        let fl := packed.foldl (fun f x => orFlags f x.2) (0#5, out.2)
        (.writes { rows := packed.zipIdx.map (fun (p, i) => (cAt i, p.1)), empties := (0, []), adds := [], flags := fl.1, tstat := fl.2 }, s))))

-- ## Attention (R366 to R368)

/-- The pages of a task read in token order until it has its tokens: the pages with their bodies, or the failure of the
unit. `n` is the number of tokens still to come, `i` the place in a list, `va` the page of a chain. -/
def State.attnPages (s : State) (t : Task) (first : Option Page) (n i va : Nat) : Nat → (Except UnitRes (List FullPage)) × State
  | 0 => (.error (.fail 5 0), s)
  | fuel + 1 =>
    if n = 0 then (.ok [], s)
    else
      let bad := fun (e : Eng Unit) => (Except.error (UnitRes.bad .read e) : Except UnitRes (List FullPage))
      let a := if t.listForm then s.engWord t.slot (t.listAt i) else (.ok (BitVec.ofNat 64 va), s)
      match a.1 with
      | .ok w =>
        if w = 0#64 then (.error (.fail 5 0), a.2)
        else
          let h := a.2.readPage t.slot w.toNat
          (match h.1 with
           | .ok p =>
             let f := first.getD p
             if !p.shaped || f.hd != t.K || p.heads != f.heads || p.hd != f.hd || p.lntok != f.lntok || p.state == 5 then
               (.error (.fail 5 0), h.2)
             else
               let b := h.2.readBody t.slot p
               (match b.1 with
                | .ok none => (.error (.fail 2 p.reqh), b.2)
                | .ok (some body) =>
                    let q := b.2.attnPages t (some f) (n - min n (min p.used p.ntok)) (i + 1) p.next fuel
                    (match q.1 with
                     | .ok l => .ok ({ hdr := p, body := body } :: l)
                     | e => e, q.2)
                | .fault x w => (bad (.fault x w), b.2)
                | .poison _ => (.error (.fail 2 p.reqh), b.2)
                | .remote x => (bad (.remote x), b.2))
           | .fault x w => (bad (.fault x w), h.2)
           | .poison x => (bad (.poison x), h.2)
           | .remote x => (bad (.remote x), h.2))
      | .fault x w => (bad (.fault x w), a.2)
      | .poison x => (bad (.poison x), a.2)
      | .remote x => (bad (.remote x), a.2)

/-- The exact value of element (t, h, c) of K or V in a page (R351). -/
def FullPage.val (p : FullPage) (v : Bool) (t h c : Nat) : FNum :=
  let i := p.hdr.elem v t h c
  if p.hdr.layout = 2 then (mulX (e4m3Val (p.body.getD i 0#8).toNat) (e4m3Val p.hdr.scale)).1 else bf16At p.body i

/-- The value of element (h, c) of token t of a list of pages. -/
def kvVal (ps : List FullPage) (v : Bool) (t h c : Nat) : FNum :=
  match tokenAt ps t with
  | some (p, k) => p.val v k h c
  | none => .fin false 0 0

/-- A value delivered to FP32, rounding to nearest, and the value it has then. -/
def toF32 (x : FNum) : FNum × Nat × BitVec 5 := let d := deliverF fmtF32 .rn false x; (decodeF fmtF32 d.1, d.1, d.2)

/-- What one row of attention gives: O, LSE, the empty bit, the weights to add per token, and the flags. -/
structure AttnOut where
  o : List Nat
  lse : Nat
  empty : Bool
  adds : List (Nat × FNum)
  flags : Flags2

/-- AttnRow (R367). -/
def attnRow (t : Task) (ps : List FullPage) (h m : Nat) (q : List FNum) : AttnOut :=
  let sscale := f32Val (BitVec.ofNat 32 (t.fld 12 63 32))
  let qpos0 := t.fld 12 31 0
  let cols := (List.range t.K).map id
  let visible := fun (k : Nat) => decide (k ≤ qpos0 + m) || qpos0 == 2 ^ 32 - 1
  let score := fun (k : Nat) =>
    if visible k then
      let ops := padded (q.zip (cols.map (fun c => kvVal ps false k h c)))
      let a := matAccum .rn ops.length (.fin false 0 0) ops
      let d := deliverOp fmtF32 .rn false (mulX a.1 sscale)
      (decodeF fmtF32 d.1, d.1, a.2 ||| d.2)
    else (.inf true, infCode fmtF32 true false, 0#5)
  let ss := (List.range t.N).map score
  let seen := ((List.range t.N).zip ss).filter (fun x => visible x.1)
  let canon := elemEncode t.cfmt .rn true (.f canonNaN)
  let zero := elemEncode t.cfmt .rn true (.f (.fin false 0 0))
  if seen.any (fun x => x.2.1.isNaN || (x.2.1.isInf && !x.2.1.neg?)) then
    { o := cols.map (fun _ => canon.1), lse := 0x7FC00000, empty := false, adds := [], flags := (fInvalid, 0#3) }
  else if ss.all (fun x => x.1.isInf) then
    { o := cols.map (fun _ => zero.1), lse := infCode fmtF32 true false, empty := true, adds := [], flags := (0#5, 0#3) }
  else
    let mx := ss.foldl (fun (b : FNum × Nat) x => if ltX b.1 x.1 then (x.1, x.2.1) else b) (.inf true, infCode fmtF32 true false)
    let pe := ss.map (fun x => expQ x.2.1 mx.2)
    let p := pe.map (fun e => e4m3Val e.1)
    let S := toF32 (p.foldl (fun a x => (addX .rn a x).1) (.fin false 0 0))
    let os := cols.map (fun c =>
      let ops := padded (p.zip ((List.range t.N).map (fun k => kvVal ps true k h c)))
      let a := matAccum .rn ops.length (.fin false 0 0) ops
      let d := elemEncode t.cfmt .rn true (.f (divX a.1 S.1).1)
      (d.1, orFlags (a.2, 0#3) d.2))
    let l := deliverSf fmtF32 .rn false (logX (scaleX S.1 8))
    let e := deliverOp fmtF32 .rn false (addX .rn mx.1 (decodeF fmtF32 l.1))
    let fl := ss.foldl (fun f x => f ||| x.2.2) 0#5 ||| pe.foldl (fun f x => f ||| x.2) 0#5 ||| S.2.2 ||| l.2 ||| e.2
    { o := os.map (·.1), lse := e.1, empty := false
      adds := ((List.range t.N).zip p).filterMap (fun x =>
        if visible x.1 && !x.2.isZero then some (x.1, (toF32 (divX x.2 S.1).1).1) else none)
      flags := os.foldl (fun f x => orFlags f x.2) (fl, 0#3) }

/-- One bit of a byte set or cleared. -/
def putBit (b : Byte) (k : Nat) (on : Bool) : Byte := if on then b ||| (1#8 <<< k) else b &&& ~~~(1#8 <<< k)

/-- The bytes that hold bits from a bit number on, with those bits put in. -/
def putBits (old : List Byte) (g : Nat) (bs : List Bool) : List Byte :=
  bs.zipIdx.foldl (fun (b : List Byte) (x, i) => b.modify ((g + i) / 8 - g / 8) (fun c => putBit c ((g + i) % 8) x)) old

/-- A unit of an attention task (R369). -/
def attnUnit (t : Task) (u : TaskUnit) (s : State) : UnitRes × State :=
  let h := u.unit / t.rowBlocks
  let r0 := u.unit % t.rowBlocks * t.unitRows
  let rows := min t.unitRows (t.M - r0)
  let ab := elemBytes t.afmt
  let cb := elemBytes t.cfmt
  let g := h * t.M + r0
  let start := if t.listForm then 0 else t.fld 5 63 0
  let pr := s.attnPages t none t.N 0 start chainBound
  match pr.1 with
  | .error r => (r, pr.2)
  | .ok ps =>
    unitRead (pr.2.readRanges t.slot ((List.range rows).map (fun i => (t.fld 4 63 0 + ab * ((g + i) * t.K), ab * t.K)))) (fun qs s =>
      let st := t.fld 8 63 0
      let outs := (List.range rows).map (fun i => attnRow t ps h (r0 + i) (rowElems t.afmt t.K (qs.getD i [])).1)
      let o := outs.zipIdx.map (fun (x, i) => (t.fld 6 63 0 + cb * ((g + i) * t.K), x.o.flatMap (fun c => leBytes cb c)))
      let l := (t.fld 7 63 0 + 4 * g, outs.flatMap (fun x => leBytes 4 x.lse))
      let adds := if st = 0 then [] else outs.flatMap (fun x => x.adds.map (fun a => (st + 4 * a.1, BitVec.ofNat 32 (toF32 a.2).2.1)))
      let fl := outs.foldl (fun f x => orFlags f x.flags) (0#5, 0#3)
      (.writes { rows := o ++ [l], empties := (g, outs.map (·.empty)), adds := adds, flags := fl.1, tstat := fl.2 }, s))

-- ## The events

/-- Bytes of the activation rows of a unit. -/
def Task.fedBytes (t : Task) (unit : Nat) : Nat :=
  min t.unitRows (t.M - unit % t.rowBlocks * t.unitRows) * rowBytes t.afmt t.K

/-- A unit has its rows: all that a feeder ring gives it (R208). -/
def Task.fed (t : Task) (unit : Nat) (rows : List Byte) : Bool := !t.feed || decide (t.fedBytes unit ≤ rows.length)

/-- The next tile of activation rows of a unit taken from its feeder ring, when its core runs a strand of the context and the ring holds
one (R208): none while the array waits. The units of a task take their rows in unit order. A tile that failed, or rows that are
poisoned, give the kind of the failure, and so does a ring whose tile is smaller than one row, which holds no whole row (DESIGN
CHOICE: R208 says only that each tile holds whole rows; log 106). -/
def State.takeRows (s : State) (t : Task) (u : TaskUnit) : Option (Except Nat (List Byte) × State) :=
  let turn := t.running.all (fun v => t.fed v.unit v.rows || decide (u.unit ≤ v.unit)) &&
    t.redo.all (fun v => t.fed v.1 v.2 || decide (u.unit < v.1))
  let core := t.fld 8 63 55
  let k := t.fld 8 54 51
  match (s.findCore core).bind (fun c => (s.findStrand c.runs).map (fun f => (c, f))) with
  | none => none
  | some (c, f) =>
    let r := f.ring k
    let ab := rowBytes t.afmt t.K
    let per := r.tileBytes / ab * ab
    if f.slot ≠ t.slot ∨ !turn then none
    else if per = 0 then some (.error 1, s)
    else if r.held = 0 then none
    else
      let at_ := r.tileAt r.head.toNat
      let res : Except Nat (List Byte) :=
        if r.failed.contains r.head.toNat then .error 1
        else if c.padSick at_ per then .error 2
        else .ok ((u.rows ++ c.scratch.read at_ per).take (t.fedBytes u.unit))
      some (res, s.updStrand f.h (fun x => x.setRing k (r.pop 1)))

/-- One score add (R368): at the table's home, in one step; in another package as an indivisible AFADD. -/
def State.addScore (s : State) (n slot va : Nat) (w : W32) : State :=
  let q := s.engTranslate slot va .write
  match q.1 with
  | .fault _ | .poison _ => q.2
  | .ok e =>
    let pa := homeOf q.2.pkg (e.addr va)
    if paPkg pa ≠ q.2.pkg.num then
      q.2.updPkg (fun p => (p.dropCopies pa 4).sendPkt (q.2.sourceOf (.eng (taskObj n))) (paPkg pa) 3 (.atomic 6 false false (paLocal pa) (w.zeroExtend 64) 0#64)
        (.eng (taskObj n)) e.key)
    else
      match q.2.engRead slot va 4 with
      | (.ok bs, s1) => s1.engPost slot va (leBytes 4 (toF32 (addX .rn (decodeF fmtF32 (leNat bs)) (f32Val w)).1).2.1)
      | (_, s1) => s1

/-- An access of a unit that did not go through (R212): firmware or another package is asked, or the unit fails. -/
def State.unitStuck (s : State) (t : Task) (unit : Nat) (k : AKind) (e : Eng Unit) : State :=
  match e with
  | .ok _ => s
  | .fault va w => (s.askFirmware t.slot (.task t.n) va k w).updUnit t.n unit (fun u => { u with waits := true })
  | .poison _ => s.failUnit t.n unit 2 t.request
  | .remote pa => if s.pkg.allows (paPkg pa) then s.askRemoteBy (.eng (taskObj t.n)) pa else s.failUnit t.n unit 3 0

/-- The write phase of a unit (R208, R369): its places are looked at first, then all of it is written, each write answered by its home;
with no answer to wait for the unit is complete. -/
def State.writeUnit (s : State) (t : Task) (unit : Nat) (o : UnitOut) : State :=
  let g := o.empties.1
  let bits := (t.fld 13 63 0 + g / 8, if o.empties.2.isEmpty then 0 else (g + o.empties.2.length - 1) / 8 - g / 8 + 1)
  let c := (o.rows.map (fun w => (w.1, w.2.length)) ++ bits :: o.adds.map (fun a => (a.1, 4))).foldl
    (fun (acc : Eng Unit × State) w =>
      match acc.1 with
      | .ok _ => acc.2.canPost t.slot w.1 w.2
      | _ => acc) (.ok (), s)
  match c.1 with
  | .ok _ =>
    let e := c.2.engRead t.slot bits.1 bits.2
    (match e.1 with
     | .ok old =>
       let s1 := (o.rows ++ [(bits.1, putBits old g o.empties.2)]).foldl
         (fun (u : State) w => u.engPostBy (.eng (taskObj t.n)) t.slot w.1 w.2) e.2
       let s2 := o.adds.foldl (fun (u : State) a => u.addScore t.n t.slot a.1 a.2) s1
       let s3 := (s2.updTask t.n (fun t => { t with
         flags := t.flags ||| o.flags, nar := t.nar || o.tstat &&& tNar != 0#3, fb4 := t.fb4 || o.tstat &&& tFb4 != 0#3
         trit := t.trit || o.tstat &&& tTrit != 0#3 })).updUnit t.n unit (fun u => { u with wrote := true })
       if s3.pkg.waitsFor (.eng (taskObj t.n)) then s3 else s3.passUnit t.n unit
     | bad => e.2.unitStuck t unit .read bad.unit)
  | bad => c.2.unitStuck t unit .write bad

/-- One move of a unit: a tile of its fed rows comes in; it computes, which takes it into its write phase; it writes; it completes when
every write has been answered. -/
def State.unitMove (s : State) (t : Task) (u : TaskUnit) : State :=
  if u.wrote then (if s.pkg.waitsFor (.eng (taskObj t.n)) then s else s.passUnit t.n u.unit)
  else if s.pkg.faults.any (fun f => f.agent == .task t.n) then s
  else match u.out with
  | some o => s.writeUnit t u.unit o
  | none =>
    if !(t.fed u.unit u.rows) then
      match s.takeRows t u with
      | none => s
      | some (.error kind, s1) => s1.failUnit t.n u.unit kind t.request
      | some (.ok bs, s1) => s1.updUnit t.n u.unit (fun u => { u with rows := bs })
    else
      let r := if t.attn then attnUnit t u s else gemmUnit t u s
      match r.1 with
      | .writes o => r.2.updUnit t.n u.unit (fun u => { u with out := some o })
      | .fail kind req => r.2.failUnit t.n u.unit kind req
      | .bad k e => r.2.unitStuck t u.unit k e

/-- The first operand byte that a unit reads from memory: of its activations, of its weights when a ring feeds it, of its queries. -/
def Task.firstByte (t : Task) (unit : Nat) : Nat :=
  let r0 := unit % t.rowBlocks * t.unitRows
  if t.attn then t.fld 4 63 0 + elemBytes t.afmt * ((unit / t.rowBlocks * t.M + r0) * t.K)
  else if t.feed then t.fld 5 63 0 + unit / t.rowBlocks * t.unitCols * t.fld 7 63 32
  else t.fld 4 63 0 + r0 * t.fld 7 31 0

/-- An uncorrectable error found in an operand (R322): in this package's memory it is in the unit's first operand byte, since the
event names none (DESIGN CHOICE; log 88). True when the read that follows finds it. -/
def State.unitError (s : State) (t : Task) (u : TaskUnit) : Bool × State :=
  let va := t.firstByte u.unit
  let q := s.engTranslate t.slot va .read
  match q.1 with
  | .fault _ | .poison _ => (true, q.2)
  | .ok e =>
    let pa := homeOf q.2.pkg (e.addr va)
    if paPkg pa = q.2.pkg.num then (true, q.2.uncorrectable (paLocal pa)) else (false, q.2)

/-- An array goes on with a unit; kind 2 says that an operand has an uncorrectable error (R212). -/
def execTaskUnitComplete (n unit kind : Nat) (s : State) : Out :=
  .next (match s.taskAt n with
    | none => s
    | some t =>
      match t.running.find? (fun u => u.unit == unit) with
      | none => s
      | some u =>
        if kind = 2 ∧ u.out.isNone ∧ t.fed unit u.rows then
          let e := s.unitError t u
          if e.1 then e.2.unitMove t u else e.2.failUnit n unit 2 t.request
        else s.unitMove t u)

-- ## Weight banks (R204)

/-- The banks of an array: none of them loaded, so that the first load goes into wb0. -/
def Pkg.banksOf (p : Pkg) (a : Nat) : Banks :=
  (p.banks.find? (fun b => b.array == a)).getD { array := a, current := true, loading := none, waiting := false, rows0 := 0, rows1 := 0 }

def State.updBanks (s : State) (a : Nat) (f : Banks → Banks) : State :=
  if 16 ≤ a then s
  else s.updPkg (fun p => { p with banks := p.banks.filter (fun b => b.array != a) ++ [f (p.banksOf a)] })

/-- Rows in the array with the tag of a bank. -/
def Banks.rows (b : Banks) (bank : Bool) : Nat := if bank then b.rows1 else b.rows0

/-- A load is asked for: it starts in the bank that is not current when that is writable, else it waits. -/
def Banks.load (b : Banks) : Banks :=
  if b.loading.isSome || b.waiting then b
  else if b.rows (!b.current) = 0 then { b with loading := some (!b.current) } else { b with waiting := true }

/-- A swap makes the other bank current for rows issued after it; not while it is being loaded. -/
def Banks.swap (b : Banks) : Banks := if b.loading.isSome || b.waiting then b else { b with current := !b.current }

/-- A row issues, with the tag of the current bank. -/
def Banks.rowIn (b : Banks) : Banks := if b.current then { b with rows1 := b.rows1 + 1 } else { b with rows0 := b.rows0 + 1 }

/-- A row leaves the array; with the last one of its tag the bank becomes writable, and a load that waits for it starts. -/
def Banks.rowOut (b : Banks) (bank : Bool) : Banks :=
  let c := if bank then { b with rows1 := b.rows1 - 1 } else { b with rows0 := b.rows0 - 1 }
  if c.waiting && bank != c.current && c.rows bank == 0 then { c with waiting := false, loading := some bank } else c

/-- The weight-bank load of a Bole array that is in progress ends (R204): a parity error fails the unit with kind 4. -/
def execBankLoadComplete (array : Nat) (ok : Bool) (s : State) : Out :=
  .next (if (s.pkg.banksOf array).loading.isNone then s
    else
      let s := s.updBanks array (fun b => { b with loading := none })
      if ok then s
      else match s.pkg.arrays.find? (fun a => a.1 == array) with
      | none => s
      | some (_, n) =>
        match s.taskAt n with
        | none => s
        | some t =>
          match t.running.find? (fun u => u.array == array) with
          | none => s
          | some u => if u.wrote then s else s.failUnit n u.unit 4 t.request)

end Sys2Proof.Machine
end

