-- ==== Sys2Proof/Machine/Context.lean ====
section
/-! DEFINITION. Contexts: creation, states, faults, pre-emption, parking, resumption, destruction, mode changes
(spec/14_context.md R280 to R297, spec/13_group.md R278, R279, spec/08_tile.md R191, spec/01_package.md R18). -/

namespace Sys2Proof.Machine

-- ## FAULTED (R295)

/-- The cycle of the core that a strand is on. -/
def State.cycOf (s : State) (t : Strand) : Nat := ((s.findCore t.core).map (·.cyc)).getD 0

/-- Every strand of a context that runs is stopped at its next word boundary. -/
def State.stopStrands (s : State) (slot : Nat) : State :=
  s.mapStrands (fun t => if t.h ≠ 0 ∧ t.slot = slot ∧ t.phase = .running then t.halt .stopping (s.cycOf t) else t)

/-- The context enters FAULTED: its strands are suspended, its tile tasks stopped, and the host gets a report. -/
def State.faultCtx (s : State) (slot : Nat) : State :=
  match s.ctxAt slot with
  | none => s
  | some c =>
    if c.state ≠ 1 ∧ c.state ≠ 2 then s
    else
      let s1 := (s.updCtx slot (fun c => { c with state := 3 })).stopStrands slot
      let ts := (s1.pkg.tasks.filter (fun t => t.slot == slot)).map (·.n)
      (ts.foldl (fun t n => t.stopTask n) s1).report (.faulted slot)

-- ## Pre-emption and parking (R278, R279, R290, R291)

/-- A pre-emption is pending for a strand. -/
def State.askPreempt (s : State) (h : Nat) : State := s.updStrand h (fun t => { t with preempt := true })

/-- A core that a strand holds. -/
def State.coreOf (s : State) (t : Strand) : Option Core := (s.findCore t.core).bind (fun c => if c.runs = t.h ∧ t.h ≠ 0 then some c else none)

/-- The time slice of a running strand has passed, and a ready strand of another context of an equal or higher class waits
for a core that this core could serve (R290). -/
def execTimeSliceExpiry (h : Nat) (s : State) : Out :=
  .next (match s.findStrand h with
    | none => s
    | some t =>
      match s.coreOf t, s.ctxAt t.slot with
      | some c, some x =>
        -- one for a C0 strand lands only on a reserved core
        let waits := s.allStrands.any (fun u => u.h != 0 && u.phase == .ready && u.slot != t.slot &&
          decide (s.strandClass u ≤ s.strandClass t) && s.mayRun u.slot (s.strandClass u) c.num &&
          (s.strandClass u != 0 || s.pkg.reserved c.num))
        if t.phase = .running ∧ 1250 * x.fld 3 63 32 ≤ c.cyc - t.slice ∧ waits then s.askPreempt h else s
      | _, _ => s)

/-- Opcodes of the words whose payload holds no source codes below s1 (R58). -/
def immOps : List Nat := [0x02, 0x03, 0x05, 0x08, 0x0B, 0x0C, 0x12, 0x1A, 0x1B, 0x1C, 0x20, 0x21, 0x29, 0x34, 0x54]

/-- The load queues that a word of the X stream pops (R59, R60). -/
def lqPops (w : W64) : List Nat :=
  let p : BitVec 36 := w.extractLsb' 0 36
  let codes := if immOps.contains (opOf w).toNat then [(fS1 p).toNat] else [(fS1 p).toNat, (fS2 p).toNat, (fS3 p).toNat, (fS4 p).toNat]
  (codes.filter (fun c => decide (44 ≤ c) && decide (c < 48))).map (· - 44)

/-- The head of a load queue waits for a load or a returning atomic that has left for another package. -/
def remoteHead (t : Strand) (k : Nat) : Bool :=
  match (t.lq.getD k []).head? with
  | some e => e.due.isNone && t.acc.any (fun a => a.sent && match a.op with
      | .load _ id _ _ => id == e.id
      | .loadV _ id _ _ _ _ => id == e.id
      | .atom _ _ _ _ _ _ (some r) => r.2 == e.id
      | _ => false)
  | none => false

/-- Where a stalled stream of the strand in the foreground may park (R279): 1 QPOP, 2 EVWAIT, 3 LAUNCH, 4 + k a pop of load
queue k; 0 for none. -/
def parkPlace (s : State) (st : Stream) : Nat :=
  let q := s.strand.seq st
  match s.lineAt q.pc with
  | none => 0
  | some l =>
    let w := l.word q.pc
    match decode w with
    | .ok (_, .qpop _ _) => 1
    | .ok (_, .evwait _ _) => if q.waiting then 2 else 0
    | .ok (_, .launch _ _ _) => if s.core.credit s.strand.slot = 0 then 3 else 0
    | .ok _ => if st = .x then (match (lqPops w).find? (remoteHead s.strand) with | some k => 4 + k | none => 0) else 0
    | .error _ => 0

/-- A strand whose stream has stalled for longer than the park threshold begins to park; a cancel at QPOP or EVWAIT ends it
instead (R279, R291). -/
def execParkThresholdExpiry (h : Nat) (s : State) : Out :=
  .next (match (s.findStrand h).bind (fun t => s.ctxAt t.slot) with
    | none => s
    | some x => s.onStrand h (fun s =>
        let long := fun (st : Stream) => (s.strand.seq st).waitFrom.any (fun w => decide (x.parkThr < s.cyc - w))
        let place := fun (st : Stream) => if long st then parkPlace s st else 0
        let p := if place .a ≠ 0 then place .a else place .x
        if !x.parkEn || p == 0 || s.strand.phase != .running || s.core.runs != h then s
        else if s.strand.cancelled ∧ p ≤ 2 then endCancelled s
        else { s with strand := { s.strand.halt .preempting s.cyc with parked := true, parkAt := p } }))

/-- The condition on which a parked strand becomes ready holds (R279); a credit is an event of its own. -/
def State.parkOver (s : State) (t : Strand) : Bool :=
  match t.parkAt with
  | 0 => true
  | 1 => (match nextInput { s with strand := t } with | .wait => false | _ => true) || t.withdrawn || t.reported || t.cancelled
  | 2 => t.a.woken || t.x.woken || t.cancelled
  | 3 => false
  | k + 4 => match (t.lq.getD k []).head? with
    | some e => e.due.isSome
    | none => true

/-- Parked strands whose condition holds become ready. -/
def State.refreshParked (s : State) : State :=
  { s with strand := (if s.strand.parked && s.parkOver s.strand then s.strand.unpark else s.strand),
           strands := s.strands.map (fun t => if t.parked && s.parkOver t then t.unpark else t) }

/-- A pre-empted or parked strand has stopped, its results have landed, its copies and started chain records are complete: its
image is saved, with the channels' next records (R170), and its core released (R291); the stop orders what follows it (R187). -/
def execPreemptionSave (h : Nat) (s : State) : Out :=
  .next (s.onStrand h (fun s =>
    let t := s.strand
    if t.phase ≠ .preempting ∨ !(if t.parked then parkDrained s else t.drained) ∨ !t.copiesDone ∨ !(s.pkg.epQuiet h) then s
    else
      let t1 := landAll s.cyc t
      let t2 := { t1 with a := t1.a.stopRec, x := t1.x.stopRec, preempt := false, spimage := declaredOnly t.spsave s.core.scratch,
                          spBad := s.core.padBad.filter (fun l => t.spsave.getLsbD (l / 1024)),
                          phase := if t.parked then .stopped else .ready, readyAt := 0 }
      ((stopFence { s with strand := t2 }).release s.core.num t.slot t.h false).refreshParked))

/-- Firmware stops a running strand at its next word boundary (R70). -/
def execStrandSuspend (h : Nat) (s : State) : Out :=
  .next (s.updStrand h (fun t => if t.phase = .running then t.halt .stopping (s.cycOf t) else t))

/-- The die of a strand's core is in its context's mask (R287). -/
def State.dieAllows (s : State) (t : Strand) : Bool := (s.ctxAt t.slot).any (fun c => c.dies.getLsbD (dieOf t.core))

/-- A suspended strand of a core that its context may not use any more leaves it as by a pre-emption, to be resumed on another
(R287, R294). -/
def Strand.sendAway (t : Strand) (cyc : Nat) : Strand := { t.halt .preempting cyc with logFull := false }

/-- Firmware resumes a suspended strand where it is (R71); for a page that a load or fetch found unmapped, after dropping the
translation (R309). Or the HTS resumes on a free core the ready strand that is next there (R259, R276, R292); `zero` says that undeclared
granules read 0. -/
def execStrandResume (h core : Nat) (zero : Bool) (s : State) : Out :=
  .next (match s.findStrand h with
    | none => s
    | some t =>
      if (s.ctxAt t.slot).all (fun c => c.state != 1) then s
      else if t.phase = .suspended && !(s.dieAllows t) then s.updStrand h (fun t => t.sendAway (s.cycOf t))
      else if t.phase = .suspended then
        s.onStrand h (fun s =>
          let drop := fun (s : State) (q : Seq) =>
            if q.trapped && q.tcause == .pageLoad then
              (s.dropCore t.slot q.tval.toNat (q.tval.toNat + 1)).updPkg (fun p => { p with
                dies := p.dies.modify (dieOf s.core.num) (fun d => { d with
                  tlb := d.tlb.filter (fun e => !(overlapsPage e t.slot q.tval.toNat (q.tval.toNat + 1))) }) })
            else s
          resumeStrand (drop (drop s t.a) t.x))
      else if t.phase = .ready then
        match s.findCore core with
        | none => s
        | some c => if c.runs = 0 ∧ s.takesNext core h then s.place h core zero else s
      else s)

-- ## ACCFIRST (R191)

/-- The running holder of a file must have stopped, with its matrix words complete. -/
def holderBusy (s : State) (c : Core) : Bool :=
  c.accownValid && c.accownHold != 0 && (s.findStrand c.accownHold).any (fun t => t.phase == .running || t.phase == .stopping || !t.matIds.isEmpty)

/-- Taproot firmware takes ACCFIRST for a suspended strand: the holder's live tiles are spilled, the strand's own are loaded,
no tile keeps a value of another context, and the strand resumes at its word. One on a die that its context may not use any more is
sent away first (R287). -/
def execAccfirstService (h : Nat) (s : State) : Out :=
  .next (s.onStrand h (fun s =>
    let t := s.strand
    let c := s.core
    let asked := t.phase == .suspended && (s.ctxAt t.slot).any (fun c => c.state == 1) && ((t.a.trapped && t.a.tcause == .accfirst) || (t.x.trapped && t.x.tcause == .accfirst))
    if !asked then s
    else if !(s.dieAllows t) then s.updStrand h (fun t => t.sendAway (s.cycOf t))
    else if c.accownHold ≠ h ∧ holderBusy s c then s.updStrand c.accownHold (fun u => if u.phase = .running then u.halt .stopping (s.cycOf u) else u)
    else
      let s1 := if !c.accownValid || c.accownHold == 0 || c.accownHold == h then s
        else if c.acclive = 0#8 then s.updStrand c.accownHold (fun u => { u with arrivals := c.arrivals, refusals := c.refusals })
        else s.spillTiles c c.accownHold
      let other := t.ctx != c.accownCtx || !c.accownValid
      let zero := List.replicate 1024 0#32
      let base := if other then List.replicate 8 zero else c.tiles
      let load := fun (acc : List (List W32) × State) (e : Nat × List W32) =>
        let r := acc.2.savedTile t e.1 e.2
        (acc.1.set e.1 r.1, r.2)
      let saved := ((t.spill.map (·.2)).getD []).foldl load (base, s1)
      let s2 : State := { saved.2 with core := { saved.2.core with
        acclive := (t.spill.map (·.1)).getD 0#8, tiles := saved.1, arrivals := t.arrivals, refusals := t.refusals
        accownValid := true, accownHold := h, accownCtx := t.ctx } }
      resumeStrand { s2 with strand := { s2.strand with spill := none } }))

-- ## States of a context (R285, R294)

/-- The barriers of a context for its mask of dies: those of a die that left it are saved away when ACTIVE, else freed; those
of a die that it gained are restored or new (R282, R294). An ACTIVE barrier whose index a new quota on an allowed die no longer
covers is freed (DESIGN CHOICE: the spec states no save for it; log 100). -/
def barsFor (slot nbar : Nat) (dies : BitVec 8) (l : List Bar) : List Bar :=
  let mine := l.filter (fun b => b.slot == slot)
  let rest := l.filter (fun b => b.slot != slot)
  let away := (mine.filter (fun b => !(dies.getLsbD b.die) && b.active)).map (fun b => { b with saved := true })
  let here := ((List.range 8).filter (fun d => dies.getLsbD d)).flatMap (fun d => (List.range nbar).map (fun i =>
    match mine.find? (fun b => b.die == d && b.index == i) with
    | some b => { b with saved := false }
    | none => { die := d, slot := slot, index := i, active := false, phase := 0#32, count := 0, arr := 0, pf := false, lastf := false,
                exp := 0, saved := false }))
  rest ++ here ++ away

/-- Quotas of a creation word 0x10 that fit, beside those of the other contexts (R286). -/
def quotasFit (p : Pkg) (slot tqb tqm nbar : Nat) (dies : BitVec 8) : Bool :=
  let others := p.ctxs.filter (fun c => c.slot != slot)
  let sum := fun (f : Ctx → Nat) => others.foldl (fun n c => n + f c) 0
  decide (sum (·.tqb) + tqb ≤ 2048) && decide (sum (·.tqm) + tqm ≤ 2048) &&
  (List.range 8).all (fun d => !(dies.getLsbD d) || decide (sum (fun c => if c.dies.getLsbD d then c.nbar else 0) + nbar ≤ 256))

/-- What stops writes that belong to no instruction's status is reported, with the object and the address, and the context enters FAULTED
(R295, R414); writes that can go on do. -/
def State.settleHeld (s : State) : State :=
  (s.pkg.held.map (·.obj)).foldl (fun t obj =>
    match t.pkg.held.find? (fun h => h.obj == obj) with
    | none => t
    | some h =>
      match h.err with
      | some va => ((t.putHeld obj (fun h => { h with err := none })).report (.heldRefused h.slot obj va)).faultCtx h.slot
      | none => t.runHeld obj) s

/-- Held engine writes of a context go on after a repair (R414). -/
def State.retryHeld (s : State) (slot : Nat) : State :=
  let mine := (s.pkg.held.filter (fun h => h.slot == slot)).map (·.obj)
  mine.foldl (fun t o => (t.updPkg (fun p => { p with held := p.held.map (fun h => if h.obj = o then { h with refused := false } else h) })).runHeld o) s

/-- PAUSE (R285). -/
def execPause (n : Nat) (s : State) : Out :=
  .next (s.onReq n 3 (fun r c s =>
    if c.state ≠ 1 then s.serve r 6 0
    else
      let s1 := (s.updCtx c.slot (fun c => { c with state := 2 })).mapStrands (fun t =>
        if t.h ≠ 0 ∧ t.slot = c.slot ∧ (t.phase = .running ∨ t.phase = .stopping ∨ t.phase = .suspended) then { t with preempt := true } else t)
      s1.serve r 0 0))

/-- The context becomes ACTIVE again: suspended strands that did not trap resume (R71), held engine writes go on (R414), and
a core that the mask gained gets the context's pinned lines (R246). -/
def State.reactivate (s : State) (c : Ctx) : State :=
  let s1 := s.updCtx c.slot (fun c => { c with state := 1 })
  let hs := (s1.allStrands.filter (fun t => t.h != 0 && t.slot == c.slot && t.phase == .suspended && !t.a.trapped && !t.x.trapped)).map (·.h)
  let s2 := hs.foldl (fun t h =>
    if (t.findStrand h).any (fun u => t.dieAllows u) then t.onStrand h resumeStrand
    else t.updStrand h (fun u => u.sendAway (t.cycOf u))) s1
  ((s2.retryHeld c.slot).refillAll c.slot).fillPins c

/-- No strand of a context runs on a die that leaves its mask, and no copy counts at a barrier there (R237, R287). -/
def State.diesClear (s : State) (slot : Nat) (gone : BitVec 8) : Bool :=
  s.allStrands.all (fun t => t.h == 0 || t.slot != slot ||
    (!(gone.getLsbD (dieOf t.core) && (t.phase == .running || t.phase == .stopping || t.phase == .preempting)) &&
     t.slots.all (fun c => c.all (fun c => c.open_ == 0 || c.cut || !(c.bar.any (fun b => gone.getLsbD b.1))))))

/-- RESUME (R284, R285, R294): arg0 may replace the quotas and the mask of dies. A die is removed once nothing of the context runs
there and its copies that count at barriers of the die have completed (R237). One that is added has to have room for the context's
pinned lines (DEDUCED: they are a resource of R286; log 80). -/
def execResume (n : Nat) (s : State) : Out :=
  .next (s.onReq n 4 (fun r c s =>
    if c.state ≠ 2 ∧ c.state ≠ 3 then s.serve r 6 0
    else if r.arg0 = 0 then (s.reactivate c).serve r 0 0
    else
      let tqb := r.fld 1 63 48
      let tqm := r.fld 1 47 32
      let nbar := r.fld 1 31 24
      let dies := BitVec.ofNat 8 (r.fld 1 23 16)
      if r.fld 1 13 0 ≠ 0 ∨ 2048 < tqb ∨ 2048 < tqm ∨ dies = 0#8 ∨ (r.fld 1 15 15 == 1) ≠ c.c0 ∨ (r.fld 1 14 14 == 1) ≠ c.shardOn then s.serve r 1 0
      else if !(quotasFit s.pkg c.slot tqb tqm nbar dies) then s.serve r 2 0
      else if (List.range 8).any (fun d => dies.getLsbD d && !(c.dies.getLsbD d) && decide (192 < s.pinsWith c d)) then s.serve r 2 0
      else if !(s.diesClear c.slot (c.dies &&& ~~~dies)) then s
      else
        let c1 := { c with tqb := tqb, tqm := tqm, nbar := nbar, dies := dies }
        let s1 := (s.updCtx c.slot (fun c => { c with tqb := tqb, tqm := tqm, nbar := nbar, dies := dies })).updPkg
          (fun p => { p with bars := barsFor c.slot nbar dies p.bars })
        (s1.reactivate c1).serve r 0 0))

-- ## Destruction (R296)

/-- parkctl after reset (R278). -/
def parkReset : W64 := BitVec.ofNat 64 (2 ^ 32 + 2500)

/-- parkctl of a slot: its context's, or what the FREE slot holds. -/
def State.parkWord (s : State) (slot : Nat) : W64 :=
  match s.ctxAt slot with
  | some c => BitVec.ofNat 64 (bitNat c.parkEn 32 + c.parkThr)
  | none => (tget s.pkg.parks slot).getD parkReset

/-- Steps 1 to 3 begin: queues flush, every launch is cancelled, strands stop, tasks are cancelled. -/
def State.beginDestroy (s : State) (c : Ctx) : State :=
  let s1 := s.updCtx c.slot (fun c => { c with state := 4 })
  let s2 := (List.range 16).foldl (fun t q => t.disableQueue c.slot q) s1
  let s3 := ((c.launches.filter (fun l => l.state.held)).map (·.id)).foldl (fun t id => t.cancelLaunch c.slot id) s2
  let s4 := s3.stopStrands c.slot
  ((s4.pkg.tasks.filter (fun t => t.slot == c.slot)).map (·.n)).foldl (fun t n => t.cancelTask n) s4

/-- What a strand still has in its pipeline waits for side-log entries that will not be replayed (R296), or is an operation of Taproot's
engines, which R296 does not wait for (log 113). -/
def State.heldByLog (s : State) (t : Strand) : Bool :=
  let f := (s.focusCore t.core).focusStrand t.h
  (!t.sidelog.isEmpty || t.acc.any (fun a => (roleOf a.op).engine)) && t.acc.zipIdx.all (fun (a, k) => (roleOf a.op).engine || !a.sent && !(mayPerform f k) && (t.logIsFull || !(mayLog f k)))

/-- A strand of a context that is going holds nothing up: it has stopped, its copies and chain records are complete. A record that
waits for a free tile of its ring is not started, and the chains of a pre-empted strand are blocked (R170, log 77). -/
def State.canGo (s : State) (t : Strand) : Bool :=
  (match t.phase with
   | .running => false | .stopping => s.heldByLog t
   | .preempting => t.drained || t.parked || s.heldByLog t
   | .none => true | .ready => true | .suspended => true | .stopped => true | .ended => true) && t.copiesDone &&
  (t.chainsHeld || t.chans.all (fun c => !c.walking || !c.held.isEmpty))

/-- The last steps: nothing of the context is left but the bytes of its pages. -/
def State.endDestroy (s : State) (c : Ctx) : State :=
  let s0 := c.kernels.foldl (fun t k => t.unloadKernel ((t.ctxAt c.slot).getD c) k) s
  let hs := (s0.allStrands.filter (fun t => t.h != 0 && t.slot == c.slot)).map (·.h)
  let s1 := hs.foldl (fun t h => t.dropStrand h) s0
  let s2 := s1.allCores.foldl (fun (t : State) k => k.upd.foldl (fun (u : State) l => u.mergeAt k.num l.line) t) s1
  let s3 := s2.mapCores (fun k =>
    let mine := k.accownValid && k.accownCtx.toNat == c.num
    { k.dropCredits c.slot with
        runs := if hs.contains k.runs then 0 else k.runs
        icache := k.icache.filter (fun l => l.slot != c.slot)
        scratchCtx := if k.scratchCtx = c.num then 0 else k.scratchCtx
        acclive := if mine then 0#8 else k.acclive
        tiles := if mine then List.replicate 8 (List.replicate 1024 0#32) else k.tiles })
  let s4 := s3.dropPkg c.slot 0 Config.vaEnd
  s4.updPkg (fun p => { p with
    bars := p.bars.filter (fun b => b.slot != c.slot)
    tasks := p.tasks.filter (fun t => t.slot != c.slot)
    arrays := p.arrays.filter (fun a => p.tasks.all (fun t => t.n != a.2 || t.slot != c.slot))
    submits := p.submits.filter (fun x => x.slot != c.slot)
    faults := p.faults.filter (fun f => f.slot != c.slot)
    reqs := p.reqs.filter (fun r => r.slot != c.slot)
    shards := tdel p.shards c.slot
    reread := p.reread.filter (fun e => e.1 != c.slot)
    grafts := p.grafts.filter (fun g => g.slot != c.slot)
    held := p.held.filter (fun h => h.slot != c.slot)
    late := p.late.filter (fun l => match l with
      | .signal slot _ => slot != c.slot
      | .deliver q => (tget p.rxqs q).any (fun r => r.slot != c.slot))
    whorls := p.whorls.filter (fun w => w.slot != c.slot)
    seqRings := p.seqRings.filter (fun r => r.slot != c.slot)
    reshards := p.reshards.filter (fun r => r.slot != c.slot)
    dadds := p.dadds.filter (fun d => d.ctx.toNat != c.num)
    ctxs := p.ctxs.filter (fun x => x.slot != c.slot)
    parks := tset p.parks c.slot (s.parkWord c.slot) })

/-- The mark of the DESTROY that runs, in the record as firmware holds it. -/
def FwReq.mark (r : FwReq) : FwReq := { r with words := r.words.set 7 (BitVec.ofNat 64 (2 ^ 32)) }
def FwReq.marked (r : FwReq) : Bool := (r.words.getD 7 0#64).getLsbD 32

/-- DESTROY (R285, R296): a request from the context's own ring is answered when the destruction starts, one of the host when
it has completed. -/
def execDestroy (n : Nat) (s : State) : Out :=
  .next (match s.reqTurn n with
    | none => s
    | some r =>
      if r.op ≠ 5 ∨ r.malformed then s
      else
        match r.slotOf.bind (fun k => s.ctxAt k) with
        | none => s
        | some c =>
          if c.state = 4 then
            -- another DESTROY than the one that runs does not fit the state
            if !r.marked then s.serve r 6 0
            else if (s.allStrands.filter (fun t => t.h != 0 && t.slot == c.slot)).all s.canGo &&
                s.pkg.tasks.all (fun t => t.slot != c.slot || t.running.isEmpty) then
              let s1 := s.endDestroy c
              if r.host then s1.serve r 0 0 else s1.updPkg (fun p => { p with fwreqs := p.fwreqs.filter (fun q => q.host || q.slot != c.slot) })
            else s
          else if c.state ≠ 1 ∧ c.state ≠ 2 ∧ c.state ≠ 3 then s.serve r 6 0
          else
            let s1 := s.beginDestroy c
            if r.host then s1.updPkg (fun p => { p with fwreqs := p.fwreqs.map (fun q => if q.n = r.n then q.mark else q) })
            else (s1.serve r 0 0).updPkg (fun p => { p with fwreqs := r.mark :: p.fwreqs }))

-- ## Creation (R281, R282)

/-- A range of an area is mapped, resident, and in .dev storage of the context (status 3). -/
def State.areaOk (s : State) (slot : Nat) (p : Nat × Nat) : Bool :=
  decide (p.1 + p.2 ≤ Config.localBase) && s.residentRange slot p.1 p.2

/-- The new context of a creation record; its parkctl holds what it held before. -/
def Ctx.create (slot num key : Nat) (park : W64) (w : List W64) : Ctx :=
  let f := fun (i hi lo : Nat) => bits ((w.getD i 0#64).toNat) hi lo
  { slot := slot, num := num, state := 1, words := w, bankkey := BitVec.ofNat 32 (if f 1 63 32 = 0 then key else f 1 63 32),
    evq := f 1 31 16, lsq := f 1 15 0, tqb := f 2 63 48, tqm := f 2 47 32, nbar := f 2 31 24, dies := BitVec.ofNat 8 (f 2 23 16),
    c0 := f 2 15 15 == 1, shardOn := f 2 14 14 == 1, parkEn := park.getLsbD 32, parkThr := bits park.toNat 31 0,
    queues := List.replicate 16 { weight := 1, cls := 3, state := 0, cur := 0 }, kernels := [], ctr := 1, accepted := 0,
    finished := 0, launches := [], counters := [], events := [], evOverCap := Config.overRecords (f 5 63 32), images := [],
    creditWait := [] }

/-- The fields of a creation record are in range and its reserved fields 0 (status 1). -/
def createOk (p : Pkg) (w : List W64) : Bool :=
  let f := fun (i hi lo : Nat) => bits ((w.getD i 0#64).toNat) hi lo
  f 0 63 58 == 0 && f 0 11 0 == 0 && f 0 57 48 == p.num && f 1 31 16 != 0 && decide (f 1 31 16 ≤ 4096) && f 1 15 0 != 0 &&
  decide (f 1 15 0 ≤ 8192) && decide (f 2 63 48 ≤ 2048) && decide (f 2 47 32 ≤ 2048) && f 2 23 16 != 0 && f 2 13 0 == 0 &&
  decide (10 ≤ f 3 63 32) && decide (f 3 63 32 ≤ 1000000) && f 3 31 0 == 0 && f 4 63 0 % 4096 == 0 && decide (16 ≤ f 5 63 32) &&
  f 5 31 0 != 0 && f 6 63 0 % 4096 == 0 && f 7 63 0 % 65536 == 0 && decide (9 ≤ f 8 63 32) && f 8 31 0 == 0 &&
  f 9 63 0 % 4096 == 0 && f 10 47 32 == 0 && f 10 31 0 != 0 && decide (f 10 31 0 ≤ 4095) && (w.drop 11).all (· == 0#64)

/-- The areas of a creation record: event overflow, launch overflow, image area, firmware request ring. -/
def areasOf (w : List W64) : List (Nat × Nat) :=
  let f := fun (i hi lo : Nat) => bits ((w.getD i 0#64).toNat) hi lo
  [(f 4 63 0, 4096 * f 5 63 32), (f 6 63 0, 4096 * f 5 31 0), (f 7 63 0, 65536 * f 8 63 32), (f 9 63 0, 64 + 64 * f 10 31 0)]

/-- Firmware begins to wait on the context's fwev (R284). -/
def Ctx.listen (c : Ctx) : Ctx := if c.ringSlots = 0 then c else c.putEvent (c.newEvent c.ringEvent)

/-- CREATE (R282): firmware's choice of a free slot, a free number and, for a bank key of 0, a nonzero key are in the event;
`rec` holds the record read by DMA. -/
def execCreate (n slot num key : Nat) (rec : List W64) (s : State) : Out :=
  .next (match s.reqTurn n with
    | none => s
    | some r =>
      if r.op ≠ 8 ∨ r.malformed ∨ r.wrongRing then s
      else
        let lo := bits s.pkg.lock.hbase.toNat 63 12 * 4096
        let hi := bits s.pkg.lock.hlim.toNat 63 12 * 4096
        let sum := fun (f : Ctx → Nat) => s.pkg.ctxs.foldl (fun n c => n + f c) 0
        let c := Ctx.create slot num key (s.parkWord slot) rec
        if !(decide (lo ≤ r.arg0) && decide (r.arg0 + 128 ≤ hi)) then (s.report (.dmaRefused r.arg0)).serve r 1 0
        else if !(createOk s.pkg rec) then s.serve r 1 0
        else if 4096 < sum (·.evq) + c.evq ∨ 8192 < sum (·.lsq) + c.lsq ∨ !(quotasFit s.pkg Config.contexts c.tqb c.tqm c.nbar c.dies) then s.serve r 2 0
        else if 1023 < slot ∨ ((s.ctxAt slot).isSome ∧ s.pkg.ctxs.length < Config.contexts) then s
        else
          -- the areas are those of the new context: no translation of one that holds the slot stands in for its own
          let try_ := (s.dropPkg slot 0 Config.vaEnd).updPkg (fun p => { p with ctxs := p.ctxs.filter (fun x => x.slot != slot) ++ [c] })
          if !(disjoint (areasOf rec)) || !((areasOf rec).all (fun a => try_.areaOk slot a)) then s.serve r 3 0
          else if Config.contexts ≤ s.pkg.ctxs.length then s.serve r 4 0
          else if s.pkg.numaPend || s.pkg.modeReq.isSome then s.serve r 5 0
          else if s.pkg.ctxs.any (fun x => x.num == num) ∨ c.bankkey = 0#32 ∨ num = 0 ∨ 65535 < num then s
          else
            let s1 := s.updPkg (fun p => { p with ctxs := p.ctxs ++ [c.listen], bars := barsFor slot c.nbar c.dies p.bars, parks := tdel p.parks slot })
            s1.serve r 0 (num * 2 ^ 16 + slot))

-- ## The NUMA mode (R18, R297)

/-- A mode is written: a change starts, with pend set, while no context exists. A write while pend is 1 is ignored (DESIGN CHOICE: R18 and
R297 do not say whether it takes effect; log 102). -/
def State.writeMode (s : State) (m : BitVec 2) : State :=
  if m = 3#2 ∨ m = s.pkg.numaMode ∨ !s.pkg.ctxs.isEmpty ∨ s.pkg.numaPend then s
  else s.updPkg (fun p => { p with numaMode := m, numaPend := true })

/-- Steps 4 to 7: caches and translations are empty, every byte of both tiers is 0. -/
def State.finishMode (s : State) : State :=
  let s1 := s.mapCores (fun c => { c with tlb := [], icache := [], upd := [], scratchCtx := 0 })
  s1.updPkg (fun p => { p with
    mem := p.mem.filter (fun c => inTier2 c.1 && Config.firmwareHolds c.1), lineKeys := [], dirtyL2 := [], l1Bad := [], l2Bad := [],
    rcache := [], onceLines := [], engTlb := [], numaPend := false,
    dies := p.dies.map (fun d => { d with tlb := [], walks := [] })
    frames := p.frames.map (fun e => (e.1, { e.2 with dirty := 0#512 })) })

/-- MODE (R284, R297): it waits until no context exists, writes the mode, and completes after the drain; a mode already in
force completes at once. -/
def execMode (n : Nat) (s : State) : Out :=
  .next (
    if s.pkg.numaPend then
      let s1 := s.finishMode
      match s1.pkg.modeReq with
      | none => s1
      | some (k, _) =>
        let s2 := s1.updPkg (fun p => { p with modeReq := none })
        (match s2.pkg.fwreqs.find? (fun r => r.n == k) with
         | some r => s2.serve r 0 0
         | none => s2)
    else
      match s.pkg.modeReq with
      | some (_, m) => s.writeMode m
      | none =>
        match s.reqTurn n with
        | none => s
        | some r =>
          if r.op ≠ 9 ∨ r.malformed ∨ r.wrongRing then s
          else if 3 ≤ r.arg0 then s.serve r 1 0
          else if BitVec.ofNat 2 r.arg0 = s.pkg.numaMode then s.serve r 0 0
          else (s.updPkg (fun p => { p with modeReq := some (n, BitVec.ofNat 2 r.arg0) })).writeMode (BitVec.ofNat 2 r.arg0))

/-- A write of numamode (R18). -/
def execNumamodeWrite (v : W64) (s : State) : Out := .next (s.writeMode (v.truncate 2))

end Sys2Proof.Machine
end

