-- ==== Sys2Proof/Machine/Whorl.lean ====
section
/-! DEFINITION. The whorl unit: whorls, BALLOT, sequence-parallel rings (spec/18_whorl.md R377 to R386, R392 to R394). -/

namespace Sys2Proof.Machine

-- ## Whorls (R377 to R380)

/-- The object of a whorl's writes. -/
def whorlObj (handle : Nat) : Nat := 2 ^ 32 + handle

/-- A whorl that the unit holds and has not settled. -/
def Whorl.held (w : Whorl) : Bool := decide (w.state < 4)

def State.whorlAt (s : State) (handle : Nat) : Option Whorl := s.pkg.whorls.find? (fun w => w.handle == handle && w.held)

def State.putWhorl (s : State) (w : Whorl) : State :=
  s.updPkg (fun p => { p with whorls := p.whorls.map (fun x => if x.handle = w.handle then w else x) })

/-- Word 0x00 of a whorl record. -/
def Whorl.word0 (w : Whorl) : W64 :=
  BitVec.ofNat 64 (w.state * 2 ^ 56 + w.n * 2 ^ 48 + w.thr * 2 ^ 40 + w.winner * 2 ^ 32 + w.handle * 2 ^ 16 + w.counted % 256 * 2 ^ 8 + w.late % 256)

def Whorl.word28 (w : Whorl) : W64 := BitVec.ofNat 64 (w.live * 2 ^ 32 + w.serial)

/-- The header as the hardware keeps it: state, winner and counts, the winning hash, live and serial. -/
def Whorl.header (w : Whorl) : List EngWrite :=
  [.bytes w.recVa (leBytes 8 w.word0.toNat), .bytes (w.recVa + 8) (leBytes 8 w.whash.toNat), .bytes (w.recVa + 0x28) (leBytes 8 w.word28.toNat)]

def Whorl.entry (w : Whorl) (i : Nat) : Nat := w.recVa + 0x40 + 0x40 * i

/-- The words +0x00 and +0x08 and the serial of a sibling's entry. -/
def Whorl.postWrites (w : Whorl) (i : Nat) (b : Sib) : List EngWrite :=
  [.bytes (w.entry i) (leBytes 8 (b.lid * 2 ^ 32 + b.post * 4 + b.fin)), .bytes (w.entry i + 8) (leBytes 8 b.hash.toNat),
   .bytes (w.entry i + 0x14) (leBytes 4 b.pserial)]

/-- Tiles of the tasks that a launch's strands issued (R384). -/
def State.tilesOf (s : State) (slot lid : Nat) : Nat :=
  (s.pkg.tasks.filter (fun t => t.slot == slot && t.launch == lid)).foldl (fun n t => n + t.tiles) 0

/-- A sibling's launch has ended (R380, R382, R384): its entry and counts; the private chain of a cancelled sibling whose
post was not counted is released before live falls. -/
def endSib (w : Whorl) (i : Nat) (b : Sib) (l : Launch) (tiles : Nat) : Whorl × List EngWrite :=
  let b1 := { b with fin := if l.state = .cancelled then 2 else 1 }
  let w1 := { w with sibs := w.sibs.set i b1, live := w.live - 1 }
  let free := if b1.fin = 2 ∧ b.post ≠ 1 then [EngWrite.chain b.phead w.free true chainBound] else []
  (w1, w.postWrites i b1 ++ [.bytes (w.entry i + 0x18) (leBytes 8 l.cycles), .bytes (w.entry i + 0x24) (leBytes 4 tiles),
      .tokens (w.entry i + 0x10) b.pserial b.phead 0 chainBound] ++ free ++ [.bytes (w.recVa + 0x28) (leBytes 8 w1.word28.toNat)])

/-- A whorl that has left OPEN and has no running sibling settles: the shared pages are released, then SETTLED is written,
done signalled, and it leaves the table (R380, R383). -/
def settleWhorl (w : Whorl) : Whorl × List EngWrite :=
  if w.state ≠ 1 ∧ w.state ≠ 4 ∧ w.live = 0 then
    let w1 := { w with state := 4 }
    (w1, [EngWrite.list w.shared w.nshared w.free, .await, .bytes w.recVa (leBytes 8 w1.word0.toNat), .await] ++
      (if w.sig then [EngWrite.signal w.done] else []) ++ [.dropWhorl w.handle])
  else (w, [])

/-- A whorl stored with its writes, and settled when it can be. -/
def State.whorlDo (s : State) (w : Whorl) (ws : List EngWrite) : State :=
  let q := settleWhorl w
  (s.putWhorl q.1).engDo (whorlObj w.handle) w.slot (.await :: (ws ++ q.2 ++ [.fin]))

-- ## WHORL.open and WHORL.close (R385)

/-- The whorl whose record lies at an address. -/
def State.whorlByRec (s : State) (slot rec : Nat) : Option Whorl := s.pkg.whorls.find? (fun w => w.slot == slot && w.recVa == rec && w.held)

/-- The next handle that no whorl holds (R378). -/
def freeWhorl (held : List Nat) (n : Nat) : Nat → Nat
  | 0 => n
  | k + 1 => if held.contains n then freeWhorl held (nextNo 16 n) k else n

def hasDup : List Nat → Bool
  | [] => false
  | a :: r => r.contains a || hasDup r

def doWhorlOpen (a : Acc) (ret : Option (Fin 4 × Nat)) (rec : Nat) (s : State) : Perf :=
  let slot := s.strand.slot
  onRead (s.engRead slot rec 1088) (engineBad a ret 0 .read) (fun bs s =>
    let ws := wordsOf bs
    let f := fun (i hi lo : Nat) => bits ((ws.getD i 0#64).toNat) hi lo
    let n := f 0 55 48
    let thr := f 0 47 40
    let e := fun (i w hi lo : Nat) => f (8 + 8 * i + w) hi lo
    let lids := (List.range n).map (fun i => e i 0 63 32)
    let state := (s.whorlByRec slot rec).elim 0 (·.state)
    let fail := fun (code : Nat) => answerNow ret (statusWord code state 0) s
    let reserved := f 3 14 0 ≠ 0 || f 6 63 0 ≠ 0 || f 7 63 0 ≠ 0 ||
      (List.range n).any (fun i => e i 0 31 4 != 0 || e i 4 31 0 != 0 || e i 6 63 0 != 0 || e i 7 63 0 != 0)
    let kept := fun (lid : Nat) => (s.launchAt slot lid).any (fun l => l.state != .refused)
    if reserved || n == 0 || decide (16 < n) || thr == 0 || decide (n < thr) || lids.any (fun l => !(kept l)) then fail 4
    else if hasDup lids || lids.any (fun l => s.pkg.whorls.any (fun w => w.held && w.slot == slot && w.sibs.any (fun b => b.lid == l))) ||
        f 0 63 56 != 0 then fail 1
    else if Config.whorls ≤ s.pkg.whorls.length then fail 3
    else
      onRead (s.canPost slot rec 1088) (engineBad a ret 0 .write) (fun _ s =>
        let h := freeWhorl (s.pkg.whorls.map (·.handle)) s.pkg.whorlNo 65536
        let sib := fun (i : Nat) => ({ lid := e i 0 63 32, post := 0, fin := 0, hash := 0#64, pserial := 0, phead := e i 5 63 0 } : Sib)
        let w : Whorl := { handle := h, slot := slot, recVa := rec, state := 1, n := n, thr := thr, winner := 0xFF, counted := 0, late := 0,
                           whash := 0#64, shared := f 2 63 0, nshared := f 3 63 32, done := f 3 31 16, sig := f 3 15 15 == 1, free := f 4 63 0,
                           live := n, serial := 0, sibs := (List.range n).map sib }
        -- siblings whose launches have ended are entered as ended at once
        let r := (List.range n).foldl (fun (acc : Whorl × List EngWrite) i =>
          match acc.1.sibs[i]? with
          | none => acc
          | some b =>
            match s.launchAt slot b.lid with
            | none => acc
            | some l => if l.state.held then acc else let q := endSib acc.1 i b l (s.tilesOf slot b.lid); (q.1, acc.2 ++ q.2)) (w, [])
        let entries := (List.range n).flatMap (fun i => w.postWrites i (sib i))
        let s1 := s.updPkg (fun p => { p with whorls := p.whorls ++ [r.1], whorlNo := nextNo 16 h })
        accepted a (whorlObj h) (.await :: (r.1.header ++ entries ++ r.2 ++ landing s1.strand.h a.id ret (statusWord 0 1 h) ++ [.fin])) s1))

/-- The counted posts of a hash. -/
def votes (w : Whorl) (h : W64) : List (Nat × Sib) := (w.sibs.zipIdx.map (fun (b, i) => (i, b))).filter (fun e => e.2.post == 1 && e.2.hash == h)

/-- The earliest of counted posts: its index. -/
def earliest (l : List (Nat × Sib)) : Option (Nat × Sib) := firstBy (fun a b => decide (a.2.pserial < b.2.pserial)) l

/-- The plurality (R381): the hash with the most posts, of tied hashes the one posted first; its earliest poster. -/
def plurality (w : Whorl) : Option (Nat × Sib) :=
  let firsts := (w.sibs.filter (fun b => b.post == 1)).filterMap (fun b => earliest (votes w b.hash))
  firstBy (fun a b =>
    let na := (votes w a.2.hash).length
    let nb := (votes w b.2.hash).length
    decide (nb < na) || (na == nb && decide (a.2.pserial < b.2.pserial))) firsts

/-- WHORL.close. A whorl's events wait behind the writes that it still holds (R414). -/
def doWhorlClose (a : Acc) (ret : Option (Fin 4 × Nat)) (rec : Nat) (s : State) : Perf :=
  match s.whorlByRec s.strand.slot rec with
  | none => answerNow ret (statusWord 1 0 0) s
  | some w =>
    if s.holds (whorlObj w.handle) then .stay s
    else if w.state ≠ 1 then answerNow ret (statusWord 1 w.state 0) s
    else
      let w1 := match plurality w with
        | some (i, b) => { w with state := 3, winner := i, whash := b.hash }
        | none => { w with state := 3 }
      let q := settleWhorl w1
      accepted a (whorlObj w.handle)
        (.await :: (w1.header ++ [.losers w.handle] ++ q.2 ++ landing s.strand.h a.id ret (statusWord 0 q.1.state w1.winner) ++ [.fin])) (s.putWhorl q.1)

-- ## BALLOT (R386)

def execBallot (d whorl hash : SOp) (s : State) : Out :=
  askWord d [whorl, hash] (fun v =>
    if 65536 ≤ (v.getD 0 0#64).toNat then none else some (fun res => .ballot (v.getD 0 0#64) (v.getD 1 0#64) res)) s

def ballotWord (code state sib serial : Nat) : W64 := BitVec.ofNat 64 (code * 2 ^ 56 + state * 2 ^ 48 + sib * 2 ^ 32 + serial)

/-- A post reaches the unit: refused, repeated, late or counted; a counted one may decide the whorl (R381). -/
def doBallot (handle hash : W64) (res : Nat) (s : State) : Perf :=
  let t := s.strand
  let found := (s.whorlAt handle.toNat).bind (fun w => if w.slot = t.slot then
    (w.sibs.findIdx? (fun b => b.lid == t.launch.toNat)).bind (fun i => (w.sibs[i]?).map (fun b => (w, i, b))) else none)
  match found with
  | none => .done (s.answer t.h res (ballotWord 3 0 0xFF 0xFFFFFFFF))
  | some (w, i, b) =>
    let n := (w.serial + 1) % 2 ^ 32
    let w1 := { w with serial := n }
    if s.holds (whorlObj w.handle) then .stay s
    else if b.post ≠ 0 then
      .done ((s.whorlDo w1 [.bytes (w.recVa + 0x28) (leBytes 8 w1.word28.toNat)]).answer t.h res (ballotWord 2 w.state i n))
    else if w.state ≠ 1 then
      let b1 := { b with post := 2, hash := hash, pserial := n }
      let w2 := { w1 with late := w.late + 1, sibs := w.sibs.set i b1 }
      .done ((s.whorlDo w2 (w2.postWrites i b1 ++ w2.header)).answer t.h res (ballotWord 1 w.state i n))
    else
      let b1 := { b with post := 1, hash := hash, pserial := n }
      let w2 := { w1 with counted := w.counted + 1, sibs := w.sibs.set i b1 }
      let vs := votes w2 hash
      if vs.length < w.thr then
        .done ((s.whorlDo w2 (w2.postWrites i b1 ++ w2.header)).answer t.h res (ballotWord 0 1 i n))
      else
        let w3 := { w2 with state := 2, whash := hash, winner := (earliest vs).elim 0xFF (·.1) }
        .done ((s.whorlDo w3 (w3.postWrites i b1 ++ w3.header ++ [.losers w.handle])).answer t.h res (ballotWord 0 2 i n))

/-- The end of a sibling's launch reaches the unit, after every post of its strands (R379, R380). -/
def execWhorlSiblingEnd (handle sib : Nat) (s : State) : Out :=
  .next (match (s.whorlAt handle).bind (fun w => (w.sibs[sib]?).map (fun b => (w, b))) with
    | none => s
    | some (w, b) =>
      match s.launchAt w.slot b.lid with
      | none => s
      | some l =>
        let posts := s.allStrands.any (fun t => t.slot == w.slot && t.launch.toNat == b.lid && t.acc.any (fun a => match a.op with
          | .ballot _ _ _ => true
          | _ => false))
        if b.fin ≠ 0 ∨ l.state.held ∨ posts ∨ s.holds (whorlObj handle) then s
        else let q := endSib w sib b l (s.tilesOf w.slot b.lid); s.whorlDo q.1 q.2)

-- ## Sequence-parallel rings (R392 to R394)

def ringObj (n : Nat) : Nat := 2 ^ 33 + n

def State.ringByRec (s : State) (slot rec : Nat) : Option SeqRing := s.pkg.seqRings.find? (fun r => r.slot == slot && r.recVa == rec)
def State.putSeqRing (s : State) (r : SeqRing) : State :=
  s.updPkg (fun p => { p with seqRings := p.seqRings.map (fun x => if x.n = r.n then r else x) })

/-- The word 0x00 of a ring record with a state and a count of re-forms. -/
def ringWord (state n gen : Nat) : List Byte := leBytes 8 (state * 2 ^ 56 + n * 2 ^ 48 + gen % 2 ^ 32)

def doWhorlRing (a : Acc) (ret : Option (Fin 4 × Nat)) (rec : Nat) (s : State) : Perf :=
  let slot := s.strand.slot
  onRead (s.engRead slot rec 64) (engineBad a ret 0 .read) (fun bs s =>
    let ws := wordsOf bs
    let f := fun (i hi lo : Nat) => bits ((ws.getD i 0#64).toNat) hi lo
    let old := s.ringByRec slot rec
    let fail := fun (code : Nat) => answerNow ret (statusWord code (old.elim 0 (·.state)) 0) s
    let n := f 0 55 48
    if Config.seqRings ≤ s.pkg.seqRings.length then fail 3
    else if n < 2 ∨ 16 < n ∨ f 0 47 32 ≠ 0 ∨ f 1 63 32 = 0 ∨ 1000000 < f 1 63 32 ∨ f 2 31 0 ≠ 0 ∨ (ws.drop 3).any (· != 0#64) then fail 4
    else if old.isSome ∨ f 0 63 56 ≠ 0 then fail 1
    else
      onRead (s.canPost slot rec 64) (engineBad a ret 0 .write) (fun _ s =>
        let k := s.pkg.seqNo
        let r : SeqRing := { n := k, slot := slot, recVa := rec, state := 1, members := n, tmo := f 1 63 32, final := f 2 63 32 }
        let s1 := s.updPkg (fun p => { p with seqRings := p.seqRings ++ [r], seqNo := k + 1 })
        accepted a (ringObj k) ([EngWrite.bytes (rec + 8) (leBytes 4 0), .await, .bytes rec (ringWord 1 n 0)] ++
          landing s1.strand.h a.id ret (statusWord 0 1 0) ++ [.fin]) s1))

/-- The count of re-forms that a ring record holds. -/
def State.ringGen (s : State) (r : SeqRing) : Nat := s.engGet r.slot r.recVa % 2 ^ 32

/-- A ring leaves the unit, STOPPED: what is written. -/
def State.ringStop (s : State) (r : SeqRing) : List EngWrite := [.await, .bytes r.recVa (ringWord 3 r.members (s.ringGen r))]
def State.ringLeaves (s : State) (r : SeqRing) : State := s.updPkg (fun p => { p with seqRings := p.seqRings.filter (fun x => x.n != r.n) })

/-- WHORL.unring waits, as every event of a ring does, behind the writes that the ring still holds (R414). -/
def doWhorlUnring (a : Acc) (ret : Option (Fin 4 × Nat)) (rec : Nat) (s : State) : Perf :=
  match s.ringByRec s.strand.slot rec with
  | none => answerNow ret (statusWord 1 0 0) s
  | some r =>
    if s.holds (ringObj r.n) then .stay s
    else accepted a (ringObj r.n) (s.ringStop r ++ landing s.strand.h a.id ret (statusWord 0 3 0) ++ [.fin]) (s.ringLeaves r)

/-- A member's last completed step, its package and its launch. -/
def State.memberDone (s : State) (r : SeqRing) (i : Nat) : Nat := s.engGet r.slot (r.recVa + 0x40 + 0x10 * i) % 2 ^ 32
def State.memberOf (s : State) (r : SeqRing) (i : Nat) : Nat × Nat :=
  let w := s.engGet r.slot (r.recVa + 0x48 + 0x10 * i); (bits w 41 32, bits w 31 0)

/-- Rings whose members have all completed the last step stop (R392). -/
def State.settleRings (s : State) : State :=
  (s.pkg.seqRings.filter (fun r => r.state == 1 && !(s.holds (ringObj r.n)))).foldl (fun t r =>
    if (List.range r.members).all (fun i => t.memberDone r i == r.final) then
      (t.ringLeaves r).engDo (ringObj r.n) r.slot (t.ringStop r ++ [.fin])
    else t) s

/-- The request of a member, where its launch is this package's. -/
def State.memberReq (s : State) (r : SeqRing) (i : Nat) : Option Req :=
  let m := s.memberOf r i
  if m.1 = s.pkg.num then (s.launchAt r.slot m.2).bind (fun l => s.reqAt l.request) else none

/-- A re-form begins (R394, step 1); one that runs already takes the event in. -/
def State.beginReform (s : State) (r : SeqRing) : State :=
  if r.state ≠ 1 then s
  else (s.putSeqRing { r with state := 2 }).engDo (ringObj r.n) r.slot [.await, .bytes r.recVa (ringWord 2 r.members (s.ringGen r)), .fin]

/-- Steps 3 to 5 of a re-form, when no member's request is on its way to a restart and no member's package is lost. -/
def State.finishReform (s : State) (r : SeqRing) (lost : Nat → Bool) : State :=
  let is_ := List.range r.members
  if r.state ≠ 2 ∨ s.holds (ringObj r.n) ∨ is_.any (fun i => (s.memberReq r i).any (fun q => q.ending) || lost (s.memberOf r i).1) then s
  else
    let least := is_.foldl (fun m i => min m (s.memberDone r i)) (s.memberDone r 0)
    (s.putSeqRing { r with state := 1 }).engDo (ringObj r.n) r.slot
      ([EngWrite.await, .bytes (r.recVa + 8) (leBytes 4 least)] ++ is_.map (fun i => .bytes (r.recVa + 0x40 + 0x10 * i) (leBytes 4 least)) ++
       [.await, .bytes r.recVa (ringWord 1 r.members (s.ringGen r + 1)), .fin])

/-- A package of the group of a sharded context is lost and its lane not yet rebuilt (R390). -/
def State.lanesLost (s : State) (slot pkg : Nat) : Bool :=
  (s.shardAt slot).any (fun g => (List.range 9).any (fun i => g.lost.getLsbD i && g.m.getD i 0 == pkg))

/-- Re-forms that have nothing left to wait for finish. -/
def State.finishReforms (s : State) : State :=
  (s.pkg.seqRings.filter (fun r => r.state == 2)).foldl (fun t r => t.finishReform r (t.lanesLost r.slot)) s

/-- A re-form of every ring with a member that an event concerns. -/
def State.reformWhere (s : State) (p : SeqRing → Nat → Bool) : State :=
  ((s.pkg.seqRings.filter (fun r => (List.range r.members).any (fun i => p r i))).foldl (fun t r => t.beginReform r) s).finishReforms

/-- The notice of another package that the request of a member has ended, or that its die was reset (R394, log 116). -/
def State.memberEvent (s : State) (ring i : Nat) : State := s.reformWhere (fun r k => r.n == ring && k == i && (s.memberOf r i).1 != s.pkg.num)

/-- A member of a ring lags beyond tmo (R394): the ring re-forms, and the stalled member's request is ended and restarted, by a message
to its package where that is another one. For a ring that is re-forming, the event takes it on. -/
def execRingStepTimeout (n member : Nat) (s : State) : Out :=
  .next (match s.pkg.seqRings.find? (fun r => r.n == n) with
    | none => s
    | some r =>
      if r.state = 2 then s.finishReforms
      else
        let most := (List.range r.members).foldl (fun m i => max m (s.memberDone r i)) 0
        if r.members ≤ member ∨ most ≤ s.memberDone r member then s.settleRings
        else
          let s1 := s.beginReform r
          let at_ := s1.memberOf r member
          let s2 := match s1.memberReq r member with
            | some q => s1.endRequest q.handle
            | none => if at_.1 = s1.pkg.num then s1 else s1.updPkg (fun p => p.sendPkt taproot at_.1 4 (.message at_.2) .none)
          s2.finishReforms)

-- ## WHORL (R385)

def execWhorlOpen (d : LqDst) (rec : SOp) (s : State) : Out := engineWord d [(rec, 64)] (fun v => .whorlOpen (v.getD 0 0#64)) s
def execWhorlClose (d : LqDst) (rec : SOp) (s : State) : Out := engineWord d [(rec, 64)] (fun v => .whorlClose (v.getD 0 0#64)) s
def execWhorlRing (d : LqDst) (rec : SOp) (s : State) : Out := engineWord d [(rec, 64)] (fun v => .whorlRing (v.getD 0 0#64)) s
def execWhorlUnring (d : LqDst) (rec : SOp) (s : State) : Out := engineWord d [(rec, 64)] (fun v => .whorlUnring (v.getD 0 0#64)) s

end Sys2Proof.Machine
end

