-- ==== Sys2Proof/Machine/Shard.lean ====
section
/-! DEFINITION. The shard unit, Coppice, and the restart of a request (spec/18_whorl.md R376, R387 to R391, R395 to R398,
spec/17_request.md R349). -/

namespace Sys2Proof.Machine

-- ## The shard record (R387)

/-- The shard record of a 128-byte image: PROTECTED, with nothing lost. -/
def Shard.ofImage (w : List W64) : Shard :=
  let f := fun (i hi lo : Nat) => bits ((w.getD i 0#64).toNat) hi lo
  { m := [f 0 9 0, f 0 25 16, f 0 41 32, f 0 57 48, f 1 9 0, f 1 25 16, f 1 41 32, f 1 57 48, f 2 9 0], gstate := 1, lost := 0#9,
    lane := f 2 35 32, spare := f 2 25 16, sbase := f 3 63 0, nslot := f 4 63 32, psize := f 4 31 0, swept := 0, ahead := [], demand := [] }

/-- The image keeps R387: nine distinct packages, the spare outside the group, a lane of the group that is this package's, or is to be
the spare's, when this package is that (log 115). -/
def Shard.ok (g : Shard) (num : Nat) : Bool :=
  !(hasDup g.m) && !(g.m.contains g.spare) && decide (g.lane ≤ 8) && (g.m.getD g.lane 0 == num || g.spare == num) && g.psize % 64 == 0

/-- SHARD (R284, R387). -/
def execShard (n : Nat) (s : State) : Out :=
  .next (s.onReq n 7 (fun r c s =>
    if !c.shardOn then s.serve r 1 0
    else
      let q := s.engRead c.slot r.arg0 128
      match q.1 with
      | .ok bs =>
        let g := Shard.ofImage (wordsOf bs)
        if g.ok s.pkg.num then (q.2.putShard c.slot g).serve r 0 0 else q.2.serve r 1 0
      | _ => q.2.serve r 1 0))

-- ## Lost lanes (R390)

/-- The group is EXPOSED: the failure is reported and not masked (R24). -/
def State.expose (s : State) (slot : Nat) : State := ((s.updShard slot (fun g => { g with gstate := 3 })).report (.exposed slot)).faultCtx slot

/-- Members of rings on a package that a spare replaces are rewritten, and their rings re-form (R394). -/
def State.replaceMembers (s : State) (slot old new : Nat) : State :=
  ((s.pkg.seqRings.filter (fun r => r.slot == slot)).foldl (fun t r =>
    (List.range r.members).foldl (fun u i =>
      if (u.memberOf r i).1 = old then
        u.engDo (ringObj r.n) slot [.bytes (r.recVa + 0x48 + 0x10 * i) (leBytes 8 (new * 2 ^ 32 + (Config.memberLid r.n i).toNat))]
      else u) t) s).finishReforms

/-- The sweep has reached nslot: the spare takes the lane, and the group is PROTECTED again. -/
def State.sweepEnd (s : State) (slot lane : Nat) : State :=
  match s.shardAt slot with
  | none => s
  | some g =>
    if g.gstate = 2 ∧ g.nslot ≤ g.swept then
      (s.updShard slot (fun g => { g with m := g.m.set lane g.spare, lost := 0#9, gstate := 1, ahead := [] })).replaceMembers slot (g.m.getD lane 0) g.spare
    else s

/-- The package of a lane is lost: the group begins to rebuild it, or, with another one lost, is EXPOSED. -/
def State.loseLane (s : State) (slot lane : Nat) : State :=
  match s.shardAt slot with
  | none => s
  | some g =>
    if g.gstate = 1 then
      (s.updShard slot (fun g => { g with gstate := 2, lost := g.lost ||| (1#9 <<< lane), swept := 0, ahead := [] })).sweepEnd slot lane
    else if g.gstate = 2 ∧ !(g.lost.getLsbD lane) then
      (s.updShard slot (fun g => { g with lost := g.lost ||| (1#9 <<< lane) })).expose slot
    else s

def execShardLaneLost (slot lane : Nat) (s : State) : Out := .next (if lane ≤ 8 then s.loseLane slot lane else s)

-- ## Rebuilding (R391)

/-- Bytes of a page written in place; a poisoned granule that lies wholly in the page is fresh from then on (R323). -/
def State.rebuildWrite (s : State) (slot va : Nat) (bs : List Byte) : State :=
  (pieces va bs.length).foldl (fun t pc =>
    let q := t.engTranslate slot pc.1 .read
    match q.1 with
    | .fault _ | .poison _ => q.2
    | .ok e =>
      let pa := homeOf q.2.pkg (e.addr pc.1)
      if paPkg pa ≠ q.2.pkg.num then q.2
      else
        let u := if pc.2 = 4096 then q.2.updPkg (fun p => p.cureGranule (paLocal pa)) else q.2
        if poisoned u.pkg (paLocal pa) pc.2 then u else u.writeAs (paLocal pa) ((bs.drop (pc.1 - va)).take pc.2) e.key) s

def setBytes (l : List Byte) (k : Nat) (new : List Byte) : List Byte := l.take k ++ new ++ l.drop (k + new.length)

/-- A data slot rebuilt from its parity page and the seven other pages of its stripe: its bytes, or none when its CRC fails. -/
def rebuildData (lane : Nat) (parity : List Byte) (others : List (List Byte)) : Option (List Byte) :=
  let st := (parity.getD (0x20 + lane) 0#8).toNat
  let img := setBytes (others.foldl (fun x p => xorBytes x (pageImage p)) parity) 0x20 (List.replicate 0x20 0#8)
  let p : Page := { va := 0, ws := wordsOf (img.take 0x40) }
  if p.seal then
    if 0x40 + p.body ≤ img.length ∧ p.verifies ((img.drop 0x40).take p.body) then
      let gstat := if p.layout = 2 ∧ 3 ≤ st then 2 else 0
      some (setBytes (setBytes img 0x20 (leBytes 8 st)) 0x28 (leBytes 8 gstat))
    else none
  else some (setBytes (List.replicate img.length 0#8) 0x20 (leBytes 8 (if st = 5 then 5 else 1)))

/-- A parity page rebuilt from the eight pages of its stripe. -/
def rebuildParity (pages : List (List Byte)) : List Byte :=
  match pages with
  | [] => []
  | p :: r =>
    let img := r.foldl (fun x q => xorBytes x (pageImage q)) (pageImage p)
    setBytes img 0x20 (pages.map (fun q => (q.getD 0x20 0#8)) ++ List.replicate (0x20 - pages.length) 0#8)

/-- The sweep moves past slots that are rebuilt. -/
def sweepOn (g : Shard) : Nat → Shard
  | 0 => g
  | k + 1 => if g.ahead.contains g.swept then sweepOn { g with swept := g.swept + 1, ahead := g.ahead.filter (· != g.swept) } k else g

/-- A slot is rebuilt: the page of this package that fails, in place, or the slot of the lost lane, which the spare writes.
`parity` and `images` are the pages read from the other members, in lane order, each checked as it is read (R376); a list too short is
a read, or a check, that failed. -/
def execShardRebuild (slot j : Nat) (parity : List Byte) (images : List (List Byte)) (s : State) : Out :=
  .next (match s.shardAt slot with
    | none => s
    | some g =>
      if g.gstate = 0 ∨ g.gstate = 3 ∨ g.nslot ≤ j ∨ g.psize < 0x40 then s
      else
        let va := g.sbase + g.psize * j
        let lost := (List.range 9).find? (fun i => g.lost.getLsbD i)
        let own := g.m.getD g.lane 0 == s.pkg.num && s.pageFails slot va
        let s := s.updShard slot (fun g => { g with demand := g.demand.filter (· != j) })
        let lane := if own then some g.lane else lost
        match lane with
        | none => s
        | some i =>
          if !own && (decide (j < g.swept) || g.ahead.contains j) then s
          else
            let readOk := images.length == (if i = 8 then 8 else 7) && images.all (fun p => p.length == g.psize) &&
              (i == 8 || parity.length == g.psize)
            let out := if i = 8 then some (rebuildParity images) else rebuildData i parity images
            if !readOk then (if g.gstate = 2 then s.expose slot else s)
            else
              match out with
              | none => s.expose slot
              | some bs =>
                let s1 := if own || s.pkg.num == g.spare then s.rebuildWrite slot va bs else s
                if own then s1
                else (s1.updShard slot (fun g => sweepOn { g with ahead := g.ahead ++ [j] } (g.ahead.length + 1))).sweepEnd slot i)

-- ## Restarting a request (R349)

/-- What the search for the prefix finds: so many pages, or a page that must first be rebuilt, or one that never can be. -/
inductive Prefix where
  | found (n : Nat)
  | wait (s : State)
  | gone

/-- A page that cannot be read: in a sharded context it is rebuilt first (R376, R391), and in an EXPOSED group it never is (R390). -/
def State.prefixBad (s : State) (slot va : Nat) : Prefix :=
  if (s.shardSlot slot va).isNone then .found 0 else if (s.shardRec slot).gstate = 3 then .gone else .wait s

/-- The longest run of pages in one of some states whose CRC verifies. -/
def findPrefix (slot : Nat) (states : List Nat) (s : State) : List Page → Prefix
  | [] => .found 0
  | p :: r =>
    if !(states.contains p.state) then .found 0
    else
      let b := s.readBody slot p
      match b.1 with
      | .ok (some _) =>
        (match findPrefix slot states b.2 r with
         | .found n => .found (n + 1)
         | x => x)
      | .ok none => b.2.prefixBad slot p.va
      | .poison _ => b.2.prefixBad slot p.va
      | .fault va why => .wait (b.2.askFirmware slot (.held p.reqh) va .read why)
      | .remote pa => if b.2.pkg.allows (paPkg pa) then .wait (b.2.askRemote pa) else .found 0

/-- A page reopened (R349, R388): its image leaves the parity page, used is 0, its seal is cleared, its state is OPEN. -/
def State.reopen (s : State) (slot : Nat) (p : Page) : List EngWrite :=
  let w1 := p.fld 1 63 44 * 2 ^ 44 + p.fld 1 42 16 * 2 ^ 16
  s.parityOf slot p.va (s.imageNow slot p.va) 1 ++ [.bytes (p.va + 8) (leBytes 8 w1), .bytes (p.va + 0x20) (leBytes 8 1)]

/-- The pages of a chain as far as their headers can be read, with the address of the one that cannot. -/
def State.chainUpTo (s : State) (slot va : Nat) : Nat → Eng (List Page × Option Nat) × State
  | 0 => (.ok ([], none), s)
  | n + 1 =>
    if va = 0 then (.ok ([], none), s)
    else
      let r := s.readPage slot va
      match r.1 with
      | .ok p =>
        let q := r.2.chainUpTo slot p.next n
        (match q.1 with
         | .ok x => (.ok (p :: x.1, x.2), q.2)
         | e => (e, q.2))
      | .poison _ => (.ok ([], some va), r.2)
      | .fault a w => (.fault a w, r.2)
      | .remote a => if r.2.pkg.allows (paPkg a) then (.remote a, r.2) else (.ok ([], some va), r.2)

/-- The pages of a chain, or the wait for one of them; one whose header is poisoned is rebuilt first where it can be, and else ends the
chain (R349, R391). -/
def chainOr (handle slot head : Nat) (s : State) (k : List Page → Option Nat → State → State) : State :=
  let c := s.chainUpTo slot head chainBound
  match c.1 with
  | .ok (ps, none) => k ps none c.2
  | .ok (ps, some va) =>
    (match c.2.prefixBad slot va with
     | .found _ => k ps (some va) c.2
     | .wait t => t
     | .gone => c.2.cancelRequest handle 4)
  | .fault va why => c.2.askFirmware slot (.held handle) va .read why
  | .remote pa => c.2.askRemote pa
  | .poison _ => c.2

/-- A page whose header cannot be read is reopened as far as that goes: its writes are held until firmware has repaired it (R414). -/
def reopenAt (bad : Option Nat) : List EngWrite :=
  bad.elim [] (fun va => [.bytes (va + 8) (leBytes 2 0), .bytes (va + 0x20) (leBytes 8 1)])

/-- A request in RESTARTING whose launches have all ended restarts from its prefix; after eight restarts it is cancelled. -/
def execRequestRestart (handle : Nat) (s : State) : Out :=
  .next (match s.reqAt handle with
    | none => s
    | some r =>
      if r.state ≠ .restarting ∨ !r.ending then s
      else
        let mine := fun (t : State) (g : SeqRing) (i : Nat) => (t.memberReq g i).any (fun q => q.handle == handle)
        let s := s.reformWhere (mine s)
        if !(s.boundLaunches r).isEmpty ∨ s.pkg.grafts.any (fun g => g.req == handle) ∨ s.pkg.submits.any (fun x => x.req == handle) ∨
            s.holds handle then s
        else if 8 ≤ r.restarts then (s.cancelRequest handle 3).report (.requestLimit handle)
        else
          chainOr handle r.slot (if r.inPrefill then r.srchead else r.dsthead) s (fun ps bad s =>
            match findPrefix r.slot (if r.inPrefill then [2, 3] else [4]) s ps with
            | .wait t => t
            | .gone => s.cancelRequest handle 4
            | .found n =>
              chainOr handle r.slot (if r.inPrefill then r.dsthead else 0) s (fun ds worse s =>
                let rtok := (ps.take n).foldl (fun k p => k + p.used) 0
                let again := ps.drop n ++ ds.filter (fun p => p.state != 4)
                let owned := r.inPrefill && decide (r.pblocks ≤ ((ds.take r.pblocks).filter (fun p => p.state == 4)).length)
                let prefill := r.inPrefill && !owned
                let s1 := s.updReq handle (fun r => { r with restarts := r.restarts + 1, ending := false })
                let word := (s1.reqAt handle).elim [] (fun r => r.word 0)
                (s1.engDo handle r.slot ([EngWrite.await, .bytes r.recVa word, .bytes (r.recVa + 0x3C) (leBytes 4 rtok)] ++
                  again.flatMap (fun p => s1.reopen r.slot p) ++ reopenAt bad ++ reopenAt worse ++
                  (if owned then [EngWrite.chain r.srchead r.srcfree true chainBound] else []) ++
                  [.await, .submit handle (!prefill), .fin])).finishReforms)))

-- ## Coppice (R395 to R398)

def execReshard (d : LqDst) (rec : SOp) (s : State) : Out := engineWord d [(rec, 64)] (fun v => .reshard (v.getD 0 0#64)) s

/-- A RESHARD takes its place in the queue (R397); it leaves the pipeline when it has ended. -/
def doReshard (a : Acc) (rec : Nat) (s : State) : Perf :=
  .stay (markSent a.id (s.updPkg (fun p => { p with
    reshards := p.reshards ++ [{ h := s.strand.h, id := a.id, slot := s.strand.slot, launch := s.strand.launch.toNat, recVa := rec, bytes := 0, flags := 0#5,
                                 flight := none, again := false }] })))

/-- A layout record (R395). -/
structure Layout where
  fmt : Nat
  rank : Nat
  mrank : Nat
  split : List Nat          -- by dimension
  dims : List Nat
  mesh : List Nat
  shards : Nat
deriving DecidableEq, Repr

def Layout.ofWords (w : List W64) : Layout :=
  let f := fun (i hi lo : Nat) => bits ((w.getD i 0#64).toNat) hi lo
  { fmt := f 0 63 60, rank := f 0 59 58 + 1, mrank := f 0 57 56 + 1, split := (List.range 4).map (fun d => f 0 (48 + 2 * d + 1) (48 + 2 * d)),
    dims := [f 1 31 0, f 1 63 32, f 2 31 0, f 2 63 32], mesh := [f 3 15 0, f 3 31 16, f 3 47 32], shards := f 4 63 0 }

def Layout.meshSize (l : Layout) : Nat := l.mesh.foldl (· * ·) 1
/-- Blocks into which a dimension is cut, and its extent in a shard. -/
def Layout.cuts (l : Layout) (d : Nat) : Nat := match l.split.getD d 0 with | 0 => 1 | a => l.mesh.getD (a - 1) 1
def Layout.ext (l : Layout) (d : Nat) : Nat := l.dims.getD d 1 / l.cuts d
def Layout.local_ (l : Layout) : Nat := (List.range 4).foldl (fun n d => n * l.ext d) 1

/-- The record's fields are in range (R395); its reserved ones are ignored (R7). -/
def Layout.ok (l : Layout) : Bool :=
  l.fmt != 0 && decide (l.fmt ≤ 10) && decide (l.mrank ≤ 3) &&
  (List.range 4).all (fun d => l.dims.getD d 0 != 0 && (decide (d < l.rank) || (l.dims.getD d 0 == 1 && l.split.getD d 0 == 0)) &&
    l.dims.getD d 0 % l.cuts d == 0 && decide (l.split.getD d 0 ≤ l.mrank)) &&
  (List.range 3).all (fun a => l.mesh.getD a 0 != 0 && (decide (a < l.mrank) || l.mesh.getD a 0 == 1)) && decide (l.meshSize ≤ 1024) &&
  !(hasDup (l.split.filter (· != 0)))

/-- Coordinates of a mesh point by its entry index. -/
def Layout.coord (l : Layout) (t a : Nat) : Nat :=
  let m1 := l.mesh.getD 1 1
  let m2 := l.mesh.getD 2 1
  match a with
  | 0 => t / (m1 * m2)
  | 1 => t / m2 % m1
  | _ => t % m2

/-- The index of a local element along a dimension: row-major, dimension 0 slowest. -/
def Layout.along (l : Layout) (e d : Nat) : Nat :=
  let below := ((List.range 4).filter (fun k => decide (d < k))).foldl (fun n k => n * l.ext k) 1
  e / below % l.ext d

/-- The source shard and offset of element e of target shard t (R397): mesh coordinate 0 on every replicated source axis. -/
def sourceOf (src dst : Layout) (t e : Nat) : Nat × Nat :=
  let g := fun (d : Nat) =>
    let c := match dst.split.getD d 0 with | 0 => 0 | a => dst.coord t (a - 1)
    c * dst.ext d + dst.along e d
  let coordOf := fun (a : Nat) => match (List.range 4).find? (fun d => src.split.getD d 0 == a + 1) with
    | some d => g d / src.ext d
    | none => 0
  let shard := (coordOf 0 * src.mesh.getD 1 1 + coordOf 1) * src.mesh.getD 2 1 + coordOf 2
  (shard, (List.range 4).foldl (fun n d => n * src.ext d + g d % src.ext d) 0)

/-- The length of the run that starts at element e: consecutive elements from consecutive elements of one source shard. -/
def coppiceLen (src dst : Layout) (t e : Nat) (o : Nat × Nat) (n : Nat) : Nat → Nat
  | 0 => n
  | k + 1 => if e + n < dst.local_ ∧ sourceOf src dst t (e + n) = (o.1, o.2 + n) then coppiceLen src dst t e o (n + 1) k else n

def State.updReshard (s : State) (r : Reshard) (f : Reshard → Reshard) : State :=
  s.updPkg (fun p => { p with reshards := p.reshards.map (fun x => if x.h = r.h ∧ x.id = r.id then f x else x) })

/-- A RESHARD ends (R397, R398): status, then bytes, and its entry, and the done event. It leaves Coppice's queue at once. -/
def State.endReshard (s : State) (r : Reshard) (code : Nat) (w3 : Nat) : State :=
  let st := statusWord code 0 (r.flags.toNat * 2 ^ 8)
  (s.updPkg (fun p => { p with reshards := p.reshards.filter (fun x => !(x.h == r.h && x.id == r.id)) })).engDo (opObj r.h r.id) r.slot
    ([EngWrite.bytes (r.recVa + 0x20) (leBytes 8 st.toNat), .await, .bytes (r.recVa + 0x28) (leBytes 8 r.bytes)] ++
     landing r.h r.id (s.retOf r.h r.id) st ++ (if bits w3 16 16 = 1 then [EngWrite.signal (bits w3 15 0)] else []) ++ [.fin])

/-- A read of Coppice: a fault waits for firmware, another package is asked, an error ends the operation with code 5. -/
def coppiceRead (r : Reshard) (w3 : Nat) (q : Eng α × State) (k : α → State → State) (kind : AKind := .read) : State :=
  match q.1 with
  | .ok v => k v q.2
  | .fault va why => q.2.askFirmware r.slot (.engine r.h r.id) va kind why
  | .poison pa => (q.2.endBound r.h pa).endReshard r 5 w3
  | .remote pa => if q.2.pkg.allows (paPkg pa) then q.2.askRemote pa else (q.2.endBound r.h pa).endReshard r 5 w3

/-- The run at the head of the work: its place in the target, and where both lie. -/
structure Run where
  t : Nat          -- target shard
  e : Nat          -- first element
  n : Nat          -- elements
  from_ : Nat      -- address of the source bytes
  to_ : Nat        -- address of the target bytes
  runs : Nat       -- runs made so far, as the progress record counts them

/-- The next run of a RESHARD (R397); none when there is none left. -/
def nextRun (r : Reshard) (w3 prog : Nat) (src dst : Layout) (s : State) (k : Run → State → State) : State :=
  coppiceRead r w3 (s.engRead r.slot prog 16) (fun pb s =>
    let p0 := leNat (pb.take 8)
    let t := p0 / 2 ^ 48
    let e := p0 % 2 ^ 48
    if dst.meshSize ≤ t then s.endReshard r 0 w3
    else
      let o := sourceOf src dst t e
      let de := elemBytes dst.fmt
      let se := elemBytes src.fmt
      coppiceRead r w3 (s.engWord r.slot (src.shards + 8 * o.1)) (fun sa s =>
        coppiceRead r w3 (s.engWord r.slot (dst.shards + 8 * t)) (fun da s =>
          if sa.toNat % 64 ≠ 0 ∨ da.toNat % 64 ≠ 0 then s.endReshard r 4 w3
          else k { t := t, e := e, n := coppiceLen src dst t e o 1 (65536 / de - 1), from_ := sa.toNat + se * o.2, to_ := da.toNat + de * e,
                   runs := leNat ((pb.drop 8).take 8) } s)))

/-- A run whose CRC-32C has verified is converted and written, and progress is advanced behind it (R397). -/
def writeRun (r : Reshard) (w3 prog : Nat) (src dst : Layout) (x : Run) (data : List Byte) (s : State) : State :=
  let de := elemBytes dst.fmt
  let out := if src.fmt = dst.fmt then (data, ((0#5, 0#3) : Flags2))
    else packElems de ((elemsOf (elemBytes src.fmt) data).map (fun c => elemEncode dst.fmt .rn true (elemDecode src.fmt c)))
  coppiceRead r w3 (s.canPost r.slot x.to_ (de * x.n)) (fun _ s =>
    let next := if dst.local_ ≤ x.e + x.n then (x.t + 1) * 2 ^ 48 else x.t * 2 ^ 48 + x.e + x.n
    (s.updReshard r (fun y => { y with bytes := y.bytes + de * x.n, flags := y.flags ||| out.2.1, flight := none, again := false })).engDo
      (opObj r.h r.id) r.slot
      [.bytes x.to_ out.1, .await, .bytes prog (leBytes 8 next), .bytes (prog + 8) (leBytes 8 (x.runs + 1)), .await, .fin]) .write

/-- One step of the RESHARD at the head of Coppice's queue: a run is read at its source; where it is to be written its CRC-32C is checked,
and it is sent once more when it does not verify; a second time the operation ends with code 3 (R376, R398). -/
def runReshard (r : Reshard) (s : State) : State :=
  if s.holds (opObj r.h r.id) then s.runHeld (opObj r.h r.id)
  else
    coppiceRead r 0 (s.engRead r.slot r.recVa 64) (fun rb s =>
      let w := wordsOf rb
      let w3 := (w.getD 3 0#64).toNat
      let at_ := fun (i : Nat) => (w.getD i 0#64).toNat
      if (s.findStrand r.h).any (fun t => t.cancelled) then s.endReshard r 6 w3
      else if at_ 0 % 64 ≠ 0 ∨ at_ 1 % 64 ≠ 0 ∨ at_ 2 % 64 ≠ 0 then s.endReshard r 4 w3
      else
        coppiceRead r w3 (s.engRead r.slot (at_ 0) 64) (fun sb s =>
          coppiceRead r w3 (s.engRead r.slot (at_ 1) 64) (fun db s =>
            let src := Layout.ofWords (wordsOf sb)
            let dst := Layout.ofWords (wordsOf db)
            if !src.ok ∨ !dst.ok ∨ src.rank ≠ dst.rank ∨ src.dims ≠ dst.dims then s.endReshard r 4 w3
            else
              nextRun r w3 (at_ 2) src dst s (fun x s =>
                match r.flight with
                | none =>
                  coppiceRead r w3 (s.engRead r.slot x.from_ (elemBytes src.fmt * x.n)) (fun bs s =>
                    s.updReshard r (fun y => { y with flight := some ⟨bs, crc32c bs⟩ }))
                | some f =>
                  if crc32c f.data = f.crc then writeRun r w3 (at_ 2) src dst x f.data s
                  else if r.again then (s.endBound r.h 0).endReshard r 3 w3
                  else s.updReshard r (fun y => { y with flight := none, again := true })))))

/-- A byte of a block or a run in flight changes on its way (R376). -/
def State.flightError (s : State) (reshard : Bool) (n i : Nat) (x : Byte) : State :=
  let hit := fun (f : Option Flight) => f.map (fun f => { f with data := f.data.modify i (· ^^^ x) })
  s.updPkg (fun p =>
    if reshard then { p with reshards := p.reshards.modify n (fun r => { r with flight := hit r.flight }) }
    else { p with grafts := p.grafts.modify n (fun g => { g with flight := hit g.flight }) })

/-- Coppice works on the operations in the order of their arrival (R397). -/
def execCoppiceRun (n : Nat) (s : State) : Out :=
  .next (match s.pkg.reshards with
    | [] => s
    | r :: _ => if n = 0 then runReshard r s else s)

end Sys2Proof.Machine
end

