-- ==== Sys2Proof/Machine/Pages.lean ====
section
/-! DEFINITION. Walks, firmware's answers to faults, shootdowns, the migration of pages, poison and the errors of the lower
tier (spec/15_page.md R307 to R324). -/

namespace Sys2Proof.Machine

-- ## Walks (R143, R307, R308)

/-- A walk for a page that a stalled word of a strand waits for: the TLBs are filled, or the word will fault. -/
def execPageWalk (h va : Nat) (s : State) : Out :=
  .next (s.onStrand h (fun s =>
    match s.strand.wants with
    | none => s
    | some w =>
      if w / 4096 ≠ va / 4096 then s
      else
        let q := s.translate s.strand.slot w .read
        match q.1 with
        | .ok _ => { q.2 with strand := { q.2.strand with wants := none } }
        | .fault r => { q.2 with strand := { q.2.strand with wants := none, failsVa := some (w, r) } }
        | .poison a => { q.2 with strand := { q.2.strand with wants := none, failsPa := some (w, a) } }))

-- ## Firmware's answer to a fault report (R308, R309)

/-- Chunks that waited for firmware go on. -/
def State.retryChunk (s : State) (h sl chunk : Nat) : State :=
  s.updStrand h (fun t =>
    match t.copyAt sl with
    | none => t
    | some c => t.setCopy sl { c with chunks := c.chunks.modify chunk (fun x => if x = .waits then .pending else x) })

/-- The access goes on after map; an access that is tried again by an event of its own needs nothing here. -/
def goesOn (f : FaultRep) (s : State) : State :=
  match f.agent with
  | .copy h sl chunk => s.retryChunk h sl chunk
  | .chainCopy h ch rec chunk => s.retryChunk h (16 + 4 * ch + rec) chunk
  | .task n => s.updTask n (fun t => { t with running := t.running.map (fun u => { u with waits := false }) })
  | .held obj => s.runHeld obj
  | .strand _ _ => s
  | .sidelog _ => s
  | .chain _ _ => s
  | .launch _ _ => s
  | .engine _ _ => s

/-- A refused engine operation (R359, R361, R363, R397): code 4, with the state of the object that it concerns, and its request goes on. -/
def State.refuseEngine (s : State) (h id : Nat) : State :=
  match s.pkg.grafts.find? (fun g => g.h == h && g.id == id) with
  | some g => s.failGraft g 4
  | none =>
    match s.pkg.reshards.find? (fun r => r.h == h && r.id == id) with
    | some r => s.endReshard r 4 (s.engGet r.slot (r.recVa + 0x18))
    | none =>
      let op := (s.findStrand h).bind (fun t => (t.acc.find? (fun a => a.id == id)).bind (fun a => match a.op with
        | .engine op _ => some (t.slot, op)
        | _ => none))
      let o := op.elim (0, 0) (fun (slot, op) => s.opState slot op)
      let s1 := match s.retOf h id with
        | some (_, e) => s.landWord h e (statusWord 4 o.1 o.2)
        | none => s
      s1.opGone h id

/-- A refused page of held writes (R359, R414). -/
def State.refuseHeld (s : State) (obj va : Nat) : State :=
  match s.pkg.held.find? (fun h => h.obj == obj) with
  | none => s
  | some h => (s.heldFails obj h.slot 4 va h.todo).runHeld obj

/-- What firmware's refusal means for the agent (R308). -/
def refused (f : FaultRep) (s : State) : State :=
  match f.agent with
  -- a strand that took PAGE_LOAD stays suspended
  | .strand _ _ => s
  | .sidelog _ => s.faultCtx f.slot
  | .copy h sl chunk => s.chunkEnds h sl chunk (.failed 1)
  | .chainCopy h ch rec chunk => s.chunkEnds h (16 + 4 * ch + rec) chunk (.failed 1)
  | .chain h ch => if f.kind = .write then s.onStrand h (chainStep ch) else s.updStrand h (fun t => { t with chans := t.chans.modify ch (fun c => { c with walking := false }) })
  | .task n =>
    (match s.taskAt n with
     | none => s
     | some t =>
       if t.words.isEmpty then s.updTask n (fun t => { t with state := .failed, failKind := 1 })
       else match t.running.find? (fun u => u.waits) with
         | some u => s.failUnit n u.unit 1 0
         | none => s)
  | .launch _ n => s.updPkg (fun p => { p with submits := p.submits.map (fun x => if x.n = n then { x with refused := true } else x) })
  | .engine h id => s.refuseEngine h id
  | .held obj => s.refuseHeld obj f.va

/-- The strand whose access a report is about; none for an engine's. -/
def Agent.strandOf (a : Agent) : Option Nat :=
  match a with
  | .strand h _ => some h
  | .sidelog h => some h
  | .copy h _ _ => some h
  | .chainCopy h _ _ _ => some h
  | .chain h _ => some h
  | .task _ | .launch _ _ | .engine _ _ | .held _ => none

/-- The faulting entry of a page dropped, so that it is walked again (R309): from the TLB of the core whose access faulted, and
from its die's, which would answer before a walk (DEDUCED; log 85); of an engine's access from the engine TLB. -/
def State.dropFaulting (s : State) (f : FaultRep) : State :=
  let keep := fun (l : List TlbEnt) => l.filter (fun e => !(overlapsPage e f.slot f.va (f.va + 1)))
  match f.agent.strandOf with
  | none => s.updPkg (fun p => { p with engTlb := keep p.engTlb })
  | some h =>
    match s.findStrand h with
    | none => s
    | some t => (s.updCore t.core (fun c => { c with tlb := keep c.tlb })).updPkg (fun p =>
        { p with dies := p.dies.modify (dieOf t.core) (fun d => { d with tlb := keep d.tlb }) })

/-- Firmware answers the n-th open report; before it answers map it has written the entries (Turn.fwStore). -/
def execFirmwareMapAnswer (n : Nat) (map : Bool) (s : State) : Out :=
  .next (match s.pkg.faults[n]? with
    | none => s
    | some f =>
      let s1 := s.updPkg (fun p => { p with faults := p.faults.eraseIdx n })
      if map then goesOn f (s1.dropFaulting f) else refused f s1)

-- ## The leaves of a context (R300)

/-- The bytes that an entry of a level covers. -/
def walkSpan (level : Nat) : Nat := 2 ^ (12 + 9 * level)

/-- Every valid leaf below a table: the address it maps, where its entry lies, and the page. -/
def leavesFrom (s : State) (slot : Nat) (level table va : Nat) : List (Nat × Nat × TlbEnt) :=
  (List.range (if level = 4 then 256 else 512)).flatMap (fun i =>
    let at_ := paLocal table + 8 * i
    let v := va + i * walkSpan level
    let w := (s.readWord at_).1
    if w % 2 = 0 then []
    else if bits w 1 1 = 1 then
      match leafCheck s.pkg slot v level w with
      | .ok e => [(v, at_, e)]
      | .fault _ | .poison _ => []
    else match level with
      | 0 => []
      | l + 1 => if tableOk s.pkg (bits w 57 12 * 4096) then leavesFrom s slot l (bits w 57 12 * 4096) v else [])

def State.leaves (s : State) (c : Ctx) : List (Nat × Nat × TlbEnt) := if tableOk s.pkg c.root then leavesFrom s c.slot 4 c.root 0 else []

/-- Some context maps a page that shares a byte with a range of this package's memory. -/
def State.mapped (s : State) (pa n : Nat) : Bool :=
  s.pkg.ctxs.any (fun c => (s.leaves c).any (fun l => paPkg l.2.2.pa == s.pkg.num && overlap (paLocal l.2.2.pa) l.2.2.size pa n))

-- ## Shootdown (R310, R318)

/-- No access that strands have issued with a translation that `hit` names is still to be performed (R310): behind issue it keeps the
translation it was issued with. -/
def State.unused (s : State) (hit : TlbEnt → Bool) : Bool := s.allStrands.all (fun t => t.acc.all (fun a => a.pages.all (fun e => !(hit e))))

/-- No access that a context's strand, or an engine, has sent to another package is still to be performed. -/
def State.quiet (s : State) (slot : Nat) : Bool :=
  let other := fun (h : Nat) => (s.findStrand h).all (fun t => t.slot != slot)
  s.pkg.flows.all (fun f => f.sent.all (fun q =>
    match q.asker with
    | .acc h _ => other h
    | .ep h _ => other h
    | .chunk h _ _ => other h
    | .eng _ => false
    | .fwd _ _ _ _ => false
    | .mdadd _ => true
    | .moved _ => true
    | .none => match q.pkt.op with
      | .read _ _ | .write _ _ | .atomic _ _ _ _ _ _ => false
      | _ => true))

/-- The packages that map a frame are asked, each by a management message (R310, R336). -/
def State.askMappers (s : State) (slot frame req : Nat) : State :=
  s.updPkg (fun p =>
    let far := Config.mappers frame p.shootNo
    far.foldl (fun q d => if d ≤ 992 ∧ d ≠ p.num then q.sendPkt taproot d 4 (.shoot frame) .none else q) { p with
      shoots := p.shoots ++ [{ slot := slot, lo := 0, hi := 0, frame := frame, acks := far, req := req }]
      shootNo := p.shootNo + 1 })

/-- SHOOTDOWN (R284, R310): the entries are dropped at package scope, the packages that map the frames are asked, and the
request is served when they have acknowledged and the accesses through the old entries have been performed. -/
def execShootdown (n : Nat) (s : State) : Out :=
  .next (s.onReq n 6 (fun r c s =>
    let lo := r.arg0
    let hi := min (r.arg0 + r.arg1) Config.vaEnd
    let s1 := s.dropPkg c.slot lo hi
    let mine := fun (t : State) => t.pkg.shoots.filter (fun x => x.req == r.n)
    let far := fun (f : Nat) => (tget s.pkg.frames f).any (·.rmap)
    let pages := (s.leaves c).filter (fun l => overlap l.1 l.2.2.size lo (hi - lo) && paPkg l.2.2.pa == s.pkg.num)
    let frames := dedup ((pages.flatMap (fun l => pageFrames l.2.2.pa l.2.2.size)).filter far)
    let s2 := if (mine s1).isEmpty then frames.foldl (fun t f => t.askMappers c.slot f r.n) s1 else s1
    if (mine s2).all (fun x => x.acks.isEmpty) && s2.quiet c.slot && s2.unused (fun e => overlapsPage e c.slot lo hi) then
      (s2.updPkg (fun p => { p with shoots := p.shoots.filter (fun x => x.req != r.n) })).serve r 0 0
    else s2))

/-- The mark of a shootdown that firmware runs of its own accord. -/
def fwShoot : Nat := 2 ^ 64

/-- Firmware runs a shootdown of a range (R310): the entries are dropped at package scope, and for each named frame with rmap the
packages that map it are asked. -/
def State.fwShootdown (s : State) (slot va len : Nat) (frames : List Nat) : State :=
  let hi := min (va + len) Config.vaEnd
  let s1 := s.dropPkg slot va hi
  let far := dedup (frames.filter (fun f => (tget s.pkg.frames f).any (·.rmap)))
  let own : Shoot := { slot := slot, lo := va, hi := hi, frame := frames.headD 0, acks := [], req := fwShoot }
  far.foldl (fun t f => t.askMappers slot f fwShoot) (s1.updPkg (fun p => { p with shoots := p.shoots ++ [own] }))

/-- The shootdowns that firmware runs for a context have ended (R310): every package has acknowledged, and the accesses through the
old entries have been performed. -/
def State.fwShootEnd (s : State) (slot : Nat) : State :=
  let mine := fun (x : Shoot) => x.req == fwShoot && x.slot == slot
  if (s.pkg.shoots.filter mine).all (fun x => x.acks.isEmpty && s.unused (fun e => overlapsPage e slot x.lo x.hi)) && s.quiet slot then
    s.updPkg (fun p => { p with shoots := p.shoots.filter (fun x => !(mine x)) })
  else s

/-- A package acknowledges a shootdown: it holds no entry for the frame, and its accesses through old ones are performed. -/
def execShootdownAck (n pkg : Nat) (s : State) : Out :=
  .next (s.updPkg (fun p => { p with shoots := p.shoots.modify n (fun x => { x with acks := x.acks.filter (· != pkg) }) }))

-- ## Shootdowns that other packages ask for (R310, R317)

/-- A translation that leads into a frame of another package. -/
def TlbEnt.leadsTo (pkg frame : Nat) (e : TlbEnt) : Bool := paPkg e.pa == pkg && overlap (paLocal e.pa) e.size (frameBase frame) 0x200000

/-- Another package asks for a shootdown of one of its frames: every translation that leads there is dropped. -/
def State.shootIn (s : State) (pkg frame : Nat) : State :=
  let keep := fun (l : List TlbEnt) => l.filter (fun e => !(e.leadsTo pkg frame))
  (s.mapCores (fun c => { c with tlb := keep c.tlb })).updPkg (fun p => { p with
    dies := p.dies.map (fun d => { d with tlb := keep d.tlb }), engTlb := keep p.engTlb, shootsIn := p.shootsIn ++ [(pkg, frame)] })

/-- No access of this package through an old translation of a frame of another package is still to be performed. -/
def State.frameQuiet (s : State) (pkg frame : Nat) : Bool :=
  let inFrame := fun (pa n : Nat) => overlap pa n (frameBase frame) 0x200000
  s.unused (fun e => e.leadsTo pkg frame) && s.pkg.flows.all (fun f => f.dst != pkg || f.sent.all (fun q => match q.pkt.op with
    | .read pa n => !(inFrame pa n)
    | .write pa data => !(inFrame pa data.length)
    | .atomic _ _ _ pa _ _ => !(inFrame pa 8)
    | _ => true))

/-- The shootdowns whose accesses have been performed are acknowledged. -/
def State.settleShoots (s : State) : State :=
  if s.pkg.shootsIn.isEmpty then s
  else
    let done := s.pkg.shootsIn.filter (fun x => s.frameQuiet x.1 x.2)
    s.updPkg (fun p => done.foldl (fun q x => q.sendPkt taproot x.1 4 (.shootDone x.2) .none)
      { p with shootsIn := p.shootsIn.filter (fun x => !(done.contains x)) })

/-- The acknowledgement of a package for a frame has come. -/
def State.shootDone (s : State) (pkg frame : Nat) : State :=
  s.updPkg (fun p => { p with shoots := p.shoots.map (fun x => if x.frame = frame then { x with acks := x.acks.filter (· != pkg) } else x) })

-- ## Migration (R313 to R319)

/-- The granules of a page in its frame. -/
def pageMask (pa size : Nat) : BitVec 512 :=
  if 0x200000 ≤ size then BitVec.allOnes 512 else BitVec.ofNat 512 ((2 ^ (max 1 (size / 4096)) - 1) * 2 ^ granuleOf pa)

/-- The lines of a page that are dirty in L2 are written back (R319). -/
def Pkg.writeBackPage (p : Pkg) (pa size : Nat) : Pkg :=
  (p.dirtyL2.filter (fun l => decide (pa ≤ 64 * l) && decide (64 * l < pa + size))).foldl (fun q l => q.writeBack l) p

def Pkg.updFrame (p : Pkg) (pa : Nat) (f : Frame → Frame) : Pkg :=
  match p.frame pa with
  | some r => p.setFrame (frameIx pa) (f r)
  | none => p

/-- A frame becomes FREE: its poison stays until firmware clears it, and so does what firmware wrote (R312). -/
def Pkg.dropFrame (p : Pkg) (pa : Nat) : Pkg :=
  p.updFrame pa (fun f => { Frame.free with poison := f.poison, rmap := f.rmap, owner := f.owner })

def State.updMig (s : State) (old : Nat) (f : Mig → Mig) : State :=
  s.updPkg (fun p => { p with migs := p.migs.map (fun m => if m.started ∧ m.old = old then f m else m) })

/-- The target of a request is a free place for a page (status 7). -/
def targetOk (p : Pkg) (m : Mig) (size : Nat) : Bool :=
  let l := paLocal m.target
  m.target % size == 0 && inMemory l &&
  (if paPkg m.target = p.num then (p.frame l).all (fun f => f.mstate == 0) && (m.op != .promote || (tier1Die l).isSome)
   else m.op == .move && decide (paPkg m.target ≤ 992) && p.allows (paPkg m.target))

/-- A request proceeds: the lock is taken on the frames of the page, and its state changes. -/
def State.startMig (s : State) (m : Mig) (e : TlbEnt) (f : Frame) : State :=
  let pa := paLocal e.pa
  let back := s.pkg.num * 2 ^ 48 + f.backing
  let copies := m.op == .promote || m.op == .move
  let m1 : Mig := { m with old := pa, size := e.size, started := true, target := if copies then m.target else back, key := e.key }
  s.updPkg (fun p =>
    let p1 := p.setFrame (frameIx pa) { f with lock := true, mstate := if copies then 2 else if m.op = .evict then 4 else f.mstate }
    let to_ := (p.frame (paLocal m.target)).getD (p.freshFrame (frameIx (paLocal m.target)))
    let new : Frame := { Frame.free with poison := to_.poison, rmap := to_.rmap, owner := f.owner, mstate := 1, lock := true }
    let p2 := if copies then
        (if paPkg m.target ≠ p.num then p1
         else p1.setFrame (frameIx (paLocal m.target)) (if m.op = .promote then { new with backing := pa, bv := true, rslot := m.slot, ref := 1 } else new))
      else (p1.writeBackPage pa e.size).updFrame f.backing (fun b => { b with lock := true })
    { p2 with migs := p2.migs ++ [m1] })

/-- The request record with its status (R314). -/
def migDone (words : List W64) (st : Nat) : Report := .migRecord (words.set 3 (BitVec.ofNat 64 (st * 2 ^ 56)))

/-- One request checked (R314, R315): none while its frame is locked. A table that cannot be read for an error is one of the lower
tier (status 6). -/
def State.takeMig (s : State) (m : Mig) : Option State :=
  let fin := fun (st : Nat) (t : State) => some (t.report (migDone m.words st))
  match (s.walk (s.engDie m.slot m.va) m.slot m.va).1 with
    | .fault _ => fin 8 s
    | .poison _ => fin 6 s
    | .ok e =>
      let pa := paLocal e.pa
      if paPkg e.pa ≠ s.pkg.num then fin 3 s
      else
        match s.pkg.frame pa with
        | none => fin 8 s
        | some f =>
          let top := (tier1Die pa).isSome
          let big := e.size == 0x200000
          let sick := f.poison &&& pageMask pa e.size != 0#512
          let put := fun (g : Frame) => s.updPkg (fun p => p.setFrame (frameIx pa) g)
          if f.lock then none
          else
            match m.op with
            | .release => if sick then fin 4 s else if f.ref = 0 then fin 8 s else fin 0 (put { f with ref := f.ref - 1 })
            | .promote =>
              if !big || (top && !f.bv) then fin 3 s
              else if sick then fin 4 s
              else if top then
                if f.ref ≠ 0 ∧ f.rslot ≠ m.slot then fin 5 s else fin 0 (put { f with ref := (f.ref + 1) % 2 ^ 16, rslot := m.slot })
              else if !(targetOk s.pkg m e.size) then fin 7 s
              else some (s.startMig m e f)
            | .evict =>
              if !big || !top then fin 3 s else if sick then fin 4 s else if !f.bv then fin 2 s
              else if f.ref ≠ 0 then fin 1 s else some (s.startMig m e f)
            | .clean =>
              if !big || !top then fin 3 s else if sick then fin 4 s else if !f.bv then fin 2 s else some (s.startMig m e f)
            | .move =>
              if 0x200000 < e.size then fin 3 s else if sick then fin 4 s else if !(targetOk s.pkg m e.size) then fin 7 s
              else some (s.startMig m e f)

/-- The waiting requests in the order of their arrival: those whose frame is no longer locked are taken (R315). -/
def State.takeMigs (s : State) : State :=
  let waiting := s.pkg.migs.filter (fun m => !m.started)
  let s0 := s.updPkg (fun p => { p with migs := p.migs.filter (·.started) })
  waiting.foldl (fun t m =>
    match t.takeMig m with
    | some u => u
    | none => t.updPkg (fun p => { p with migs := p.migs ++ [m] })) s0

/-- The operation of a request record (R314). -/
def migOpOf (n : Nat) : Option MigOp :=
  match n with
  | 1 => some .promote | 2 => some .evict | 3 => some .move | 4 => some .release | 5 => some .clean
  | _ => none

def MigOp.code : MigOp → Nat
  | .promote => 1 | .evict => 2 | .move => 3 | .release => 4 | .clean => 5

/-- The record of a request. -/
def migWords (op : MigOp) (slot va target : Nat) : List W64 :=
  [BitVec.ofNat 64 (op.code * 2 ^ 56 + slot * 2 ^ 32), BitVec.ofNat 64 va, BitVec.ofNat 64 target, 0#64]

/-- A request of a record, its lock not yet taken. -/
def Mig.ofWords (op : MigOp) (w : List W64) : Mig :=
  { op := op, slot := bits (w.getD 0 0#64).toNat 41 32, va := (w.getD 1 0#64).toNat, target := (w.getD 2 0#64).toNat, old := 0, size := 0,
    copied := 0, started := false, back := false, out := none, pass := 0, todo := 0#512, key := 0, words := w }

/-- A reserved field of a request record is set (R314). -/
def migReserved (w : List W64) : Bool :=
  let f := fun (i hi lo : Nat) => bits ((w.getD i 0#64).toNat) hi lo
  f 0 55 42 != 0 || f 0 31 0 != 0 || f 1 63 56 != 0 || f 2 63 58 != 0 || f 2 11 0 != 0

/-- A request record reaches the memory unit (R314). -/
def State.migrateRec (s : State) (w : List W64) : State :=
  match migOpOf (bits (w.getD 0 0#64).toNat 63 56) with
  | some op =>
    if migReserved w then s.report (migDone w 8)
    else (s.updPkg (fun p => { p with migs := p.migs ++ [Mig.ofWords op w] })).takeMigs
  | none => s.report (migDone w 8)

def State.migrate (s : State) (op : MigOp) (slot va target : Nat) : State := s.migrateRec (migWords op slot va target)

def execPromote (slot va target : Nat) (s : State) : Out := .next (s.migrate .promote slot va target)
def execEvict (slot va : Nat) (s : State) : Out := .next (s.migrate .evict slot va 0)
def execMove (slot va target : Nat) (s : State) : Out := .next (s.migrate .move slot va target)
def execRelease (slot va : Nat) (s : State) : Out := .next (s.migrate .release slot va 0)
def execClean (slot va : Nat) (s : State) : Out := .next (s.migrate .clean slot va 0)

/-- A request has ended: its locks are off, and the requests that waited for them go on. -/
def State.endMig (s : State) (m : Mig) (status : Nat) : State :=
  let off := fun (f : Frame) => { f with lock := false }
  let both := fun (p : Pkg) => if paPkg m.target = p.num then (p.updFrame m.old off).updFrame (paLocal m.target) off else p.updFrame m.old off
  ((s.updPkg (fun p => { (both p) with
    migs := p.migs.filter (fun x => !(x.started && x.old == m.old)) })).report (migDone m.words status)).takeMigs

/-- A line that the memory unit puts into a tier itself, encrypted there under the page's key (R305): it becomes dirty in no L2 (R316),
and data that is poisoned stays so where it goes. -/
def Pkg.carry (p : Pkg) (src dst : Nat) (bs : List Byte) (key : Nat) : Pkg :=
  let p1 := (({ (p.keyed dst 64 key) with
    mem := p.mem.write dst bs
    dirtyL2 := p.dirtyL2.filter (· != src / 64)
    l2Bad := p.l2Bad.filter (· != src / 64) }).invalidate src 64)
  if poisoned p src 64 then p1.updFrame dst (fun f => { f with poison := f.poison ||| (1#512 <<< granuleOf dst) }) else p1

/-- The page forwards (R313): the leaf leads to the new place, and the shootdown has begun. -/
def State.forward (s : State) (m : Mig) : State :=
  let old := s.pkg.num * 2 ^ 48 + m.old
  let s1 := match s.leafAt m.slot m.va with
    | some (a, w) => if bits w 57 12 * 4096 = old then s.putLeaf a w (bits w 63 58 * 2 ^ 58 + m.target + w % 4096) else s
    | none => s
  let s2 := (s1.updMig m.old (fun x => { x with copied := m.size / 64 })).updPkg (fun p => p.updFrame m.old (fun f => { f with mstate := 3 }))
  let page := m.va / m.size * m.size
  let s3 := s2.dropPkg m.slot page (page + m.size)
  if (s3.pkg.frame m.old).any (·.rmap) then s3.askMappers m.slot (frameIx m.old) 0 else s3

/-- The object of the packets that carry lines to another package. -/
def migObj (frame : Nat) : Nat := 2 ^ 38 + frame

/-- The page is aborted and RESIDENT where it was (R324). -/
def State.abortMig (s : State) (m : Mig) : State :=
  let s1 := s.updPkg (fun p =>
    let p1 := p.updFrame m.old (fun f => { f with mstate := 1 })
    if paPkg m.target = p.num then p1.dropFrame (paLocal m.target) else p1)
  s1.endMig m 6

/-- A line goes back to its old home. -/
def State.lineBack (s : State) (m : Mig) : State :=
  let src := m.old + 64 * (m.copied - 1)
  let far := m.target + 64 * (m.copied - 1)
  let done := fun (t : State) =>
    let u := t.updMig m.old (fun x => { x with copied := m.copied - 1 })
    if m.copied ≤ 1 then u.abortMig m else u
  if paPkg far = s.pkg.num then let r := s.readAs (paLocal far) 64 m.key; done (r.2.updPkg (fun p => p.carry (paLocal far) src r.1 m.key))
  else if s.pkg.flows.any (fun f => f.dst == paPkg far && !f.sent.isEmpty) then s
  else match s.pkg.rcache.find? (fun l => l.pa == far) with
    | some l => done (s.updPkg (fun p => { ((p.dropCopies far 64).keyed src 64 m.key) with mem := p.mem.write src l.data }))
    | none => s.askRemote far

/-- The migration is given up: its moved lines go back, one after the other. -/
def State.giveUp (s : State) (m : Mig) : State :=
  if m.copied = 0 then s.abortMig m else s.updMig m.old (fun x => { x with back := true, out := none })

/-- A line of a copied page moves (R316): it is decrypted at its old home under the page's key (R305). One that the L2 holds dirty is
written back first, so that a tier-1 frame which takes over the dirty bits takes over its bit too (R314). A line that another package is to hold has moved when that package has it unchanged. -/
def State.lineMoved (s : State) (m : Mig) : State :=
  let src := m.old + 64 * m.copied
  let dst := m.target + 64 * m.copied
  let r := ((s.mergeRange src 64).updPkg (fun p => p.writeBack (src / 64))).readAs src 64 m.key
  let next := fun (t : State) =>
    let u := t.updMig m.old (fun x => { x with copied := m.copied + 1, out := none })
    if m.size ≤ 64 * (m.copied + 1) then u.forward { m with copied := m.copied + 1 } else u
  if paPkg dst = s.pkg.num then next (r.2.updPkg (fun p => p.carry src (paLocal dst) r.1 m.key))
  else if s.pkg.waitsFor (.eng (migObj (frameIx m.old))) then s
  else if m.out = some r.1 then next (r.2.updPkg (fun p => p.invalidate src 64))
  else
    (r.2.updPkg (fun p => p.sendPkt taproot (paPkg dst) 3 (.write (paLocal dst) r.1) (.eng (migObj (frameIx m.old))) m.key)).updMig m.old
      (fun x => { x with out := some r.1 })

/-- The lowest granule of a set. -/
def lowest (b : BitVec 512) : Option Nat := (List.range 512).find? (fun g => b.getLsbD g)

/-- A dirty granule copied to the backing, its bit cleared first: decrypted and encrypted under the page's key (R305). One that is
poisoned stays so there. -/
def Pkg.granuleDown (p : Pkg) (m : Mig) (g : Nat) : Pkg :=
  let src := m.old + 4096 * g
  let dst := paLocal m.target + 4096 * g
  let p1 := (p.updFrame m.old (fun f => { f with dirty := f.dirty &&& ~~~(1#512 <<< g) })).opened src 4096 m.key
  let p2 := { (p1.keyed dst 4096 m.key) with mem := p1.mem.write dst (p1.mem.read src 4096) }
  if p.sickAt src then p2.poisonAt dst else p2

/-- A granule of a pass written down, or the final pass with writes held (R319). -/
def State.writeDown (s : State) (m : Mig) (err : Bool) : State :=
  let dirty := (s.pkg.frame m.old).elim 0#512 (·.dirty)
  let fail := fun (t : State) => (t.updPkg (fun p => p.updFrame m.old (fun f => { f with mstate := 1 }))).endMig m 6
  let todo := if m.todo = 0#512 ∧ m.pass < 4 then dirty else m.todo
  match lowest todo with
  | some g =>
    if err then fail (s.updPkg (fun p => p.updFrame m.old (fun f => { f with dirty := f.dirty ||| (1#512 <<< g) })))
    else
      (s.updPkg (fun p => p.granuleDown m g)).updMig m.old (fun x => { x with
        todo := todo &&& ~~~(1#512 <<< g), pass := if m.todo = 0#512 then m.pass + 1 else m.pass })
  | none =>
    let s1 := (s.mergeRange m.old m.size).updPkg (fun p => p.writeBackPage m.old m.size)
    let left := (s1.pkg.frame m.old).elim 0#512 (·.dirty)
    if err ∧ left ≠ 0#512 then fail s1
    else
      let s2 := ((List.range 512).filter (fun g => left.getLsbD g)).foldl (fun t g => t.updPkg (fun p => p.granuleDown m g)) s1
      if m.op = .clean then s2.endMig m 0
      else
        let from_ := (s2.pkg.frame m.old).elim Frame.free id
        let s3 := s2.updPkg (fun p =>
          let b := ((p.frame (paLocal m.target)).getD (p.freshFrame (frameIx (paLocal m.target))))
          (p.setFrame (frameIx (paLocal m.target)) { b with
            mstate := 1, owner := from_.owner, lock := true, poison := b.poison ||| from_.poison }).invalidate m.old m.size)
        s3.forward m

/-- A line of a migrating page is copied, or a granule written down; `err` is a failed access to tier 2 (R324). -/
def execMigrationLineCopied (frame : Nat) (err : Bool) (s : State) : Out :=
  .next (match s.pkg.migs.find? (fun m => m.started && frameIx m.old == frame) with
    | none => s
    | some m =>
      if (s.pkg.frame m.old).any (fun f => f.mstate == 3) then s
      else if m.op = .evict ∨ m.op = .clean then s.writeDown m err
      else if m.back then s.lineBack m
      else if err then (if inTier2 m.old then s.giveUp m else s)
      else s.lineMoved m)

/-- The old place of a page is used no more: its frame is FREE, unless another page lies in it or it is the backing of the
promoted page. -/
def Pkg.freeOld (p : Pkg) (m : Mig) (used : Bool) : Pkg :=
  if used || m.op == .promote then p.updFrame m.old (fun f => { f with mstate := 1, lock := false }) else p.dropFrame m.old

/-- A line of the page's old place. -/
def Mig.holds (m : Mig) (line : Nat) : Bool := decide (m.old ≤ 64 * line) && decide (64 * line < m.old + m.size)

/-- A TLB of this package holds an entry for a range of its memory. -/
def State.heldEntry (s : State) (pa n : Nat) : Bool :=
  let hit := fun (l : List TlbEnt) => l.any (fun e => paPkg e.pa == s.pkg.num && overlap (paLocal e.pa) e.size pa n)
  s.allCores.any (fun c => hit c.tlb) || s.pkg.dies.any (fun d => hit d.tlb) || hit s.pkg.engTlb

/-- The dirty bits that a page takes along to another tier-1 frame (R314): at the same place of the frame its own; at another place all
of its granules are dirty, for the backing keeps their data where they lay (DEDUCED, R322; log 110). -/
def movedDirty (dirty : BitVec 512) (m : Mig) : BitVec 512 :=
  if granuleOf m.old = granuleOf (paLocal m.target) then dirty &&& pageMask m.old m.size else pageMask (paLocal m.target) m.size

/-- The shootdowns have ended and every mapping has been rewritten: the page is RESIDENT at its new place (R313, R317, R318), once
the copies that were read through its old addresses have been invalidated. -/
def execForwardingEnd (frame : Nat) (s : State) : Out :=
  .next (match s.pkg.migs.find? (fun m => m.started && frameIx m.old == frame) with
    | none => s
    | some m =>
      match s.pkg.frame m.old with
      | none => s
      | some f =>
        let mine := fun (x : Shoot) => x.frame == frame && x.req == 0
        if f.mstate ≠ 3 ∨ (s.pkg.shoots.filter mine).any (fun x => !x.acks.isEmpty) ∨ s.heldEntry m.old m.size ∨ s.mapped m.old m.size ∨
            s.pkg.ctxs.any (fun c => !(s.quiet c.slot)) ∨
            !(s.unused (fun e => paPkg e.pa == s.pkg.num && overlap (paLocal e.pa) e.size m.old m.size)) then s
        else if s.pkg.fwdCopies.any (fun c => m.holds c.2.1) then s.updPkg (fun p => p.invalMoved (fun line _ => m.holds line))
        else if !s.pkg.allSeen then s
        else
          let dst := paLocal m.target
          let home := paPkg m.target == s.pkg.num
          let takes := m.op == .move && home && (tier1Die m.old).isSome && (tier1Die dst).isSome
          let s1 := s.updPkg (fun p =>
            let p1 := if takes then p.updFrame dst (fun g => { g with
                dirty := g.dirty ||| movedDirty f.dirty m, backing := f.backing, bv := f.bv, ref := f.ref, rslot := f.rslot }) else p
            let p2 := if m.op = .move ∧ !takes ∧ f.bv ∧ m.size = 0x200000 ∧ !(s.mapped f.backing 0x200000) then p1.dropFrame f.backing else p1
            let base := frameBase (frameIx m.old)
            { (p2.freeOld m (s.mapped base 0x200000)) with shoots := p2.shoots.filter (fun x => !(mine x)) })
          s1.endMig m 0)

-- ## Poison and the lower tier (R322 to R324)

/-- A queue block of a context in Taproot's management space (R283). -/
def queueBlockSlot (pa : Nat) : Option Nat :=
  if 0x0F400000 ≤ pa ∧ pa < 0x0F400000 + 0x1000 * Config.contexts then some ((pa - 0x0F400000) / 0x1000) else none

/-- An entry of a context's endpoint table there (R341). -/
def endpointSlot (pa : Nat) : Option Nat :=
  if 0x0F900000 ≤ pa ∧ pa < 0x0F900000 + 0x100 * Config.contexts then some ((pa - 0x0F900000) / 0x100) else none

/-- An uncorrectable error is detected at a local physical address: in a table of Taproot, which faults the context concerned, or in
memory (R26, R295, R322). -/
def execUncorrectableErrorDetected (pa : Nat) (s : State) : Out :=
  .next (match (queueBlockSlot pa).or (endpointSlot pa) with
    | some slot => s.faultCtx slot
    | none => if inMemory pa then s.uncorrectable pa else s)

/-- Firmware writes fresh data into a poisoned granule, 4,096 bytes, and clears its bit (R323). -/
def execPoisonClear (frame granule : Nat) (data : List Byte) (s : State) : Out :=
  .next (match tget s.pkg.frames frame with
    | none => s
    | some f =>
      if granule < 512 ∧ data.length = 4096 ∧ f.poison.getLsbD granule then
        s.updPkg (fun p => (p.cureGranule (frameBase frame + 4096 * granule)).poke (frameBase frame + 4096 * granule) data)
      else s)

/-- A lost tier-2 controller poisons every granule that it holds: in the records of the frames that are listed, and in those of the
other frames as they come into use. -/
def execTier2ControllerLoss (n : Nat) (s : State) : Out :=
  .next (s.updPkg (fun p => { p with lostCtl := if p.lostCtl.contains n then p.lostCtl else p.lostCtl ++ [n], frames := p.frames.map (fun (i, f) =>
    if inTier2 (frameBase i) then
      let lost := predOf (fun g => controllerOf p.numaMode (frameBase i + 4096 * g) == n)
      (i, { f with poison := f.poison ||| lost })
    else (i, f)) }))

/-- The home L2 slice writes a dirty line back (R312). -/
def execL2LineWriteBack (pa : Nat) (s : State) : Out := .next (s.updPkg (fun p => p.writeBack (pa / 64)))

-- ## Firmware's stores

/-- The frame table as firmware's stores see it (R312): records of 256 bytes from ftbase on, tier 1 first. -/
def Pkg.inTable (p : Pkg) (pa : Nat) : Bool :=
  p.ftbase != 0#64 && decide (p.ftbase.toNat ≤ pa) && decide (pa < p.ftbase.toNat + 256 * (262144 + 0x100000))

/-- The record of a frame as the table holds it. -/
def Pkg.recordOf (p : Pkg) (ix : Nat) : Frame := (tget p.frames ix).getD (p.freshFrame ix)

/-- Bytes of the frame table (R312): byte o of the table is byte o mod 256 of record o / 256. -/
def Pkg.tableRead (p : Pkg) (o n : Nat) : List Byte :=
  (List.range n).map (fun i => ((p.recordOf ((o + i) / 256)).bytes).getD ((o + i) % 256) 0#8)

/-- Bytes that firmware stores into the frame table. -/
def Pkg.tableStore (p : Pkg) (pa : Nat) (data : List Byte) : Pkg :=
  let o := pa - p.ftbase.toNat
  (List.range (if data.isEmpty then 0 else (o % 256 + data.length - 1) / 256 + 1)).foldl (fun q i =>
    let ix := o / 256 + i
    let new := ((q.tableRead (256 * ix) 256).zipIdx (256 * ix)).map (fun (b, a) =>
      if o ≤ a ∧ a < o + data.length then data.getD (a - o) 0#8 else b)
    q.setFrame ix ((q.recordOf ix).fwFields new)) p

/-- What Taproot firmware does that is no event of the opcode table (Turn.fwStore). A record that it submits lies where one
that LAUNCH names may lie (R258). A FREE frame that firmware gives to an owner becomes RESIDENT: no rule says when the memory unit makes
a frame that is not the target of a migration RESIDENT (DESIGN CHOICE; log 109). -/
def fwStore (w : FwWrite) (s : State) : State :=
  match w with
  | .mem pa data =>
    if s.pkg.inTable pa && s.pkg.inTable (pa + data.length - 1) then s.updPkg (fun p => p.tableStore pa data)
    else if inMemory pa && inMemory (pa + data.length - 1) && !(poisoned s.pkg pa data.length) then s.writeAs pa data 0 else s
  | .frame ix owner rmap =>
    s.updPkg (fun p =>
      let f := (tget p.frames ix).getD (p.freshFrame ix)
      p.setFrame ix { f with owner := owner, rmap := rmap, mstate := if f.mstate = 0 then 1 else f.mstate })
  | .key n pair => if n = 0 ∨ 64 ≤ n ∨ pair.any (fun k => k.length != 64) then s else s.updPkg (fun p => p.putKey n pair)
  | .farKey pkg n on => s.updPkg (fun p => { p with farKeys := p.farKeys.filter (· != (pkg, n)) ++ (if on then [(pkg, n)] else []) })
  | .shootdown slot va len frames => s.fwShootdown slot va len frames
  | .shootEnd slot => s.fwShootEnd slot
  | .migrate words => s.migrateRec words
  | .message pkg n => if pkg ≤ 992 ∧ pkg ≠ s.pkg.num then s.updPkg (fun p => p.sendPkt taproot pkg 4 (.message n) .none) else s
  | .submit slot addr q =>
    if (s.ctxAt slot).isNone || addr % 64 != 0 || decide (Config.localBase ≤ addr) then s
    else s.updPkg (fun p => { p with
      submits := p.submits ++ [{ n := p.submitNo, slot := slot, addr := addr, q := q.val, askedBy := none, core := 0, req := 0,
                                 decode := false, refused := false }]
      submitNo := p.submitNo + 1 })

end Sys2Proof.Machine
end

