-- ==== Sys2Proof/Machine/Ports.lean ====
section
/-! DEFINITION. The topology of Canopy, ports, the routing bits that link losses clear (spec/16_link.md R325 to R330, R332,
R344), die links and resets of compute dies (R331, spec/01_package.md R14, R15, spec/13_group.md R277, spec/10_barrier.md
R238, spec/08_tile.md R212, spec/17_request.md R358). -/

namespace Sys2Proof.Machine

-- ## Topology (R325 to R327)

/-- The point of a package number. -/
def pointOf (n : Nat) : List Nat :=
  if n ≤ 960 then [1, n / 31, n % 31] else if n ≤ 991 then [0, 1, n - 961] else [0, 0, 1]

/-- The package of a point scaled so that its first nonzero coordinate is 1. -/
def packageAt (p : List Nat) : Nat :=
  match p with
  | [1, a, b] => 31 * a + b
  | [0, 1, b] => 961 + b
  | _ => 992

def dot31 (a b : List Nat) : Nat := ((a.zip b).foldl (fun n x => n + x.1 * x.2) 0) % 31

/-- The cross product mod 31. -/
def cross31 (a b : List Nat) : List Nat :=
  let f := fun (l : List Nat) (i : Nat) => l.getD i 0
  let d := fun (i j : Nat) => (f a i * f b j + 31 * 31 - f a j * f b i) % 31
  [d 1 2, d 2 0, d 0 1]

/-- The inverse of a nonzero number mod 31. -/
def inv31 (a : Nat) : Nat := a ^ 29 % 31

/-- A point scaled. -/
def scale31 (p : List Nat) : List Nat :=
  match p.find? (· != 0) with
  | some c => p.map (fun x => x * inv31 c % 31)
  | none => p

def adjacent (m n : Nat) : Bool := m != n && dot31 (pointOf m) (pointOf n) == 0

/-- The neighbours of a package in ascending number: port p leads to the p-th. -/
def neighbours (n : Nat) : List Nat := (List.range 993).filter (adjacent n)

/-- The links of the minimal path between two packages. -/
def minLegs (m n : Nat) : List (Nat × Nat) :=
  if m = n then [] else if adjacent m n then [(m, n)]
  else let z := packageAt (scale31 (cross31 (pointOf m) (pointOf n))); [(m, z), (z, n)]

/-- A path crosses a link, in either direction. -/
def crosses (m n : Nat) (legs : List (Nat × Nat)) : Bool := legs.any (fun l => (l.1 == m && l.2 == n) || (l.1 == n && l.2 == m))

-- ## Usable paths (R332, R344)

/-- The links of a minimal path and of an alternate of an entry. -/
def Pkg.minPath (p : Pkg) (d : Nat) : List (Nat × Nat) := minLegs p.num d
def Route.alt (r : Route) (k : Nat) : BitVec 16 := r.alts.getD k 0#16
def Route.altVia (r : Route) (k : Nat) : Nat := (r.alt k).toNat / 64
def Route.altPort (r : Route) (k : Nat) : Nat := (r.alt k).toNat % 32
def Pkg.altPath (p : Pkg) (r : Route) (d k : Nat) : List (Nat × Nat) := minLegs p.num (r.altVia k) ++ minLegs (r.altVia k) d

/-- The package at the far end of a port's link (R326). -/
def Pkg.farEnd (p : Pkg) (n : Nat) : Nat := (neighbours p.num).getD n p.num

/-- The bits of every entry changed: `f` says of a path's links, that of its first port among them, whether the path is usable, from
whether it was and whether firmware allows it. -/
def Pkg.reroute (p : Pkg) (f : List (Nat × Nat) → Bool → Bool → Bool) : Pkg :=
  { p with routes := p.routes.map (fun (d, r) =>
      (d, { r with
        minok := f ((p.num, p.farEnd r.minport) :: p.minPath d) r.minok r.fwMin
        altok := BitVec.ofNat 8 ((List.range 8).foldl (fun n k =>
          n + (if f ((p.num, p.farEnd (r.altPort k)) :: p.altPath r d k) (r.altok.getLsbD k) (r.fwAlt.getLsbD k) then 2 ^ k else 0)) 0) })) }

/-- A link is lost: every path that crosses it is unusable. -/
def Pkg.loseLink (p : Pkg) (m n : Nat) : Pkg :=
  ({ p with lostLinks := if crosses m n p.lostLinks then p.lostLinks else p.lostLinks ++ [(m, n)] }).reroute
    (fun legs was _ => was && !(crosses m n legs))

/-- A link is back: the paths that cross it and no other lost link are usable again, where firmware allows them. -/
def Pkg.regainLink (p : Pkg) (m n : Nat) : Pkg :=
  let p1 := { p with lostLinks := p.lostLinks.filter (fun l => !(crosses m n [l])) }
  p1.reroute (fun legs was fw => was || (fw && crosses m n legs && p1.lostLinks.all (fun l => !(crosses l.1 l.2 legs))))

-- ## Ports (R329)

def Pkg.port (p : Pkg) (n : Nat) : Port := p.ports.getD n Port.start
def State.updPort (s : State) (n : Nat) (f : Port → Port) : State := s.updPkg (fun p => { p with ports := p.ports.modify n f })

/-- A port that carries traffic. -/
def Port.carries (t : Port) : Bool := t.state == 2 || t.state == 3

def lanesUp (l : BitVec 8) : Nat := ((List.range 8).filter (fun i => l.getLsbD i)).length

/-- The link of a port is lost (R344): the paths through the port and across the link, then the notice to every package. -/
def State.linkLost (s : State) (n : Nat) : State :=
  let far := s.pkg.farEnd n
  (s.updPkg (fun p => (p.loseLink p.num far).sendAll (.notice p.num far false))).report
    (.linkLost s.pkg.num far)

/-- A port is back (R344). -/
def State.linkBack (s : State) (n : Nat) : State :=
  let far := s.pkg.farEnd n
  s.updPkg (fun p => (p.regainLink p.num far).sendAll (.notice p.num far true))

/-- A port is quarantined for a reason; the fourth time retires it. -/
def State.quarantine (s : State) (n reason : Nat) : State :=
  let up := (s.pkg.port n).carries
  let s1 := s.updPort n (fun t => { t with state := if 3 ≤ t.quar.toNat then 5 else 4, reason := reason })
  if up then s1.linkLost n else s1

/-- The port is cabled (R326). -/
def Pkg.hasPort (p : Pkg) (n : Nat) : Bool := decide (n < (neighbours p.num).length)

/-- pctl.en written 1. -/
def State.portOn (s : State) (n : Nat) : State :=
  let t := s.pkg.port n
  let on := fun (st : Nat) (q : BitVec 8) => s.updPort n (fun t => { t with en := true, state := st, quar := q })
  if t.state = 0 ∧ s.pkg.lock.lock ∧ (s.pkg.lock.egr.getD n 0#16) ≠ 0#16 ∧ s.pkg.hasPort n then on 1 t.quar
  else if t.state = 4 then on 1 (t.quar + 1#8)
  else on t.state t.quar

/-- pctl.en written 0. -/
def State.portOff (s : State) (n : Nat) : State :=
  let t := s.pkg.port n
  let s1 := s.updPort n (fun t => { t with en := false })
  if t.state = 1 ∨ t.state = 2 ∨ t.state = 3 then (s1.updPort n (fun t => { t with state := 0, reason := 6 })).linkLost n else s1

/-- pctl.retire written 1. -/
def State.portRetire (s : State) (n : Nat) : State := s.updPort n (fun t => if t.state = 4 then { t with state := 5 } else t)

/-- Reserved permits written (R330): ignored when they would make more than 4,096 over the four channels; a field below 9
acts as 9. -/
def State.putPerm (s : State) (n : Nat) (v : W64) : State :=
  let f := fun (i : Nat) => bits v.toNat (8 * i + 7) (8 * i)
  if 4096 < 4 * ((List.range 5).foldl (fun k i => k + max 9 (f i)) 0) then s
  else s.updPort n (fun t => { t with rc0 := f 0, rreq := f 1, rreply := f 2, rbulk := f 3, rmgmt := f 4 })

def execPortEnable (n : Nat) (s : State) : Out := .next (s.portOn n)
def execPortDisable (n : Nat) (s : State) : Out := .next (s.portOff n)
def execPortRetire (n : Nat) (s : State) : Out := .next (s.portRetire n)
def execPpermWrite (n : Nat) (v : W64) (s : State) : Out := .next (s.putPerm n v)

/-- Training ends (R329): lanes that failed are retired; fewer than four (2) or a wrong peer (3) quarantine the port. -/
def execPortTrainingDone (n : Nat) (lanes : BitVec 8) (peer : Nat) (s : State) : Out :=
  .next (
    let t := s.pkg.port n
    if t.state ≠ 1 then s
    else
      let live := lanes &&& ~~~t.gone
      let s1 := s.updPort n (fun t => { t with lanes := live, gone := t.gone ||| ~~~lanes, peer := BitVec.ofNat 10 peer })
      if lanesUp live < 4 then s1.quarantine n 2
      else if (neighbours s.pkg.num)[n]? ≠ some peer then s1.quarantine n 3
      else (s1.updPort n (fun t => { t with state := if lanesUp live = 8 then 2 else 3 })).linkBack n)

def execPortTrainingTimeout (n : Nat) (s : State) : Out := .next (if (s.pkg.port n).state = 1 then s.quarantine n 1 else s)

/-- A lane fails retraining and is retired. -/
def execPortLaneLoss (n lane : Nat) (s : State) : Out :=
  .next (
    let t := s.pkg.port n
    if !t.carries || !(t.lanes.getLsbD lane) then s
    else
      let live := t.lanes &&& ~~~(1#8 <<< lane)
      let s1 := s.updPort n (fun t => { t with lanes := live, gone := t.gone ||| (1#8 <<< lane) })
      if lanesUp live < 4 then s1.quarantine n 2 else s1.updPort n (fun t => { t with state := 3 }))

/-- A flit fails its CRC and is replayed (R328); the sixteenth failure in a row loses the link. -/
def execFlitCrcFail (n : Nat) (sixteenth : Bool) (s : State) : Out :=
  .next (
    if !(s.pkg.port n).carries then s
    else
      let s1 := s.updPort n (fun t => { t with replays := t.replays + 1#32 })
      if sixteenth then s1.quarantine n 4 else s1)

def execPortErrorRate (n replays : Nat) (s : State) : Out :=
  .next (
    let t := s.pkg.port n
    if t.carries ∧ t.errthr ≠ 0#8 ∧ t.errthr.toNat < replays then s.quarantine n 5 else s)

/-- A notice from another package about a link (R344). -/
def execLinkLossNotice (m n : Nat) (up : Bool) (s : State) : Out :=
  .next (s.updPkg (fun p => if up then p.regainLink m n else p.loseLink m n))

/-- A round of probes (R330): the greatest skew that it measured. -/
def execFabricProbe (skew : BitVec 16) (s : State) : Out := .next (s.updPkg (fun p => { p with skew := skew }))

-- ## Home slices (R17, R18)

/-- The die whose L2 slice is the home of a line. Of tier 2 the spec gives the interleave of 4 KiB and the set of a node's slices, not
which slice takes which granule: the model counts the node's dies in the order of their codes, from the granule number (DESIGN CHOICE,
log 87). -/
def homeSlice (mode : BitVec 2) (pa : Nat) : Nat :=
  match tier1Die pa with
  | some d => d
  | none =>
    let o := pa - 0x100000000000
    if mode = 0#2 then o / 4096 % 8
    else if mode = 1#2 then
      let i := o / 4096 % 4
      -- node 0: P0, D0 to D2; node 1: P1, D3 to D5
      if o / 0x10000000000 = 0 then (if i = 0 then 0 else i + 1) else (if i = 0 then 1 else i + 4)
    else o / 0x4000000000

-- ## Die links and resets

def State.updDie (s : State) (die : Nat) (f : Die → Die) : State := s.updPkg (fun p => { p with dies := p.dies.modify die f })
def modulesUp (l : BitVec 48) : Nat := ((List.range 48).filter (fun i => l.getLsbD i)).length

/-- A strand of a reset die: a fresh start of its stage with its index, its image slot, its side log and the record that it
held (R145, R277); operation numbers go on. -/
def freshStart (c : Ctx) (l : Launch) (t : Strand) : Strand :=
  match c.stageOf l t.unit.toNat with
  | none => t
  | some (k, d) =>
    { Strand.start t.h c l k t.unit.toNat d with
      index := t.index, unitNo := t.unitNo, nid := t.nid, sidelog := t.sidelog, request := t.request, core := t.core
      withdrawn := t.withdrawn, closed := t.closed, cancelled := t.cancelled
      doneTo := t.doneTo
      replay := match t.record with
        | some r => some r
        | none => t.replay }

/-- A strand's waiters leave the event table. -/
def State.forgetWaits (s : State) (slot h : Nat) : State := s.unwait slot (fun w => match w with | .strand g _ => g == h | _ => false)

/-- The strands that run on a die start again. Of a pre-empted strand whose live tiles still lie in a core of the die (R293) the spec
does not say whether it is one of the die's strands: the model restarts only those that hold a core, and the other resumes with its
tiles gone (DESIGN CHOICE, log 86). -/
def State.restartStrands (s : State) (die : Nat) : State :=
  let on := (s.allCores.filter (fun c => dieOf c.num == die && c.runs != 0)).map (·.runs)
  on.foldl (fun t h =>
    match (t.findStrand h).bind (fun u => (t.ctxAt u.slot).bind (fun c => (t.launchAt u.slot u.launch.toNat).map (fun l => (u, c, l)))) with
    | none => t
    | some (u, c, l) =>
      ((t.release u.core u.slot h false).forgetWaits u.slot h).updStrand h (fun x => freshStart c l x)) s

/-- The tile tasks with units on arrays of a die (R212): a lost unit runs again, unless it was writing C that it had read; its array
tiles and cycles are counted (R205), and a task that was only waiting for it stops or fails. -/
def State.restartUnits (s : State) (die : Nat) : State :=
  let lost := s.pkg.tasks.flatMap (fun t => (t.running.filter (fun u => dieOfArray u.array == die)).map (fun u => (t.n, u)))
  lost.foldl (fun s1 (n, u) =>
    match s1.taskAt n with
    | none => s1
    | some t =>
      let accum := if t.attn then t.fld 8 63 0 != 0 else t.acc
      if accum && u.out.isSome then s1.failUnit n u.unit 7 t.request
      else ((s1.dropUnit n u.unit).updTask n (fun t =>
        { t.dropped u.unit with redo := t.redo ++ [(u.unit, u.rows)] })).settleTask n) s

/-- The barriers of a die restored from Taproot's table (R238); the copies attached to them stop counting. -/
def State.restoreBars (s : State) (die : Nat) : State :=
  let s1 := s.updPkg (fun p => { p with bars := p.bars.map (fun b =>
    if b.die = die ∧ b.active ∧ !b.saved then { b with phase := b.phase + 1#32, lastf := true, arr := b.count, exp := 0, pf := false } else b) })
  s1.mapStrands (fun t =>
    { t with slots := t.slots.map (fun c => c.map (fun c => if c.bar.any (fun b => b.1 == die) then { c with cut := true } else c)) })

/-- Steps 1 and 3 of R15: what the cores hold in update-only lines is at its home, the dirty lines of the slice are written
back, and the die has no state left; the pinned lines are filled in again (R246); transfers that read from it or write to it start again
from their first byte (R358). -/
def State.resetDie (s : State) (die : Nat) : State :=
  let mine := s.allCores.filter (fun c => dieOf c.num == die)
  let hit := (s.pkg.seqRings.flatMap (fun r => (List.range r.members).map (fun i => (r.n, i)))).filter (fun (n, i) =>
    s.pkg.seqRings.any (fun r => r.n == n && (s.memberOf r i).1 == s.pkg.num &&
      s.allStrands.any (fun t => t.h != 0 && t.slot == r.slot && t.launch.toNat == (s.memberOf r i).2 && mine.any (fun c => c.runs == t.h))))
  let s1 := mine.foldl (fun (t : State) c => c.upd.foldl (fun (u : State) l => u.mergeAt c.num l.line) t) s
  let s2 := s1.updPkg (fun p => (p.dirtyL2.filter (fun l => homeSlice p.numaMode (64 * l) == die)).foldl (fun q l => q.writeBack l) p)
  let s3 := ((s2.restartStrands die).restartUnits die).restoreBars die
  let s4 := s3.mapCores (fun c => if dieOf c.num = die then Core.start c.num else c)
  let s5 := s4.updDie die (fun d => { d with tlb := [], walks := [] })
  let s6 := s5.updPkg (fun p => { p with
    ctxs := p.ctxs.map (fun c => { c with creditWait := c.creditWait.filter (fun k => dieOf k != die) })
    grafts := p.grafts.map (fun g =>
      if !g.landed ∧ (s4.graftRanges g.slot g.src g.dst).any (fun r => s4.onDie die g.slot r.1 r.2) then { g with flight := none } else g)
    l1Bad := p.l1Bad.filter (fun b => dieOf b.1 != die)
    l2Bad := p.l2Bad.filter (fun l => homeSlice p.numaMode (64 * l) != die)
    banks := p.banks.filter (fun b => dieOfArray b.array != die) })
  let s7 := s6.pkg.ctxs.foldl (fun t c => if c.dies.getLsbD die then t.fillPins c else t) s6
  s7.reformWhere (fun r i => hit.contains (r.n, i))

/-- A die link is lost or fails to train: the die is in reset, and its link is quarantined. -/
def State.dieLost (s : State) (die reason : Nat) : State := s.updDie die (fun d => { d with up := false, state := 4, reason := reason })

/-- The modules that stay decide the state of a link that trains or runs. -/
def execDieLinkTrained (die : Nat) (live : BitVec 48) (s : State) : Out :=
  .next (
    let d := s.pkg.dies.getD die Die.start
    if d.state ≠ 1 then s
    else
      let ok := live &&& ~~~d.retired
      let s1 := s.updDie die (fun d => { d with live := ok, retired := d.retired ||| ~~~live })
      if modulesUp ok < 40 then s1.dieLost die 2
      else s1.updDie die (fun d => { d with up := true, state := if modulesUp ok = 48 then 2 else 3 }))

def execDieLinkTrainingTimeout (die : Nat) (s : State) : Out :=
  .next (if (s.pkg.dies.getD die Die.start).state = 1 then s.dieLost die 1 else s)

def execDieLinkModuleLoss (die m : Nat) (s : State) : Out :=
  .next (
    let d := s.pkg.dies.getD die Die.start
    if !((d.state == 2 || d.state == 3) && d.live.getLsbD m) then s
    else
      let live := d.live &&& ~~~(1#48 <<< m)
      let s1 := s.updDie die (fun d => { d with live := live, retired := d.retired ||| (1#48 <<< m) })
      if modulesUp live < 40 then s1.dieLost die 2 else s1.updDie die (fun d => { d with state := 3 }))

/-- A flit that fails sixteen replays in a row (4), or more than 1,024 replays in one ms (5). -/
def execDieLinkReplayExhaustion (die : Nat) (rate : Bool) (s : State) : Out :=
  .next (
    let d := s.pkg.dies.getD die Die.start
    if d.state = 2 ∨ d.state = 3 then s.dieLost die (if rate then 5 else 4) else s)

/-- A die link that is retired (R331): contexts lose the die with its barriers, its memory is unreachable, a context without dies is
FAULTED. -/
def State.retireDie (s : State) (die : Nat) : State :=
  let s1 := s.updDie die (fun d => { d with state := 5 })
  let s2 := s1.updPkg (fun p => { p with
    ctxs := p.ctxs.map (fun c => { c with dies := c.dies &&& ~~~(1#8 <<< die) })
    bars := p.bars.filter (fun b => b.die != die)
    frames := p.frames.map (fun (i, f) => if tier1Die (frameBase i) = some die then (i, { f with poison := BitVec.allOnes 512 }) else (i, f)) })
  let none_ := (s2.pkg.ctxs.filter (fun c => c.dies == 0#8)).map (·.slot)
  (none_.foldl (fun t k => t.faultCtx k) s2).report (.dieRetired die)

/-- A compute-die reset (R15). While the link is up it comes in two steps: Taproot stops issue to the die, whose dirty lines go to
memory from then on; then the die is reset. One that follows the loss of its link lets the link train again, or retires it (R331). -/
def execComputeDieReset (die : Nat) (s : State) : Out :=
  .next (
    let d := s.pkg.dies.getD die Die.start
    if 8 ≤ die then s
    else if d.state = 2 ∨ d.state = 3 then
      if d.up then s.updDie die (fun d => { d with up := false }) else (s.resetDie die).updDie die (fun d => { d with up := true })
    else if d.state = 4 then
      let s1 := s.resetDie die
      if 3 ≤ d.quar then s1.retireDie die else s1.updDie die (fun d => { d with state := 1, quar := d.quar + 1 })
    else s)

/-- The write-back of a resetting die has not finished in time: the granules of the lines that it holds become poisoned. -/
def execWritebackTimeout (die : Nat) (s : State) : Out :=
  .next (
    if 8 ≤ die ∨ (s.pkg.dies.getD die Die.start).up then s
    else
      let mine := s.pkg.dirtyL2.filter (fun l => homeSlice s.pkg.numaMode (64 * l) == die)
      (mine.foldl (fun t l => t.setPoison (64 * l)) s).updPkg (fun p => { p with dirtyL2 := p.dirtyL2.filter (fun l => !(mine.contains l)) }))

/-- Writing 1 to lkctl.lock (R20): the block is read-only until cold reset, and the die links of the compute dies train. -/
def State.setLock (s : State) (v : W64) : State :=
  if !v.getLsbD 0 || s.pkg.lock.lock then s
  else s.updPkg (fun p => { p with
    lock := { p.lock with lock := true }, dies := p.dies.map (fun d => if d.state = 0 then { d with state := 1 } else d) })

def execLock (v : W64) (s : State) : Out := .next (s.setLock v)

/-- What memory holds when the key slots are empty (R305). -/
def Pkg.rawMem (p : Pkg) : Mem := (p.keys.foldl (fun (q : Pkg) k => q.putKey k.1 none) { p with dirtyL2 := [] }).mem

/-- Taproot in its boot loader after a reset; the identity key goes on behind its last index (R22, log 82). -/
def Boot.again (b : Boot) : Boot := { Pkg.reset.boot with signed := b.signed }

/-- A cold reset (R20): every register at its reset value, Taproot in its boot loader (R22); the package keeps its number and what
its memory holds, of which nothing is said (log 2). -/
def execColdReset (s : State) : Out :=
  .next { State.reset with pkg := { Pkg.reset with num := s.pkg.num, boot := s.pkg.boot.again, mem := s.pkg.rawMem }, sched := s.sched }

/-- A warm reset: as a cold one, but the lock block keeps what it holds (R20) and retired ports, lanes and modules stay retired
with their counts until cold reset (R14, R329, R331). -/
def execWarmReset (s : State) : Out :=
  .next (
    let keepPort := fun (t : Port) => { Port.start with state := if t.state = 5 then 5 else 0, quar := t.quar, gone := t.gone, replays := t.replays, fec := t.fec }
    let keepDie := fun (d : Die) =>
      { Die.start with retired := d.retired, quar := d.quar, state := if d.state = 5 then 5 else if s.pkg.lock.lock then 1 else 0 }
    { State.reset with
      pkg := { Pkg.reset with num := s.pkg.num, boot := s.pkg.boot.again, mem := s.pkg.rawMem, lock := s.pkg.lock, ports := s.pkg.ports.map keepPort, dies := s.pkg.dies.map keepDie }
      sched := s.sched })

/-- The power controller delays elastic words of a core (R21). -/
def execPowerThrottle (core cycles : Nat) (s : State) : Out :=
  .next (s.updCore core (fun c => { c with throttle := max c.throttle (c.cyc + cycles) }))

/-- A package is lost (R23, R24, R390): in a sharded context whose group holds it the rebuild of its lane begins, and rings
with a member there re-form. A failure of this package's Taproot is reported for the contexts that are not sharded. -/
def execPackageFailure (pkg : Nat) (s : State) : Out :=
  .next (
    if pkg = s.pkg.num then (s.pkg.ctxs.filter (fun c => !c.shardOn)).foldl (fun t c => t.faultCtx c.slot) s
    else
      let hit := s.pkg.ctxs.flatMap (fun c => match s.shardAt c.slot with
        | some g => ((List.range 9).filter (fun i => g.m.getD i 0 == pkg)).map (fun i => (c.slot, i))
        | none => [])
      let s1 := hit.foldl (fun t (slot, i) => t.loseLane slot i) s
      s1.reformWhere (fun r i => (s1.memberOf r i).1 == pkg))

end Sys2Proof.Machine
end

