-- ==== Sys2Proof/Machine/Links.lean ====
section
/-! DEFINITION. Packets at their destination, at a router and back at their source: flows, scope table, receive queues,
forwarding to a moved home, invalidations (spec/16_link.md R333 to R343, spec/07_consistency.md R177, R186,
spec/08_tile.md R201, spec/18_whorl.md R388). -/

namespace Sys2Proof.Machine

/-- What came of a packet (R335, R339, R340, R323). -/
inductive Came where
  | ok (data : List Byte)
  | denied
  | poison
  | dead
deriving DecidableEq, Repr

def Came.isDead : Came → Bool
  | .dead => true
  | .ok _ => false | .denied => false | .poison => false

/-- It ends the request of its work: an uncorrectable error, or an unreachable destination (R348). -/
def Came.ends : Came → Bool
  | .dead => true | .poison => true
  | .ok _ => false | .denied => false

-- ## Back at the source (R338, R339)

/-- A line that came back is kept; one that did not is noted for the access that asks again. -/
def Pkg.lineCame (p : Pkg) (pa : Nat) (c : Came) : Pkg :=
  match c with
  | .ok bs => { p with rcache := p.rcache.filter (fun l => l.pa != pa) ++ [{ pa := pa, data := bs }] }
  | .denied => { p with deadLines := p.deadLines ++ [(pa, true)] }
  | .poison | .dead => { p with deadLines := p.deadLines ++ [(pa, false)] }

/-- A translation with ca = 1 covers a line: one that an access was issued with, or one of a TLB (R304). -/
def State.uncached (s : State) (who : Asker) (gpa : Nat) : Bool :=
  let hits := fun (e : TlbEnt) => e.l2only && decide (e.pa ≤ gpa) && decide (gpa < e.pa + e.size)
  let own := match who with
    | .acc h id => (s.findStrand h).any (fun t => t.acc.any (fun a => a.id == id && a.pages.any hits))
    | _ => false
  own || s.allCores.any (fun c => c.tlb.any hits) || s.pkg.dies.any (fun d => d.tlb.any hits) || s.pkg.engTlb.any hits

/-- The answer to a read of a line: it is kept in the remote cache, or, of a page with ca = 1, for the read that asked only. -/
def State.lineFor (s : State) (who : Asker) (gpa : Nat) (c : Came) : State :=
  match c, s.uncached who gpa with
  | .ok bs, true => s.updPkg (fun p => { p with
      onceLines := p.onceLines.filter (fun l => !(l.1 == who && l.2.pa == gpa)) ++ [(who, { pa := gpa, data := bs })] })
  | _, _ => s.updPkg (fun p => p.lineCame gpa c)

/-- A write of a strand's work that was not made: reported, and its request ended where that is due. -/
def State.lost (s : State) (h va : Nat) (c : Came) : State :=
  match s.findStrand h with
  | none => s
  | some t =>
    let s1 := s.report (.discarded t.slot h va)
    if c.ends ∧ t.request ≠ 0 then s1.endRequest t.request else s1

/-- The first address that an operation writes. -/
def firstVa (op : AccOp) : Nat := ((op.writes.map (·.1)).head?).getD 0

/-- An operation of a strand's pipeline leaves it. -/
def State.accGone (s : State) (h id : Nat) : State := s.updStrand h (fun t => { t with acc := t.acc.filter (fun a => a.id != id) })

/-- An access of a strand gets its answer: a read is tried again with the line, a write is performed, an atomic lands. -/
def State.accCame (s : State) (h id gpa : Nat) (c : Came) : State :=
  match (s.findStrand h).bind (fun t => (t.acc.find? (fun a => a.id == id)).map (fun a => (t, a))) with
  | none => s
  | some (t, a) =>
    match a.op with
    | .load _ _ _ _ | .loadV _ _ _ _ _ _ | .gather _ _ _ _ _ _ =>
      (s.lineFor (.acc h id) gpa c).updStrand h (fun t =>
        { t with acc := t.acc.map (fun b => if b.id = id then { b with sent := false } else b) })
    | .atom op w64 u va _ _ ret =>
      (match ret with
       | some (q, ent) =>
         let cyc := ((s.findCore t.core).map (·.cyc)).getD 0
         let land := fun (m : Option (Cause × W64)) (v : Nat) => s.updStrand h (fun t => t.landQ q ent (.s (atomEntry op w64 u v)) m cyc)
         let s1 := match c with
           | .ok bs => land none (leNat bs)
           | .denied => land (some (.pageLoad, BitVec.ofNat 64 va)) 0
           | .poison | .dead => land (some (.eccUncorr, BitVec.ofNat 64 gpa)) 0
         ((if c.ends then s1.endBound h gpa else s1)).accGone h id
       | none =>
         (match c with
          | .ok _ => s
          | _ => s.lost h va c).accGone h id)
    | op =>
      let s1 := match c with
        | .ok _ => s
        | _ => s.lost h (firstVa op) c
      if s1.pkg.waitsFor (.acc h id) then s1 else s1.accGone h id

/-- The place of a strand's copy by its number. -/
def Strand.placeOf (t : Strand) (id : Nat) : Option Nat := (List.range 32).find? (fun sl => (t.copyAt sl).any (fun c => c.id == id))

/-- A chunk of a copy gets an answer: it has landed when all its packets have been performed. -/
def State.chunkCame (s : State) (h id k : Nat) (c : Came) : State :=
  match (s.findStrand h).bind (fun t => (t.placeOf id).bind (fun sl => (t.copyAt sl).map (fun x => (sl, x)))) with
  | none =>
    -- a word of a chain's record (R169)
    (match c, (s.findStrand h).bind (fun t => (t.chans.find? (fun x => x.id == id)).bind (·.recs.head?)) with
     | .ok _, _ | _, none => s
     | _, some r => s.lost h r.addr c)
  | some (sl, x) =>
    if (x.chunks.getD k .pending).done then s
    else
      match c with
      | .ok _ => if s.pkg.waitsFor (.chunk h id k) then s else s.chunkEnds h sl k .landed
      | .denied => s.chunkEnds h sl k (.failed 3)
      | .poison | .dead => s.chunkEnds h sl k (.failed 2)

/-- A change of a parity page was not made: its part is sent a second time, and then the request that the page names ends (R376, R388). -/
def State.parityLost (s : State) (obj : Nat) (dst : Nat) (op : PktOp) : State :=
  match op with
  | .parity ctx j lane off img st crc again =>
    if again then
      ((s.pkg.ctxs.find? (fun c => c.num == ctx)).bind (fun c => (s.shardAt c.slot).map (fun g => (c, g)))).elim s
        (fun (c, g) => s.endPage c.slot (g.sbase + g.psize * j))
    else s.updPkg (fun p => p.sendPkt taproot dst 3 (.parity ctx j lane off img st crc true) (.eng obj))
  | _ => s

/-- The write of an engine's object was not made (R212, R324, R348). -/
def State.engineLost (s : State) (obj : Nat) (c : Came) : State :=
  if obj < 2 ^ 32 then (if c.ends then s.endRequest obj else s)
  else if 2 ^ 36 ≤ obj ∧ obj < 2 ^ 37 then
    (match s.taskAt (obj - 2 ^ 36) with
     | none => s
     | some t =>
       match t.running.find? (fun u => u.wrote) with
       | none => s
       | some u => s.failUnit t.n u.unit (if c.ends then 2 else 3) t.request)
  else if 2 ^ 38 ≤ obj ∧ obj < 2 ^ 39 then
    (match s.pkg.migs.find? (fun m => m.started && frameIx m.old == obj - 2 ^ 38) with
     | none => s
     | some m => s.giveUp m)
  else if 2 ^ 40 ≤ obj ∧ c.ends then s.endBound (obj / 2 ^ 48) 0
  else s

def Pkg.flowInIs (src core cls : Nat) (f : FlowIn) : Bool := f.src == src && f.core == core && f.cls == cls
def Pkg.flowIn (p : Pkg) (src core cls : Nat) : Option FlowIn := p.flowsIn.find? (Pkg.flowInIs src core cls)
def Pkg.updFlowIn (p : Pkg) (src core cls : Nat) (f : FlowIn → FlowIn) : Pkg :=
  { p with flowsIn := p.flowsIn.map (fun g => if Pkg.flowInIs src core cls g then f g else g) }

/-- A router forwards a packet (R333): at its intermediate the intermediate is cleared; then it goes out on the minimal port toward
its target, unless that port's link carries no traffic, which drops it. It leaves its source with hop count 0, and every router after
that adds 1. -/
def Pkg.forward (p : Pkg) (pkt : Packet) : Pkg :=
  let via := if pkt.via = some p.num then none else pkt.via
  let port := (p.route (via.getD pkt.dst)).minport
  if (p.port port).carries then { p with emits := p.emits ++ [.fwd port { pkt with via := via, hops := if pkt.src = p.num then pkt.hops else pkt.hops + 1 }] } else p

/-- An answer to a packet of a flow, sent in the reply class (R336). One that no usable path takes is lost, and the packet comes
again (R335). -/
def Pkg.reply (p : Pkg) (dst core cls seq : Nat) (ans : FlowAns) : Pkg :=
  match (p.route dst).choose 2 (Config.egressFlits taproot dst 2 seq) with
  | none => p
  | some path => p.forward { src := p.num, core := taproot, dst := dst, via := (p.route dst).viaOf path, cls := 2, seq := 0,
                             restart := false, hops := 0, key := 0, op := .reply core cls seq ans }

/-- An answer given to a packet of another package, and kept for its repetitions (R335). -/
def Pkg.answerPkt (p : Pkg) (src core cls : Nat) (seq : BitVec 16) (ans : FlowAns) : Pkg :=
  (p.updFlowIn src core cls (fun f => { f with answers := f.answers.filter (fun a => a.1 != seq) ++ [(seq, ans)] })).reply
    src core cls seq.toNat ans

def Came.ans : Came → FlowAns
  | .ok bs => .ack bs
  | .denied => .denied
  | .poison => .poison
  | .dead => .poison

/-- A packet sent by this package has come to an end, and has left its flow. -/
def State.completes (s : State) (q : Sent) (c : Came) : State :=
  let gpa := fun (pa : Nat) => q.pkt.dst * 2 ^ 48 + pa
  match q.asker with
  | .acc h id =>
    s.accCame h id (match q.pkt.op with | .read pa _ => gpa pa | .atomic _ _ _ pa _ _ => gpa pa | .write pa _ => gpa pa | _ => 0) c
  | .ep h n =>
    (match c with
     | .ok _ => s.updStrand h (fun t => { t with eps := t.eps.modify n (epCount 32 16) })
     | _ =>
       let s1 := s.updStrand h (fun t => { t with eps := t.eps.modify n (epCount 8 8) })
       s1.lost h (Config.localBase + 0x2000 * n) c)
  | .chunk h id k =>
    (match q.pkt.op with
     | .read pa _ => s.lineFor q.asker (gpa pa) c
     | _ => s.chunkCame h id k c)
  | .mdadd n =>
    (match s.pkg.dadds.find? (fun d => d.n == n) with
     | none => s
     | some d =>
       -- applied once its last packet has been acknowledged
       match c with
       | .ok _ => if s.pkg.waitsFor (.mdadd n) then s else s.daddDone d true
       | _ => let s1 := s.daddDone d false; if c.isDead then s1.endBound d.h 0 else s1)
  | .eng obj =>
    (match q.pkt.op with
     | .read pa _ => s.lineFor .none (gpa pa) c
     | _ =>
       let s1 := match c with
         | .ok _ => s
         | _ => (match q.pkt.op with
           | .parity _ _ _ _ _ _ _ _ => s.parityLost obj q.pkt.dst q.pkt.op
           | _ => s.engineLost obj c)
       s1.runHeld obj)
  | .fwd src core cls seq => s.updPkg (fun p => p.answerPkt src core cls (BitVec.ofNat 16 seq) c.ans)
  | .none =>
    (match q.pkt.op with
     | .read pa _ => s.lineFor .none (gpa pa) c
     | _ => s)
  | .moved _ => s

-- ## Answers that wait for invalidations (R338)

/-- An invalidation of a line of a range is not acknowledged yet, be it of a copy under the line's old address. -/
def Pkg.invalOut (p : Pkg) (pa n : Nat) : Bool :=
  p.flows.any (fun f => f.sent.any (fun q => match q.pkt.op with
    | .inval a => overlap pa n a 64 || (match q.asker with
      | .moved h => h / 2 ^ 48 == p.num && overlap pa n (h % 2 ^ 48) 64
      | _ => false)
    | _ => false))

/-- Answers whose invalidations have all been acknowledged are given. -/
def State.releaseOwed (s : State) : State :=
  s.updPkg (fun p => p.flowsIn.foldl (fun q f =>
    let go := f.owed.filter (fun o => !(p.invalOut o.pa o.n))
    go.foldl (fun r o => r.answerPkt f.src f.core f.cls o.seq o.ans)
      (q.updFlowIn f.src f.core f.cls (fun g => { g with owed := g.owed.filter (fun o => p.invalOut o.pa o.n) }))) p)

-- ## The source of a flow (R334, R335)

def flowIs (src dst cls : Nat) (f : Flow) : Bool := f.src == src && f.dst == dst && f.cls == cls
def Pkg.flow (p : Pkg) (src dst cls : Nat) : Option Flow := p.flows.find? (flowIs src dst cls)
def Pkg.setFlow (p : Pkg) (f : Flow) : Pkg := { p with flows := p.flows.map (fun g => if flowIs f.src f.dst f.cls g then f else g) }

/-- A packet acknowledged, refused or given up: it leaves its flow, and its asker learns of it. -/
def State.finishPkt (s : State) (f : Flow) (q : Sent) (c : Came) : State :=
  (s.updPkg (fun p => p.setFlow { f with sent := f.sent.filter (fun r => r.pkt.seq != q.pkt.seq) })).completes q c

/-- Every unacknowledged packet of a flow is sent again, in order; those sent again eight times already are given up, and the
first behind them, sent already or to come, restarts the flow. -/
def resent (f : Flow) : Flow × List Sent :=
  let dead := f.sent.filter (fun q => decide (8 ≤ q.tries))
  let live := (f.sent.filter (fun q => decide (q.tries < 8))).map (fun q => { q with tries := q.tries + 1 })
  let live1 := match live with
    | [] => []
    | q :: r => if dead.isEmpty then q :: r else { q with pkt := { q.pkt with restart := true } } :: r
  ({ f with sent := live1, anew := f.anew || (!dead.isEmpty && live.isEmpty) }, dead)

def State.resend (s : State) (f : Flow) : State :=
  let r := resent f
  let s1 := s.updPkg (fun p => p.setFlow r.1)
  if r.2.isEmpty then s1 else r.2.foldl (fun t q => t.completes q .dead) (s1.report (.unreachable f.dst))

/-- The data that comes back has the length that the packet asked for. -/
def answers (op : PktOp) (data : List Byte) : Bool :=
  match op with
  | .read _ n => data.length == n
  | .atomic _ w64 _ _ _ _ => data.length == (if w64 then 8 else 4)
  | _ => true

/-- An answer to a packet of a flow of this package (R335). -/
def State.ackCame (s : State) (src dst cls seq : Nat) (ans : FlowAns) : State :=
  match s.pkg.flow src dst cls with
  | none => s
  | some f =>
    match f.sent.find? (fun q => q.pkt.seq == seq) with
    | none => s
    | some q =>
      if dst = s.pkg.num then s
      else match ans with
        | .ack data => if answers q.pkt.op data then (s.finishPkt f q (.ok data)).releaseOwed else s
        | .denied => (s.finishPkt f q .denied).releaseOwed
        | .poison => (s.finishPkt f q .poison).releaseOwed
        | .expected _ => (s.resend f).releaseOwed

def execFlowAckReceived (src dst cls seq : Nat) (ans : FlowAns) (s : State) : Out := .next (s.ackCame src dst cls seq ans)

/-- A flow's packets start a new flowlet, whose path is chosen anew (R334). -/
def Pkg.newFlowlet (p : Pkg) (f : Flow) : Flow :=
  let path := p.pathOf f
  { f with path := path, sent := f.sent.map (fun q => { q with pkt := { q.pkt with via := (p.route f.dst).viaOf path.join } }) }

/-- 20 µs without an acknowledgement: a new flowlet, whose path is chosen anew (R334). -/
def execFlowResendTimeout (src dst cls : Nat) (s : State) : Out :=
  .next (
    match s.pkg.flow src dst cls with
    | none => s
    | some f =>
      if f.sent.isEmpty then s
      else
        (s.resend (s.pkg.newFlowlet f)).releaseOwed)

/-- A packet of a flow has been sent on and is not answered (R186). -/
def Pkg.fwdOut (p : Pkg) (src core cls : Nat) : Bool :=
  p.flows.any (fun f => f.sent.any (fun q => match q.asker with
    | .fwd s c k _ => s == src && c == core && k == cls
    | _ => false))

/-- 1 ms after the last packet of a flow: its destination forgets it, unless one of its packets waits for its answer. -/
def execFlowStateExpiry (src core cls : Nat) (s : State) : Out :=
  .next (match s.pkg.flowIn src core cls with
    | none => s
    | some f => if f.owed.isEmpty && !(s.pkg.fwdOut src core cls) then s.updPkg (fun p => { p with flowsIn := p.flowsIn.filter (fun g => !(Pkg.flowInIs src core cls g)) }) else s)

-- ## What waits for a release (R211, R255, R343)

/-- A release at .sys performed: the event is signalled; prod counts the packet, then the queue's event is signalled. -/
def State.doLate (s : State) (l : Late) : State :=
  match l with
  | .signal slot name => s.signal slot name
  | .deliver rxq =>
    match tget s.pkg.rxqs rxq with
    | none => s
    | some q => (s.updPkg (fun p => { p with rxqs := tset p.rxqs rxq { q with prod := (q.prod + 1) % 2 ^ 64 } })).signal q.slot q.ev

/-- What waits for a release is performed in order once the writes before it are visible everywhere. -/
def State.settleLate (s : State) : State :=
  if s.pkg.late.isEmpty || !(s.pkg.writesSeen) then s
  else s.pkg.late.foldl (fun t l => t.doLate l) (s.updPkg (fun p => { p with late := [] }))

-- ## At the destination (R335, R340)

/-- What the destination does with a packet that it may take. -/
inductive Did where
  | ans (a : FlowAns) (s : State)
  | owed (a : FlowAns) (pa n : Nat) (s : State)
  | away (s : State)
  | unable (s : State)

/-- One scope entry covers a range for a source and a kind: bit 0 read, 1 write, 2 atomic. Of this package nothing is checked. -/
def Pkg.permits (p : Pkg) (src pa n kind : Nat) : Bool :=
  src == p.num || p.scopes.any (fun (_, c) =>
    c.v && decide (c.base * 0x200000 ≤ pa) && decide (pa + n ≤ c.lim * 0x200000) && decide (c.srclo ≤ src) && decide (src ≤ c.srchi) &&
    c.perm.getLsbD kind)

/-- A packet's access sent on to the home that its line has moved to (R186, R317). -/
def State.sendOn (s : State) (pkt : Packet) (home : Nat) (op : PktOp) : State :=
  s.updPkg (fun p => p.sendPkt taproot (paPkg home) pkt.cls op (.fwd pkt.src pkt.core pkt.cls pkt.seq) pkt.key)

/-- Another package holds a copy of a line under the address that the line had before it moved (R317). -/
def Pkg.noteMoved (p : Pkg) (src line home : Nat) : Pkg :=
  { p with fwdCopies := p.fwdCopies.filter (fun c => !(c.1 == src && c.2.1 == line)) ++ [(src, line, home)] }

/-- A read of a whole line that is answered here, or sent on, leaves a copy at its source. -/
def Pkg.noteCopy (p : Pkg) (pkt : Packet) (home : Nat) : Pkg :=
  match pkt.op with
  | .read pa 64 =>
    if pa % 64 ≠ 0 ∨ pkt.src = p.num then p
    else if home = p.num * 2 ^ 48 + pa then { p with copiesOut := p.copiesOut.filter (· != (pkt.src, pa / 64)) ++ [(pkt.src, pa / 64)] }
    else p.noteMoved pkt.src (pa / 64) home
  | _ => p

/-- An access of a packet to n bytes: refused, sent on, or performed here on the local address of its home. -/
def State.arrivesAt (s : State) (pkt : Packet) (pa n kind : Nat) (op : Nat → PktOp) (k : Nat → State → Did) : Did :=
  let home := homeOf s.pkg (s.pkg.num * 2 ^ 48 + pa)
  if !(s.pkg.permits pkt.src pa n kind) || !(inMemory pa) then .ans .denied s
  else if paPkg home ≠ s.pkg.num then .away ((s.sendOn pkt home (op (paLocal home))).updPkg (fun p => p.noteCopy pkt home))
  -- an earlier packet of the flow has been sent on and is not answered: a later one that stays here waits (R186)
  else if s.pkg.fwdOut pkt.src pkt.core pkt.cls then .unable s
  else if poisoned s.pkg (paLocal home) n then .ans .poison s
  else k (paLocal home) s

/-- An answer, or the wait for the copies of a range that other packages held. -/
def answerAfter (a : FlowAns) (pa n : Nat) (s : State) : Did := if s.pkg.invalOut pa n then .owed a pa n s else .ans a s

/-- The agent of a receive queue's accesses (R309). -/
def rxqAgent (q : Nat) : Agent := .held (2 ^ 39 + q)

/-- The words of an endpoint packet and its head in a ring slot (R343). -/
def rxqSlot (pkt : Packet) (ctx core ep : Nat) (words : List W64) : List Byte :=
  leBytes 8 (words.length * 2 ^ 56 + ep * 2 ^ 48 + ctx * 2 ^ 32 + core * 2 ^ 16 + pkt.src) ++ List.replicate 56 0#8 ++
    words.flatMap (fun w => leBytes 8 w.toNat)

/-- An engine's access whose page is not there: firmware is asked, another package is asked, and the packet comes again. -/
def heldUp (slot : Nat) (ag : Agent) (k : AKind) (e : Eng Unit) (s : State) : Did :=
  match e with
  | .fault va r => .unable (s.askFirmware slot ag va k r)
  | .remote pa => .unable (s.askRemote pa)
  | .poison _ => .ans .poison s
  | .ok _ => .unable s

/-- Packets whose slots of a receive queue are written and which prod does not count yet. -/
def Pkg.delivering (p : Pkg) (rxq : Nat) : Nat := (p.late.filter (· == .deliver rxq)).length

/-- Delivery to a receive queue: the slot is written, behind the packets that are being delivered; prod and ev follow with release at
.sys (R343). -/
def State.deliver (s : State) (pkt : Packet) (rxq ctx core ep : Nat) (words : List W64) : Did :=
  match tget s.pkg.rxqs rxq with
  | none => .ans .denied s
  | some q =>
    if !q.v || (s.ctxAt q.slot).isNone then .ans .denied s
    else
      let c := s.engWord q.slot q.cons.toNat
      match c.1 with
      | .ok cons =>
        let at_ := (q.prod + s.pkg.delivering rxq) % 2 ^ 64
        if (q.nslot : Int) ≤ (BitVec.ofNat 64 at_ - cons).toInt then .unable c.2
        else
          let w := c.2.engWrite q.slot (q.rbase.toNat + 576 * (at_ % q.nslot)) (rxqSlot pkt ctx core ep words)
          (match w.1 with
           | .ok _ => answerAfter (.ack []) 0 (2 ^ 48) ((w.2.updPkg (fun p => { p with late := p.late ++ [.deliver rxq] })).settleLate)
           | e => heldUp q.slot (rxqAgent rxq) .write e w.2)
      | e => heldUp q.slot (rxqAgent rxq) .read e.unit c.2

/-- Bytes of a parity page from an offset on, with a piece of an image XORed in outside the state bytes; the first piece sets the
lane's state byte (R388). -/
def parityBytes (off lane st : Nat) (old img : List Byte) : List Byte :=
  (xorBytes old img).zipIdx.map (fun (x, i) =>
    if 0x20 ≤ off + i ∧ off + i < 0x40 then (if off = 0 ∧ i = 0x20 + lane then BitVec.ofNat 8 st else old.getD i 0#8) else x)

/-- A part of a parity page changed on the parity lane, when its CRC-32C verifies (R376, R388). -/
def State.changeParity (s : State) (pkt : Packet) (ctx j lane off : Nat) (img : List Byte) (st : Nat) (crc : W32) : Did :=
  match (s.pkg.ctxs.find? (fun c => c.num == ctx)).bind (fun c => (s.shardAt c.slot).map (fun g => (c, g))) with
  | none => .ans .denied s
  | some (c, g) =>
    if crc32c img ≠ crc then .ans .poison s
    else if g.lane ≠ 8 ∨ g.nslot ≤ j ∨ 8 ≤ lane ∨ g.psize < off + img.length ∨ img.isEmpty then .ans .denied s
    else
      let va := g.sbase + g.psize * j + off
      let n := img.length
      let ag := Agent.held (2 ^ 39 + 256 + c.slot)
      let allowed := (pieces va n).all (fun pc => match (s.engTranslate c.slot pc.1 .write).1 with
        | .ok e => s.pkg.permits pkt.src (paLocal (e.addr pc.1)) pc.2 1
        | .fault _ | .poison _ => true)
      if !allowed then .ans .denied s
      else
        let r := s.engRead c.slot va n
        match r.1 with
        | .ok old =>
          let w := r.2.engWrite c.slot va (parityBytes off lane st old img)
          (match w.1 with
           | .ok _ => .ans (.ack []) w.2
           | e => heldUp c.slot ag .write e w.2)
        | e => heldUp c.slot ag .read e.unit r.2

/-- A piece of a tile for a peer (R201): the last of its 4 KiB adds the tile. -/
def State.daddPiece (s : State) (pkt : Packet) (core tile ctx : Nat) (m : AMd) (off : Nat) (data : List W32) : Did :=
  let old := if off = 0 then [] else (s.pkg.flowIn pkt.src pkt.core pkt.cls).elim [] (·.part)
  let all := old ++ data
  let keep := fun (l : List W32) (t : State) => t.updPkg (fun p => p.updFlowIn pkt.src pkt.core pkt.cls (fun f => { f with part := l }))
  if 4 * old.length ≠ off then .ans .denied s
  else if all.length < 1024 then .ans (.ack []) (keep all s)
  else let r := s.daddApply core tile (BitVec.ofNat 16 ctx) m all; .ans (if r.1 then .ack [] else .denied) (keep [] r.2)

/-- An invalidation of a line of another home: the copies that other packages hold of it under an address from which it has moved go
too, before it is acknowledged (R177, R317). -/
def State.invalCame (s : State) (gpa : Nat) : Did :=
  if s.pkg.readOut gpa then .unable s
  else
    let t := s.updPkg (fun p => (p.dropCopies gpa 64).invalMoved (fun _ home => home / 64 == gpa / 64))
    match s.pkg.fwdCopies.find? (fun c => c.2.2 / 64 == gpa / 64) with
    | some c => .owed (.ack []) (64 * c.2.1) 64 t
    | none => .ans (.ack []) t

/-- A packet that asks for an access to this package. -/
def asksHere (op : PktOp) : Bool :=
  match op with
  | .read _ _ | .write _ _ | .atomic _ _ _ _ _ _ | .endpoint _ _ _ _ _ | .parity _ _ _ _ _ _ _ _ | .dadd _ _ _ _ _ _ => true
  | .inval _ | .notice _ _ _ | .reply _ _ _ _ | .shoot _ | .shootDone _ | .message _ => false

/-- A packet performed. While the package changes its NUMA mode a remote access is refused (R297). -/
def State.performPkt (s : State) (pkt : Packet) : Did :=
  if s.pkg.numaPend && pkt.src != s.pkg.num && asksHere pkt.op then .ans .denied s
  else
  match pkt.op with
  | .read pa n =>
    s.arrivesAt pkt pa n 0 (fun a => .read a n) (fun a s =>
      let r := s.readAs a n pkt.key
      .ans (.ack r.1) (r.2.updPkg (fun p => p.noteCopy pkt (p.num * 2 ^ 48 + a))))
  | .write pa data =>
    s.arrivesAt pkt pa data.length 1 (fun a => .write a data) (fun a s => answerAfter (.ack []) a data.length (s.writeAs a data pkt.key))
  | .atomic op w64 u pa x y =>
    let n := if w64 then 8 else 4
    s.arrivesAt pkt pa n 2 (fun a => .atomic op w64 u a x y) (fun a s =>
      let r := s.readAs a n pkt.key
      let new := atomApply op w64 u (BitVec.ofNat 64 (leNat r.1)) x y
      answerAfter (.ack r.1) a n (r.2.writeAs a (leBytes n new.toNat) pkt.key))
  | .endpoint rxq ctx core ep words => s.deliver pkt rxq ctx core ep words
  | .parity ctx j lane off img st crc _ => s.changeParity pkt ctx j lane off img st crc
  | .dadd core tile ctx m off data => s.daddPiece pkt core tile ctx m off data
  | .inval pa => s.invalCame (pkt.src * 2 ^ 48 + pa)
  | .notice m n up => .ans (.ack []) (s.updPkg (fun p => if up then p.regainLink m n else p.loseLink m n))
  | .reply _ _ _ _ => .away s
  | .shoot frame => .ans (.ack []) (s.shootIn pkt.src frame)
  | .shootDone frame => .ans (.ack []) (s.shootDone pkt.src frame)
  | .message _ => .ans (.ack []) s

/-- A packet of this package to itself (R341): performed when it is the oldest of its flow. -/
def State.arriveOwn (s : State) (pkt : Packet) : State :=
  match s.pkg.flow pkt.core pkt.dst pkt.cls with
  | none => s
  | some f =>
    match f.sent.head? with
    | none => s
    | some q =>
      if q.pkt ≠ pkt then s
      else
        let fin := fun (a : FlowAns) (t : State) => (match a with
          | .ack data => t.finishPkt f q (.ok data)
          | .poison => t.finishPkt f q .poison
          | .denied => t.finishPkt f q .denied
          | .expected _ => t)
        match s.performPkt pkt with
        | .ans a t => fin a t
        | .owed a _ _ t => fin a t
        | .away t => t
        | .unable t => t

/-- A packet of another package (R335). -/
def State.arriveFar (s : State) (pkt : Packet) : State :=
  let seq := BitVec.ofNat 16 pkt.seq
  let say := fun (t : State) (e : BitVec 16) => t.updPkg (fun p => p.reply pkt.src pkt.core pkt.cls pkt.seq (.expected e.toNat))
  let cur := s.pkg.flowIn pkt.src pkt.core pkt.cls
  let start : FlowIn := { src := pkt.src, core := pkt.core, cls := pkt.cls, expect := seq, answers := [], owed := [], part := [] }
  let s1 := match cur with
    | some _ => s
    | none => if pkt.restart then s.updPkg (fun p => { p with flowsIn := p.flowsIn ++ [start] }) else s
  match s1.pkg.flowIn pkt.src pkt.core pkt.cls with
  | none => say s 0#16
  | some f =>
    let behind := (f.expect - seq).toNat
    if 0 < behind ∧ behind ≤ 32768 then
      (match f.answers.find? (fun a => a.1 == seq) with
       | some (_, a) => s1.updPkg (fun p => p.reply pkt.src pkt.core pkt.cls pkt.seq a)
       | none => s1)
    else if behind ≠ 0 ∧ !pkt.restart then say s1 f.expect
    else
      let on := fun (t : State) => t.updPkg (fun p => p.updFlowIn pkt.src pkt.core pkt.cls (fun g => { g with expect := seq + 1#16 }))
      match s1.performPkt pkt with
      | .ans a t => (on t).updPkg (fun p => p.answerPkt pkt.src pkt.core pkt.cls seq a)
      | .owed a pa n t => (on t).updPkg (fun p => p.updFlowIn pkt.src pkt.core pkt.cls (fun g =>
          { g with owed := g.owed ++ [{ seq := seq, ans := a, pa := pa, n := n }] }))
      | .away t => on t
      | .unable t => say t f.expect

def execPacketArrival (pkt : Packet) (s : State) : Out :=
  .next (
    if pkt.dst ≠ s.pkg.num ∨ 992 < pkt.src ∨ 65536 ≤ pkt.seq then s
    else
      (match pkt.op with
       | .reply core cls seq ans => s.ackCame core pkt.src cls seq ans
       | _ => if pkt.src = s.pkg.num then s.arriveOwn pkt else s.arriveFar pkt).settleRings)

-- ## Routers and copies

/-- A packet of this package leaves on the path of its flowlet, while that is usable; a flowlet that found none has its path chosen now
(R344): with none usable the packet is kept. -/
def State.sendOut (s : State) (pkt : Packet) : State :=
  match s.pkg.flows.find? (fun f => f.sent.any (fun q => q.pkt == pkt)) with
  | none => s
  | some f =>
    let g := if f.path.isNone then s.pkg.newFlowlet f else f
    match g.path, g.sent.find? (fun q => q.pkt.seq == pkt.seq) with
    | some path, some q =>
      if (s.pkg.route pkt.dst).takes path then s.updPkg (fun p => (p.setFlow g).forward q.pkt) else s
    | _, _ => s

/-- A packet forwarded (R333). -/
def execPacketForward (pkt : Packet) (s : State) : Out :=
  .next (
    if pkt.dst = s.pkg.num then s
    else if pkt.src = s.pkg.num then s.sendOut pkt
    else s.updPkg (fun p => p.forward pkt))

/-- An invalidation of a line of another home reaches the remote cache; one that crosses a read of the line waits for it (R177). -/
def execInvalidation (home line : Nat) (s : State) : Out :=
  .next (
    let gpa := home * 2 ^ 48 + 64 * line
    if s.pkg.readOut gpa then s
    else s.updPkg (fun p => (p.dropCopies gpa 64).invalMoved (fun _ home => home / 64 == gpa / 64)))

end Sys2Proof.Machine
end

