-- ==== Sys2Proof/Machine/Regs.lean ====
section
/-! DEFINITION. Taproot's management space as its firmware writes and reads it: the lock block (spec/01_package.md R20),
profcap (spec/11_kernel.md R243), the HTS registers (spec/12_queue.md R251, R260), parkctl (spec/13_group.md R278), hrbase
and ctxstat (spec/14_context.md R283, R284), ftbase (spec/15_page.md R312), ports, routes, scopes, receive queues and
endpoints (spec/16_link.md R330 to R332, R340, R341, R343), the shard records (spec/18_whorl.md R387). -/

namespace Sys2Proof.Machine

-- ## Where an address lies

/-- The index and offset of an address in a table of n entries of a size. -/
def inTable (base size n addr : Nat) : Option (Nat × Nat) :=
  if base ≤ addr ∧ addr < base + size * n then some ((addr - base) / size, (addr - base) % size) else none

/-- The registers of the management space. -/
inductive MReg where
  | lock (off : Nat)
  | profcap
  | c0res (n : Nat)
  | htsage | ftbase | hrbase
  | port (p off : Nat)
  | fabctl | fabmeas
  | dlstat (n : Nat)
  | route (d off : Nat)
  | scope (i off : Nat)
  | rxq (q off : Nat)
  | queue (slot q : Nat)
  | parkctl (slot : Nat)
  | ctxstat (slot : Nat)
  | endpoint (slot n : Nat)
  | shard (slot off : Nat)
deriving DecidableEq, Repr

/-- The register at an address: none where the space holds none. -/
def mreg (addr : Nat) : Option MReg :=
  if addr % 8 ≠ 0 then none
  else if addr = 0x0F001000 then some .profcap
  else if addr = 0x0F002040 then some .htsage
  else if addr = 0x0F003000 then some .ftbase
  else if addr = 0x0F004000 then some .hrbase
  else if addr = 0x0F102000 then some .fabctl
  else if addr = 0x0F102008 then some .fabmeas
  else
    let pick := [(inTable 0x0F000000 0x280 1 addr).map (fun x => MReg.lock x.2),
      (inTable 0x0F002000 8 8 addr).map (fun x => MReg.c0res x.1),
      (inTable 0x0F100000 0x100 32 addr).map (fun x => MReg.port x.1 x.2),
      (inTable 0x0F103000 8 8 addr).map (fun x => MReg.dlstat x.1),
      (inTable 0x0F110000 0x20 993 addr).map (fun x => MReg.route x.1 x.2),
      (inTable 0x0F120000 0x20 256 addr).map (fun x => MReg.scope x.1 x.2),
      (inTable 0x0F130000 0x20 256 addr).map (fun x => MReg.rxq x.1 x.2),
      (inTable 0x0F900000 0x10 (16 * 1024) addr).bind (fun x => if x.2 = 0 then some (MReg.endpoint (x.1 / 16) (x.1 % 16)) else none),
      (inTable 0x0F980000 0x80 1024 addr).map (fun x => MReg.shard x.1 x.2),
      (inTable 0x0F400000 0x1000 1024 addr).bind (fun x =>
        if x.2 < 0x400 ∧ x.2 % 0x40 = 0 then some (MReg.queue x.1 (x.2 / 0x40))
        else if x.2 = 0x400 then some (MReg.parkctl x.1) else if x.2 = 0x800 then some (MReg.ctxstat x.1) else none)]
    pick.findSome? id

-- ## Writes

def State.updLock (s : State) (f : LockBlock → LockBlock) : State :=
  if s.pkg.lock.lock then s else s.updPkg (fun p => { p with lock := f p.lock })

/-- A field of a word kept under a mask. -/
def keepBits (v : W64) (mask : Nat) : W64 := v &&& BitVec.ofNat 64 mask

/-- The lock block, while it is open (R20). -/
def State.writeLock (s : State) (off : Nat) (v : W64) : State :=
  if off = 0 then s.setLock v
  else if off = 8 then s.updLock (fun l => { l with ceil := v.truncate 16 })
  else if off = 0x10 then s.updLock (fun l => { l with hbase := keepBits v 0xFFFFFFFFFFFFF000 })
  else if off = 0x18 then s.updLock (fun l => { l with hlim := keepBits v 0xFFFFFFFFFFFFF000 })
  else if 0x100 ≤ off ∧ off < 0x200 then s.updLock (fun l => { l with egr := l.egr.set ((off - 0x100) / 8) (v.truncate 16) })
  else if 0x200 ≤ off then
    s.updLock (fun l => { l with dst := l.dst.set ((off - 0x200) / 8) (if off = 0x278 then keepBits v 0x1FFFFFFFF else v) })
  else s

/-- pctl and pperm (R330). -/
def State.writePort (s : State) (p off : Nat) (v : W64) : State :=
  if off = 0 then
    let s1 := s.updPort p (fun t => { t with errthr := v.extractLsb' 8 8 })
    let s2 := if v.getLsbD 1 then s1.portRetire p else s1
    if v.getLsbD 0 then s2.portOn p else s2.portOff p
  else if off = 0x10 then s.putPerm p v
  else s

/-- A routing entry (R332): firmware's own bits are also what a link that is back may set again (R344). -/
def Route.write (r : Route) (off : Nat) (v : W64) : Route :=
  if off = 0 then
    { r with altok := v.extractLsb' 40 8, minok := v.getLsbD 39, minport := bits v.toNat 36 32, via := bits v.toNat 9 0
             fwAlt := v.extractLsb' 40 8, fwMin := v.getLsbD 39 }
  else if off < 0x18 then
    let k := if off = 8 then 0 else 4
    { r with alts := r.alts.take k ++ ((List.range 4).map (fun i => v.extractLsb' (16 * i) 16 &&& 0xFFDF#16)) ++ r.alts.drop (k + 4) }
  else r

/-- A scope entry after reset (R340). -/
def Scope.reset : Scope := { v := false, base := 0, lim := 0, perm := 0#3, srclo := 0, srchi := 0 }

def Scope.write (c : Scope) (off : Nat) (v : W64) : Scope :=
  if off = 0 then { c with v := v.getLsbD 0, base := bits v.toNat 47 21 }
  else if off = 8 then { c with lim := bits v.toNat 47 21, perm := v.truncate 3 }
  else if off = 16 then { c with srchi := bits v.toNat 25 16, srclo := bits v.toNat 9 0 }
  else c

/-- A receive queue's record (R343): prod counts from the moment v is set. -/
def Rxq.write (e : Option Rxq) (off : Nat) (v : W64) : Rxq :=
  let q := e.getD { rbase := 0#64, cons := 0#64, ev := 0, slot := 0, nslot := 0, v := false, prod := 0 }
  if off = 0 then { q with rbase := v }
  else if off = 8 then { q with cons := v }
  else if off = 16 then
    { q with ev := bits v.toNat 63 48, slot := bits v.toNat 41 32, nslot := bits v.toNat 31 16, v := v.getLsbD 0
             prod := if v.getLsbD 0 && !q.v then 0 else q.prod }
  else q

/-- The words of a shard record (R387). -/
def Shard.word (g : Shard) (off : Nat) : W64 :=
  let m := fun (i : Nat) => g.m.getD i 0
  BitVec.ofNat 64 (
    if off = 0 then m 3 * 2 ^ 48 + m 2 * 2 ^ 32 + m 1 * 2 ^ 16 + m 0
    else if off = 8 then m 7 * 2 ^ 48 + m 6 * 2 ^ 32 + m 5 * 2 ^ 16 + m 4
    else if off = 0x10 then g.gstate * 2 ^ 62 + g.lost.toNat * 2 ^ 48 + g.lane * 2 ^ 32 + g.spare * 2 ^ 16 + m 8
    else if off = 0x18 then g.sbase
    else if off = 0x20 then g.nslot * 2 ^ 32 + g.psize
    else if off = 0x28 then g.swept * 2 ^ 32 else 0)

/-- A word of a shard record written by firmware: its RW fields; gstate becomes PROTECTED with a record that keeps R387, where it was
OFF (DEDUCED; log 115). -/
def Shard.write (g : Shard) (off : Nat) (v : W64) (num : Nat) : Shard :=
  let f := fun (hi lo : Nat) => bits v.toNat hi lo
  let four := [f 9 0, f 25 16, f 41 32, f 57 48]
  let g1 :=
    if off = 0 then { g with m := four ++ g.m.drop 4 }
    else if off = 8 then { g with m := g.m.take 4 ++ four ++ g.m.drop 8 }
    else if off = 0x10 then { g with m := g.m.set 8 (f 9 0), lane := f 35 32, spare := f 25 16 }
    else if off = 0x18 then { g with sbase := v.toNat }
    else if off = 0x20 then { g with nslot := f 63 32, psize := f 31 0 } else g
  if off ≤ 0x20 ∧ g1.gstate = 0 ∧ g1.ok num then { g1 with gstate := 1 } else g1

/-- A launch queue's control register (R251): its weight, its class, then its state. A context that may not use C0 gets C1. How
long its head has been READY counts against the limit of the new class (R259). -/
def State.writeQueue (s : State) (slot q : Nat) (v : W64) : State :=
  let w := bits v.toNat 31 24
  let cls := bits v.toNat 17 16
  let c0 := (s.ctxAt slot).any (·.c0)
  let s1 := s.updQueue slot q (fun k => { k with weight := if w = 0 then k.weight else w, cls := if cls = 0 && !c0 then 1 else cls })
  let s1 := s1.updCtx slot (fun c => { c with launches := c.launches.map (fun l => if l.q = q then { l with aged := false } else l) })
  let st := bits v.toNat 2 0
  if st = 0 then s1.disableQueue slot q else if st = 1 then s1.enableQueue slot q else if st = 2 then s1.pauseQueue slot q else s1

/-- A register written by Taproot firmware; reserved places and read-only fields keep what they hold. -/
def State.regWrite (s : State) (addr : Nat) (v : W64) : State :=
  match mreg addr with
  | none => s
  | some r =>
    match r with
    | .lock off => s.writeLock off v
    | .c0res n => s.updPkg (fun p => { p with c0res := p.c0res.set n (v.truncate 6) })
    | .htsage => s.updPkg (fun p => { p with
        age3 := v.extractLsb' 16 16, age2 := v.truncate 16
        ctxs := p.ctxs.map (fun c => { c with launches := c.launches.map (fun l => { l with aged := false }) }) })
    | .ftbase => if s.pkg.lock.lock then s else s.updPkg (fun p => { p with ftbase := keepBits v 0xFFFFFFFFF000 })
    | .hrbase => s.updPkg (fun p => { p with hrbase := v })
    | .port p off => s.writePort p off v
    | .fabctl => s.updPkg (fun p => { p with fabGap := v.truncate 16 })
    | .route d off => s.updPkg (fun p => { p with routes := tset p.routes d ((p.route d).write off v) })
    | .scope i off => s.updPkg (fun p => { p with scopes := tset p.scopes i (((tget p.scopes i).getD Scope.reset).write off v) })
    | .rxq q off => s.updPkg (fun p => { p with rxqs := tset p.rxqs q (Rxq.write (tget p.rxqs q) off v) })
    | .queue slot q => s.writeQueue slot q v
    | .parkctl slot =>
      match s.ctxAt slot with
      | some _ => s.updCtx slot (fun c => { c with parkEn := v.getLsbD 32, parkThr := bits v.toNat 31 0 })
      | none => s.updPkg (fun p => { p with parks := tset p.parks slot (keepBits v 0x1FFFFFFFF) })
    | .endpoint slot n => s.updPkg (fun p => { p with epTab := tset p.epTab (16 * slot + n) (keepBits v 0x3FF0000FF01) })
    | .shard slot off => s.putShard slot ((s.shardRec slot).write off v s.pkg.num)
    | .profcap | .fabmeas | .dlstat _ | .ctxstat _ => s

def execRegisterWrite (addr : Nat) (v : W64) (s : State) : Out := .next (s.regWrite addr v)

-- ## Reads

/-- A register as Taproot firmware reads it. -/
def State.regRead (s : State) (addr : Nat) : W64 :=
  let p := s.pkg
  match mreg addr with
  | none => 0#64
  | some r =>
    match r with
    | .lock off =>
      if off = 0 then BitVec.ofNat 64 (bitNat p.lock.lock 0) else if off = 8 then p.lock.ceil.zeroExtend 64
      else if off = 0x10 then p.lock.hbase else if off = 0x18 then p.lock.hlim
      else if 0x100 ≤ off ∧ off < 0x200 then (p.lock.egr.getD ((off - 0x100) / 8) 0#16).zeroExtend 64
      else if 0x200 ≤ off then p.lock.dst.getD ((off - 0x200) / 8) 0#64 else 0#64
    | .profcap => 0x1111#64
    | .c0res n => (p.c0res.getD n 0#6).zeroExtend 64
    | .htsage => BitVec.ofNat 64 (p.age3.toNat * 2 ^ 16 + p.age2.toNat)
    | .ftbase => p.ftbase
    | .hrbase => p.hrbase
    | .port n off =>
      let t := p.port n
      BitVec.ofNat 64 (
        if off = 0 then t.errthr.toNat * 2 ^ 8 + bitNat t.en 0
        else if off = 8 then t.peer.toNat * 2 ^ 32 + t.lanes.toNat * 2 ^ 24 + t.quar.toNat * 2 ^ 16 + t.reason * 2 ^ 4 + t.state
        else if off = 0x10 then t.rmgmt * 2 ^ 32 + t.rbulk * 2 ^ 24 + t.rreply * 2 ^ 16 + t.rreq * 2 ^ 8 + t.rc0
        else if off = 0x18 then t.replays.toNat * 2 ^ 32 + t.fec.toNat else 0)
    | .fabctl => p.fabGap.zeroExtend 64
    | .fabmeas => p.skew.zeroExtend 64
    | .dlstat n =>
      let d := p.dies.getD n Die.start
      BitVec.ofNat 64 (d.live.toNat * 2 ^ 16 + d.quar % 16 * 2 ^ 8 + d.reason * 2 ^ 4 + d.state)
    | .route d off =>
      let r := p.route d
      let alts := fun (k : Nat) => (List.range 4).foldl (fun n i => n + (r.alt (k + i)).toNat * 2 ^ (16 * i)) 0
      BitVec.ofNat 64 (
        if off = 0 then r.altok.toNat * 2 ^ 40 + bitNat r.minok 39 + r.minport * 2 ^ 32 + r.via
        else if off = 8 then alts 0 else if off = 16 then alts 4 else 0)
    | .scope i off =>
      (match tget p.scopes i with
       | none => 0#64
       | some c => BitVec.ofNat 64 (
           if off = 0 then c.base * 2 ^ 21 + bitNat c.v 0 else if off = 8 then c.lim * 2 ^ 21 + c.perm.toNat
           else if off = 16 then c.srchi * 2 ^ 16 + c.srclo else 0))
    | .rxq n off =>
      (match tget p.rxqs n with
       | none => 0#64
       | some q =>
         if off = 0 then q.rbase else if off = 8 then q.cons
         else BitVec.ofNat 64 (if off = 16 then q.ev * 2 ^ 48 + q.slot * 2 ^ 32 + q.nslot * 2 ^ 16 + bitNat q.v 0 else q.prod))
    | .queue slot n =>
      (match (s.ctxAt slot).bind (fun c => (c.queues[n]?).map (fun k => (c, k))) with
       | none => 0x1030000#64  -- weight 1, class C3
       | some (c, k) => BitVec.ofNat 64 ((c.waiting n).length % 2 ^ 16 * 2 ^ 32 + k.weight * 2 ^ 24 + k.cls * 2 ^ 16 + k.state))
    | .parkctl slot => s.parkWord slot
    | .ctxstat slot => (s.ctxAt slot).elim 0#64 (fun c => BitVec.ofNat 64 (c.bankkey.toNat * 2 ^ 32 + c.num * 2 ^ 16 + c.state))
    | .endpoint slot n => (tget s.pkg.epTab (16 * slot + n)).getD 0#64
    | .shard slot off => (s.shardRec slot).word off

end Sys2Proof.Machine
end

