-- ==== Sys2Proof/Machine/Perform.lean ====
section
/-! DEFINITION. The operations of a strand's access pipeline performed, one at a time, each when nothing before it holds it
back (spec/06_access.md R144 to R148, R156, R171, spec/07_consistency.md R176, R180 to R183, spec/08_tile.md R209,
spec/09_event.md R217, spec/12_queue.md R258, spec/15_page.md R304, R323, R324, spec/17_request.md R359). -/

namespace Sys2Proof.Machine

-- ## What an operation waits for beside the pipeline

/-- The accesses of a path into the storages of a mask that count as started before operation id are complete (R171, R182); those of the ls, gat and grf
paths are in the pipeline. -/
def State.pathBefore (s : State) (p : Path) (m : Stor) (id : Nat) : Bool :=
  match p with
  | .cpy => copiesBefore s m id
  | .mat => !m.sp || s.strand.matIds.all (fun m => decide (id < m.id))
  | .col => colBefore s m id
  | .ls | .gat | .grf => true

/-- Every access of the iterations that a unit counts as completed has been performed, on whichever path it goes (R181, R269): of the
pipeline, of copies and chains, of the matrix unit and its drain-adds, of grafts and reshards. -/
def State.iterationsDone (s : State) (slot id stage : Nat) : Bool :=
  (s.unitStrands slot id stage).all (fun t =>
    let counted := fun (n : Nat) => decide (n < t.doneTo)
    (t.acc ++ t.sidelog).all (fun a => !(counted a.id) || !((roleOf a.op).ls || (roleOf a.op).gat || (roleOf a.op).engine)) &&
    t.slots.all (fun c => c.all (fun c => !(counted c.ord) || c.open_ == 0)) &&
    t.chans.all (fun c => !(counted c.id) || (!c.walking && c.recs.isEmpty)) &&
    t.matIds.all (fun m => !(counted m.id)) &&
    s.pkg.dadds.all (fun d => d.h != t.h || !(counted d.id)) &&
    s.pkg.grafts.all (fun g => g.h != t.h || !(counted g.id)) &&
    s.pkg.reshards.all (fun r => r.h != t.h || !(counted r.id)))

/-- No access that used a translation of a context for a range, within a scope, is still to be performed (R310, R311): those of the
strand itself that were issued before are waited for in the pipeline. -/
def State.invDone (s : State) (va len : Nat) (scope : Fin 3) : Bool :=
  let me := s.strand
  let within := fun (t : Strand) => t.slot == me.slot && (t.h == me.h || scope == 2 || (scope == 1 && dieOf t.core == dieOf s.core.num))
  let here := fun (h : Nat) => (s.findStrand h).any within
  s.strands.all (fun t => !(within t) || t.acc.all (fun a => a.pages.all (fun e => !(overlapsPage e me.slot va (min (va + len) Config.vaEnd))))) &&
  (if scope = 2 then s.quiet me.slot
   else s.pkg.flows.all (fun f => f.sent.all (fun q => match q.asker with
     | .acc h _ | .ep h _ | .chunk h _ _ => !(here h)
     | .mdadd _ | .eng _ | .fwd _ _ _ _ | .moved _ | .none => true)))

/-- TLBINV (R311): the entries are dropped, and it completes when the accesses that used them have been performed. -/
def invalidateTlb (va len : Nat) (scope : Fin 3) (s : State) : Perf :=
  let t := doTlbinv va len scope s
  if t.invDone va len scope then .done t else .stay t

/-- An operation reads or writes a page that is being rebuilt: it waits (R391). -/
def State.onRebuilt (s : State) (op : AccOp) : Bool := (opRanges op).any (fun r => s.beingRebuilt s.strand.slot r.1)

/-- What an operation waits for beside the earlier operations of the pipeline. -/
def State.mayStart (s : State) (a : Acc) : Bool :=
  !(s.onRebuilt a.op) &&
  match a.op with
  | .fence kind scope stor => kind == 1 || scope != 3 || (s.pkg.allSeen && (kind != 0 || !stor.rem || !s.pkg.anyReadOut))
  | .pfence f _ stor scope => s.pathBefore f stor a.id && (scope != 3 || s.pkg.allSeen)
  | .task _ | .launch _ _ _ | .engine _ _ => copiesBefore s ⟨true, true, true⟩ a.id
  | .gcnt tgt 0 _ => s.iterationsDone s.strand.slot (bits tgt.toNat 31 0) (bits tgt.toNat 34 32)
  | _ => true

-- ## Operations

/-- FENCE.full at .sys over .rem drops the copies that loads after it may not read (R180). -/
def doFence (kind : Fin 3) (scope : Fin 4) (stor : Stor) (s : State) : State :=
  if kind = 0 ∧ scope = 3 ∧ stor.rem then s.updPkg (fun p => { p with rcache := [] }) else s

/-- Every update-only line is merged at its home (R156). -/
def State.mergeAll (s : State) : State :=
  s.allCores.foldl (fun t c => c.upd.foldl (fun u l => u.mergeAt c.num l.line) t) s

/-- A fence at system scope makes the writes before it globally visible (R177, R180): updates that a core keeps are among them. -/
def makesVisible : AccOp → Bool
  | .fence kind scope _ => kind != 1 && scope == 3
  | .pfence _ _ _ scope => scope == 3
  | _ => false

/-- AFENCE: the core's update-only lines are merged at their homes, and no older copy of a remote line stays (R183). Accesses that
are still out are ordered by the bytes that they share with later ones. -/
def doAfence (id : Nat) (s : State) : State :=
  let s1 := (s.core.upd.foldl (fun t l => t.mergeAt t.core.num l.line) s).updPkg (fun p => { p with rcache := [] })
  let out := s.strand.acc.filter (fun e => decide (e.id < id) && (roleOf e.op).ls)
  let live := s.strand.afences.filter (fun k => s.strand.acc.any (fun e => decide (e.id < k)))
  { s1 with strand := { s1.strand with afences := if out.isEmpty then live else live ++ [id] } }

/-- A LAUNCH hands its record to Taproot (R257, R258). -/
def doLaunch (addr : Nat) (q : Fin 16) (res : Nat) (s : State) : State :=
  s.updPkg (fun p => { p with
    submits := p.submits ++ [⟨p.submitNo, s.strand.slot, addr, q.val, some (s.strand.h, res), s.core.num, 0, false, false⟩]
    submitNo := p.submitNo + 1 })

/-- An operation at the event table (R217), with what firmware finds when it is woken (R284). -/
def doEvent (op : AccOp) (st : Stream) (s : State) : State :=
  let slot := s.strand.slot
  match op with
  | .evsig n _ => let t := s.signal slot n; t.serveBad t.pkg.fwreqs.length
  | .evclr n => s.clearEvent slot n
  | .evtest n res => s.answer s.strand.h res (s.testEvent slot n)
  | .evwait n => s.waitEvent slot n (.strand s.strand.h st)
  | _ => s

def doEngine (a : Acc) (op : EngOp) (ret : Option (Fin 4 × Nat)) (s : State) : Perf :=
  match op with
  | .graft src dst => doGraft a ret src.toNat dst.toNat s
  | .kvseal page => doSeal a ret page.toNat s
  | .kvcompact rec => doCompact a ret rec.toNat s
  | .whorlOpen rec => doWhorlOpen a ret rec.toNat s
  | .whorlClose rec => doWhorlClose a ret rec.toNat s
  | .whorlRing rec => doWhorlRing a ret rec.toNat s
  | .whorlUnring rec => doWhorlUnring a ret rec.toNat s
  | .reshard rec => doReshard a rec.toNat s
  | .migrAdmit rec => doAdmit a ret rec.toNat s
  | .migrHand rec => doHand a ret rec.toNat s
  | .migrDone rec => doDone a ret rec.toNat s
  | .migrCancel rec => doCancel a ret rec.toNat s
  | .beamix tbl perm => doBeamix a ret tbl.toNat perm.toNat s

/-- A barrier operation in a cycle of its own (R225). -/
def doBar (a : Acc) (s : State) : State :=
  match barOf a.op with
  | some (d, b) => (barApply s.strand.h a s).barComplete s.strand.slot d b
  | none => s

/-- A drain-add that a PFENCE has held starts in a cycle from now on (R182). -/
def fenceOff (s : State) : State :=
  if headFenced s then { s with core := { s.core with feedEnd := max s.core.feedEnd s.cyc } } else s

/-- An operation performed. -/
def doOp (a : Acc) (s : State) : Perf :=
  match a.op with
  | .load q ent t va => doLoad a q ent t va s
  | .loadV q ent _ _ rows cols => doLoadV a q ent rows cols s
  | .store cells => doStore a cells s
  | .atom op w64 u va x y ret => doAtom a op w64 u va x y ret s
  | .epStore n last w => doEpStore n last w s
  | .epLoad q ent n => .done (landLoad q ent (.s (epStatus s.strand s.pkg n)) none s)
  | .gather q ent six base rows cols => doGather a q ent six base rows cols s
  | .mark => .done s
  | .fence kind scope stor => .done (doFence kind scope stor s)
  | .afence => .done (doAfence a.id s)
  | .pfence _ to_ _ _ => .done (if to_ = .col then fenceOff s else s)
  | .flush mem inv va len => .done (doFlush mem inv va len s)
  | .tlbinv va len scope => invalidateTlb va len scope s
  | .evsig _ _ | .evclr _ | .evtest _ _ | .evwait _ => .done (doEvent a.op a.st s)
  | .barinit _ _ _ | .bararr _ _ _ _ | .barexp _ _ _ _ => .done (doBar a s)
  | .task _ => .done s
  | .launch addr q res => .done (doLaunch addr q res s)
  | .cancel tgt level res => let r := s.cancelTarget s.strand.slot level tgt; .done (r.2.answer s.strand.h res r.1)
  | .gcnt tgt level res => .done (s.answer s.strand.h res (s.countTarget s.strand.slot level tgt))
  | .ballot whorl hash res => doBallot whorl hash res s
  | .engine op ret => doEngine a op ret s

-- ## What follows

/-- The physical address of the error that an operation's entry is marked with. -/
def errorOf (op : AccOp) (t : Strand) : Option Nat :=
  (entryOf op).bind (fun (q, ent) => ((t.queue true q).find? (fun e => e.id == ent)).bind (fun e => match e.mark with
    | some (.eccUncorr, v) => some v.toNat
    | _ => Option.none))

/-- Work of a strand has met an uncorrectable error: its request ends (R348). -/
def State.errorEnds (s : State) (h : Nat) : State :=
  match s.findStrand h with
  | some t => if t.request ≠ 0 then s.endRequest t.request else s
  | none => s

/-- The requests of the work that has met uncorrectable errors end. -/
def State.settleErrors (s : State) : State :=
  if s.pkg.errs.isEmpty then s
  else s.pkg.errs.foldl (fun t e => t.errorEnds e.1) (s.updPkg (fun p => { p with errs := [] }))

/-- An operation of the strand in the foreground performed, with what follows from it. -/
def performAcc (a : Acc) (s : State) : State :=
  let h := s.strand.h
  match doOp a s with
  | .stay t => t
  | .done t =>
    let t1 := t.accGone h a.id
    let t2 := match errorOf a.op t1.strand with
      | some pa => t1.endBound h pa
      | none => t1
    (t2.settleErrors.usedUp (.acc h a.id)).settleRings

/-- The k-th operation of the strand in the foreground performed, when it may be. -/
def performAt (k : Nat) (s : State) : State :=
  match s.strand.acc[k]? with
  | none => s
  | some a =>
    if mayLog s k then
      (match toSideLog a none .write s with
       | .done t => t.accGone s.strand.h a.id
       | .stay t => t)
    else if !(mayPerform s k) then s
    else if makesVisible a.op && s.allCores.any (fun c => !c.upd.isEmpty) then s.mergeAll
    else if s.mayStart a then performAcc a s
    else s

-- ## The events

/-- The first byte that a load, a gather or a returning atomic reads. -/
def firstRead (a : Acc) (s : State) : Nat :=
  match a.op with
  | .gather _ _ sid base _ _ =>
    (match s.strand.six.find? (fun x => x.id == sid) with
     | none => base
     | some six => match (sixDraw (s.asker a) six 1 s).1 with
       | .ok (f :: _) => (base + f) % 2 ^ 64
       | _ => six.addr)
  | op => ((opRanges op).map (·.1)).headD 0

/-- A load, a gather or a returning atomic of a strand lands (R144); `err` says that the data read has an uncorrectable
error: what held it is poisoned, or read again from a backing (R26, R322), before the access is made. Of a byte of another package only
the entry is marked. -/
def execLoadEntryLands (h k : Nat) (err : Bool) (s : State) : Out :=
  .next (s.onStrand h (fun s =>
    match s.strand.acc[k]? with
    | none => s
    | some a =>
      match entryOf a.op with
      | none => s
      | some (q, ent) =>
        let va := firstRead a s
        let found := s.errorAt a.pages va
        if !(err && mayPerform s k) then performAt k s
        else if found.1 then performAt k found.2
        else
          let pa := (s.physOf va).getD va
          let v := match a.op with
            | .loadV _ _ _ _ r c => QVal.v r c VReg.zero
            | .gather _ _ _ _ r c => QVal.v r c VReg.zero
            | _ => .s 0#64
          ((landLoad q ent v (some (.eccUncorr, BitVec.ofNat 64 pa)) s).accGone h a.id).endBound h pa))

/-- A side-log entry replays when its page is mapped (R145): its faults have been answered, and the entries before it are
performed. A strand that has left its core writes scratchpad bytes into its image. -/
def replay (s : State) : State :=
  let t := s.strand
  match t.sidelog.head? with
  | none => s
  | some a =>
    let asked := s.pkg.faults.any (fun f => f.agent == .sidelog t.h)
    let faulted := (s.ctxAt t.slot).any (fun c => c.state == 3 || c.state == 4)
    let ahead := t.acc.any (fun e => e.sent && decide (e.id < a.id) && mustPrecede s e a)
    if asked || faulted || ahead then s
    else
      let k : AKind := match a.op with | .atom _ _ _ _ _ _ _ => .atomic | _ => .write
      let f := s.writeFault k ((opRanges a.op).map (·.1))
      match f.1 with
      | some (va, r) => f.2.askFirmware t.slot (.sidelog t.h) va k r
      | none =>
        let on := f.2.core.runs == t.h
        let pad := f.2.core.scratch
        let bad := f.2.core.padBad
        let u := f.2.strand
        let s1 := { f.2 with
          strand := { u with sidelog := u.sidelog.drop 1, acc := { a with sent := true } :: u.acc }
          core := { f.2.core with scratch := if on then pad else t.spimage, padBad := if on then bad else t.spBad } }
        let s2 := performAcc a s1
        let s3 := if on then s2 else
          { s2 with strand := { s2.strand with spimage := s2.core.scratch, spBad := s2.core.padBad }
                    core := { s2.core with scratch := pad, padBad := bad } }
        let v := s3.strand
        let active := (s3.ctxAt v.slot).any (fun c => c.state == 1)
        if v.logFull && v.phase == .suspended && !v.logIsFull && !v.a.trapped && !v.x.trapped && active then resumeStrand s3 else s3

def execSideLogReplay (h : Nat) (s : State) : Out := .next (s.onStrand h replay)

/-- An update-only line of a core is evicted (R156). -/
def execUpdateLineMerge (core line : Nat) (s : State) : Out := .next (s.mergeAt core line)

/-- A signal, a clear, a wait or a test of a strand reaches the event table (R217). -/
def execEventTableOperation (h k : Nat) (s : State) : Out :=
  .next (s.onStrand h (fun s =>
    match s.strand.acc[k]? with
    | none => s
    | some a => if (roleOf a.op).object = 1 then performAt k s else s))

/-- A granule of tier 2 whose read failed without loss of its data is as it was (R324), and so is a granule of tier 1 that was to be
read again from it. -/
def State.unfail (s : State) (was : Pkg) (pa : Nat) : State :=
  let bit : BitVec 512 := 1#512 <<< granuleOf pa
  let back := fun (i : Nat) (f : Frame) =>
    if f.bv ∧ frameIx f.backing = frameIx pa ∧ !((tget was.frames i).any (fun g => g.poison &&& bit != 0#512)) then { f with poison := f.poison &&& ~~~bit } else f
  let s1 := s.updPkg (fun p => { p with frames := p.frames.map (fun (i, f) => (i, back i f)) })
  match was.frame pa, s1.pkg.frame pa with
  | some f, some g => s1.updPkg (fun p => p.setFrame (frameIx pa) { g with poison := f.poison })
  | none, some _ => s1.updPkg (fun p => { p with frames := tdel p.frames (frameIx pa) })
  | _, none => s1

/-- A tier-2 read that an access needs fails (R324): the access meets an uncorrectable error; the granule is poisoned when its
data is lost. -/
def execTier2ReadTimeout (h k pa : Nat) (lost : Bool) (s : State) : Out :=
  .next (
    if !(inTier2 pa) then s
    else
      let s1 := (s.setPoison pa).onStrand h (fun s => performAt k s)
      if lost then s1 else s1.unfail s.pkg pa)

end Sys2Proof.Machine
end

