-- ==== Sys2Proof/Machine/Dispatch.lean ====
section
/-! DEFINITION. One arm per row of spec/opcode_table.json, each one direct call of its meaning. -/

namespace Sys2Proof.Machine

def exec (i : Instr) (s : State) : Host.Outcome State Fault Refusal :=
  match i with
  | .nop => Sys2Proof.Machine.execNop s
  | .go => Sys2Proof.Machine.execGo s
  | .br off => Sys2Proof.Machine.execBr off s
  | .call d off => Sys2Proof.Machine.execCall d off s
  | .jmp d s1 => Sys2Proof.Machine.execJmp d s1 s
  | .loop c body => Sys2Proof.Machine.execLoop c body s
  | .breakl => Sys2Proof.Machine.execBreakl s
  | .lidx d n rem => Sys2Proof.Machine.execLidx d n rem s
  | .trap imm => Sys2Proof.Machine.execTrap imm s
  | .end_ => Sys2Proof.Machine.execEnd s
  | .yield => Sys2Proof.Machine.execYield s
  | .rds d n => Sys2Proof.Machine.execRds d n s
  | .wrs n s1 => Sys2Proof.Machine.execWrs n s1 s
  | .cpoint => Sys2Proof.Machine.execCpoint s
  | .add d s1 s2 => Sys2Proof.Machine.execAdd d s1 s2 s
  | .sub d s1 s2 => Sys2Proof.Machine.execSub d s1 s2 s
  | .addi d s1 imm => Sys2Proof.Machine.execAddi d s1 imm s
  | .mul d s1 s2 => Sys2Proof.Machine.execMul d s1 s2 s
  | .mulh u d s1 s2 => Sys2Proof.Machine.execMulh u d s1 s2 s
  | .div u d s1 s2 => Sys2Proof.Machine.execDiv u d s1 s2 s
  | .rem u d s1 s2 => Sys2Proof.Machine.execRem u d s1 s2 s
  | .and d s1 s2 => Sys2Proof.Machine.execAnd d s1 s2 s
  | .or d s1 s2 => Sys2Proof.Machine.execOr d s1 s2 s
  | .xor d s1 s2 => Sys2Proof.Machine.execXor d s1 s2 s
  | .andi d s1 imm => Sys2Proof.Machine.execAndi d s1 imm s
  | .ori d s1 imm => Sys2Proof.Machine.execOri d s1 imm s
  | .xori d s1 imm => Sys2Proof.Machine.execXori d s1 imm s
  | .shl d s1 s2 => Sys2Proof.Machine.execShl d s1 s2 s
  | .shr d s1 s2 => Sys2Proof.Machine.execShr d s1 s2 s
  | .sha d s1 s2 => Sys2Proof.Machine.execSha d s1 s2 s
  | .limm d imm => Sys2Proof.Machine.execLimm d imm s
  | .lhi d s1 value sel => Sys2Proof.Machine.execLhi d s1 value sel s
  | .min u d s1 s2 => Sys2Proof.Machine.execMin u d s1 s2 s
  | .max u d s1 s2 => Sys2Proof.Machine.execMax u d s1 s2 s
  | .clz d s1 => Sys2Proof.Machine.execClz d s1 s
  | .popc d s1 => Sys2Proof.Machine.execPopc d s1 s
  | .sel d s1 s2 p => Sys2Proof.Machine.execSel d s1 s2 p s
  | .mad d s1 s2 s3 => Sys2Proof.Machine.execMad d s1 s2 s3 s
  | .cmp c p s1 s2 => Sys2Proof.Machine.execCmp c p s1 s2 s
  | .cmpi c p s1 imm => Sys2Proof.Machine.execCmpi c p s1 imm s
  | .mov d s1 => Sys2Proof.Machine.execMov d s1 s
  | .bfx sx d s1 pos w1 => Sys2Proof.Machine.execBfx sx d s1 pos w1 s
  | .bfi d s1 s2 pos w1 => Sys2Proof.Machine.execBfi d s1 s2 pos w1 s
  | .pand pd ps1 ps2 => Sys2Proof.Machine.execPand pd ps1 ps2 s
  | .por pd ps1 ps2 => Sys2Proof.Machine.execPor pd ps1 ps2 s
  | .pxor pd ps1 ps2 => Sys2Proof.Machine.execPxor pd ps1 ps2 s
  | .pnot pd ps1 => Sys2Proof.Machine.execPnot pd ps1 s
  | .pset pd s1 imm => Sys2Proof.Machine.execPset pd s1 imm s
  | .pany pd ps1 => Sys2Proof.Machine.execPany pd ps1 s
  | .pcnt d ps1 => Sys2Proof.Machine.execPcnt d ps1 s
  | .pfirst d ps1 => Sys2Proof.Machine.execPfirst d ps1 s
  | .vadd d s1 s2 m => Sys2Proof.Machine.execVadd d s1 s2 m s
  | .vsub d s1 s2 m => Sys2Proof.Machine.execVsub d s1 s2 m s
  | .vmul d s1 s2 m => Sys2Proof.Machine.execVmul d s1 s2 m s
  | .vfma d s1 s2 s3 m => Sys2Proof.Machine.execVfma d s1 s2 s3 m s
  | .vfms d s1 s2 s3 m => Sys2Proof.Machine.execVfms d s1 s2 s3 m s
  | .vmin d s1 s2 t => Sys2Proof.Machine.execVmin d s1 s2 t s
  | .vmax d s1 s2 t => Sys2Proof.Machine.execVmax d s1 s2 t s
  | .vabs d s1 t sat => Sys2Proof.Machine.execVabs d s1 t sat s
  | .vneg d s1 t sat => Sys2Proof.Machine.execVneg d s1 t sat s
  | .vcmp pd s1 s2 c t => Sys2Proof.Machine.execVcmp pd s1 s2 c t s
  | .vsel d s1 s2 p => Sys2Proof.Machine.execVsel d s1 s2 p s
  | .vand d s1 s2 => Sys2Proof.Machine.execVand d s1 s2 s
  | .vor d s1 s2 => Sys2Proof.Machine.execVor d s1 s2 s
  | .vxor d s1 s2 => Sys2Proof.Machine.execVxor d s1 s2 s
  | .vshl d s1 s2 t sat => Sys2Proof.Machine.execVshl d s1 s2 t sat s
  | .vshr u d s1 s2 t rnd => Sys2Proof.Machine.execVshr u d s1 s2 t rnd s
  | .vcvt d s1 src part m => Sys2Proof.Machine.execVcvt d s1 src part m s
  | .vbcast d s1 t => Sys2Proof.Machine.execVbcast d s1 t s
  | .viota d s1 s2 t sat => Sys2Proof.Machine.execViota d s1 s2 t sat s
  | .vmov d s1 => Sys2Proof.Machine.execVmov d s1 s
  | .vshape rows cols => Sys2Proof.Machine.execVshape rows cols s
  | .vtrn d s1 => Sys2Proof.Machine.execVtrn d s1 s
  | .vrot row d s1 s2 => Sys2Proof.Machine.execVrot row d s1 s2 s
  | .vred op d s1 m => Sys2Proof.Machine.execVred op d s1 m s
  | .vscan op d s1 m => Sys2Proof.Machine.execVscan op d s1 m s
  | .vdot d s1 s2 s3 m => Sys2Proof.Machine.execVdot d s1 s2 s3 m s
  | .vperm d s1 s2 => Sys2Proof.Machine.execVperm d s1 s2 s
  | .vins d s1 s2 s3 => Sys2Proof.Machine.execVins d s1 s2 s3 s
  | .vext d s1 s2 => Sys2Proof.Machine.execVext d s1 s2 s
  | .vclass d s1 t => Sys2Proof.Machine.execVclass d s1 t s
  | .vscale d s1 s2 m => Sys2Proof.Machine.execVscale d s1 s2 m s
  | .vtf d s1 conv part rnd => Sys2Proof.Machine.execVtf d s1 conv part rnd s
  | .vtcmp pd s1 s2 c t => Sys2Proof.Machine.execVtcmp pd s1 s2 c t s
  | .vfb4d d s1 part m => Sys2Proof.Machine.execVfb4d d s1 part m s
  | .vfb4e d s1 part t rnd => Sys2Proof.Machine.execVfb4e d s1 part t rnd s
  | .vtrit d s1 part => Sys2Proof.Machine.execVtrit d s1 part s
  | .vtdot d s1 s2 s3 sat => Sys2Proof.Machine.execVtdot d s1 s2 s3 sat s
  | .fexp d s1 t sat => Sys2Proof.Machine.execFexp d s1 t sat s
  | .flog d s1 t sat => Sys2Proof.Machine.execFlog d s1 t sat s
  | .frcp d s1 t sat => Sys2Proof.Machine.execFrcp d s1 t sat s
  | .frsq d s1 t sat => Sys2Proof.Machine.execFrsq d s1 t sat s
  | .fsqrt d s1 m => Sys2Proof.Machine.execFsqrt d s1 m s
  | .fdiv d s1 s2 m => Sys2Proof.Machine.execFdiv d s1 s2 m s
  | .ftanh d s1 t sat => Sys2Proof.Machine.execFtanh d s1 t sat s
  | .fsig d s1 t sat => Sys2Proof.Machine.execFsig d s1 t sat s
  | .fexpq d s1 s2 part => Sys2Proof.Machine.execFexpq d s1 s2 part s
  | .vtopk idx d s1 k t => Sys2Proof.Machine.execVtopk idx d s1 k t s
  | .vtopkm pd s1 k t => Sys2Proof.Machine.execVtopkm pd s1 k t s
  | .vargmx d s1 t => Sys2Proof.Machine.execVargmx d s1 t s
  | .topks s1 => Sys2Proof.Machine.execTopks s1 s
  | .topkd d sel => Sys2Proof.Machine.execTopkd d sel s
  | .ld t d base off => Sys2Proof.Machine.execLd t d base off s
  | .ldv d base stride => Sys2Proof.Machine.execLdv d base stride s
  | .st t data base off => Sys2Proof.Machine.execSt t data base off s
  | .stv base stride data => Sys2Proof.Machine.execStv base stride data s
  | .lda t scope d base off => Sys2Proof.Machine.execLda t scope d base off s
  | .ldg d base => Sys2Proof.Machine.execLdg d base s
  | .pref base off => Sys2Proof.Machine.execPref base off s
  | .mark => Sys2Proof.Machine.execMark s
  | .aadd w d addr s2 => Sys2Proof.Machine.execAadd w d addr s2 s
  | .amin u w d addr s2 => Sys2Proof.Machine.execAmin u w d addr s2 s
  | .amax u w d addr s2 => Sys2Proof.Machine.execAmax u w d addr s2 s
  | .aor w d addr s2 => Sys2Proof.Machine.execAor w d addr s2 s
  | .axch w d addr s2 => Sys2Proof.Machine.execAxch w d addr s2 s
  | .acas w d addr s2 s3 => Sys2Proof.Machine.execAcas w d addr s2 s3 s
  | .afadd d addr s2 => Sys2Proof.Machine.execAfadd d addr s2 s
  | .sixcfg meta_ cfg => Sys2Proof.Machine.execSixcfg meta_ cfg s
  | .fence kind scope stor => Sys2Proof.Machine.execFence kind scope stor s
  | .afence => Sys2Proof.Machine.execAfence s
  | .pfence from_ to_ stor scope => Sys2Proof.Machine.execPfence from_ to_ stor scope s
  | .drain path stor => Sys2Proof.Machine.execDrain path stor s
  | .cflush mem base len => Sys2Proof.Machine.execCflush mem base len s
  | .cinv base len => Sys2Proof.Machine.execCinv base len s
  | .tlbinv base len scope => Sys2Proof.Machine.execTlbinv base len scope s
  | .ringcfg k img => Sys2Proof.Machine.execRingcfg k img s
  | .cpy d src dst len => Sys2Proof.Machine.execCpy d src dst len s
  | .cpyRing d src len k => Sys2Proof.Machine.execCpyRing d src len k s
  | .chain ch head => Sys2Proof.Machine.execChain ch head s
  | .cwait d slot mlo mhi => Sys2Proof.Machine.execCwait d slot mlo mhi s
  | .ctest d slot chunk => Sys2Proof.Machine.execCtest d slot chunk s
  | .rstat d k sel => Sys2Proof.Machine.execRstat d k sel s
  | .rpop k n => Sys2Proof.Machine.execRpop k n s
  | .bfmt fr fmt => Sys2Proof.Machine.execBfmt fr fmt s
  | .mma acc ka kb keepA keepB m => Sys2Proof.Machine.execMma acc ka kb keepA keepB m s
  | .mmaz acc ka kb keepA keepB m => Sys2Proof.Machine.execMmaz acc ka kb keepA keepB m s
  | .mzero acc => Sys2Proof.Machine.execMzero acc s
  | .mldacc acc k keep m => Sys2Proof.Machine.execMldacc acc k keep m s
  | .mstacc k acc free m => Sys2Proof.Machine.execMstacc k acc free m s
  | .mdadd acc peer free m => Sys2Proof.Machine.execMdadd acc peer free m s
  | .mwait d sel => Sys2Proof.Machine.execMwait d sel s
  | .task rec slot => Sys2Proof.Machine.execTask rec slot s
  | .mprog d n stop => Sys2Proof.Machine.execMprog d n stop s
  | .evsig name scope => Sys2Proof.Machine.execEvsig name scope s
  | .evwait name scope => Sys2Proof.Machine.execEvwait name scope s
  | .evtest d name => Sys2Proof.Machine.execEvtest d name s
  | .evclr name => Sys2Proof.Machine.execEvclr name s
  | .barinit bar cnt => Sys2Proof.Machine.execBarinit bar cnt s
  | .bararr d bar scope => Sys2Proof.Machine.execBararr d bar scope s
  | .barexp bar slot => Sys2Proof.Machine.execBarexp bar slot s
  | .barwait d bar ph scope => Sys2Proof.Machine.execBarwait d bar ph scope s
  | .launch d rec q => Sys2Proof.Machine.execLaunch d rec q s
  | .cancel d tgt level => Sys2Proof.Machine.execCancel d tgt level s
  | .gcnt d tgt level => Sys2Proof.Machine.execGcnt d tgt level s
  | .qpush val => Sys2Proof.Machine.execQpush val s
  | .qpop d pd => Sys2Proof.Machine.execQpop d pd s
  | .qclose => Sys2Proof.Machine.execQclose s
  | .graft d src dst => Sys2Proof.Machine.execGraft d src dst s
  | .kvwalk d page => Sys2Proof.Machine.execKvwalk d page s
  | .kvseal d page => Sys2Proof.Machine.execKvseal d page s
  | .kvcompact d rec => Sys2Proof.Machine.execKvcompact d rec s
  | .ballot d whorl hash => Sys2Proof.Machine.execBallot d whorl hash s
  | .whorlOpen d rec => Sys2Proof.Machine.execWhorlOpen d rec s
  | .whorlClose d rec => Sys2Proof.Machine.execWhorlClose d rec s
  | .whorlRing d rec => Sys2Proof.Machine.execWhorlRing d rec s
  | .whorlUnring d rec => Sys2Proof.Machine.execWhorlUnring d rec s
  | .reshard d rec => Sys2Proof.Machine.execReshard d rec s
  | .migrAdmit d rec => Sys2Proof.Machine.execMigrAdmit d rec s
  | .migrHand d rec => Sys2Proof.Machine.execMigrHand d rec s
  | .migrDone d rec => Sys2Proof.Machine.execMigrDone d rec s
  | .migrCancel d rec => Sys2Proof.Machine.execMigrCancel d rec s
  | .beamix d tbl perm => Sys2Proof.Machine.execBeamix d tbl perm s
  | .loadEntryLands h k err => Sys2Proof.Machine.execLoadEntryLands h k err s
  | .sideLogReplay h => Sys2Proof.Machine.execSideLogReplay h s
  | .updateLineMerge core line => Sys2Proof.Machine.execUpdateLineMerge core line s
  | .copyChunkLands h slot chunk kind => Sys2Proof.Machine.execCopyChunkLands h slot chunk kind s
  | .chainRecordComplete h ch => Sys2Proof.Machine.execChainRecordComplete h ch s
  | .cmuWordStart core => Sys2Proof.Machine.execCmuWordStart core s
  | .mdaddArrival n => Sys2Proof.Machine.execMdaddArrival n s
  | .taskRecordRead n => Sys2Proof.Machine.execTaskRecordRead n s
  | .taskUnitDispatch t array => Sys2Proof.Machine.execTaskUnitDispatch t array s
  | .bankLoadComplete array ok => Sys2Proof.Machine.execBankLoadComplete array ok s
  | .taskUnitComplete t unit kind => Sys2Proof.Machine.execTaskUnitComplete t unit kind s
  | .eventTableOperation h k => Sys2Proof.Machine.execEventTableOperation h k s
  | .eventOverflowServe ctx name => Sys2Proof.Machine.execEventOverflowServe ctx name s
  | .barrierCycle die index => Sys2Proof.Machine.execBarrierCycle die index s
  | .launchRecordAccept n => Sys2Proof.Machine.execLaunchRecordAccept n s
  | .launchCreditGrant core ctx => Sys2Proof.Machine.execLaunchCreditGrant core ctx s
  | .coreFreeDispatch core handle => Sys2Proof.Machine.execCoreFreeDispatch core handle s
  | .ageingLimitExpiry slot q => Sys2Proof.Machine.execAgeingLimitExpiry slot q s
  | .stageStrandOffer slot launch stage handle => Sys2Proof.Machine.execStageStrandOffer slot launch stage handle s
  | .strandComplete h => Sys2Proof.Machine.execStrandComplete h s
  | .timeSliceExpiry h => Sys2Proof.Machine.execTimeSliceExpiry h s
  | .parkThresholdExpiry h => Sys2Proof.Machine.execParkThresholdExpiry h s
  | .preemptionSave h => Sys2Proof.Machine.execPreemptionSave h s
  | .strandResume h core zero => Sys2Proof.Machine.execStrandResume h core zero s
  | .strandSuspend h => Sys2Proof.Machine.execStrandSuspend h s
  | .accfirstService h => Sys2Proof.Machine.execAccfirstService h s
  | .watchdog st => Sys2Proof.Machine.execWatchdog st s
  | .icacheLineFill core line => Sys2Proof.Machine.execIcacheLineFill core line s
  | .icacheError core line kind => Sys2Proof.Machine.execIcacheError core line kind s
  | .hostDoorbell recs => Sys2Proof.Machine.execHostDoorbell recs s
  | .load r => Sys2Proof.Machine.execLoad r s
  | .unload r => Sys2Proof.Machine.execUnload r s
  | .pause r => Sys2Proof.Machine.execPause r s
  | .resume r => Sys2Proof.Machine.execResume r s
  | .destroy r => Sys2Proof.Machine.execDestroy r s
  | .shootdown r => Sys2Proof.Machine.execShootdown r s
  | .shard r => Sys2Proof.Machine.execShard r s
  | .create r slot num key rec => Sys2Proof.Machine.execCreate r slot num key rec s
  | .mode r => Sys2Proof.Machine.execMode r s
  | .numamodeWrite v => Sys2Proof.Machine.execNumamodeWrite v s
  | .lock v => Sys2Proof.Machine.execLock v s
  | .registerWrite addr v => Sys2Proof.Machine.execRegisterWrite addr v s
  | .queueEnable slot q => Sys2Proof.Machine.execQueueEnable slot q s
  | .queuePause slot q => Sys2Proof.Machine.execQueuePause slot q s
  | .queueDisable slot q => Sys2Proof.Machine.execQueueDisable slot q s
  | .pageWalk h va => Sys2Proof.Machine.execPageWalk h va s
  | .firmwareMapAnswer n map => Sys2Proof.Machine.execFirmwareMapAnswer n map s
  | .shootdownAck n pkg => Sys2Proof.Machine.execShootdownAck n pkg s
  | .promote slot va target => Sys2Proof.Machine.execPromote slot va target s
  | .evict slot va => Sys2Proof.Machine.execEvict slot va s
  | .move slot va target => Sys2Proof.Machine.execMove slot va target s
  | .release slot va => Sys2Proof.Machine.execRelease slot va s
  | .clean slot va => Sys2Proof.Machine.execClean slot va s
  | .migrationLineCopied frame err => Sys2Proof.Machine.execMigrationLineCopied frame err s
  | .forwardingEnd frame => Sys2Proof.Machine.execForwardingEnd frame s
  | .uncorrectableErrorDetected pa => Sys2Proof.Machine.execUncorrectableErrorDetected pa s
  | .poisonClear frame granule data => Sys2Proof.Machine.execPoisonClear frame granule data s
  | .tier2ReadTimeout h k pa lost => Sys2Proof.Machine.execTier2ReadTimeout h k pa lost s
  | .tier2ControllerLoss n => Sys2Proof.Machine.execTier2ControllerLoss n s
  | .computeDieReset die => Sys2Proof.Machine.execComputeDieReset die s
  | .writebackTimeout die => Sys2Proof.Machine.execWritebackTimeout die s
  | .dieLinkTrained die live => Sys2Proof.Machine.execDieLinkTrained die live s
  | .dieLinkTrainingTimeout die => Sys2Proof.Machine.execDieLinkTrainingTimeout die s
  | .dieLinkModuleLoss die m => Sys2Proof.Machine.execDieLinkModuleLoss die m s
  | .dieLinkReplayExhaustion die rate => Sys2Proof.Machine.execDieLinkReplayExhaustion die rate s
  | .portEnable p => Sys2Proof.Machine.execPortEnable p s
  | .portDisable p => Sys2Proof.Machine.execPortDisable p s
  | .portRetire p => Sys2Proof.Machine.execPortRetire p s
  | .ppermWrite p v => Sys2Proof.Machine.execPpermWrite p v s
  | .portTrainingDone p lanes peer => Sys2Proof.Machine.execPortTrainingDone p lanes peer s
  | .portTrainingTimeout p => Sys2Proof.Machine.execPortTrainingTimeout p s
  | .portLaneLoss p lane => Sys2Proof.Machine.execPortLaneLoss p lane s
  | .flitCrcFail p sixteenth => Sys2Proof.Machine.execFlitCrcFail p sixteenth s
  | .portErrorRate p replays => Sys2Proof.Machine.execPortErrorRate p replays s
  | .linkLossNotice m n up => Sys2Proof.Machine.execLinkLossNotice m n up s
  | .fabricProbe skew => Sys2Proof.Machine.execFabricProbe skew s
  | .packetForward pkt => Sys2Proof.Machine.execPacketForward pkt s
  | .packetArrival pkt => Sys2Proof.Machine.execPacketArrival pkt s
  | .flowAckReceived src dst cls seq ans => Sys2Proof.Machine.execFlowAckReceived src dst cls seq ans s
  | .flowResendTimeout src dst cls => Sys2Proof.Machine.execFlowResendTimeout src dst cls s
  | .flowStateExpiry src core cls => Sys2Proof.Machine.execFlowStateExpiry src core cls s
  | .invalidation home line => Sys2Proof.Machine.execInvalidation home line s
  | .powerThrottle core cycles => Sys2Proof.Machine.execPowerThrottle core cycles s
  | .coldReset => Sys2Proof.Machine.execColdReset s
  | .packageFailure pkg => Sys2Proof.Machine.execPackageFailure pkg s
  | .graftTransferLanding n => Sys2Proof.Machine.execGraftTransferLanding n s
  | .requestRestart handle => Sys2Proof.Machine.execRequestRestart handle s
  | .freeRingRelease n => Sys2Proof.Machine.execFreeRingRelease n s
  | .engineWriteHeld n => Sys2Proof.Machine.execEngineWriteHeld n s
  | .whorlSiblingEnd handle sib => Sys2Proof.Machine.execWhorlSiblingEnd handle sib s
  | .ringStepTimeout n member => Sys2Proof.Machine.execRingStepTimeout n member s
  | .shardLaneLost slot lane => Sys2Proof.Machine.execShardLaneLost slot lane s
  | .shardRebuild slot j parity images => Sys2Proof.Machine.execShardRebuild slot j parity images s
  | .coppiceRun n => Sys2Proof.Machine.execCoppiceRun n s
  | .l2LineWriteBack pa => Sys2Proof.Machine.execL2LineWriteBack pa s
  | .warmReset => Sys2Proof.Machine.execWarmReset s

end Sys2Proof.Machine
end

