-- ==== Sys2Proof/Machine/Xmss.lean ====
section
/-! DEFINITION. The signatures of spec/01_package.md R22: verification under XMSS-SHAKE_10_512 for firmware images, signing under
XMSS-SHAKE_16_512 for the package identity and attestation reports. The rule
names RFC 8391; SHAKE256 and the steps of XMSS are taken from the standards (log 81, PRESUMED). -/

namespace Sys2Proof.Machine

-- ## SHAKE256

/-- The round constants: bit 2^j − 1 of the r-th is bit j + 7r of a shift register of eight bits. -/
def keccakRc (r : Nat) : W64 :=
  let step := fun (x : Byte) => (x <<< 1) ^^^ (if x.getLsbD 7 then 0x71#8 else 0#8)
  let at_ := fun (n : Nat) => ((List.range n).foldl (fun x _ => step x) 1#8).getLsbD 0
  (List.range 7).foldl (fun (c : W64) j => if at_ (j + 7 * r) then c ||| BitVec.ofNat 64 (2 ^ (2 ^ j - 1)) else c) 0#64

/-- The lanes in the order in which ρ and π visit them, and the turn of each. -/
def rhoPi : List (Nat × Nat) :=
  ((List.range 24).foldl (fun (x : List (Nat × Nat) × Nat × Nat) t =>
    let q := x.2
    (x.1 ++ [(q.1 + 5 * q.2, (t + 1) * (t + 2) / 2 % 64)], q.2, (2 * q.1 + 3 * q.2) % 5)) ([], 1, 0)).1

def keccakRound (s : List W64) (r : Nat) : List W64 :=
  let a := fun (l : List W64) (x y : Nat) => l.getD (x % 5 + 5 * (y % 5)) 0#64
  let c := (List.range 5).map (fun x => (List.range 5).foldl (fun v y => v ^^^ a s x y) 0#64)
  let d := (List.range 5).map (fun x => c.getD ((x + 4) % 5) 0#64 ^^^ (c.getD ((x + 1) % 5) 0#64).rotateLeft 1)
  let t := (List.range 25).map (fun i => s.getD i 0#64 ^^^ d.getD (i % 5) 0#64)
  let b := rhoPi.foldl (fun (l : List W64) (i, n) =>
    let x := i % 5
    let y := i / 5
    l.set (y + 5 * ((2 * x + 3 * y) % 5)) ((t.getD i 0#64).rotateLeft n)) t
  ((List.range 25).map (fun i => a b i (i / 5) ^^^ (~~~(a b (i % 5 + 1) (i / 5)) &&& a b (i % 5 + 2) (i / 5)))).modify 0 (· ^^^ keccakRc r)

def keccakF (s : List W64) : List W64 := (List.range 24).foldl keccakRound s

/-- The bytes of a message in blocks of 136, padded for SHAKE. -/
def shakePad (m : List Byte) : List Byte :=
  let n := 136 - m.length % 136
  m ++ (if n = 1 then [0x9F#8] else 0x1F#8 :: List.replicate (n - 2) 0#8 ++ [0x80#8])

/-- The first 64 bytes of SHAKE256. -/
def shake512 (m : List Byte) : List Byte :=
  let p := shakePad m
  let s := (List.range (p.length / 136)).foldl (fun (s : List W64) i =>
    let blk := (p.drop (136 * i)).take 136
    keccakF ((List.range 25).map (fun k => s.getD k 0#64 ^^^ (if k < 17 then BitVec.ofNat 64 (leNat ((blk.drop (8 * k)).take 8)) else 0#64))))
    (List.replicate 25 0#64)
  ((s.take 8).flatMap (fun w => leBytes 8 w.toNat))

-- ## XMSS with n = 64, w = 16

/-- A number in n bytes, the most significant first. -/
def beBytes (n v : Nat) : List Byte := (leBytes n v).reverse
def beNat (bs : List Byte) : Nat := leNat bs.reverse

/-- The hash functions: F, H, H_msg and PRF by their first block. -/
def xmssHash (kind : Nat) (key m : List Byte) : List Byte := shake512 (beBytes 64 kind ++ key ++ m)

/-- An address: type, and the four words that depend on it. -/
def adrs (type a b c d : Nat) : List Byte := List.replicate 12 0#8 ++ [type, a, b, c, d].flatMap (beBytes 4)

/-- One step of a WOTS+ chain. -/
def chainHash (seed : List Byte) (ots chain : Nat) (x : List Byte) (j : Nat) : List Byte :=
  let prf := fun k => xmssHash 3 seed (adrs 0 ots chain j k)
  xmssHash 0 (prf 0) (byteXor x (prf 1))

/-- Two nodes joined under an address without its last word. -/
def joinNodes (seed : List Byte) (at_ : Nat → List Byte) (l r : List Byte) : List Byte :=
  let prf := fun k => xmssHash 3 seed (at_ k)
  xmssHash 1 (prf 0) (byteXor l (prf 1) ++ byteXor r (prf 2))

/-- The 131 digits of a digest: its 128 of four bits, high first, and the three of its checksum. -/
def wotsDigits (m : List Byte) : List Nat :=
  let nib : List Byte → List Nat := fun l => l.flatMap (fun b => [b.toNat / 16, b.toNat % 16])
  let d := nib m
  d ++ (nib (beBytes 2 (16 * d.foldl (fun n x => n + (15 - x)) 0))).take 3

/-- The public parts of a one-time key from its signature. -/
def wotsFromSig (seed : List Byte) (ots : Nat) (m : List Byte) (sig : List (List Byte)) : List (List Byte) :=
  ((wotsDigits m).zip sig).zipIdx.map (fun ((d, x), i) =>
    (List.range (15 - d)).foldl (fun y k => chainHash seed ots i y (d + k)) x)

/-- One level of the unbalanced tree over a one-time key. -/
def lLevel (seed : List Byte) (ots h : Nat) : Nat → List (List Byte) → List (List Byte)
  | i, a :: b :: r => joinNodes seed (fun k => adrs 1 ots h i k) a b :: lLevel seed ots h (i + 1) r
  | _, l => l

/-- Its root. -/
def lTree (seed : List Byte) (ots : Nat) (l : List (List Byte)) : List Byte :=
  ((List.range 8).foldl (fun (x : List (List Byte)) h => if x.length ≤ 1 then x else lLevel seed ots h 0 x) l).headD []

/-- The root that a leaf and its authentication path lead to. -/
def xmssClimb (seed : List Byte) (idx : Nat) (leaf : List Byte) (auth : List (List Byte)) : List Byte :=
  (auth.zipIdx.foldl (fun (node : List Byte) (a, k) =>
    let at_ := fun w => adrs 2 0 k (idx / 2 ^ (k + 1)) w
    if idx / 2 ^ k % 2 = 0 then joinNodes seed at_ node a else joinNodes seed at_ a node) leaf)

/-- Pieces of 64 bytes. -/
def nodes64 (bs : List Byte) : List (List Byte) := (List.range (bs.length / 64)).map (fun i => (bs.drop (64 * i)).take 64)

/-- A signature of a tree of height h: index, randomizer, 131 chains, path. The public key is the root and the seed. -/
def xmssVerify (h : Nat) (pub msg sig : List Byte) : Bool :=
  let root := pub.take 64
  let seed := pub.drop 64
  let idx := beNat (sig.take 4)
  let r := (sig.drop 4).take 64
  let parts := nodes64 (sig.drop 68)
  let m := xmssHash 2 (r ++ root ++ beBytes 64 idx) msg
  let leaf := lTree seed idx (wotsFromSig seed idx m (parts.take 131))
  pub.length == 128 && sig.length == 68 + 64 * (131 + h) && decide (idx < 2 ^ h) && xmssClimb seed idx leaf (parts.drop 131) == root

-- ## Signing

/-- One secret of a one-time key moved so many steps along its chain. -/
def wotsStep (leaf chain steps : Nat) : List Byte :=
  (List.range steps).foldl (fun y k => chainHash Config.identitySeed leaf chain y k) (Config.identitySecret leaf chain)

/-- A node of the identity key's tree: at height 0 a leaf, the root of the tree over a one-time public key. -/
def identityNode : Nat → Nat → List Byte
  | 0, i => lTree Config.identitySeed i ((List.range 131).map (fun c => wotsStep i c 15))
  | k + 1, i => joinNodes Config.identitySeed (fun w => adrs 2 0 k i w) (identityNode k (2 * i)) (identityNode k (2 * i + 1))

/-- The height of the identity key's tree: it signs 2^16 times. -/
def identityHeight : Nat := 16

/-- The public identity key: its root and its seed. -/
def identityPub : List Byte := identityNode identityHeight 0 ++ Config.identitySeed

/-- The signature of a message by the identity key under one index (RFC 8391). -/
def identitySign (idx : Nat) (msg : List Byte) : List Byte :=
  let r := xmssHash 3 Config.identityPrf (beBytes 32 idx)
  let m := xmssHash 2 (r ++ identityNode identityHeight 0 ++ beBytes 64 idx) msg
  let sibling := fun (k : Nat) => let n := idx / 2 ^ k; if n % 2 = 0 then n + 1 else n - 1
  beBytes 4 idx ++ r ++ ((wotsDigits m).zipIdx.map (fun (d, c) => wotsStep idx c d)).flatten ++
    ((List.range identityHeight).map (fun k => identityNode k (sibling k))).flatten

-- ## Boot and attestation (R22)

/-- The lock block as an attestation report writes it: its registers in the order of their offsets. -/
def LockBlock.bytes (l : LockBlock) : List Byte :=
  ([bif_ l.lock, l.ceil.toNat, l.hbase.toNat, l.hlim.toNat] ++ l.egr.map (·.toNat) ++ l.dst.map (·.toNat)).flatMap (leBytes 8)
where bif_ (b : Bool) : Nat := if b then 1 else 0

/-- A firmware image comes to the boot loader with its signature: verified, it runs; else Taproot stays in its boot loader. -/
def State.bootImage (s : State) (version : W64) (image sig : List Byte) : State :=
  if xmssVerify 10 Config.imageKey (beBytes 8 version.toNat ++ image) sig then
    s.updPkg (fun p => { p with boot := { p.boot with runs := true, versions := p.boot.versions ++ [version] } })
  else s.report (.imageRefused version)

/-- The package identity with its signature, the first that the identity key made (log 82). -/
def signedIdentity : List Byte × List Byte := (Config.packageIdentity, identitySign 0 Config.packageIdentity)

/-- The attestation root signs a report that names the image versions and the contents of the lock block. No index of the identity key
signs twice, so that the key is spent after 2^16 signatures. -/
def State.attest (s : State) : State :=
  let b := s.pkg.boot
  if 2 ^ identityHeight ≤ b.signed then s.report .identitySpent
  else
    let msg := b.versions.flatMap (fun v => leBytes 8 v.toNat) ++ s.pkg.lock.bytes
    (s.updPkg (fun p => { p with boot := { b with signed := b.signed + 1 } })).report
      (.attestation b.versions s.pkg.lock signedIdentity (identitySign b.signed msg))

end Sys2Proof.Machine
end

