-- ==== Sys2Proof/Machine/Turns.lean ====
section
/-! DEFINITION. The turns of the schedule (log 1), what happens with none left, and the instruction placed for the next
step (log 6). -/

namespace Sys2Proof.Machine

-- ## What every step adds

/-- Strands that became ready in a step get their place in the order of R276. -/
def State.stampReady (s : State) : State :=
  let new := fun (t : Strand) => t.phase == .ready && t.readyAt == 0
  if s.allStrands.any new then
    let f := fun (t : Strand) => if new t then { t with readyAt := s.pkg.readyNo } else t
    (s.mapStrands f).updPkg (fun p => { p with readyNo := p.readyNo + 1 })
  else s

/-- After a step: the requests of work that has met uncorrectable errors end (R323), held engine writes go on
(R414), parked strands whose condition holds are ready (R279), shootdowns of other packages are acknowledged (R310), what waited for a
release is performed (R211, R255, R343), and new ready strands are in order. -/
def tidy (s : State) : State := s.settleErrors.settleHeld.settleShoots.settleLate.refreshParked.stampReady

/-- A step's answer with what every step adds. -/
def tidied (o : Out) : Out :=
  match o with
  | .next s => .next (tidy s)
  | .fault f => .fault f
  | .refused r => .refused r

-- ## Firmware and the errors of the hardware

/-- The events that Taproot firmware brings about: while Taproot is in its boot loader there are none (R22, log 93). -/
def byFirmware (i : Instr) : Bool :=
  match i with
  | .hostDoorbell _ | .load _ | .unload _ | .pause _ | .resume _ | .destroy _ | .shootdown _ | .shard _ | .create _ _ _ _ _ | .mode _
  | .numamodeWrite _ | .lock _ | .registerWrite _ _ | .queueEnable _ _ | .queuePause _ _ | .queueDisable _ _ | .firmwareMapAnswer _ _
  | .promote _ _ _ | .evict _ _ | .move _ _ _ | .release _ _ | .clean _ _ | .poisonClear _ _ _ | .portEnable _ | .portDisable _
  | .portRetire _ | .ppermWrite _ _ => true
  | _ => false

/-- A list with one more member. -/
def addOnce [DecidableEq α] (x : α) (l : List α) : List α := if l.contains x then l else l ++ [x]

/-- What the hardware meets beside the events of the table (Turn.hw). -/
def State.hwEvent (s : State) (e : HwEvent) : State :=
  match e with
  | .corrected storage at_ => s.report (.corrected storage at_)
  | .fec port n => s.updPort port (fun t => { t with fec := t.fec + BitVec.ofNat 32 n })
  | .dieTlb die n => s.updDie die (fun d => { d with tlb := d.tlb.eraseIdx n })
  | .engTlb n => s.updPkg (fun p => { p with engTlb := p.engTlb.eraseIdx n })
  | .table slot => s.faultCtx slot
  | .padError core line =>
    if Config.scratchSize ≤ 64 * line then s else s.updCore core (fun c => { c with padBad := addOnce line c.padBad })
  | .l1Error core line => s.updPkg (fun p => { p with l1Bad := addOnce (core, line) p.l1Bad })
  | .l1Gone core line => s.updPkg (fun p => { p with l1Bad := p.l1Bad.filter (· != (core, line)) })
  | .l2Error line => if inMemory (64 * line) then s.updPkg (fun p => { p with l2Bad := addOnce line p.l2Bad }) else s
  | .bankLoad array => s.updBanks array Banks.load
  | .bankSwap array => s.updBanks array Banks.swap
  | .rowIn array => s.updBanks array Banks.rowIn
  | .rowOut array bank => s.updBanks array (fun b => b.rowOut bank)
  | .boot version image sig => s.bootImage version image sig
  | .attest => s.attest
  | .flight reshard n i x => s.flightError reshard n i x
  | .member ring i => s.memberEvent ring i
  | .failing _ _ _ => s

/-- An answer of an event that ran while a read of tier 2 failed, with the granule as it was. -/
def unfailed (was : Pkg) (pa : Nat) (o : Out) : Out :=
  match o with
  | .next s => .next (s.unfail was pa)
  | .fault f => .fault f
  | .refused r => .refused r

/-- The same as a turn: an event runs while a read of tier 2 fails (R324). -/
def hwTurn (e : HwEvent) (s : State) : Next :=
  match e with
  | .failing pa lost i =>
    if !(inTier2 pa && i.isEvent && i.wf) then .out (.next s)
    else if lost then .run i (s.setPoison pa) else .late i (s.setPoison pa) s.pkg pa
  | e => .out (.next (s.hwEvent e))

-- ## Turns

/-- A turn taken. -/
def takeTurn (t : Turn) (s : State) : Next :=
  match t with
  | .issue => issueNext s
  | .event i => if i.isEvent && i.wf && (s.pkg.boot.runs || !(byFirmware i)) then .run i s else .out (.next s)
  | .core n => .out (.next (s.toCore n))
  | .perform k => .out (.next (performAt k s))
  | .land n e =>
    match s.strand.pend[n]? with
    | some f => if f.due.isSome then .out (.next { s with strand := landAt n (1#512 <<< e) s.strand }) else .out (.next s)
    | none => .out (.next s)
  | .landQ st q k =>
    let lq := st == .x
    let l := (s.strand.queue lq q).modify k (fun e => if e.due.isSome then { e with due := some 0 } else e)
    .out (.next { s with strand := s.strand.setQueue lq q l })
  | .tick n =>
    if s.core.runs = 0 ∨ s.strand.phase ≠ .running then .out (.next (finishStop (advance (s.core.cyc + n) s))) else .out (.next s)
  | .tlbDrop n => .out (.next { s with core := { s.core with tlb := s.core.tlb.eraseIdx n } })
  | .landMat k c => .out (.next (landMat k c s))
  | .eccError st v => issueError st v s
  | .gather k => .out (.next (gatherAhead k s))
  | .fwStore w => .out (.next (if s.pkg.boot.runs then fwStore w s else s))
  | .hw e => hwTurn e s

/-- The first operation that may be performed and gets on: it is performed or sent, or firmware is asked about its page. -/
def firstMove (s : State) : Option State :=
  (List.range s.strand.acc.length).findSome? (fun k =>
    if mayLog s k || (mayPerform s k && (s.strand.acc[k]?).any (fun a => s.mayStart a)) then
      let t := performAt k s
      if t.strand.acc = s.strand.acc ∧ t.pkg.faults.length = s.pkg.faults.length then none else some t
    else none)

/-- With no turn left: an operation that gets on, a page that a stalled word waits for, a code line that is absent, the next
word; a strand that stops goes on stopping. -/
def onward (s : State) : Next :=
  match firstMove s with
  | some t => .out (.next t)
  | none =>
    match s.strand.wants with
    | some va => .out (execPageWalk s.strand.h va s)
    | none =>
      match nextStream s with
      | some (st, c) =>
        if mayIssue s c then
          let pc := (s.strand.seq st).pc
          match s.lineAt pc with
          | some l => if l.poisoned then .out (execIcacheLineFill s.core.num (pc.toNat / 256) s) else fetchAt st c s
          | none =>
            if (s.strand.seq st).last < (s.strand.seq st).tried then .out (execIcacheLineFill s.core.num (pc.toNat / 256) s) else fetchAt st c s
        else .out (.next (finishStop (advance (s.core.cyc + 1) s)))
      | none => .out (.next (finishStop (advance (s.core.cyc + 1) s)))

/-- What the next step is: the first turn of the schedule, or, with none left, what goes on by itself. -/
def nextOf (s : State) : Next :=
  match s.sched with
  | t :: r => takeTurn t { s with sched := r }
  | [] => onward s

/-- The page at which withFetchWord places a word, its local physical address, and the handle of the strand (log 6). -/
def placeVa : Nat := 0x10000
def placePa : Nat := 0x12000000000

/-- A strand that is running, with a word placed at the program counter of a stream whose next word comes first. -/
def placeStrand (t : Strand) (st : Stream) (c core : Nat) : Strand :=
  let q := fun (q : Seq) (last : Nat) =>
    { q with pc := BitVec.ofNat 56 placeVa, last := last, waitFrom := none, started := true, ended := false, trapped := false }
  { t with h := 1, phase := .running, gi := true, gm := true, gv := true, core := core,
           a := q t.a (if st = .a then c else c + 1024), x := q t.x (if st = .x then c else c + 1024) }

/-- The page that holds a placed word. -/
def placeEntry (slot : Nat) : TlbEnt :=
  { slot := slot, va := placeVa, size := 0x1000, pa := placePa, key := 0, l2only := false, sro := false, w := true, x := true }

/-- The die of the core in the foreground out of reset, the lock block locked (R20, R331). -/
def dieOn (core : Nat) (p : Pkg) : Pkg :=
  { p with
    lock := { p.lock with lock := true }
    dies := p.dies.modify (dieOf core) (fun d => { d with up := true, state := 2, live := BitVec.allOnes 48 }) }

/-- The word stored where the next step fetches: in memory, in the page's translation and in the line of the core. -/
def placeWord (w : W64) (s : State) : State :=
  let st : Stream :=
    match decode w with
    | .ok (_, i) => if i.legal .a then .a else .x
    | .error _ => .a
  let t := placeStrand s.strand st s.core.cyc s.core.num
  { s with
    strand := t
    core := { s.core with runs := t.h, tlb := placeEntry t.slot :: s.core.tlb,
                          icache := { slot := t.slot, line := placeVa / 256, pinned := true, poisoned := false,
                                      words := w :: List.replicate 31 0#64 } :: s.core.icache }
    pkg := dieOn s.core.num { s.pkg with mem := s.pkg.mem.write placePa (bytesOfWord w ++ List.replicate 248 0#8) }
    sched := [] }

end Sys2Proof.Machine
end

