-- ==== Sys2Proof/Machine/Step.lean ====
section
/-! DEFINITION. One step of the machine. -/

namespace Sys2Proof.Machine

/-- One step: what nextOf finds, run by exec, and what every step adds. -/
def step (s : State) : Host.Outcome State Fault Refusal :=
  match nextOf s with
  | .run i t => tidied (exec i t)
  | .err i t v => tidied (eccOver v t (exec i t))
  | .late i t was pa => tidied (unfailed was pa (exec i t))
  | .out o => tidied o

/-- The state with a word placed where the next step fetches (log 6). A word has 64 bits whatever nbits says (R57). -/
def State.withFetchWord (s : State) (_nbits w : Nat) : State := placeWord (BitVec.ofNat 64 w) s

end Sys2Proof.Machine
end

