-- ==== Sys2Proof/Safety.lean ====
section
/-! DEFINITION. What a safe answer of a step is, and the words that the statements and their lemmas are written in: when a
word issues, and what its issue leaves. -/

namespace Sys2Proof

/-- The step gives a next state: neither a fault nor a refusal. -/
def Safety.safe (o : Host.Outcome Machine.State Machine.Fault Machine.Refusal) : Prop := ∃ t, o = .next t

end Sys2Proof

namespace Sys2Proof.Claims

open Sys2Proof.Machine

-- ## Operands, issue, control

/-- An entry suits the slot that pops it (R56, R144): it is not marked, a scalar for a scalar slot, a vector for a vector
slot, and a vector popped in the X stream has the shape vshape. -/
def Suits (t : Strand) (p : Pop) (e : QEnt) : Prop :=
  e.mark = none ∧
  match e.val with
  | .s _ => p.vec = false
  | .v r c _ => p.vec = true ∧ (p.lq = true → r = shRows t.vshape ∧ c = shCols t.vshape)

/-- The queue operands of a word are ready (R56): every entry that it pops has landed and suits its slot, and every queue
that it pushes to holds fewer than 16 entries. -/
def Ready (pops : List Pop) (pushes : List (Bool × Fin 4)) (s : State) : Prop :=
  (∀ x ∈ popEnts s.strand pops, ∃ e, x.2.1 = some e ∧ e.landed s.cyc = true ∧ Suits s.strand x.1 e) ∧
  ∀ p ∈ pushes, (s.strand.queue p.1 p.2).length < 16

/-- No WATCHDOG at the word of the issuing stream (R248) and no pre-emption pending for the strand (R291). -/
def Calm (s : State) : Prop :=
  (s.strand.iterbound = 0 ∨ s.seq.iters + s.seq.used s.cyc ≤ s.strand.iterbound) ∧ s.strand.preempt = false

/-- A sequencer set in the strand in the foreground. -/
def withSeq (u : State) (st : Stream) (q : Seq) : State := { u with strand := u.strand.setSeq st q }

/-- A sequencer whose word has issued in cycle c without transferring control: NextPC of R89 (`loopEnd`), the iteration
count of R248. -/
def nextWord (q : Seq) (c : Nat) : Seq :=
  { q with pc := (loopEnd q.pc q.loops).1, loops := (loopEnd q.pc q.loops).2.1,
           iters := if (loopEnd q.pc q.loops).2.2 then 0 else q.iters + q.used c,
           last := c, waitFrom := none, atGo := false, started := true }

/-- A sequencer whose word has issued in cycle c and has transferred control to an address. -/
def jumpTo (p : PC) (q : Seq) (c : Nat) : Seq :=
  { q with pc := p, iters := q.iters + q.used c, last := c, waitFrom := none, atGo := false, started := true }

/-- The word has issued at s with the effects that u holds, and falls through. -/
def issued (s u : State) : State := withSeq u s.stream (nextWord (u.strand.seq s.stream) s.cyc)

/-- The same for a word whose issue sets the iteration count to 0 (R248). -/
def issuedReset (s u : State) : State :=
  withSeq u s.stream { nextWord (u.strand.seq s.stream) s.cyc with iters := 0 }

/-- The word has issued at s with the effects that u holds, and control goes to p. -/
def branched (p : PC) (s u : State) : State := withSeq u s.stream (jumpTo p (u.strand.seq s.stream) s.cyc)

/-- The values of scalar sources read in field order, and the state after their pops. -/
def vals (os : List SOp) (s : State) : List W64 := (takeSs os s).1
def popped (os : List SOp) (s : State) : State := (takeSs os s).2

/-- The low 64 bits of an integer, and of a natural number. -/
def int (i : Int) : W64 := BitVec.ofInt 64 i
def nat (n : Nat) : W64 := BitVec.ofNat 64 n

end Sys2Proof.Claims
end

