-- ==== Sys2Proof/Certificates/Slice0/Obligations.lean ====
section
/-! DEFINITION. The statements for the provers: what the rules of spec/ say that the machine does. Claims holds the words
that they are written in; each obligation is one def of its own. -/

namespace Sys2Proof.Claims

open Sys2Proof.Machine

/-- Functions of one, two and three values. -/
def one (f : W64 → W64) : List W64 → W64
  | [a] => f a
  | _ => 0#64
def two (f : W64 → W64 → W64) : List W64 → W64
  | [a, b] => f a b
  | _ => 0#64
def three (f : W64 → W64 → W64 → W64) : List W64 → W64
  | [a, b, c] => f a b c
  | _ => 0#64

/-- A scalar word: its destination, its sources, its latency bound and its result. -/
structure ScalarForm where
  d : SOp
  srcs : List SOp
  L : Nat
  f : List W64 → W64

/-- The arithmetic words of R98 to R100 as functions on integers. -/
def arithForm : Instr → Option ScalarForm
  | .add d s1 s2 => some ⟨d, [s1, s2], 1, two fun a b => int (a.toInt + b.toInt)⟩
  | .sub d s1 s2 => some ⟨d, [s1, s2], 1, two fun a b => int (a.toInt - b.toInt)⟩
  | .addi d s1 k => some ⟨d, [s1], 1, one fun a => int (a.toInt + k.toInt)⟩
  | .mul d s1 s2 => some ⟨d, [s1, s2], 4, two fun a b => int (a.toInt * b.toInt)⟩
  | .mulh u d s1 s2 => some ⟨d, [s1, s2], 4, two fun a b =>
      if u then nat (a.toNat * b.toNat / 2 ^ 64) else int (a.toInt * b.toInt / 2 ^ 64)⟩
  | .div u d s1 s2 => some ⟨d, [s1, s2], 20, two fun a b =>
      if b = 0#64 then int (-1) else if u then nat (a.toNat / b.toNat) else int (a.toInt.tdiv b.toInt)⟩
  | .rem u d s1 s2 => some ⟨d, [s1, s2], 20, two fun a b =>
      if b = 0#64 then a else if u then nat (a.toNat % b.toNat) else int (a.toInt.tmod b.toInt)⟩
  | .mad d s1 s2 s3 => some ⟨d, [s1, s2, s3], 4, three fun a b c => int (a.toInt * b.toInt + c.toInt)⟩
  | .min u d s1 s2 => some ⟨d, [s1, s2], 1, two fun a b =>
      if u then (if b.toNat < a.toNat then b else a) else (if b.toInt < a.toInt then b else a)⟩
  | .max u d s1 s2 => some ⟨d, [s1, s2], 1, two fun a b =>
      if u then (if a.toNat < b.toNat then b else a) else (if a.toInt < b.toInt then b else a)⟩
  | _ => none

/-- The bitwise words, shifts, counts, moves and fields of R98, R101, R102 and R104. -/
def bitForm : Instr → Option ScalarForm
  | .and d s1 s2 => some ⟨d, [s1, s2], 1, two fun a b => a &&& b⟩
  | .or d s1 s2 => some ⟨d, [s1, s2], 1, two fun a b => a ||| b⟩
  | .xor d s1 s2 => some ⟨d, [s1, s2], 1, two fun a b => a ^^^ b⟩
  | .andi d s1 k => some ⟨d, [s1], 1, one fun a => a &&& int k.toInt⟩
  | .ori d s1 k => some ⟨d, [s1], 1, one fun a => a ||| int k.toInt⟩
  | .xori d s1 k => some ⟨d, [s1], 1, one fun a => a ^^^ int k.toInt⟩
  | .shl d s1 s2 => some ⟨d, [s1, s2], 1, two fun a b => nat (a.toNat * 2 ^ (b.toNat % 64))⟩
  | .shr d s1 s2 => some ⟨d, [s1, s2], 1, two fun a b => nat (a.toNat / 2 ^ (b.toNat % 64))⟩
  | .sha d s1 s2 => some ⟨d, [s1, s2], 1, two fun a b => int (a.toInt / 2 ^ (b.toNat % 64))⟩
  | .limm d k => some ⟨d, [], 1, fun _ => int k.toInt⟩
  | .lhi d s1 v sel => some ⟨d, [s1], 1, one fun a =>
      let unit := 2 ^ (16 * sel.val)
      nat (a.toNat - a.toNat / unit % 65536 * unit + v.toNat * unit)⟩
  | .clz d s1 => some ⟨d, [s1], 1, one fun a => nat (if a = 0#64 then 64 else 63 - a.toNat.log2)⟩
  | .popc d s1 => some ⟨d, [s1], 1, one fun a => nat ((List.range 64).countP (fun k => a.getLsbD k))⟩
  | .mov d s1 => some ⟨d, [s1], 1, one fun a => a⟩
  | .bfx sx d s1 pos w1 => some ⟨d, [s1], 1, one fun a =>
      let f := a.toNat / 2 ^ pos.val % 2 ^ (w1.val + 1)
      if sx ∧ 2 ^ w1.val ≤ f then int ((f : Int) - 2 ^ (w1.val + 1)) else nat f⟩
  | .bfi d s1 s2 pos w1 => some ⟨d, [s1, s2], 1, two fun a b =>
      let m := nat ((2 ^ (w1.val + 1) - 1) * 2 ^ pos.val)
      (a &&& ~~~m) ||| (nat (b.toNat * 2 ^ pos.val) &&& m)⟩
  | _ => none

/-- A condition of R103. -/
def cond (c : Cond) (a b : W64) : Bool :=
  match c with
  | .eq => decide (a = b)
  | .ne => decide (a ≠ b)
  | .lt => decide (a.toInt < b.toInt)
  | .ge => decide (b.toInt ≤ a.toInt)
  | .ltu => decide (a.toNat < b.toNat)
  | .geu => decide (b.toNat ≤ a.toNat)
  | .tst => decide (a &&& b ≠ 0#64)

/-- A predicate that holds f inside the shape of the issuing stream and 0 outside it (R61, R105), written with L = 1. -/
def putMask (p : Fin 8) (f : Nat → Bool) (s u : State) : State :=
  putResult (.pred s.stream p) (BitVec.allOnes 512) (.p (Machine.predOf fun k => inShape s.shape k && f k)) 1 u

end Sys2Proof.Claims

open Sys2Proof Sys2Proof.Machine Sys2Proof.Claims

-- ## Scalar words

/-- R98 to R100: an arithmetic word with its operands ready issues, its result is the exact one narrowed to 64 bits, and
nothing else changes but its pops and its sequencer. -/
def Sys2Proof.Claims.ScalarArithmeticWords : Prop :=
  ∀ (i : Instr) (F : ScalarForm) (s : State), arithForm i = some F → Ready (F.srcs.flatMap sPops) (sPushes F.d) s → Calm s →
    exec i s = .next (issued s (putS F.d F.L (F.f (vals F.srcs s)) (popped F.srcs s)))

/-- R98, R101, R102: the bitwise words, shifts, counts, moves and field words. -/
def Sys2Proof.Claims.ScalarBitWords : Prop :=
  ∀ (i : Instr) (F : ScalarForm) (s : State), bitForm i = some F → Ready (F.srcs.flatMap sPops) (sPushes F.d) s → Calm s →
    exec i s = .next (issued s (putS F.d F.L (F.f (vals F.srcs s)) (popped F.srcs s)))

/-- R103, R104: CMP and CMPI write their condition to every position of the shape and 0 outside it; SEL reads both sources
and writes the first when element (0, 0) of the predicate is 1. -/
def Sys2Proof.Claims.CompareAndSelectWords : Prop :=
  (∀ (c : Cond) (p : Fin 8) (s1 s2 : SOp) (s : State), Ready ([s1, s2].flatMap sPops) [] s → Calm s →
    ∃ a b, vals [s1, s2] s = [a, b] ∧
      exec (.cmp c p s1 s2) s = .next (issued s (putMask p (fun _ => cond c a b) s (popped [s1, s2] s)))) ∧
  (∀ (c : Cond) (p : Fin 8) (s1 : SOp) (k : BitVec 21) (s : State), Ready ([s1].flatMap sPops) [] s → Calm s →
    ∃ a, vals [s1] s = [a] ∧
      exec (.cmpi c p s1 k) s = .next (issued s (putMask p (fun _ => cond c a (int k.toInt)) s (popped [s1] s)))) ∧
  (∀ (d s1 s2 : SOp) (p : Fin 8) (s : State), Ready ([s1, s2].flatMap sPops) (sPushes d) s → Calm s →
    ∃ a b, vals [s1, s2] s = [a, b] ∧
      exec (.sel d s1 s2 p) s = .next (issued s (putS d 1 (if (s.seq.pred p).getLsbD 0 then a else b) (popped [s1, s2] s))))

/-- R105 to R107: the predicate words work over the shape of their stream: the logic words, PSET (the first n elements of the
linear order, n clamped to the shape), PANY, PCNT and PFIRST. -/
def Sys2Proof.Claims.PredicateWords : Prop :=
  ∀ s : State, Calm s →
    let p := fun n => s.seq.pred n
    let C := shCols s.shape
    let size := shRows s.shape * shCols s.shape
    let at_ := fun (n : Fin 8) (k : Nat) => (p n).getLsbD (32 * (k / C) + k % C)
    (∀ pd p1 p2, exec (.pand pd p1 p2) s = .next (issued s (putMask pd (fun k => (p p1).getLsbD k && (p p2).getLsbD k) s s))) ∧
    (∀ pd p1 p2, exec (.por pd p1 p2) s = .next (issued s (putMask pd (fun k => (p p1).getLsbD k || (p p2).getLsbD k) s s))) ∧
    (∀ pd p1 p2, exec (.pxor pd p1 p2) s = .next (issued s (putMask pd (fun k => (p p1).getLsbD k ^^ (p p2).getLsbD k) s s))) ∧
    (∀ pd p1, exec (.pnot pd p1) s = .next (issued s (putMask pd (fun k => !(p p1).getLsbD k) s s))) ∧
    (∀ pd s1 (imm : BitVec 24), Ready ([s1].flatMap sPops) [] s → ∃ a, vals [s1] s = [a] ∧
      exec (.pset pd s1 imm) s = .next (issued s (putMask pd
        (fun k => decide (((k / 32 * C + k % 32 : Nat) : Int) < min (max 0 (a.toInt + imm.toInt)) (size : Int))) s (popped [s1] s)))) ∧
    (∀ pd p1, shapeOk (shRows s.shape) C → exec (.pany pd p1) s = .next (issued s (putMask pd (fun _ => (List.range size).any (at_ p1)) s s))) ∧
    (∀ d p1, shapeOk (shRows s.shape) C → Ready [] (sPushes d) s →
      exec (.pcnt d p1) s = .next (issued s (putS d 1 (nat ((List.range size).countP (at_ p1))) s))) ∧
    (∀ d p1, Ready [] (sPushes d) s →
      exec (.pfirst d p1) s = .next (issued s (putS d 1
        (match (List.range size).find? (at_ p1) with
         | some k => nat k
         | none => int (-1)) s)))

-- ## Control words

/-- R83, R85, R86: NOP only passes; BR, CALL and JMP go to their targets, and CALL and JMP write the link first, JMP with the
target read before that write. -/
def Sys2Proof.Claims.JumpWords : Prop :=
  ∀ s : State, Calm s →
    let link := fun (d : LinkDst) (u : State) => putLink d (nat ((s.seq.pc + 8#56).toNat)) u
    let target := fun (off : BitVec 30) => BitVec.ofInt 56 ((s.seq.pc.toNat : Int) + 8 * off.toInt)
    exec .nop s = .next (issued s s) ∧
    (∀ off, exec (.br off) s = .next (branched (target off) s s)) ∧
    (∀ d off, exec (.call d off) s = .next (branched (target off) s (link d s))) ∧
    (∀ d s1, Ready ([s1].flatMap sPops) [] s → ∃ a, vals [s1] s = [a] ∧
      (a.toNat < 2 ^ 56 → a.toNat % 8 = 0 →
        exec (.jmp d s1) s = .next (branched (BitVec.ofNat 56 a.toNat) s (link d (popped [s1] s)))) ∧
      (¬(a.toNat < 2 ^ 56 ∧ a.toNat % 8 = 0) → exec (.jmp d s1) s = .next (takeTrap .align a s)))

/-- R88, R90, R91: LOOP pushes a level, or skips its body for a count of 0; BREAKL pops level 0 and goes past its body; LIDX
reads idx or rem of a level. Where a count, a depth or a level forbids it, ILLEGAL with tval the word. -/
def Sys2Proof.Claims.LoopWords : Prop :=
  ∀ s : State, Calm s →
    (∀ c body,
      let n := match c with
        | .reg r => (s.seq.get r).toNat
        | .imm k => k.toNat
      (n = 0 → exec (.loop c body) s = .next (branched (BitVec.ofNat 56 (s.seq.pc.toNat + 8 + 8 * body.toNat)) s s)) ∧
      (0 < n → n < 2 ^ 32 → s.seq.loops.length < 6 →
        exec (.loop c body) s = .next (issued s (withSeq s s.stream { s.seq with
          loops := ⟨s.seq.pc + 8#56, body, BitVec.ofNat 32 n, 0#32⟩ :: s.seq.loops }))) ∧
      (2 ^ 32 ≤ n ∨ (0 < n ∧ 6 ≤ s.seq.loops.length) → exec (.loop c body) s = .next (takeTrap .illegal s.ir s))) ∧
    (∀ l r, s.seq.loops = l :: r →
      exec .breakl s = .next (branched (BitVec.ofNat 56 (l.start.toNat + 8 * l.body.toNat)) s
        (withSeq s s.stream { s.seq with loops := r }))) ∧
    (s.seq.loops = [] → exec .breakl s = .next (takeTrap .illegal s.ir s)) ∧
    (∀ d n rem,
      (∀ l, s.seq.loops[n.val]? = some l → Ready [] (sPushes d) s →
        exec (.lidx d n rem) s = .next (issued s (putS d 1 (nat (if rem then l.rem else l.idx).toNat) s))) ∧
      (s.seq.loops.length ≤ n.val → exec (.lidx d n rem) s = .next (takeTrap .illegal s.ir s)))

/-- R98 to R102, R104: the scalar words of both statements. -/
def Obligations.ScalarWords : Prop := Sys2Proof.Claims.ScalarArithmeticWords ∧ Sys2Proof.Claims.ScalarBitWords

/-- R103 to R106: compares, selects and the predicate words. -/
def Obligations.CompareAndPredicateWords : Prop := Sys2Proof.Claims.CompareAndSelectWords ∧ Sys2Proof.Claims.PredicateWords

/-- R84 to R91: jumps and loops. -/
def Obligations.ControlWords : Prop := Sys2Proof.Claims.JumpWords ∧ Sys2Proof.Claims.LoopWords

namespace Sys2Proof.Claims
open Sys2Proof.Machine

/-- The strand in the foreground holds the accumulator file (R189, R190). -/
def Holds (s : State) : Prop := s.core.accownValid = true ∧ s.core.accownHold = s.strand.h

/-- The special registers that RDS reads as words of bits, with their numbers (R74, R75, R189, R213). -/
def special (s : State) : List (Nat × W64) :=
  [(0x001, s.strand.vshape.zeroExtend 64), (0x002, s.strand.fpflags.zeroExtend 64), (0x003, s.strand.tstat.zeroExtend 64),
   (0x010, nat (s.core.accownHold * 2 ^ 32 + (if s.core.accownValid then 2 ^ 16 else 0)) ||| s.core.accownCtx.zeroExtend 64),
   (0x020, nat s.core.cyc), (0x021, s.strand.index.zeroExtend 64), (0x022, s.strand.unit.zeroExtend 64),
   (0x023, s.strand.launch.zeroExtend 64), (0x024, s.strand.ctx.zeroExtend 64),
   (0x025, nat (s.core.num * 2 ^ 16 + dieOf s.core.num)), (0x026, nat s.pkg.num),
   (0x030, s.progWord 0), (0x031, s.progWord 1), (0x032, s.progWord 2), (0x033, s.progWord 3),
   (0x040, s.strand.topk), (0x050, s.strand.ashape.zeroExtend 64)]

/-- The bits that a shape register keeps of a written word: rows at [12:8], columns at [5:0] (R108). -/
def wordShape (v : W64) : BitVec 13 := BitVec.ofNat 13 (v.toNat / 256 % 32 * 256 + v.toNat % 64)
def shapeLegal (v : W64) : Prop :=
  1 ≤ v.toNat / 256 % 32 ∧ v.toNat / 256 % 32 ≤ 16 ∧ 1 ≤ v.toNat % 64 ∧ v.toNat % 64 ≤ 32

/-- The topk words that a WRS admits (R137). -/
def topkLegal (v : W64) : Prop := v.toNat % 128 ≤ 64 ∧ v.toNat / 2 ^ 8 % 8 ≤ 3 ∧ v.toNat / 2 ^ 32 % 2 ^ 25 ≤ 2 ^ 24

end Sys2Proof.Claims

/-- R93: TRAP raises TRAP at the word, with tval the immediate sign-extended. -/
def Sys2Proof.Claims.TrapWord : Prop :=
  ∀ (imm : BitVec 24) (s : State), exec (.trap imm) s = .next (takeTrap .trap (int imm.toInt) s)

/-- R94: END ends its stream and empties its loop stack; when the other stream has ended too, the strand stops and its queues
are empty, and the tiles it holds are dead (R189). Results in flight land, those of the other stream too (log 70, DEDUCED); with none in
flight no register and no predicate changes. No memory or core changes but for what a commit of the A stream does. A recorded barrier
misuse is raised instead (R229). -/
def Sys2Proof.Claims.EndWord : Prop :=
  ∀ s : State,
    (s.seq.misuse = none → Calm s → ∃ u, exec .end_ s = .next u ∧
      ((s.strand.seq (Stream.other s.stream)).ended = true → Holds s → s.strand.h ≠ 0 → u.core = { s.core with acclive := 0#8 }) ∧
      ((s.strand.seq (Stream.other s.stream)).ended = false ∨ ¬Holds s → u.core = s.core) ∧ u.strands = s.strands ∧ u.pkg.mem = s.pkg.mem ∧
      (s.stream = .x → u.pkg = s.pkg) ∧
      (s.strand.h ≠ 0 → (u.strand.seq s.stream).ended = true ∧ (u.strand.seq s.stream).loops = [] ∧
        (u.strand.seq (Stream.other s.stream)).ended = (s.strand.seq (Stream.other s.stream)).ended ∧
        (u.strand.seq (Stream.other s.stream)).pc = (s.strand.seq (Stream.other s.stream)).pc ∧
        ((s.strand.seq (Stream.other s.stream)).ended = true → u.strand.phase = .stopping ∧ u.strand.lq = List.replicate 4 [] ∧
          u.strand.sq = List.replicate 4 []) ∧
        ((s.strand.seq (Stream.other s.stream)).ended = false → u.strand.phase = s.strand.phase) ∧
        (let l := landAll s.cyc s.strand
         (∀ st, (u.strand.seq st).regs = (l.seq st).regs ∧ (u.strand.seq st).preds = (l.seq st).preds) ∧ u.strand.v = l.v ∧ u.strand.o = l.o ∧
           u.strand.l = l.l ∧ u.strand.pend = l.pend ∧
           (s.strand.pend = [] → (∀ st, (u.strand.seq st).regs = (s.strand.seq st).regs ∧ (u.strand.seq st).preds = (s.strand.seq st).preds) ∧
             u.strand.v = s.strand.v ∧ u.strand.o = s.strand.o ∧ u.strand.l = s.strand.l)))) ∧
    (∀ m, s.seq.misuse = some m →
      exec .end_ s = .next (takeTrap .bar m (withSeq s s.stream { s.seq with misuse := none })))

/-- R95, R96: YIELD and CPOINT always complete and leave the address of the next word. YIELD is pre-empted when a pre-emption is
pending or a ready strand of an equal or higher class waits for the core, CPOINT when one is pending; CPOINT ends a strand that
a pending cancel covers (log 25, DEDUCED, where a bound is passed too). Otherwise they have no effect: nothing but the sequencer's place and the phase
changes. -/
def Sys2Proof.Claims.YieldAndCpointWords : Prop :=
  ∀ s : State, (s.strand.iterbound = 0 ∨ s.seq.iters + s.seq.used s.cyc ≤ s.strand.iterbound) →
    let stops := fun (b : Bool) => if b then { s with strand := s.strand.halt .preempting s.cyc } else s
    (s.readyWaits = true ↔ ∃ t ∈ s.strands, t.phase = .ready ∧ s.strandClass t ≤ s.strandClass s.strand ∧
      s.mayRun t.slot (s.strandClass t) s.core.num = true) ∧
    (∀ b, (stops b).strand.phase = (if b then .preempting else s.strand.phase)) ∧
    let only := fun (u : State) => u = { s with strand := u.strand } ∧
      { u.strand with a := s.strand.a, x := s.strand.x, phase := s.strand.phase } = s.strand ∧
      (∀ st, (u.strand.seq st).regs = (s.strand.seq st).regs ∧ (u.strand.seq st).preds = (s.strand.seq st).preds) ∧
      (u.strand.seq (Stream.other s.stream)).pc = (s.strand.seq (Stream.other s.stream)).pc ∧
      (u.strand.seq (Stream.other s.stream)).loops = (s.strand.seq (Stream.other s.stream)).loops ∧
      u.seq.loops = (nextWord s.seq s.cyc).loops ∧ u.seq.iters = 0
    ((∃ u, exec .yield s = .next u ∧ u.seq.pc = (nextWord s.seq s.cyc).pc ∧ u.core = s.core ∧ u.pkg = s.pkg ∧ only u ∧
      u.strand.phase = (if s.strand.preempt = true ∨ s.readyWaits = true then .preempting else s.strand.phase))) ∧
    (s.strand.cancelled = false → ∃ u, exec .cpoint s = .next u ∧ u.seq.pc = (nextWord s.seq s.cyc).pc ∧ u.core = s.core ∧
      u.pkg = s.pkg ∧ only u ∧ u.strand.phase = (if s.strand.preempt = true then .preempting else s.strand.phase)) ∧
    (s.strand.cancelled = true → ∃ u, exec .cpoint s = .next u ∧ u.strand.a.ended = true ∧ u.strand.x.ended = true ∧
      u.strand.cancelEnd = true ∧ u.strand.phase = .stopping ∧ u.strand.lq = List.replicate 4 [] ∧
      u.strand.sq = List.replicate 4 [] ∧ u.strand.record = none ∧ u.strand.queuePushed = [])

/-- R84: the first stream to arrive at GO waits there; with the other waiting, both words issue in one cycle and both iteration
counts become 0; after the other's END, ILLEGAL. -/
def Sys2Proof.Claims.GoWord : Prop :=
  ∀ s : State,
    let o := Stream.other s.stream
    let q := s.strand.seq o
    (q.ended = true → exec .go s = .next (takeTrap .illegal s.ir s)) ∧
    (q.ended = false → q.atGo = false → ∃ u, exec .go s = .next u ∧ u.seq.pc = s.seq.pc ∧ u.seq.atGo = true ∧
      u = withSeq s s.stream u.seq ∧ u.seq.loops = s.seq.loops ∧ u.seq.regs = s.seq.regs) ∧
    (q.ended = false → q.atGo = true → Calm s → (s.strand.iterbound = 0 ∨ q.iters + q.used s.cyc ≤ s.strand.iterbound) →
      exec .go s = .next (issuedReset s (withSeq s o { nextWord q s.cyc with iters := 0 })))

/-- R97, R75: RDS reads the register of its number; a read of acclive is a matrix use (R190), shown for the file's holder. -/
def Sys2Proof.Claims.ReadSpecialWord : Prop :=
  ∀ (d : SOp) (s : State), Ready [] (sPushes d) s → Calm s →
    (∀ e ∈ special s, exec (.rds d (BitVec.ofNat 12 e.1)) s = .next (issued s (putS d 1 e.2 s))) ∧
    (Holds s → exec (.rds d 0x011#12) s = .next (issued s (putS d 1 (s.core.acclive.zeroExtend 64) s)))

/-- R97: WRS writes a writable register whose own map admits the value, traps PRIV for a read-only number of R74 and ILLEGAL for a value
that the map does not admit; an unassigned number is ILLEGAL when the word is decoded. -/
def Sys2Proof.Claims.WriteSpecialWord : Prop :=
  ∀ (s1 : SOp) (s : State), Calm s →
    let u := popped [s1] s
    let wrs := fun n => exec (.wrs n s1) s
    (∀ n : BitVec 12, n.toNat ∈ [0x010, 0x020, 0x021, 0x022, 0x023, 0x024, 0x025, 0x026, 0x030, 0x031, 0x032, 0x033] → wrs n = .next (takeTrap .priv (nat n.toNat) s)) ∧
    (Ready ([s1].flatMap sPops) [] s → ∃ v, vals [s1] s = [v] ∧
      (shapeLegal v → wrs 0x001#12 = .next (issued s { u with strand := { u.strand with vshape := wordShape v } }) ∧
        wrs 0x050#12 = .next (issued s { u with strand := { u.strand with ashape := wordShape v } })) ∧
      (¬shapeLegal v → wrs 0x001#12 = .next (takeTrap .illegal s.ir s) ∧ wrs 0x050#12 = .next (takeTrap .illegal s.ir s)) ∧
      wrs 0x002#12 = .next (issued s { u with strand := { u.strand with fpflags := BitVec.ofNat 5 v.toNat } }) ∧
      wrs 0x003#12 = .next (issued s { u with strand := { u.strand with tstat := BitVec.ofNat 3 v.toNat } }) ∧
      (Holds s → wrs 0x011#12 = .next (issued s { u with core := { u.core with acclive := BitVec.ofNat 8 v.toNat } })) ∧
      (topkLegal v → wrs 0x040#12 = .next (issued s { u with strand := { u.strand with
        topk := v &&& 0x01FFFFFF0000077F#64, topbuf := [], pend := u.strand.pend.filter fun f => f.dest != .topk } })) ∧
      (¬topkLegal v → wrs 0x040#12 = .next (takeTrap .illegal s.ir s)))

/-- R93, R94: TRAP and END. -/
def Obligations.StopWords : Prop := Sys2Proof.Claims.TrapWord ∧ Sys2Proof.Claims.EndWord

/-- R67, R84, R95, R96: the words that pass a point of a stream. -/
def Obligations.PassingWords : Prop := Sys2Proof.Claims.YieldAndCpointWords ∧ Sys2Proof.Claims.GoWord

/-- R97: RDS and WRS. -/
def Obligations.SpecialRegisterWords : Prop := Sys2Proof.Claims.ReadSpecialWord ∧ Sys2Proof.Claims.WriteSpecialWord

namespace Sys2Proof.Claims
open Sys2Proof.Machine

-- ## Vector words

/-- Lane b of width w of a container (R110). -/
def laneAt (w : Nat) (c : W32) (b : Nat) : Nat := c.toNat / 2 ^ (w * b) % 2 ^ w

/-- A word that works lane by lane: `f` takes the lanes of the sources in field order and gives a lane and its flags. -/
structure LaneForm where
  d : VDst
  srcs : List VSrc
  w : Nat
  L : Nat
  f : List Nat → Nat × BitVec 5

/-- A lane word completes: every lane of every element whose guard is true is `f` of the lanes of the sources, and a flag is
raised exactly when one of these lanes raises it (R110, R112, R115). -/
def LaneDone (i : Instr) (F : LaneForm) (s : State) : Prop :=
  Ready (F.srcs.flatMap vPops) (vPushes F.d) s → Calm s →
    let m := guardMask s
    let r := fun p b => F.f ((takeVs F.srcs s).1.map fun v => laneAt F.w (v.getD p 0#32) b)
    ∃ v fl, exec i s = .next (issued s (putFlags fl 0#3 F.L (putV F.d m v F.L (takeVs F.srcs s).2))) ∧
      (∀ p, p < 512 → m.getLsbD p = true → ∀ b, b < 32 / F.w → laneAt F.w (v.getD p 0#32) b = (r p b).1 % 2 ^ F.w) ∧
      ∀ k, fl.getLsbD k = true ↔ ∃ p b, p < 512 ∧ m.getLsbD p = true ∧ b < 32 / F.w ∧ (r p b).2.getLsbD k = true

/-- The signed integer of a lane of width w, and an integer as such a lane, its low bits or clamped to its range (R33). -/
def sint (w n : Nat) : Int := (BitVec.ofNat w n).toInt
def narrow (w : Nat) (clamp : Bool) (i : Int) : Nat :=
  (BitVec.ofInt w (if clamp then max (-2 ^ (w - 1)) (min (2 ^ (w - 1) - 1) i) else i)).toNat

/-- i / 2^n rounded to an integer (R32, R119). -/
def quotient (r : Rnd) (i : Int) (n : Nat) : Int :=
  let q := i / 2 ^ n
  let rest := i - q * 2 ^ n
  match r with
  | .rd => q
  | .ru => if rest = 0 then q else q + 1
  | .rz => if rest = 0 ∨ 0 ≤ i then q else q + 1
  | .rn => if 2 * rest < 2 ^ n ∨ (2 * rest = 2 ^ n ∧ q % 2 = 0) then q else q + 1

/-- A function of one, two or three lanes as integers that raises no flag. -/
def ints (w : Nat) (f : List Int → Nat) (l : List Nat) : Nat × BitVec 5 := (f (l.map (sint w)), 0#5)
def i1 (f : Int → Nat) : List Int → Nat
  | [a] => f a
  | _ => 0
def i2 (f : Int → Int → Nat) : List Int → Nat
  | [a, b] => f a b
  | _ => 0
def i3 (f : Int → Int → Int → Nat) : List Int → Nat
  | [a, b, c] => f a b c
  | _ => 0

/-- The lane words on integer types (R115, R116, R119). -/
def intForm : Instr → Option LaneForm
  | .vadd d a b m => if m.ty.isF then none else
      let w := m.ty.width; some ⟨d, [a, b], w, 2, ints w (i2 fun x y => narrow w m.sat (x + y))⟩
  | .vsub d a b m => if m.ty.isF then none else
      let w := m.ty.width; some ⟨d, [a, b], w, 2, ints w (i2 fun x y => narrow w m.sat (x - y))⟩
  | .vmul d a b m => if m.ty.isF then none else
      let w := m.ty.width; some ⟨d, [a, b], w, 3, ints w (i2 fun x y => narrow w m.sat (x * y))⟩
  | .vfma d a b c m => if m.ty.isF then none else
      let w := m.ty.width; some ⟨d, [a, b, c], w, 4, ints w (i3 fun x y z => narrow w m.sat (x * y + z))⟩
  | .vfms d a b c m => if m.ty.isF then none else
      let w := m.ty.width; some ⟨d, [a, b, c], w, 4, ints w (i3 fun x y z => narrow w m.sat (x * y - z))⟩
  | .vmin d a b t => if t.isF then none else
      let w := t.width; some ⟨d, [a, b], w, 2, ints w (i2 fun x y => narrow w false (min x y))⟩
  | .vmax d a b t => if t.isF then none else
      let w := t.width; some ⟨d, [a, b], w, 2, ints w (i2 fun x y => narrow w false (max x y))⟩
  | .vabs d a t sat => if t.isF then none else
      let w := t.width; some ⟨d, [a], w, 2, ints w (i1 fun x => narrow w sat x.natAbs)⟩
  | .vneg d a t sat => if t.isF then none else
      let w := t.width; some ⟨d, [a], w, 2, ints w (i1 fun x => narrow w sat (-x))⟩
  | .vshl d a b t sat =>
      let w := t.width; some ⟨d, [a, b], w, 2, fun l => match l with
        | [x, y] => (narrow w sat (sint w x * 2 ^ min y w), 0#5)
        | _ => (0, 0#5)⟩
  | .vshr u d a b t rnd =>
      let w := t.width; some ⟨d, [a, b], w, 2, fun l => match l with
        | [x, y] => (narrow w false (quotient rnd (if u then (x : Int) else sint w x) (min y w)), 0#5)
        | _ => (0, 0#5)⟩
  | _ => none

/-- A function of one, two or three lanes. -/
def l1 (f : Nat → Nat × BitVec 5) : List Nat → Nat × BitVec 5
  | [a] => f a
  | _ => (0, 0#5)
def l2 (f : Nat → Nat → Nat × BitVec 5) : List Nat → Nat × BitVec 5
  | [a, b] => f a b
  | _ => (0, 0#5)
def l3 (f : Nat → Nat → Nat → Nat × BitVec 5) : List Nat → Nat × BitVec 5
  | [a, b, c] => f a b c
  | _ => (0, 0#5)

/-- A value of the exact operation delivered in a float type with its flags: NaN operands and invalid cases first (R38, R39),
then RoundToF and sat (R32, R33). -/
def fl (t : Ty) (rnd : Rnd) (sat : Bool) (r : FNum × Bool) : Nat × BitVec 5 := deliverOp (fmtOf t) rnd sat r
def val (t : Ty) (n : Nat) : FNum := Machine.decodeF (fmtOf t) n

/-- The least or greatest of two lanes of a float type, −0 below +0; a NaN operand gives the first NaN quieted (R116). -/
def floatPick (t : Ty) (least : Bool) (x y : Nat) : Nat × BitVec 5 :=
  let a := val t x
  let b := val t y
  let less := fun (p q : FNum) => ltX p q || (p.isZero && q.isZero && p.neg? && !q.neg?)
  if a.isNaN || b.isNaN then
    ((deliverF (fmtOf t) .rn false (quiet (if a.isNaN then a else b))).1, if a.isSNaN || b.isSNaN then 0x10#5 else 0#5)
  else ((if least then (if less b a then y else x) else (if less a b then y else x)), 0#5)

/-- The class of a float lane from its fields (R124). -/
def floatClass (t : Ty) (x : Nat) : Nat :=
  match val t x with
  | .nan b f => if (FNum.nan b f).isSNaN then 0 else 1
  | .inf b => if b then 2 else 9
  | .fin b m _ =>
    let normal := !decide (m < 2 ^ (fmtOf t).p)
    if m = 0 then (if b then 5 else 6) else if b then (if normal then 3 else 4) else if normal then 8 else 7

/-- A value times 2^k. -/
def scaleBy (k : Int) : FNum → FNum
  | .fin b m e => .fin b m (e + k)
  | .nan b f => .nan b f
  | .inf b => .inf b

/-- The lane words on floating-point types (R115, R116, R124). -/
def floatForm : Instr → Option LaneForm
  | .vadd d a b m => if m.ty.isF then some ⟨d, [a, b], m.ty.width, 2, l2 fun x y =>
      fl m.ty m.rnd m.sat (addX m.rnd (val m.ty x) (val m.ty y))⟩ else none
  | .vsub d a b m => if m.ty.isF then some ⟨d, [a, b], m.ty.width, 2, l2 fun x y =>
      fl m.ty m.rnd m.sat (addX m.rnd (val m.ty x) (negX (val m.ty y)))⟩ else none
  | .vmul d a b m => if m.ty.isF then some ⟨d, [a, b], m.ty.width, 3, l2 fun x y =>
      fl m.ty m.rnd m.sat (mulX (val m.ty x) (val m.ty y))⟩ else none
  | .vfma d a b c m => if m.ty.isF then some ⟨d, [a, b, c], m.ty.width, 4, l3 fun x y z =>
      fl m.ty m.rnd m.sat (fmaX m.rnd (val m.ty x) (val m.ty y) (val m.ty z))⟩ else none
  | .vfms d a b c m => if m.ty.isF then some ⟨d, [a, b, c], m.ty.width, 4, l3 fun x y z =>
      fl m.ty m.rnd m.sat (fmaX m.rnd (val m.ty x) (val m.ty y) (val m.ty (z ^^^ 2 ^ (m.ty.width - 1))))⟩ else none
  | .vmin d a b t => if t.isF then some ⟨d, [a, b], t.width, 2, l2 (floatPick t true)⟩ else none
  | .vmax d a b t => if t.isF then some ⟨d, [a, b], t.width, 2, l2 (floatPick t false)⟩ else none
  | .vabs d a t _ => if t.isF then some ⟨d, [a], t.width, 2, l1 fun x => (x % 2 ^ (t.width - 1), 0#5)⟩ else none
  | .vneg d a t _ => if t.isF then some ⟨d, [a], t.width, 2, l1 fun x => (x ^^^ 2 ^ (t.width - 1), 0#5)⟩ else none
  | .vclass d a t => if t.isF then some ⟨d, [a], t.width, 2, l1 fun x => (floatClass t x, 0#5)⟩ else none
  | .vscale d a b m => if m.ty.isF then some ⟨d, [a, b], m.ty.width, 3, l2 fun x y =>
      deliverF (fmtOf m.ty) m.rnd m.sat (scaleBy (max (-2000) (min 2000 (sint m.ty.width y))) (val m.ty x))⟩ else none
  | _ => none

end Sys2Proof.Claims

/-- R115, R116, R119: the lane words on s32, s16 and s8: the exact result of the lanes as signed integers, its low bits or,
with .sat, clamped. No flag is raised. VSHR by the lane's width follows the pseudocode of R119 (log entry 90, DEDUCED). -/
def Obligations.IntegerLaneWords : Prop :=
  ∀ (i : Instr) (F : LaneForm) (s : State), intForm i = some F → LaneDone i F s

/-- R115, R116, R124: the lane words on float types: the exact operation on the lanes' values, delivered once. VSCALE's
exponent clipped at 2000 either way is log entry 65 (DEDUCED). -/
def Obligations.FloatLaneWords : Prop :=
  ∀ (i : Instr) (F : LaneForm) (s : State), floatForm i = some F → LaneDone i F s

namespace Sys2Proof.Claims
open Sys2Proof.Machine

/-- A vector word that leaves flags alone completes: its result is `g` at every element whose guard is true. -/
def WholeDone (i : Instr) (d : VDst) (pops : List Pop) (L : Nat) (after : State) (g : Nat → W32) (s : State) : Prop :=
  Ready pops (vPushes d) s → Calm s →
    ∃ v, exec i s = .next (issued s (putV d (guardMask s) v L after)) ∧
      ∀ p, p < 512 → (guardMask s).getLsbD p = true → v.getD p 0#32 = g p

/-- Container p of the n-th vector source, and the sources of vector words in field order. -/
def src (os : List VSrc) (s : State) (n p : Nat) : W32 := ((takeVs os s).1.getD n VReg.zero).getD p 0#32
def vpops (os : List VSrc) : List Pop := os.flatMap vPops
def vpopped (os : List VSrc) (s : State) : State := (takeVs os s).2

/-- The position of the element of linear index k in a shape of C columns, and the linear index of a position (R105). -/
def element (C k : Nat) : Nat := 32 * (k / C) + k % C
def index (C p : Nat) : Nat := p / 32 * C + p % 32

/-- Lanes of width w packed into a container. -/
def lanesOf (w : Nat) (f : Nat → Nat) : W32 := BitVec.ofNat 32 ((List.range (32 / w)).map fun b => f b % 2 ^ w * 2 ^ (w * b)).sum

end Sys2Proof.Claims

/-- R118, R123: the words on whole containers: VAND, VOR, VXOR, VSEL, VMOV, VPERM and VROT. -/
def Obligations.ContainerWords : Prop :=
  ∀ (d : VDst) (a b : VSrc) (s : State),
    let C := shCols s.strand.vshape
    let R := shRows s.strand.vshape
    let x := src [a, b] s 0
    let y := src [a, b] s 1
    let done := fun i L g => WholeDone i d (vpops [a, b]) L (vpopped [a, b] s) g s
    done (.vand d a b) 2 (fun p => x p &&& y p) ∧
    done (.vor d a b) 2 (fun p => x p ||| y p) ∧
    done (.vxor d a b) 2 (fun p => x p ^^^ y p) ∧
    (∀ g, done (.vsel d a b g) 2 (fun p => if (s.strand.x.pred g).getLsbD p then x p else y p)) ∧
    done (.vperm d a b) 4 (fun p => let c := (y p).toNat; if c < R * C then x (element C c) else 0#32) ∧
    WholeDone (.vmov d a) d (vpops [a]) 2 (vpopped [a] s) (src [a] s 0) s ∧
    ∀ row k, let n := ((takeSs [k] (vpopped [a] s)).1.headD 0#64).toNat
      WholeDone (.vrot row d a k) d (vpops [a] ++ [k].flatMap sPops) 4 (popped [k] (vpopped [a] s)) (fun p =>
        if row then src [a] s 0 (32 * ((p / 32 + n % R) % R) + p % 32)
        else src [a] s 0 (32 * (p / 32) + (p % 32 + n % C) % C)) s

/-- R121, R123: VBCAST fills every lane with the low bits of its scalar; VIOTA writes base + n × step to lane n of the shape;
VINS replaces the element of an index. -/
def Obligations.FillingWords : Prop :=
  ∀ (d : VDst) (s1 s2 : SOp) (s : State),
    let C := shCols s.strand.vshape
    (∀ t, WholeDone (.vbcast d s1 t) d ([s1].flatMap sPops) 2 (popped [s1] s)
      (fun _ => lanesOf t.width fun _ => ((vals [s1] s).headD 0#64).toNat) s) ∧
    (∀ t sat, WholeDone (.viota d s1 s2 t sat) d ([s1, s2].flatMap sPops) 2 (popped [s1, s2] s)
      (fun p => lanesOf t.width fun b => narrow t.width sat
        (((vals [s1, s2] s).getD 0 0#64).toInt + ((32 / t.width * index C p + b : Nat) : Int) * ((vals [s1, s2] s).getD 1 0#64).toInt)) s) ∧
    ∀ a, let u := vpopped [a] s
      WholeDone (.vins d a s1 s2) d (vpops [a] ++ [s1, s2].flatMap sPops) 2 (popped [s1, s2] u)
        (fun p => if index C p = ((vals [s1, s2] u).getD 1 0#64).toNat then BitVec.ofNat 32 ((vals [s1, s2] u).getD 0 0#64).toNat
          else src [a] s 0 p) s

/-- R122, R108, R123: VTRN transposes a shape of at most 16 columns and traps ILLEGAL for a wider one; VSHAPE sets vshape, claims
a last-result slot and traps ILLEGAL for a shape that vshape does not admit; VEXT delivers one element sign-extended and claims a
last-result slot with it. With a false guard at element (0, 0) VEXT leaves its register, pushes 0 to a queue (R61), and the slot holds
what the destination holds, of a register the landed value: the model's choice (DESIGN CHOICE, log 91). -/
def Obligations.ShapeWords : Prop :=
  ∀ s : State,
    let C := shCols s.strand.vshape
    let R := shRows s.strand.vshape
    (∀ d a, 16 < C → exec (.vtrn d a) s = .next (takeTrap .illegal s.ir s)) ∧
    (∀ d a, C ≤ 16 → Ready (vpops [a]) (vPushes d) s → Calm s → ∃ m v,
      exec (.vtrn d a) s = .next (issued s (putVsh (BitVec.ofNat 13 (256 * C + R)) d m v 4 (vpopped [a] s))) ∧
      ∀ i j, i < 16 → j < 32 →
        (16 ≤ j → m.getLsbD (32 * i + j) = false) ∧
        (j < 16 → m.getLsbD (32 * i + j) = (guardMask s).getLsbD (32 * j + i) ∧
          ((guardMask s).getLsbD (32 * j + i) = true → v.getD (32 * i + j) 0#32 = src [a] s 0 (32 * j + i)))) ∧
    (∀ rows cols, let ok := 1 ≤ rows.toNat ∧ rows.toNat ≤ 16 ∧ 1 ≤ cols.toNat ∧ cols.toNat ≤ 32
      (¬ok → exec (.vshape rows cols) s = .next (takeTrap .illegal s.ir s)) ∧
      (ok → Calm s →
        let u := pushLast VReg.zero 1 s
        exec (.vshape rows cols) s = .next (issued s
          (if guardAt (hdrOf s.ir) s.strand.x 0 then { u with strand := { u.strand with vshape := BitVec.ofNat 13 (256 * rows.toNat + cols.toNat) } } else u)))) ∧
    ∀ d a k, Ready (vpops [a] ++ [k].flatMap sPops) (sPushes d) s → Calm s →
      let u := vpopped [a] s
      let n := ((vals [k] u).headD 0#64).toNat
      let w := if n < R * C then src [a] s 0 (element C n) else 0#32
      let done := fun (last : W64) (t : State) => exec (.vext d a k) s = .next (issued s (pushLast (VReg.zero.set 0 (last.truncate 32)) 2 t))
      let on := guardAt (hdrOf s.ir) s.strand.x 0
      (on = true → done (int w.toInt) (putS d 2 (int w.toInt) (popped [k] u))) ∧
      (on = false → (∀ n, d = .reg n → done (s.seq.get n) (popped [k] u)) ∧
        ∀ q, d = .sq q ∨ d = .lq q → done 0#64 (putS d 2 0#64 (popped [k] u)))

/-- R117, R130: VCMP and VTCMP write 1 to an element where the condition holds in every lane of it; an unordered float pair meets
only ne and the unordered test, and a signalling NaN raises invalid. -/
def Obligations.CompareVectorWords : Prop :=
  ∀ (pd : Fin 8) (a b : VSrc) (s : State), Ready (vpops [a, b]) [] s → Calm s →
    let m := guardMask s
    let done := fun i (w : Nat) (holds : Nat → Nat → Bool) (raises : Nat → Nat → Bool) =>
      let at_ := fun n p k => laneAt w (src [a, b] s n p) k
      ∃ bits fl, exec i s = .next (issued s (putFlags fl 0#3 2 (putVP pd m bits 2 (vpopped [a, b] s)))) ∧
        (∀ p, p < 512 → m.getLsbD p = true →
          (bits.getLsbD p = true ↔ ∀ k, k < 32 / w → holds (at_ 0 p k) (at_ 1 p k) = true)) ∧
        fl = (if (List.range 512).any fun p => m.getLsbD p && (List.range (32 / w)).any fun k => raises (at_ 0 p k) (at_ 1 p k)
          then 0x10#5 else 0#5)
    let ordered := fun (c : Nat) (lt eq : Bool) =>
      c = 0 ∧ eq ∨ c = 1 ∧ ¬eq ∨ c = 2 ∧ lt ∨ c = 3 ∧ (lt ∨ eq) ∨ c = 4 ∧ ¬(lt ∨ eq) ∨ c = 5 ∧ ¬lt
    (∀ (c : Fin 11) (t : Ty), t.isF = true → c.val < 6 ∨ c = 10 → done (.vcmp pd a b c t) t.width
      (fun x y => if (val t x).isNaN || (val t y).isNaN then c == 1 || c == 10
        else decide (ordered c.val (ltX (val t x) (val t y)) (!ltX (val t x) (val t y) && !ltX (val t y) (val t x))))
      (fun x y => (val t x).isSNaN || (val t y).isSNaN)) ∧
    (∀ (c : Fin 11) (t : Ty), t.isF = false → c.val < 10 → done (.vcmp pd a b c t) t.width
      (fun x y => if c.val < 6 then decide (ordered c.val (sint t.width x < sint t.width y) (sint t.width x = sint t.width y))
        else decide (ordered (c.val - 4) (x < y) (x = y)))
      (fun _ _ => false)) ∧
    (∀ (c : Fin 7) (t : Ty), done (.vtcmp pd a b c t) t.width
      (fun x y => if c.val < 6 then decide (ordered c.val (sint t.width x < sint t.width y) (sint t.width x = sint t.width y))
        else decide (x = 2 ^ (t.width - 1)))
      (fun _ _ => false))

namespace Sys2Proof.Claims
open Sys2Proof.Machine

/-- A vector word completes with value `g` and flags `raise` at every element whose guard is true: a bit of fpflags or of tstat is
raised exactly when one of these elements raises it (R36, R112). -/
def VecDone (i : Instr) (d : VDst) (srcs : List VSrc) (L : Nat) (g : Nat → W32) (raise : Nat → Flags2) (s : State) : Prop :=
  Ready (vpops srcs) (vPushes d) s → Calm s →
    let m := guardMask s
    ∃ v fl tl, exec i s = .next (issued s (putFlags fl tl L (putV d m v L (vpopped srcs s)))) ∧
      (∀ p, p < 512 → m.getLsbD p = true → v.getD p 0#32 = g p) ∧
      (∀ k, fl.getLsbD k = true ↔ ∃ p, p < 512 ∧ m.getLsbD p = true ∧ (raise p).1.getLsbD k = true) ∧
      ∀ k, tl.getLsbD k = true ↔ ∃ p, p < 512 ∧ m.getLsbD p = true ∧ (raise p).2.getLsbD k = true

/-- The lanes of width w of row i of a source, in row lane order (R125). -/
def rowOf (w C : Nat) (x : Nat → W32) (i : Nat) : List Nat :=
  (List.range C).flatMap fun j => (List.range (32 / w)).map fun b => laneAt w (x (32 * i + j)) b

/-- Flags of a list of results together, and no flag. -/
def both (l : List (Nat × BitVec 5)) : BitVec 5 := l.foldl (fun a x => a ||| x.2) 0#5
def quietly (n : Nat) : Nat × BitVec 5 := (n, 0#5)

/-- A lane of a float type widened to FP32, a signalling NaN quieted with invalid (R37, R50). -/
def wide (t : Ty) (n : Nat) : Nat × BitVec 5 := deliverF fmtF32 .rn false (val t n)

/-- The greatest or least of FP32 codes taken one after the other (R116). -/
def pickRow (least : Bool) : List Nat → Nat × BitVec 5
  | [] => (0, 0#5)
  | x :: r => r.foldl (fun a y => let q := floatPick .f32 least a.1 y; (q.1, a.2 ||| q.2)) (x, 0#5)

/-- VRED of the lanes of a row (R114, R125): integers exactly, narrowed to s32; floats widened, and then summed by TreeSum (R52) or
picked. -/
def reduced (op : RedOp) (m : Md) (ls : List Nat) : Nat × BitVec 5 :=
  if m.ty.isF then
    let w : List (Nat × BitVec 5) := ls.map (wide m.ty)
    let r : Nat × BitVec 5 := match op with
      | .add => let q := treeSum m.rnd 8 (w.map fun (x : Nat × BitVec 5) => val .f32 x.1); ((deliverF fmtF32 .rn false q.1).1, q.2)
      | .max => pickRow false (w.map (·.1))
      | .min => pickRow true (w.map (·.1))
    (r.1, both w ||| r.2)
  else
    let v := ls.map (sint m.ty.width)
    quietly (narrow 32 m.sat (match op with
      | .add => v.sum
      | .max => v.tail.foldl max (v.headD 0)
      | .min => v.tail.foldl min (v.headD 0)))

/-- One step of VSCAN on 32-bit lanes, and the running results of a row (R126). -/
def scanStep (op : RedOp) (m : Md) (a b : Nat) : Nat × BitVec 5 :=
  match op with
  | .add => if m.ty.isF then fl m.ty m.rnd m.sat (addX m.rnd (val m.ty a) (val m.ty b)) else quietly (narrow 32 m.sat (sint 32 a + sint 32 b))
  | .max => if m.ty.isF then floatPick m.ty false a b else quietly (narrow 32 false (max (sint 32 a) (sint 32 b)))
  | .min => if m.ty.isF then floatPick m.ty true a b else quietly (narrow 32 false (min (sint 32 a) (sint 32 b)))
def scanTo (op : RedOp) (m : Md) (l : List Nat) : Nat → Nat × BitVec 5
  | 0 => if m.ty.isF then wide m.ty (l.headD 0) else quietly (l.headD 0)
  | j + 1 => scanStep op m (scanTo op m l j).1 (l.getD (j + 1) 0)

/-- The sum of products of two rows of integer lanes. -/
def sumProducts (w : Nat) (a b : List Nat) : Int := ((a.zip b).map fun q => sint w q.1 * sint w q.2).sum

end Sys2Proof.Claims

/-- R114, R125, R126, R134: VRED, VSCAN, VDOT and VTDOT. VRED writes the reduction of a row to each of its elements, VSCAN the
running results, VDOT s3 plus the products of the two rows summed (exactly for integers, by TreeSum and one RoundToFP32 for
floats), VTDOT s3 plus the lanes of s2 with the signs of the ternary lanes of s1. -/
def Obligations.RowWords : Prop :=
  ∀ (d : VDst) (a b c : VSrc) (s : State),
    let C := shCols s.strand.vshape
    (∀ op m, let r := fun p => reduced op m (rowOf m.ty.width C (src [a] s 0) (p / 32))
      VecDone (.vred op d a m) d [a] 8 (fun p => BitVec.ofNat 32 (r p).1) (fun p => ((r p).2, 0#3)) s) ∧
    (∀ op m, m.ty.is32 = true → let r := fun p k => scanTo op m (rowOf 32 C (src [a] s 0) (p / 32)) k
      VecDone (.vscan op d a m) d [a] 12 (fun p => BitVec.ofNat 32 (r p (p % 32)).1)
        (fun p => (both ((List.range (p % 32 + 1)).map (r p)), 0#3)) s) ∧
    (∀ m, m.ty.isF = false → VecDone (.vdot d a b c m) d [a, b, c] 8 (fun p => BitVec.ofNat 32 (narrow 32 m.sat
        ((src [a, b, c] s 2 p).toInt + sumProducts m.ty.width (rowOf m.ty.width C (src [a, b, c] s 0) (p / 32)) (rowOf m.ty.width C (src [a, b, c] s 1) (p / 32)))))
      (fun _ => (0#5, 0#3)) s) ∧
    (∀ m, m.ty.isF = true →
      let ps := fun p => ((rowOf m.ty.width C (src [a, b, c] s 0) (p / 32)).zip (rowOf m.ty.width C (src [a, b, c] s 1) (p / 32))).map
        fun q => mulX (val m.ty q.1) (val m.ty q.2)
      let tree := fun p => treeSum m.rnd 8 ((ps p).map (·.1))
      let r := fun p => fl .f32 m.rnd false (addX m.rnd (val .f32 (src [a, b, c] s 2 p).toNat) (tree p).1)
      VecDone (.vdot d a b c m) d [a, b, c] 8 (fun p => BitVec.ofNat 32 (r p).1)
        (fun p => ((if (ps p).any (·.2) then 0x10#5 else 0#5) ||| (tree p).2 ||| (r p).2, 0#3)) s) ∧
    ∀ sat, VecDone (.vtdot d a b c sat) d [a, b, c] 8 (fun p => BitVec.ofNat 32 (narrow 32 sat ((src [a, b, c] s 2 p).toInt +
        (((rowOf 8 C (src [a, b, c] s 0) (p / 32)).zip (rowOf 8 C (src [a, b, c] s 1) (p / 32))).map fun q => (sint 8 q.1).sign * sint 8 q.2).sum)))
      (fun _ => (0#5, 0#3)) s

namespace Sys2Proof.Claims
open Sys2Proof.Machine

/-- Lane k of a vector in linear order (R110). -/
def linearLane (w C : Nat) (x : Nat → W32) (k : Nat) : Nat := laneAt w (x (element C (k / (32 / w)))) (k % (32 / w))

/-- The flags of a list of results together. -/
def bothFlags (l : List (Nat × Flags2)) : Flags2 := l.foldl (fun a x => (a.1 ||| x.2.1, a.2 ||| x.2.2)) (0#5, 0#3)

/-- A word that converts lanes of width ws to lanes of width wd, part by part (R120): a narrower source fills one part of the
result, a wider one is taken part by part. -/
def Converts (i : Instr) (d : VDst) (a : VSrc) (ws wd part : Nat) (f : Nat → Nat × Flags2) (s : State) : Prop :=
  let C := shCols s.strand.vshape
  let N := shRows s.strand.vshape * C
  let lane := fun n =>
    if 32 / wd ≤ 32 / ws then f (linearLane ws C (src [a] s 0) (part * N * (32 / wd) + n))
    else if part * N * (32 / ws) ≤ n ∧ n < (part + 1) * N * (32 / ws) then f (linearLane ws C (src [a] s 0) (n - part * N * (32 / ws)))
    else (0, 0#5, 0#3)
  let lanes := fun p => (List.range (32 / wd)).map fun b => lane (32 / wd * index C p + b)
  i.legal .x = true →
    VecDone i d [a] 3 (fun p => lanesOf wd fun b => ((lanes p).getD b (0, 0#5, 0#3)).1) (fun p => bothFlags (lanes p)) s

/-- VCvt of one lane (R50): float to float by RoundToF, float to integer by R41, integer to float by RoundToF, integer to integer
narrowed. -/
def convertLane (src dst : Ty) (rnd : Rnd) (sat : Bool) (n : Nat) : Nat × BitVec 5 :=
  match src.isF, dst.isF with
  | true, true => deliverF (fmtOf dst) rnd sat (val src n)
  | true, false => deliverInt dst.width rnd (val src n)
  | false, true => deliverF (fmtOf dst) rnd sat (ofSInt (sint src.width n))
  | false, false => (narrow dst.width sat (sint src.width n), 0#5)

/-- The conversions of VTF (R120): source width, result width, one lane. -/
def tapered (conv : Fin 6) (rnd : Rnd) : Nat × Nat × (Nat → Nat × Flags2) :=
  let out := fun (t : Ty) (x : Option FNum) => let r := deliverF (fmtOf t) .rn false (x.getD canonNaN); ((r.1, r.2, 0#3) : Nat × Flags2)
  match conv with
  | 0 => (32, 16, fun n => tfDeliver 16 1 rnd (some (val .f32 n)))
  | 1 => (16, 32, fun n => out .f32 (tfDecode 16 1 n))
  | 2 => (16, 8, fun n => tfDeliver 8 0 rnd (some (val .bf16 n)))
  | 3 => (8, 16, fun n => out .bf16 (tfDecode 8 0 n))
  | 4 => (32, 8, fun n => tfDeliver 8 0 rnd (some (val .f32 n)))
  | 5 => (8, 32, fun n => out .f32 (tfDecode 8 0 n))

/-- Byte n of the linear byte stream of a source, and block m of it (R131). -/
def streamByte (C : Nat) (x : Nat → W32) (n : Nat) : Byte := BitVec.ofNat 8 (linearLane 8 C x n)
def streamBlock (C : Nat) (x : Nat → W32) (m : Nat) : List Byte := (List.range 12).map fun k => streamByte C x (12 * m + k)

end Sys2Proof.Claims

/-- R120, R131 to R133: VCVT, VTF, VFB4D, VFB4E and VTRIT, with the ILLEGAL of a block count that is not whole or does not fit. -/
def Obligations.ConversionWords : Prop :=
  ∀ (d : VDst) (a : VSrc) (s : State),
    let C := shCols s.strand.vshape
    let N := shRows s.strand.vshape * C
    let x := src [a] s 0
    let fits := fun (t : Ty) (part : Nat) => N * (32 / t.width) % 16 = 0 ∧ 12 * (part + 1) * (N * (32 / t.width) / 16) ≤ 4 * N
    (∀ from_ (part : Fin 4) m, Converts (.vcvt d a from_ part m) d a from_.width m.ty.width part.val
      (fun n => let r := convertLane from_ m.ty m.rnd m.sat n; (r.1, r.2, 0#3)) s) ∧
    (∀ conv (part : Fin 4) rnd, let t := tapered conv rnd; Converts (.vtf d a conv part rnd) d a t.1 t.2.1 part.val t.2.2 s) ∧
    (∀ (part : Fin 5) m,
      let B := N * (32 / m.ty.width) / 16
      let lane := fun n =>
        let v := fb4Decode (streamBlock C x (part.val * B + n / 16)) (n % 16)
        let r := deliverF (fmtOf m.ty) m.rnd m.sat v.1
        (r.1, (r.2, v.2))
      let lanes := fun p => (List.range (32 / m.ty.width)).map fun b => lane (32 / m.ty.width * index C p + b)
      (¬fits m.ty part.val → exec (.vfb4d d a part m) s = .next (takeTrap .illegal s.ir s)) ∧
      (fits m.ty part.val → VecDone (.vfb4d d a part m) d [a] 4
        (fun p => lanesOf m.ty.width fun b => ((lanes p).getD b (0, 0#5, 0#3)).1) (fun p => bothFlags (lanes p)) s)) ∧
    (∀ (part : Fin 5) t rnd,
      let B := N * (32 / t.width) / 16
      let block := fun k => fb4Encode ((List.range 16).map fun i => val t (linearLane t.width C x (16 * k + i))) rnd
      let inside := fun p => part.val * B ≤ index C p / 3 ∧ index C p / 3 < (part.val + 1) * B
      let own := fun p => block (index C p / 3 - part.val * B)
      (¬fits t part.val → exec (.vfb4e d a part t rnd) s = .next (takeTrap .illegal s.ir s)) ∧
      (fits t part.val → VecDone (.vfb4e d a part t rnd) d [a] 8
        (fun p => if inside p then lanesOf 8 fun b => ((own p).1.getD (4 * (index C p % 3) + b) 0#8).toNat else 0#32)
        (fun p => if inside p then ((own p).2, 0#3) else (0#5, 0#3)) s)) ∧
    ∀ part : Fin 5,
      let trit := fun n => let q := tritDecode (streamByte C x (n / 5)).toNat; ((q.1.getD (n % 5) 0, 0#5, q.2) : Nat × Flags2)
      let lanes := fun p => (List.range 4).map fun b => trit (part.val * (4 * N) + 4 * index C p + b)
      VecDone (.vtrit d a part) d [a] 3
        (fun p => lanesOf 8 fun b => narrow 8 false (match ((lanes p).getD b (0, 0#5, 0#3)).1 with | 1 => 1 | 2 => -1 | _ => 0))
        (fun p => bothFlags (lanes p)) s

/-- R127: the special functions are functions of the lanes' values delivered once with their flags; FEXPQ writes one E4M3 lane per
element of the shape, placed by its part (R370). -/
def Sys2Proof.Claims.SpecialFunctionWords : Prop :=
  ∀ (d : VDst) (a b : VSrc) (s : State),
    let sf := fun (t : Ty) rnd sat (r : Sf) => deliverSf (fmtOf t) rnd sat r
    let lane := fun i (t : Ty) sat L f => LaneDone i ⟨d, [a], t.width, L, l1 fun x => sf t .rn sat (f (val t x))⟩ s
    (∀ t sat, lane (.fexp d a t sat) t sat 12 expX ∧ lane (.flog d a t sat) t sat 12 logX ∧ lane (.frcp d a t sat) t sat 10 rcpX ∧
      lane (.frsq d a t sat) t sat 10 rsqX ∧ lane (.ftanh d a t sat) t sat 16 tanhX ∧ lane (.fsig d a t sat) t sat 16 sigX) ∧
    (∀ m, LaneDone (.fsqrt d a m) ⟨d, [a], m.ty.width, 14, l1 fun x => sf m.ty m.rnd m.sat (sqrtX (val m.ty x))⟩ s ∧
      LaneDone (.fdiv d a b m) ⟨d, [a, b], m.ty.width, 18, l2 fun x y => sf m.ty m.rnd m.sat (divX (val m.ty x) (val m.ty y))⟩ s) ∧
    ∀ part : Fin 4,
      let C := shCols s.strand.vshape
      let N := shRows s.strand.vshape * C
      let q := fun n => if part.val * N ≤ n ∧ n < (part.val + 1) * N then
          expQ (src [a, b] s 0 (element C (n - part.val * N))).toNat (src [a, b] s 1 (element C (n - part.val * N))).toNat else (0, 0#5)
      VecDone (.fexpq d a b part) d [a, b] 14 (fun p => lanesOf 8 fun k => (q (4 * index C p + k)).1)
        (fun p => (both ((List.range 4).map fun k => q (4 * index C p + k)), 0#3)) s

/-- R128: the special functions at their special points, with their flags (invalid 0x10, divide 0x08). -/
def Sys2Proof.Claims.SpecialFunctionPoints : Prop :=
  let zero := fun b e => FNum.fin b 0 e
  let bad := ((canonNaN, 0x10#5) : Sf)
  (∀ b e, expX (zero b e) = (.fin false 1 0, 0#5) ∧ logX (zero b e) = (.inf true, 0x08#5) ∧ rcpX (zero b e) = (.inf b, 0x08#5) ∧
    rsqX (zero b e) = (.inf b, 0x08#5) ∧ sqrtX (zero b e) = (.fin b 0 0, 0#5) ∧ tanhX (zero b e) = (.fin b 0 0, 0#5) ∧
    sigX (zero b e) = (.fin false 1 (-1), 0#5)) ∧
  expX (.inf true) = (.fin false 0 0, 0#5) ∧ expX (.inf false) = (.inf false, 0#5) ∧
  logX (.fin false 1 0) = (.fin false 0 0, 0#5) ∧ logX (.inf false) = (.inf false, 0#5) ∧ logX (.inf true) = bad ∧
  (∀ m e, m ≠ 0 → logX (.fin true m e) = bad ∧ rsqX (.fin true m e) = bad ∧ sqrtX (.fin true m e) = bad) ∧
  (∀ b, rcpX (.inf b) = (.fin b 0 0, 0#5) ∧ tanhX (.inf b) = (.fin b 1 0, 0#5)) ∧
  rsqX (.inf false) = (.fin false 0 0, 0#5) ∧ rsqX (.inf true) = bad ∧ sqrtX (.inf false) = (.inf false, 0#5) ∧ sqrtX (.inf true) = bad ∧
  sigX (.inf true) = (.fin false 0 0, 0#5) ∧ sigX (.inf false) = (.fin false 1 0, 0#5) ∧
  (∀ b c m e f, m ≠ 0 → divX (.fin b m e) (zero c f) = (.inf (b != c), 0x08#5)) ∧
  (∀ b c e f, divX (zero b e) (zero c f) = bad ∧ divX (.inf b) (.inf c) = bad) ∧
  ∀ x : FNum, x.isNaN = true → ∀ f ∈ [expX, logX, rcpX, rsqX, sqrtX, tanhX, sigX],
    f x = (quiet x, if x.isSNaN then 0x10#5 else 0#5)

/-- R127 to R135: the special functions, their answers and their points. The functions are the model's fixed-point ones, which log
entry 8 holds to be the correctly rounded ones. -/
def Obligations.SpecialFunctionWordsAndPoints : Prop := Sys2Proof.Claims.SpecialFunctionWords ∧ Sys2Proof.Claims.SpecialFunctionPoints

namespace Sys2Proof.Claims
open Sys2Proof.Machine

/-- The rank of column j of row i: how many columns of the row precede it (R135). -/
def rankOf (C : Nat) (t : Ty) (x : Nat → W32) (i j : Nat) : Nat :=
  let cand := fun (k : Nat) => (⟨x (32 * i + k), BitVec.ofNat 32 k⟩ : TopEnt)
  (List.range C).countP fun k => precedes (if t.isF then 0 else 1) (cand k) (cand j)

/-- The column of a rank, C when there is none. -/
def columnOf (C : Nat) (t : Ty) (x : Nat → W32) (i r : Nat) : Nat :=
  ((List.range C).find? fun j => rankOf C t x i j == r).getD C

/-- A topk word with its seen and held fields replaced (R137). -/
def topkWord (w : W64) (seen held : Nat) : W64 :=
  (w &&& 0x77F#64) ||| nat (seen % 2 ^ 25 * 2 ^ 32) ||| nat (held % 2 ^ 8 * 2 ^ 16)

/-- Candidates merged one after the other into ranked pairs (R135, R138). -/
def merged (key : Nat) (l : List TopEnt) (cs : List TopEnt) : List TopEnt := cs.foldl (fun acc c => rankIn key c acc) l

end Sys2Proof.Claims

/-- R135: the order of selection is a strict total order on candidates with distinct indices. -/
def Sys2Proof.Claims.SelectionOrderIsTotal : Prop :=
  ∀ (key : Nat) (a b c : TopEnt),
    precedes key a a = false ∧
    (precedes key a b = true → precedes key b c = true → precedes key a c = true) ∧
    (a.idx ≠ b.idx → (precedes key a b = true ↔ precedes key b a = false))

/-- R136: VTOPK writes the candidates of the ranks 0 to k − 1 of each row and 0 beyond them, VTOPKM marks their columns, VARGMX
writes the first one's column; a k above the columns of the shape traps ILLEGAL. -/
def Sys2Proof.Claims.SelectionWords : Prop :=
  ∀ (a : VSrc) (k : BitVec 6) (t : Ty) (s : State), t.is32 = true →
    let C := shCols s.strand.vshape
    let x := src [a] s 0
    let col := fun p => columnOf C t x (p / 32) (p % 32)
    (∀ d idx, (C < k.toNat → exec (.vtopk idx d a k t) s = .next (takeTrap .illegal s.ir s)) ∧
      (k.toNat ≤ C → VecDone (.vtopk idx d a k t) d [a] 12
        (fun p => if p % 32 < k.toNat then (if idx then BitVec.ofNat 32 (col p) else x (32 * (p / 32) + col p)) else 0#32)
        (fun _ => (0#5, 0#3)) s)) ∧
    (∀ pd, (C < k.toNat → exec (.vtopkm pd a k t) s = .next (takeTrap .illegal s.ir s)) ∧
      (k.toNat ≤ C → Ready (vpops [a]) [] s → Calm s → ∃ bits,
        exec (.vtopkm pd a k t) s = .next (issued s (putVP pd (guardMask s) bits 12 (vpopped [a] s))) ∧
        ∀ p, p < 512 → (guardMask s).getLsbD p = true →
          (bits.getLsbD p = true ↔ rankOf C t x (p / 32) (p % 32) < k.toNat))) ∧
    ∀ d, VecDone (.vargmx d a t) d [a] 8 (fun p => BitVec.ofNat 32 (columnOf C t x (p / 32) 0)) (fun _ => (0#5, 0#3)) s

/-- R138, R139: TOPKS merges the elements whose guard is true into the buffer, keeps the first k, counts every element in seen and
the pairs kept in held; TOPKD writes the buffer in rank order. With k = 0, or seen past 2^24, they trap ILLEGAL. -/
def Sys2Proof.Claims.TopKBufferWords : Prop :=
  ∀ (s : State),
    let C := shCols s.strand.vshape
    let N := shRows s.strand.vshape * C
    let w := s.strand.topkNow
    let k := w.toNat % 128
    let seen := w.toNat / 2 ^ 32 % 2 ^ 25
    (∀ a, k = 0 ∨ 2 ^ 24 < seen + N → exec (.topks a) s = .next (takeTrap .illegal s.ir s)) ∧
    (∀ a, k ≠ 0 → seen + N ≤ 2 ^ 24 → Ready (vpops [a]) [] s → Calm s →
      let u := vpopped [a] s
      let offered := ((List.range N).filter fun n => (guardMask s).getLsbD (element C n)).map
        fun n => (⟨src [a] s 0 (element C n), BitVec.ofNat 32 (seen + n)⟩ : TopEnt)
      let buf := (merged (w.toNat / 2 ^ 8 % 8) s.strand.topbuf offered).take k
      exec (.topks a) s = .next (issued s (pushLast VReg.zero 1
        (putResult .topk 3#512 (.s (topkWord w (seen + N) buf.length)) 24 { u with strand := { u.strand with topbuf := buf } })))) ∧
    (∀ d sel, k = 0 → exec (.topkd d sel) s = .next (takeTrap .illegal s.ir s)) ∧
    ∀ d (sel : Fin 2), k ≠ 0 → VecDone (.topkd d sel) d [] 24
      (fun p => match s.strand.topbuf[index C p]? with
        | some e => if sel = 0 then e.val else e.idx
        | none => if index C p < k ∧ sel = 1 then 0xFFFFFFFF#32 else 0#32)
      (fun _ => (0#5, 0#3)) s

/-- R136 to R139: the order of selection and the words that select by it. The entry of 0 that TOPKS pushes to the last-result slot is log
entry 92 (DESIGN CHOICE). -/
def Obligations.SelectionWordsAndOrder : Prop := Sys2Proof.Claims.SelectionOrderIsTotal ∧ Sys2Proof.Claims.SelectionWords ∧ Sys2Proof.Claims.TopKBufferWords

/-- R29 to R33, R46: a value that a format represents is delivered as its own code, in every rounding mode, with no flag; the same
for the tapered formats. -/
def Sys2Proof.Claims.RepresentableValuesAreKept : Prop :=
  (∀ (t : Ty) (rnd : Rnd) (n : Nat), t.isF = true → n < 2 ^ t.width → (val t n).isNaN = false →
    deliverF (fmtOf t) rnd false (val t n) = (n, 0#5)) ∧
  ∀ (rnd : Rnd), (∀ n x, n < 2 ^ 16 → tfDecode 16 1 n = some x → tfDeliver 16 1 rnd (some x) = (n, 0#5, 0#3)) ∧
    ∀ n x, n < 2 ^ 8 → tfDecode 8 0 n = some x → tfDeliver 8 0 rnd (some x) = (n, 0#5, 0#3)

/-- R32: RD delivers the greatest value of the type that is not above the exact one, RU the least that is not below, RZ the one of
the two that is not farther from 0; where the code delivered is E4M3's NaN for an overflow nothing is said. -/
def Sys2Proof.Claims.DirectedRounding : Prop :=
  ∀ (t : Ty) (neg : Bool) (m : Nat) (e : Int), t.isF = true →
    let x := FNum.fin neg m e
    let y := fun rnd => val t (deliverF (fmtOf t) rnd false x).1
    let floor := fun (v : FNum) => ltX x v = false ∧ ∀ n, n < 2 ^ t.width → (val t n).isNaN = false → ltX x (val t n) = false → ltX v (val t n) = false
    let ceiling := fun (v : FNum) => ltX v x = false ∧ ∀ n, n < 2 ^ t.width → (val t n).isNaN = false → ltX (val t n) x = false → ltX (val t n) v = false
    ((y .rd).isNaN = false → floor (y .rd)) ∧ ((y .ru).isNaN = false → ceiling (y .ru)) ∧
    (neg = false → floor (y .rz)) ∧ (neg = true → ceiling (y .rz))

/-- R32: RN delivers a value with no nearer one in the type; of two at one distance, the one with an even code. -/
def Sys2Proof.Claims.NearestRounding : Prop :=
  ∀ (t : Ty) (neg : Bool) (m : Nat) (e : Int), t.isF = true →
    let x := FNum.fin neg m e
    let code := (deliverF (fmtOf t) .rn false x).1
    let far := fun (v : FNum) => absX (addX .rn v (negX x)).1
    (val t code).isNaN = false → (val t code).isInf = false →
      ∀ n, n < 2 ^ t.width → (val t n).isNaN = false → (val t n).isInf = false →
        ltX (far (val t n)) (far (val t code)) = false ∧
        (eqX (far (val t n)) (far (val t code)) = true → eqX (val t n) (val t code) = false → code % 2 = 0)

/-- R32, R50: what rounding gives. -/
def Obligations.Rounding : Prop := Sys2Proof.Claims.RepresentableValuesAreKept ∧ Sys2Proof.Claims.DirectedRounding ∧ Sys2Proof.Claims.NearestRounding

namespace Sys2Proof.Claims
open Sys2Proof.Machine

/-- The address of an access of n bytes passes the checks of R142: below 2^56, aligned, outside the reserved part of the local
window, not past the end of the scratchpad window, and in an endpoint window only for LD.s64 and ST.s64. -/
def Placed (a : W64) (n align : Nat) (ep : Bool) : Prop :=
  let v := a.toNat
  v < 2 ^ 56 ∧ v % align = 0 ∧ (v + n ≤ 0xFFFFFFFFC20000 ∨ 0xFFFFFFFFE00000 ≤ v) ∧
  (0xFFFFFFFFC00000 ≤ v → v + n ≤ 2 ^ 56) ∧ (ep = true ∨ v + n ≤ 0xFFFFFFFFC00000 ∨ 0xFFFFFFFFC20000 ≤ v)

/-- Every page of the ranges is translated with permission for the access, no TLBINV of the strand is pending and no entry of
its side log covers a byte (R143, R145, R311). -/
def Mapped (k : AKind) (rs : List (Nat × Nat)) (s : State) : Prop :=
  (∀ a ∈ s.strand.acc, a.op.isTlbinv = false) ∧
  (∀ va ∈ touched rs, ∃ e, s.tlbHit va = some e ∧ permFault e k = none) ∧ loggedByte s.strand rs = none

/-- Bytes and entry of an access type (R152). -/
def typeBytes : LTy → Nat
  | .s8 => 1 | .n8 => 1 | .s16 => 2 | .n16 => 2 | .s32 => 4 | .n32 => 4 | .s64 => 8
def typeEntry (t : LTy) (bs : List Byte) : W64 :=
  let n := leNat bs
  match t with
  | .s8 => int (BitVec.ofNat 8 n).toInt
  | .s16 => int (BitVec.ofNat 16 n).toInt
  | .s32 => int (BitVec.ofNat 32 n).toInt
  | .n8 => nat n | .n16 => nat n | .n32 => nat n | .s64 => nat n
def storeBytes : STy → Nat
  | .s8 => 1 | .s16 => 2 | .s32 => 4 | .s64 => 8

/-- Bytes of a value at consecutive addresses, least significant first (R2). -/
def storeCells (a n : Nat) (v : W64) : List (Nat × Byte) := (List.range n).map fun i => (a + i, BitVec.ofNat 8 (v.toNat / 256 ^ i))

/-- The addresses of rows a stride apart, and the step of LDV and STV: rows one after the other for none (R153). -/
def rows (base : W64) (step : Int) (n : Nat) : List W64 := (List.range n).map fun (i : Nat) => base + int (step * (i : Int))
def rowStep (o : SOp) (v : W64) (cols : Nat) : Int := if o = .none then 4 * (cols : Int) else v.toInt

/-- The atomics of R155: operation, unsigned, width in bytes, destination, sources. -/
def atomicForm : Instr → Option (Fin 7 × Bool × Nat × LqDst × List SOp)
  | .aadd w d a b => some (0, false, if w = .w64 then 8 else 4, d, [a, b])
  | .amin u w d a b => some (1, u, if w = .w64 then 8 else 4, d, [a, b])
  | .amax u w d a b => some (2, u, if w = .w64 then 8 else 4, d, [a, b])
  | .aor w d a b => some (3, false, if w = .w64 then 8 else 4, d, [a, b])
  | .axch w d a b => some (4, false, if w = .w64 then 8 else 4, d, [a, b])
  | .acas w d a b c => some (5, false, if w = .w64 then 8 else 4, d, [a, b, c])
  | .afadd d a b => some (6, false, 4, d, [a, b])
  | _ => none

end Sys2Proof.Claims

/-- R142, R143, R151, R152, R179: LD and LDA with a good address and a translated page reserve an entry of their load queue and
hand the load, with the translation it was issued with, to the pipeline, LDA with an acquire fence behind it; a bad address traps
ALIGN with tval the address. Only LD.s64 takes an endpoint window. -/
def Obligations.LoadWords : Prop :=
  ∀ (t : LTy) (d : Fin 4) (base : SOp) (s : State), Calm s →
    let n := typeBytes t
    let u := popped [base] s
    (∀ off : BitVec 20,
      let a := (vals [base] s).headD 0#64 + int off.toInt
      (Ready ([base].flatMap sPops) [] s → ¬Placed a n n (t == .s64) → exec (.ld t d base off) s = .next (takeTrap .align a s)) ∧
      (Ready ([base].flatMap sPops) [(true, d)] s → Placed a n n (t == .s64) → inEndpoint a.toNat = false → Mapped .read [(a.toNat, n)] s →
        exec (.ld t d base off) s = .next (issued s
          (addLoadVia (s.pagesOf [(a.toNat, n)]) d (.s 0#64) (fun ent => .load d ent t a.toNat) u))) ∧
      (Ready ([base].flatMap sPops) [(true, d)] s → Placed a n n (t == .s64) → inEndpoint a.toNat = true → Mapped .read [] s →
        exec (.ld t d base off) s = .next (issued s (addLoad d (.s 0#64) (fun ent => .epLoad d ent (endpointOf a.toNat)) u)))) ∧
    ∀ (scope : Fin 4) (off : BitVec 18),
      let a := (vals [base] s).headD 0#64 + int off.toInt
      (Ready ([base].flatMap sPops) [] s → ¬Placed a n n false → exec (.lda t scope d base off) s = .next (takeTrap .align a s)) ∧
      (Ready ([base].flatMap sPops) [(true, d)] s → Placed a n n false → Mapped .read [(a.toNat, n)] s →
        exec (.lda t scope d base off) s = .next (issued s (addAcc (.fence 1 scope ⟨true, true, true⟩)
          (addLoadVia (s.pagesOf [(a.toNat, n)]) d (.s 0#64) (fun ent => .load d ent t a.toNat) u))))

/-- R153: LDV loads rows a stride apart in the shape of ashape. Log entry 10 is the model's reading of which row a bad stride
fails. -/
def Obligations.LoadVectorWord : Prop :=
  ∀ (d : Fin 4) (base stride : SOp) (s : State), Calm s →
    let R := shRows s.strand.ashape
    let C := shCols s.strand.ashape
    let b := (vals [base, stride] s).getD 0 0#64
    let k := rowStep stride ((vals [base, stride] s).getD 1 0#64) C
    (Ready ([base, stride].flatMap sPops) [] s → ∀ a ∈ rows b k R, (∀ c ∈ (rows b k R).takeWhile (· ≠ a), Placed c (4 * C) 4 false) →
      ¬Placed a (4 * C) 4 false → exec (.ldv d base stride) s = .next (takeTrap .align a s)) ∧
    (Ready ([base, stride].flatMap sPops) [(true, d)] s → (∀ a ∈ rows b k R, Placed a (4 * C) 4 false) → k % 4 = 0 →
      Mapped .read ((rows b k R).map fun a => (a.toNat, 4 * C)) s →
      exec (.ldv d base stride) s = .next (issued s
        (addLoadVia (s.pagesOf ((rows b k R).map fun a => (a.toNat, 4 * C))) d (.v R C []) (fun ent => .loadV d ent b.toNat k R C)
          (popped [base, stride] s))))

/-- R142, R145, R151 to R153: ST and STV hand their bytes to the pipeline behind issue; a bad address traps ALIGN; the
row whose address a bad stride reports is log entry 10 (DEDUCED). -/
def Obligations.StoreWords : Prop :=
  ∀ (s : State), Calm s →
    (∀ (t : STy) (data base : SOp) (off : BitVec 20), Ready ([base, data].flatMap sPops) [] s →
      let a := (vals [base, data] s).getD 0 0#64 + int off.toInt
      let v := (vals [base, data] s).getD 1 0#64
      let u := popped [base, data] s
      (¬Placed a (storeBytes t) (storeBytes t) (t == .s64) → exec (.st t data base off) s = .next (takeTrap .align a s)) ∧
      (Placed a (storeBytes t) (storeBytes t) (t == .s64) →
        (inEndpoint a.toNat = false → exec (.st t data base off) s = .next (issued s (addAcc (.store (storeCells a.toNat (storeBytes t) v)) u))) ∧
        (inEndpoint a.toNat = true → exec (.st t data base off) s =
          .next (issued s (addAcc (.epStore (endpointOf a.toNat) (a.getLsbD 12) v) u))))) ∧
    ∀ (base stride : SOp) (q : Fin 4) (R C : Nat) (cs : VReg) (rest : List QEnt) (e : QEnt),
      Ready ([base, stride].flatMap sPops ++ [⟨false, q, true⟩]) [] s →
      (popped [base, stride] s).strand.queue false q = e :: rest → e.val = .v R C cs →
      let b := (vals [base, stride] s).getD 0 0#64
      let k := rowStep stride ((vals [base, stride] s).getD 1 0#64) C
      (∀ a ∈ rows b k R, (∀ c ∈ (rows b k R).takeWhile (· ≠ a), Placed c (4 * C) 4 false) →
        ¬Placed a (4 * C) 4 false → exec (.stv base stride q) s = .next (takeTrap .align a s)) ∧
      ((∀ a ∈ rows b k R, Placed a (4 * C) 4 false) → k % 4 = 0 →
        exec (.stv base stride q) s = .next (issued s (addAcc
          (.store ((List.range R).flatMap fun (i : Nat) => (List.range C).flatMap fun (j : Nat) =>
            storeCells ((b + int (k * (i : Int))).toNat + 4 * j) 4 ((cs.getD (32 * i + j) 0#32).zeroExtend 64)))
          ((popped [base, stride] s).popQ false q))))

/-- R155: an atomic with a good address goes to the pipeline with its operands at its width; with a load queue as d its page is
translated first and an entry reserved. -/
def Obligations.AtomicWords : Prop :=
  ∀ (i : Instr) (op : Fin 7) (u : Bool) (n : Nat) (d : LqDst) (srcs : List SOp) (s : State),
    atomicForm i = some (op, u, n, d, srcs) → Calm s →
    let a := (vals srcs s).getD 0 0#64
    let x := nat (((vals srcs s).getD 1 0#64).toNat % 256 ^ n)
    let y := nat (((vals srcs s).getD 2 0#64).toNat % 256 ^ n)
    (Ready (srcs.flatMap sPops) [] s → ¬Placed a n n false → exec i s = .next (takeTrap .align a s)) ∧
    (Placed a n n false →
      (d = .none → Ready (srcs.flatMap sPops) [] s →
        exec i s = .next (issued s (addAcc (.atom op (n == 8) u a.toNat x y none) (popped srcs s)))) ∧
      ∀ q, d = .lq q → Ready (srcs.flatMap sPops) [(true, q)] s → Mapped .atomic [(a.toNat, n)] s →
        exec i s = .next (issued s
          (addLoadVia (s.pagesOf [(a.toNat, n)]) q (.s 0#64) (fun ent => .atom op (n == 8) u a.toNat x y (some (q, ent))) (popped srcs s))))

/-- R157, R158, R171: SIXCFG starts a stream of offsets, LDG a gather along the newest one, PREF and MARK have no effect on
registers or memory; a bad configuration word or an LDG with no stream is ILLEGAL, a bad address ALIGN. -/
def Sys2Proof.Claims.GatherWords : Prop :=
  ∀ (s : State), Calm s →
    (∀ base off, Ready ([base].flatMap sPops) [] s → exec (.pref base off) s = .next (issued s (popped [base] s))) ∧
    exec .mark s = .next (issued s (addAcc .mark s)) ∧
    (∀ a b, Ready ([a, b].flatMap sPops) [] s →
      let m := (vals [a, b] s).getD 0 0#64
      let c := (vals [a, b] s).getD 1 0#64
      let u := popped [a, b] s
      let count := c.toNat / 2 ^ 32
      let size := c.toNat / 2 ^ 16 % 2 ^ 16
      let mode := c.toNat % 4
      let ok := count ≠ 0 ∧ size % 4 = 0 ∧ 4 ≤ size ∧ c.toNat / 2 ^ 12 % 16 = 0 ∧ c.toNat / 4 % 64 = 0 ∧ mode < 2
      (¬ok → exec (.sixcfg a b) s = .next (takeTrap .illegal s.ir s)) ∧
      let good := Placed m (if mode = 1 then 2 * count else (count + 7) / 8) (if mode = 1 then 2 else 1) false
      (ok → ¬good → exec (.sixcfg a b) s = .next (takeTrap .align m s)) ∧
      (ok → good → exec (.sixcfg a b) s = .next (issued s { u with strand := { u.strand with
        six := ⟨u.strand.nid, m.toNat, count, size, mode == 1, 0, 0, []⟩ :: u.strand.six, nid := u.strand.nid + 1 } }))) ∧
    ∀ d base,
      let a := (vals [base] s).headD 0#64
      (Ready ([base].flatMap sPops) [] s → s.strand.six = [] → exec (.ldg d base) s = .next (takeTrap .illegal s.ir s)) ∧
      (Ready ([base].flatMap sPops) [] s → s.strand.six ≠ [] → ¬Placed a 4 4 false → exec (.ldg d base) s = .next (takeTrap .align a s)) ∧
      (Ready ([base].flatMap sPops) [(true, d)] s → Placed a 4 4 false → ∀ x r, s.strand.six = x :: r →
        exec (.ldg d base) s = .next (issued s (addLoad d (.v (shRows s.strand.ashape) (shCols s.strand.ashape) [])
          (fun ent => .gather d ent x.id a.toNat (shRows s.strand.ashape) (shCols s.strand.ashape)) (popped [base] s))))

/-- R171, R172, R180 to R183, R311: the fences, flushes and TLBINV issue at once and hand their operation to the pipeline, which
later accesses wait for; TLBINV with a length of 0 does nothing and traps ALIGN for an address of 2^56 or above. -/
def Sys2Proof.Claims.FenceWords : Prop :=
  ∀ (s : State), Calm s →
    (∀ kind scope stor, exec (.fence kind scope stor) s = .next (issued s (addAcc (.fence kind scope stor) s))) ∧
    exec .afence s = .next (issued s (addAcc .afence s)) ∧
    (∀ f t stor scope, exec (.pfence f t stor scope) s = .next (issued s (addAcc
      (.pfence ([Path.ls, .cpy, .mat, .gat, .grf, .col].getD f.val .ls) ([Path.ls, .cpy, .mat, .gat, .grf, .col].getD t.val .ls) stor scope) s))) ∧
    ∀ base len, Ready ([base, len].flatMap sPops) [] s →
      let a := ((vals [base, len] s).getD 0 0#64).toNat
      let n := ((vals [base, len] s).getD 1 0#64).toNat
      let u := popped [base, len] s
      (∀ mem, exec (.cflush mem base len) s = .next (issued s (addAcc (.flush mem false a n) u))) ∧
      exec (.cinv base len) s = .next (issued s (addAcc (.flush false true a n) u)) ∧
      (∀ scope, (2 ^ 56 ≤ a → exec (.tlbinv base len scope) s = .next (takeTrap .align (nat a) s)) ∧
        (a < 2 ^ 56 → n = 0 → exec (.tlbinv base len scope) s = .next (issued s u)) ∧
        (a < 2 ^ 56 → n ≠ 0 → exec (.tlbinv base len scope) s = .next (issued s (addAcc (.tlbinv a n scope) u))))

/-- R157, R158, R171, R172, R180 to R183, R311: gathers, hints, fences and flushes. -/
def Obligations.GatherAndFenceWords : Prop := Sys2Proof.Claims.GatherWords ∧ Sys2Proof.Claims.FenceWords

namespace Sys2Proof.Claims
open Sys2Proof.Machine

/-- The oldest operation of the strand in the foreground is `op` and nothing holds it back: the side log is empty, it has not left
for another package, the strand's work is bound to no request, no error waits to end one, no sequence-parallel ring is held and
no page of the context is being rebuilt. -/
def First (op : AccOp) (s : State) : Prop :=
  s.strand.h ≠ 0 ∧ s.strand.sidelog = [] ∧ s.strand.request = 0 ∧ s.pkg.seqRings = [] ∧ s.pkg.errs = [] ∧
  (∀ g, s.shardAt s.strand.slot = some g → g.demand = []) ∧
  ∃ a rest, s.strand.acc = a :: rest ∧ a.op = op ∧ a.sent = false

/-- The bytes va to va + n − 1 lie in one line of plain memory of this package, at local address pa: the core's TLB, and the oldest
access if it kept a translation, translate them with permission, the line was last written under the page's key, no page migrates,
no granule, L2 line or L1 line of them is poisoned, and no core holds an update-only copy of the line. -/
def Plain (k : AKind) (va n pa : Nat) (s : State) : Prop :=
  inLocal va = false ∧ 0 < n ∧ va % 64 + n ≤ 64 ∧ pa % 64 = va % 64 ∧ pa < 2 ^ 48 ∧ s.pkg.migs = [] ∧ poisoned s.pkg pa n = false ∧
  (∀ c ∈ s.allCores, ∀ l ∈ c.upd, l.line ≠ pa / 64) ∧
  s.pkg.l1Bad.contains (s.core.num, (s.pkg.num * 2 ^ 48 + pa) / 64) = false ∧
  ∃ e, tlbFind s.core.tlb s.strand.slot va = some e ∧ permFault e k = none ∧ e.addr va = s.pkg.num * 2 ^ 48 + pa ∧
    s.pkg.lineKey (pa / 64) = e.key ∧ ∀ a ∈ s.strand.acc.head?, ∀ f, tlbFind a.pages s.strand.slot va = some f → f = e

/-- The bytes lie in the scratchpad window at offset o (R141). -/
def Pad (va n o : Nat) : Prop := va = 0xFFFFFFFFE00000 + o ∧ 0 < n ∧ o % 64 + n ≤ 64 ∧ o + n ≤ 0x200000

/-- The same, and none of the lines is poisoned (R26). -/
def CleanPad (va n o : Nat) (s : State) : Prop := Pad va n o ∧ s.core.padSick o n = false

/-- The reserved entry that an operation fills: no entry of its number has landed. -/
def Reserved (q : Fin 4) (ent : Nat) (s : State) : Prop := ∀ e ∈ s.strand.queue true q, e.id = ent → e.due = none ∧ e.mark = none

/-- n bytes from an address on are replaced by those of v, and no other byte changes. -/
def Written (m m' : Mem) (a n : Nat) (v : W64) : Prop :=
  ∀ x, m'.get x = if a ≤ x ∧ x < a + n then BitVec.ofNat 8 (v.toNat / 256 ^ (x - a)) else m.get x

/-- The word that an atomic leaves (R155): operation, width in bytes, unsigned, old word, operands, all of the width. -/
def atomResult (op : Fin 7) (n : Nat) (u : Bool) (old x y : Nat) : Nat :=
  let less := fun (a b : Nat) => if u then decide (a < b) else decide (sint (8 * n) a < sint (8 * n) b)
  match op with
  | 0 => (old + x) % 256 ^ n
  | 1 => if less x old then x else old
  | 2 => if less old x then x else old
  | 3 => old ||| x
  | 4 => x
  | 5 => if old = x then y else old
  | 6 => (fl .f32 .rn false (addX .rn (val .f32 old) (val .f32 x))).1

end Sys2Proof.Claims

/-- R143, R144, R151, R152: a load at the head of the pipeline whose bytes lie in plain memory or in the scratchpad lands in its
reserved entry with these bytes, and changes no byte of memory or scratchpad. -/
def Sys2Proof.Claims.PerformedLoads : Prop :=
  ∀ (q : Fin 4) (ent : Nat) (t : LTy) (va o : Nat) (s : State), First (.load q ent t va) s → Reserved q ent s →
    let u := performAt 0 s
    let lands := fun (m : Mem) => u.strand.queue true q = landEnt ent (.s (typeEntry t (m.read o (typeBytes t)))) none s.cyc (s.strand.queue true q) ∧
      u.pkg.mem = s.pkg.mem ∧ u.core.scratch = s.core.scratch
    (Plain .read va (typeBytes t) o s → lands s.pkg.mem) ∧ (CleanPad va (typeBytes t) o s → lands s.core.scratch)

/-- R145, R147: a store at the head of the pipeline whose bytes lie in one line of plain memory or of the scratchpad writes exactly
its bytes. -/
def Sys2Proof.Claims.PerformedStores : Prop :=
  ∀ (va n o : Nat) (v : W64) (s : State), s.pkg.mem.wf = true → s.core.scratch.wf = true → n ≤ 8 → First (.store (storeCells va n v)) s →
    let u := performAt 0 s
    (Plain .write va n o s → Written s.pkg.mem u.pkg.mem o n v ∧ u.core.scratch = s.core.scratch) ∧
    (Pad va n o → Written s.core.scratch u.core.scratch o n v ∧ u.pkg.mem = s.pkg.mem)

/-- R155: an atomic that returns, at the head of the pipeline, replaces its word by the operation's result and lands with the old
word; no other byte changes. -/
def Sys2Proof.Claims.PerformedAtomics : Prop :=
  ∀ (op : Fin 7) (w64 u : Bool) (va o : Nat) (x y : W64) (q : Fin 4) (ent : Nat) (s : State),
    let n := if w64 then 8 else 4
    s.pkg.mem.wf = true → s.core.scratch.wf = true → (op = 6 → w64 = false) → x.toNat < 256 ^ n → y.toNat < 256 ^ n →
    First (.atom op w64 u va x y (some (q, ent))) s → Reserved q ent s → va % n = 0 →
    let t := performAt 0 s
    let done := fun (m m' : Mem) =>
      let old := leNat (m.read o n)
      Written m m' o n (nat (atomResult op n u old x.toNat y.toNat)) ∧
      t.strand.queue true q = landEnt ent (.s (if w64 ∨ u = true ∨ op = 6 then nat old else int (sint 32 old))) none s.cyc (s.strand.queue true q)
    (Plain .atomic va n o s → done s.pkg.mem t.pkg.mem ∧ t.core.scratch = s.core.scratch) ∧
    (CleanPad va n o s → done s.core.scratch t.core.scratch ∧ t.pkg.mem = s.pkg.mem)

/-- R145, R152 to R156: what a performed load, store and atomic do. -/
def Obligations.PerformedAccesses : Prop := Sys2Proof.Claims.PerformedLoads ∧ Sys2Proof.Claims.PerformedStores ∧ Sys2Proof.Claims.PerformedAtomics

namespace Sys2Proof.Claims
open Sys2Proof.Machine

/-- A copy slot in use: its copy has a chunk that has not landed or failed (R164). -/
def Busy (c : Option Copy) : Prop := ∃ k, c = some k ∧ ∃ x ∈ k.chunks, x = .pending ∨ x = .waits
/-- Slot k is the lowest free one. -/
def FreeSlot (t : Strand) (k : Nat) : Prop := (∃ c, t.slots[k]? = some c ∧ ¬Busy c) ∧ ∀ j c, j < k → t.slots[j]? = some c → Busy c

/-- A configuration image of R161: tiles less 1 at [41:32], bytes of a tile / 512 less 1 at [31:24], base at [20:0]. -/
def ImageOk (v : W64) : Prop :=
  let w := v.toNat
  let base := w % 2 ^ 21
  let tiles := w / 2 ^ 32 % 2 ^ 10
  let tile := w / 2 ^ 24 % 2 ^ 8
  w / 2 ^ 42 = 0 ∧ w / 2 ^ 21 % 8 = 0 ∧ tiles ≤ 511 ∧ tile ≤ 127 ∧ base % 512 = 0 ∧
  base / 0x40000 = (base + (tiles + 1) * ((tile + 1) * 512) - 1) / 0x40000

/-- The state of a chunk as CTEST shows it (R166). -/
def chunkCode : Option Chunk → Nat
  | some .landed => 1
  | some (.failed _) => 2
  | some .pending => 0
  | some .waits => 0
  | none => 1

/-- The ranges that an ls access writes (R145, R151 to R155, R159, R172). -/
def storedRanges : AccOp → List (Nat × Nat)
  | .store cells => cells.map fun c => (c.1, 1)
  | .atom _ w64 _ va _ _ _ => [(va, if w64 then 8 else 4)]
  | .epStore n _ _ => [(0xFFFFFFFFC00000 + 0x2000 * n, 0x2000)]
  | .flush _ _ va len => [(va, len)]
  | _ => []

/-- A copy has a chunk to land whose source or destination bytes a mask covers. -/
def Moving (s : State) (m : Stor) (c : Copy) : Prop :=
  ∃ k x, c.chunks[k]? = some x ∧ (x = .pending ∨ x = .waits) ∧
    (rangeIn s m (c.src + (c.span k).2.1, (c.span k).2.2) = true ∨ rangeIn s m (c.dst + (c.span k).1.1, (c.span k).1.2) = true)

/-- The strand in the foreground has an access of a path out that a mask covers, path 0 ls to 5 col (R171): a write; a copy, or a chain
still walked; a matrix word; a gather, whose metadata or elements the mask covers; a graft; a drain-add. -/
def Outstanding (p : Fin 6) (m : Stor) (s : State) : Prop :=
  let t := s.strand
  let hits := fun (l : List (Nat × Nat)) => ∃ r ∈ l, rangeIn s m r = true
  match p with
  | 0 => ∃ a ∈ t.acc ++ t.sidelog, hits (storedRanges a.op)
  | 1 => (∃ c, some c ∈ t.slots ∧ Moving s m c) ∨
      ∃ c ∈ t.chans, c.walking = true ∨ ∃ r ∈ c.recs, ∃ k, r.copy = some k ∧ Moving s m k
  | 2 => m.sp = true ∧ t.matIds ≠ []
  | 3 => ∃ a ∈ t.acc, (roleOf a.op).gat = true ∧ ∀ l, sideRanges s a.op = some l → hits l
  | 4 => (∃ a ∈ t.acc, ∃ src dst ret, a.op = .engine (.graft src dst) ret ∧ hits (s.graftRanges t.slot src.toNat dst.toNat)) ∨
      ∃ g ∈ s.pkg.grafts, g.h = t.h ∧ hits (s.graftRanges g.slot g.src g.dst)
  | 5 => (∃ i core pkg slot b acc n, (i, CmuWord.dadd core pkg slot b acc n) ∈ s.core.cmuq ∧ colHas s m pkg = true) ∨
      ∃ d ∈ s.pkg.dadds, d.h = t.h ∧ colHas s m d.pkg = true

/-- Every operation of the strand was handed over before now. -/
def Numbered (s : State) : Prop :=
  (∀ c, some c ∈ s.strand.slots → c.ord ≤ s.strand.nid) ∧ (∀ c ∈ s.strand.chans, c.id ≤ s.strand.nid) ∧
  (∀ q ∈ s.core.cmuq, q.1 < s.strand.nid) ∧ ∀ d ∈ s.pkg.dadds, d.h = s.strand.h → d.id < s.strand.nid

end Sys2Proof.Claims

/-- R149, R160 to R163: RINGCFG sets a ring's image and zeroes its counters, RSTAT reads a counter or the image, RPOP moves the head
on, BFMT names a region's format; the ILLEGAL of a bad image, the QUEUE of a ring with copies in flight and of a pop of more tiles
than it holds. -/
def Obligations.RingWords : Prop :=
  ∀ (s : State), Calm s →
    (∀ (k : Fin 16) img, Ready ([img].flatMap sPops) [] s →
      let v := (vals [img] s).headD 0#64
      let r := s.strand.ring k.val
      (¬ImageOk v → exec (.ringcfg k img) s = .next (takeTrap .illegal s.ir s)) ∧
      (ImageOk v → r.resv ≠ r.tail → exec (.ringcfg k img) s = .next (takeTrap .queue (nat k.val) s)) ∧
      (ImageOk v → r.resv = r.tail → ∃ u, exec (.ringcfg k img) s = .next (issued s u) ∧
        u = { popped [img] s with strand := (popped [img] s).strand.setRing k.val ⟨v, 0#32, 0#32, 0#32, [], []⟩ })) ∧
    (∀ d (k : Fin 16) (sel : Fin 4), Ready [] (sPushes d) s →
      let r := s.strand.ring k.val
      exec (.rstat d k sel) s = .next (issued s (putS d 1 ([nat r.head.toNat, nat r.tail.toNat, nat r.resv.toNat, r.img].getD sel.val 0#64) s))) ∧
    (∀ (k : Fin 16) (n : BitVec 6),
      let r := s.strand.ring k.val
      ((r.tail - r.head).toNat < n.toNat → exec (.rpop k n) s = .next (takeTrap .queue (nat k.val) s)) ∧
      (n.toNat ≤ (r.tail - r.head).toNat → ∃ r', exec (.rpop k n) s = .next (issued s { s with strand := s.strand.setRing k.val r' }) ∧
        r'.head = r.head + BitVec.ofNat 32 n.toNat ∧ r'.tail = r.tail ∧ r'.resv = r.resv ∧ r'.img = r.img)) ∧
    ∀ fr fmt, exec (.bfmt fr fmt) s = .next (issued s { s with strand := { s.strand with fr := s.strand.fr.set fr.val fmt } })

/-- R164: CPY starts a copy in the lowest free slot with one chunk per 512 destination bytes outstanding and writes the slot's
number; the ring form copies into the tile at resv and moves resv on. With no free slot, or no free tile, they wait; a bad length, format
or address traps. -/
def Sys2Proof.Claims.CopyWords : Prop :=
  ∀ (d : SOp) (s : State), Calm s →
    let waits := fun i => ∃ u, exec i s = .next u ∧ u.seq.pc = s.seq.pc ∧ u.strand.slots = s.strand.slots ∧ u.pkg = s.pkg ∧ u.core = s.core
    let n := fun os => ((vals os s).getLastD 0#64).toNat
    (∀ src dst len, Ready ([src, dst, len].flatMap sPops) (sPushes d) s →
      let os := [src, dst, len]
      let a := (vals os s).getD 0 0#64
      let b := (vals os s).getD 1 0#64
      ((∀ c ∈ s.strand.slots, Busy c) → waits (.cpy d src dst len)) ∧
      (inScratch a.toNat = false ∨ inScratch b.toNat = false →
        (copyBad s.strand a b (n os) none = none ↔
          n os ≠ 0 ∧ n os ≤ 65536 ∧ n os % 4 = 0 ∧ Placed a (n os) 4 false ∧ Placed b (n os) 512 false)) ∧
      ∀ k, FreeSlot s.strand k →
        (copyBad s.strand a b (n os) none = none →
          exec (.cpy d src dst len) s = .next (issued s (putS d 1 (nat k) (startCopy k a.toNat b.toNat (n os) none (popped os s))))) ∧
        (∀ c v, copyBad s.strand a b (n os) none = some (c, v) →
          exec (.cpy d src dst len) s = .next (takeTrap c (if c = .illegal then s.ir else v) s))) ∧
    (∀ src len (k : Fin 16), Ready ([src, len].flatMap sPops) (sPushes d) s →
      let os := [src, len]
      let r := s.strand.ring k.val
      let a := (vals os s).getD 0 0#64
      let at_ := 0xFFFFFFFFE00000 + r.tileAt r.resv.toNat
      ((∀ c ∈ s.strand.slots, Busy c) ∨ r.count ≤ (r.resv - r.head).toNat → waits (.cpyRing d src len k)) ∧
      let bad := copyBad s.strand a (nat at_) (n os) (some r.tileBytes)
      (inScratch a.toNat = false →
        (bad = none ↔ n os = r.tileBytes ∧ Placed a (n os) 4 false ∧ Placed (nat at_) (n os) 512 false)) ∧
      ∀ j, FreeSlot s.strand j → (r.resv - r.head).toNat < r.count →
        (bad = none → let u := startCopy j a.toNat at_ (n os) (some (k.val, r.resv.toNat)) (popped os s)
          exec (.cpyRing d src len k) s = .next (issued s (putS d 1 (nat j)
            { u with strand := u.strand.setRing k.val { r with resv := r.resv + 1#32 } }))) ∧
        ∀ c v, bad = some (c, v) → exec (.cpyRing d src len k) s = .next (takeTrap c (if c = .illegal then s.ir else v) s)) ∧
    ∀ k a b m t, (startCopy k a b m none t).strand.slots = t.strand.slots.set k (some (Copy.start t.strand t.strand.nid a b m none)) ∧
      (Copy.start t.strand t.strand.nid a b m none).chunks = List.replicate ((m + 511) / 512) .pending

/-- R166, R169, R171: CWAIT waits until every chunk of its mask has ended and writes the status word, CTEST writes one chunk's state,
CHAIN starts an idle channel, DRAIN passes once no access of its path that its mask covers is out and waits before. That CHAIN of head 0
walks nothing and leaves its channel free is the model's choice (DESIGN CHOICE, log 76), and so are the storages of matrix words,
gathers and drain-adds (log 71). -/
def Sys2Proof.Claims.CopyWaitWords : Prop :=
  ∀ (s : State), Calm s →
    let waits := fun i => ∃ u, exec i s = .next u ∧ u.seq.pc = s.seq.pc ∧ u.strand.slots = s.strand.slots ∧ u.pkg = s.pkg ∧ u.core = s.core
    (∀ d slot lo hi, Ready ([slot, lo, hi].flatMap sPops) (sPushes d) s →
      let v := (vals [slot, lo, hi] s).map (·.toNat)
      let k := v.getD 0 0
      let mask := v.getD 1 0 + v.getD 2 0 * 2 ^ 64
      let ends := fun (c : Copy) => ∀ i x, c.chunks[i]? = some x → mask.testBit i = true → x ≠ .pending ∧ x ≠ .waits
      (15 < k → exec (.cwait d slot lo hi) s = .next (takeTrap .illegal s.ir s)) ∧
      (k ≤ 15 → s.strand.slots[k]? = some none →
        exec (.cwait d slot lo hi) s = .next (issued s (putS d 1 0#64 (popped [slot, lo, hi] s)))) ∧
      (∀ c, k ≤ 15 → s.strand.slots[k]? = some (some c) →
        (ends c → exec (.cwait d slot lo hi) s = .next (issued s (putS d 1 c.status (popped [slot, lo, hi] s)))) ∧
        (¬ends c → waits (.cwait d slot lo hi)))) ∧
    (∀ d slot chunk, Ready ([slot, chunk].flatMap sPops) (sPushes d) s →
      let v := (vals [slot, chunk] s).map (·.toNat)
      (15 < v.getD 0 0 → exec (.ctest d slot chunk) s = .next (takeTrap .illegal s.ir s)) ∧
      (v.getD 0 0 ≤ 15 → exec (.ctest d slot chunk) s = .next (issued s (putS d 1
        (nat (chunkCode (((s.strand.slots[v.getD 0 0]?).join).bind fun c => c.chunks[v.getD 1 0]?))) (popped [slot, chunk] s))))) ∧
    (∀ (ch : Fin 4) head c, Ready ([head].flatMap sPops) [] s → s.strand.chans[ch.val]? = some c →
      let a := (vals [head] s).headD 0#64
      let u := popped [head] s
      (c.walking = true ∨ c.recs ≠ [] → waits (.chain ch head)) ∧
      (c.walking = false → c.recs = [] → ¬Placed a 64 64 false → exec (.chain ch head) s = .next (takeTrap .align a s)) ∧
      (c.walking = false → c.recs = [] → Placed a 64 64 false →
        exec (.chain ch head) s = .next (issued s { u with strand := { u.strand with
          chans := u.strand.chans.set ch.val ⟨u.strand.nid, a.toNat, a != 0#64, [], []⟩, nid := u.strand.nid + 1 } }))) ∧
    ∀ path stor, Numbered s →
      (¬Outstanding path stor s → exec (.drain path stor) s = .next (issued s s)) ∧
      (Outstanding path stor s → waits (.drain path stor))

/-- R164 to R171: CPY and the words that wait for copies. A CHAIN with head 0 is log entry 76, the storages by which DRAIN selects log entry
71 (both DESIGN CHOICE). -/
def Obligations.CopyAndWaitWords : Prop := Sys2Proof.Claims.CopyWords ∧ Sys2Proof.Claims.CopyWaitWords

namespace Sys2Proof.Claims
open Sys2Proof.Machine

/-- The matrix unit may start an elastic word (R182, R194). -/
def UnitFree (s : State) : Prop := s.core.cmuq = [] ∧ s.core.feedEnd ≤ s.cyc ∧ pathHeld s.strand .mat s.strand.nid (fun m => m.sp) = false

/-- The head tile of a ring is there and has not failed (R165, R197). -/
def Landed (r : Ring) : Prop := r.tail ≠ r.head ∧ r.head.toNat ∉ r.failed

/-- No line of the scratchpad that a range touches holds an uncorrectable error (R26). -/
def Clean (c : Core) (o n : Nat) : Prop := ∀ l ∈ c.padBad, o + n ≤ 64 * l ∨ 64 * l + 64 ≤ o

/-- The accepted pairs of formats of MMA (R196): elements of an operand row, its bytes, the accumulator type. -/
def pairs (a b : Nat) : Option (Nat × Nat × AccTy) :=
  match a, b with
  | 2, 2 => some (32, 64, .f32)
  | 3, 3 => some (32, 64, .f32)
  | 4, 4 => some (64, 64, .f32)
  | 4, 5 => some (64, 64, .f32)
  | 5, 4 => some (64, 64, .f32)
  | 5, 5 => some (64, 64, .f32)
  | 8, 8 => some (64, 64, .s32)
  | 11, 11 => some (128, 96, .f32)
  | _, _ => none

/-- An elastic word waits: no register, ring, tile or byte changes, and it is tried again. -/
def Waits (i : Instr) (s : State) : Prop :=
  ∃ u, exec i s = .next u ∧ u.seq.pc = s.seq.pc ∧ u.seq.regs = s.seq.regs ∧ u.strand.rings = s.strand.rings ∧ u.strand.slots = s.strand.slots ∧
    u.pkg = s.pkg ∧ u.core.tiles = s.core.tiles ∧ u.core.scratch = s.core.scratch

end Sys2Proof.Claims

/-- R190: a matrix use by the holder executes; one by another strand with no spilled tiles takes the file when it has no holder or a
holder of the same context with no live tile, whose counts of drain-adds go back to its own record (R202); otherwise it traps ACCFIRST
with tval the holder's context, shown on MZERO. -/
def Obligations.MatrixUse : Prop :=
  ∀ (acc : Fin 8) (s : State), Calm s → s.core.cmuq.length < 4 →
    let done := fun (u : State) => exec (.mzero acc) s = .next (issued s (setLive acc true (enqueue (.zero acc) u)))
    let c := s.core
    let back := fun (t : Strand) => if t.h = c.accownHold ∧ t.h ≠ 0 then { t with arrivals := c.arrivals, refusals := c.refusals } else t
    let left := if s.strand.h = c.accownHold then { s with strand := back s.strand } else { s with strands := s.strands.map back }
    let free := s.core.accownValid = false ∨ (s.core.accownCtx = s.strand.ctx ∧ s.core.acclive = 0#8)
    (Holds s → done s) ∧
    (¬Holds s → s.strand.spill = none → free →
      done { left with core := { c with accownValid := true, accownHold := s.strand.h, accownCtx := s.strand.ctx,
                                        arrivals := s.strand.arrivals, refusals := s.strand.refusals } }) ∧
    (¬Holds s → ¬(s.strand.spill = none ∧ free) → exec (.mzero acc) s =
      .next (takeTrap .accfirst (if s.core.accownValid then s.core.accownCtx.zeroExtend 64 else 0#64) s))

/-- R195 to R197: MMA and MMAZ by the holder with a free unit, an accepted pair of formats and both head tiles landed write the
product to the tile, mark it live, feed for 32 cycles and free the tiles that are not kept; one ring for both operands is ILLEGAL, and
so is, at issue, a pair, type or tile size that R196 does not accept; a failed head tile is PAGE_LOAD, and with no tile or a busy
unit they wait. -/
def Sys2Proof.Claims.MatrixProductWords : Prop :=
  ∀ (acc : Fin 8) (ka kb : Fin 16) (keepA keepB : Bool) (m : AMd) (s : State), Calm s → Holds s →
    let ra := s.strand.ring ka.val
    let rb := s.strand.ring kb.val
    let fa := s.strand.ringFmt ra
    let fb := s.strand.ringFmt rb
    let ok := fun K row => pairs fa fb = some (K, row, m.ty) ∧ 32 * row ≤ ra.tileBytes ∧ 32 * row ≤ rb.tileBytes
    let starts := UnitFree s ∧ ra.tail ≠ ra.head ∧ rb.tail ≠ rb.head
    let pops := (if keepA then [] else [ka]) ++ (if keepB then [] else [kb])
    let run := fun (i : Instr) (c : List W32) =>
      (ka = kb → exec i s = .next (takeTrap .illegal s.ir s)) ∧
      (ka ≠ kb → ¬starts → Waits i s) ∧
      (ka ≠ kb → starts → ¬(∃ K row, ok K row) → exec i s = .next (takeTrap .illegal s.ir s)) ∧
      ∀ K row, ok K row → ka ≠ kb → starts →
        (Landed ra → Landed rb → Clean s.core (ra.tileAt ra.head.toNat) (32 * row) → Clean s.core (rb.tileAt rb.head.toNat) (32 * row) →
          let t := mmaTile m fa fb K row c (s.core.scratch.read (ra.tileAt ra.head.toNat) (32 * row)) (s.core.scratch.read (rb.tileAt rb.head.toNat) (32 * row))
          exec i s = .next (issued s (feed 32 pops (s.cyc + 32) none (putFlags t.2.1 t.2.2 48 (setLive acc true (setTile acc.val t.1 s)))))) ∧
        (ra.head.toNat ∈ ra.failed → exec i s = .next (takeTrap .pageLoad (nat (0xFFFFFFFFE00000 + ra.tileAt ra.head.toNat)) s)) ∧
        (ra.head.toNat ∉ ra.failed → rb.head.toNat ∈ rb.failed →
          exec i s = .next (takeTrap .pageLoad (nat (0xFFFFFFFFE00000 + rb.tileAt rb.head.toNat)) s))
    run (.mma acc ka kb keepA keepB m) (s.core.tile acc.val) ∧ run (.mmaz acc ka kb keepA keepB m) (List.replicate 1024 0#32)

/-- R196, R197: element (i, j) of an s32 product is the accumulator's element plus the sum of the products of row i of A and row j of
B, exactly, narrowed to s32. -/
def Sys2Proof.Claims.IntegerProductTile : Prop :=
  ∀ (m : AMd) (c : List W32) (a b : List Byte), m.ty = .s32 → a.length = 2048 → b.length = 2048 →
    ∀ i j, i < 32 → j < 32 →
      (mmaTile m 8 8 64 64 c a b).1.getD (32 * i + j) 0#32 = BitVec.ofNat 32 (narrow 32 m.sat ((c.getD (32 * i + j) 0#32).toInt +
        ((List.range 64).map fun k => (a.getD (64 * i + k) 0#8).toInt * (b.getD (64 * j + k) 0#8).toInt).sum))

/-- R194, R198 to R202: MZERO, MLDACC, MSTACC, MDADD and MWAIT by the holder of the file. What a word of the unit reads, it reads when it
starts there (log entry 41, DEDUCED). -/
def Obligations.MatrixTileWords : Prop :=
  ∀ (s : State), Calm s → Holds s →
    let bytes := fun fmt => if fmt = 0 then 4096 else 1024 * elemBytes fmt
    (∀ acc, (s.core.cmuq.length < 4 → exec (.mzero acc) s = .next (issued s (setLive acc true (enqueue (.zero acc) s)))) ∧
      (4 ≤ s.core.cmuq.length → exec (.mzero acc) s = .next (takeTrap .queue 0x100#64 s))) ∧
    (∀ acc (k : Fin 16) keep m,
      let r := s.strand.ring k.val
      let fmt := s.strand.ringFmt r
      let starts := UnitFree s ∧ r.tail ≠ r.head
      (¬starts → Waits (.mldacc acc k keep m) s) ∧
      (starts → 11 ≤ fmt ∨ r.tileBytes < bytes fmt → exec (.mldacc acc k keep m) s = .next (takeTrap .illegal s.ir s)) ∧
      (starts → fmt < 11 → bytes fmt ≤ r.tileBytes →
        (r.head.toNat ∈ r.failed → exec (.mldacc acc k keep m) s = .next (takeTrap .pageLoad (nat (0xFFFFFFFFE00000 + r.tileAt r.head.toNat)) s)) ∧
        (Landed r → Clean s.core (r.tileAt r.head.toNat) (bytes fmt) →
          let t := loadTile m fmt (s.core.scratch.read (r.tileAt r.head.toNat) (bytes fmt))
          exec (.mldacc acc k keep m) s = .next (issued s (feed 64 (if keep then [] else [k]) (s.cyc + 64) none
            (putFlags t.2.1 t.2.2 80 (setLive acc true (setTile acc.val t.1 s)))))))) ∧
    (∀ acc (k : Fin 16) free m,
      let r := s.strand.ring k.val
      let fmt := s.strand.ringFmt r
      let n := if fmt = 11 then 768 else bytes fmt
      let starts := UnitFree s ∧ (r.resv - r.head).toNat < r.count
      (¬starts → Waits (.mstacc k acc free m) s) ∧
      (starts → fmt = 12 ∨ r.tileBytes < n → exec (.mstacc k acc free m) s = .next (takeTrap .illegal s.ir s)) ∧
      (starts → fmt ≠ 12 → n ≤ r.tileBytes →
          let t := storeTile m fmt (s.core.tile acc.val)
          let u := if free then setLive acc false (setTile acc.val (List.replicate 1024 0#32) s) else s
          exec (.mstacc k acc free m) s = .next (issued s (feed 64 [] (s.cyc + 96) (some (k.val, r.resv.toNat, t.1))
            (putFlags t.2.1 t.2.2 96 { u with strand := u.strand.setRing k.val { r with resv := r.resv + 1#32 } }))))) ∧
    (∀ acc peer free m, Ready ([peer].flatMap sPops) [] s →
      let v := ((vals [peer] s).headD 0#64).toNat
      let pkg := v / 2 ^ 32 % 2 ^ 10
      let core := v / 2 ^ 16 % 2 ^ 9
      let ok := v / 2 ^ 42 = 0 ∧ v / 2 ^ 25 % 2 ^ 7 = 0 ∧ v / 2 ^ 3 % 2 ^ 13 = 0 ∧ pkg ≤ 992 ∧ core ≤ 351
      (¬ok → exec (.mdadd acc peer free m) s = .next (takeTrap .illegal s.ir s)) ∧
      (ok → 4 ≤ s.core.cmuq.length → exec (.mdadd acc peer free m) s = .next (takeTrap .queue 0x100#64 s)) ∧
      (ok → s.core.cmuq.length < 4 → exec (.mdadd acc peer free m) s =
        .next (issued s (enqueue (.dadd acc pkg core (Fin.ofNat 8 v) free m) (popped [peer] s))))) ∧
    (∀ d, Ready [] (sPushes d) s →
      (s.strand.matIds ≠ [] → Waits (.mwait d .all) s) ∧
      (s.strand.matIds = [] → exec (.mwait d .all) s = .next (issued s (putS d 1 (nat s.core.refusals) { s with core := { s.core with refusals := 0 } })))) ∧
    ∀ d (n : Fin 8) cnt, Ready ([cnt].flatMap sPops) (sPushes d) s →
      let v := ((vals [cnt] s).headD 0#64).toNat
      let have_ := s.core.arrivals.getD n.val 0
      let u := popped [cnt] s
      (65535 < v → exec (.mwait d (.tile n cnt)) s = .next (takeTrap .illegal s.ir s)) ∧
      (v ≤ 65535 → have_ < v → Waits (.mwait d (.tile n cnt)) s) ∧
      (v ≤ have_ → v ≤ 65535 → exec (.mwait d (.tile n cnt)) s = .next (issued s (putS d 1 (nat have_)
        { u with core := { u.core with arrivals := u.core.arrivals.set n.val (have_ - v) } })))

/-- R195 to R197: MMA and MMAZ and what an integer product holds. Ring tiles and weights are read when the word starts in the
unit (log entry 41, DEDUCED). -/
def Obligations.MatrixProducts : Prop := Sys2Proof.Claims.MatrixProductWords ∧ Sys2Proof.Claims.IntegerProductTile

namespace Sys2Proof.Claims
open Sys2Proof.Machine

/-- A word that waits: its stream stays at it, and no register, queue, memory or object changes. -/
def Stalls (i : Instr) (s : State) : Prop :=
  ∃ u, exec i s = .next u ∧ u.seq.pc = s.seq.pc ∧ u.seq.regs = s.seq.regs ∧ u.strand.lq = s.strand.lq ∧ u.strand.sq = s.strand.sq ∧
    u.strand.acc = s.strand.acc ∧ u.pkg = s.pkg ∧ u.core = s.core

/-- A pending cancel ends the strand in the foreground (R96): both streams have ended, its queues are empty and it stops. -/
def EndsCancelled (i : Instr) (s : State) : Prop :=
  exec i s = .next (endCancelled s) ∧ (endCancelled s).strand.a.ended = true ∧ (endCancelled s).strand.x.ended = true ∧
    (endCancelled s).strand.phase = .stopping ∧ (endCancelled s).strand.lq = List.replicate 4 [] ∧
    (endCancelled s).strand.sq = List.replicate 4 [] ∧ (endCancelled s).strand.cancelEnd = true

/-- The fence with which an awaited event or phase is acquired: an acquire of a scope over every storage (R183, R220). -/
def acquire (scope : Fin 3) : AccOp := .fence 1 ⟨scope.val, by omega⟩ ⟨true, true, true⟩

end Sys2Proof.Claims

/-- R218 to R222: EVSIG, EVCLR and EVTEST hand their operation to the pipeline, EVTEST reserving its result; EVWAIT sends the stream
as a waiter once and waits, and goes on with an acquire when it has been woken. A name of 65536 or above is ILLEGAL, a full
overflow area EVENT. -/
def Obligations.EventWords : Prop :=
  ∀ (name : SOp) (s : State), Ready ([name].flatMap sPops) [] s →
    let v := (vals [name] s).headD 0#64
    let u := popped [name] s
    (∀ i ∈ [Instr.evclr name, .evsig name 0, .evsig name 1, .evsig name 2, .evwait name 0, .evwait name 1, .evwait name 2],
      65536 ≤ v.toNat → exec i s = .next (takeTrap .illegal s.ir s)) ∧
    (∀ d, 65536 ≤ v.toNat → exec (.evtest d name) s = .next (takeTrap .illegal s.ir s)) ∧
    (v.toNat < 65536 →
      (∀ scope, (eventFull s v.toNat false = true → exec (.evsig name scope) s = .next (takeTrap .event v s)) ∧
        (eventFull s v.toNat false = false → Calm s → exec (.evsig name scope) s = .next (issued s (addAcc (.evsig v.toNat scope) u)))) ∧
      (Calm s → exec (.evclr name) s = .next (issued s (addAcc (.evclr v.toNat) u))) ∧
      (∀ d, Ready ([name].flatMap sPops) (sPushes d) s → Calm s →
        exec (.evtest d name) s = .next (issued s (addAcc (.evtest v.toNat u.strand.nid) (reserveS d u)))) ∧
      ∀ scope,
        (s.strand.cancelled = true → EndsCancelled (.evwait name scope) s) ∧
        (s.strand.cancelled = false → Calm s →
          (s.seq.woken = true → exec (.evwait name scope) s =
            .next (issuedReset s (addAcc (acquire scope) (withSeq u s.stream { u.seq with woken := false })))) ∧
          (s.seq.woken = false → s.seq.waiting = true → Stalls (.evwait name scope) s) ∧
          (s.seq.woken = false → s.seq.waiting = false → eventFull s v.toNat true = true →
            exec (.evwait name scope) s = .next (takeTrap .event v s)) ∧
          (s.seq.woken = false → s.seq.waiting = false → eventFull s v.toNat true = false → ∃ t, exec (.evwait name scope) s = .next t ∧
            t.seq.pc = s.seq.pc ∧ t.seq.regs = s.seq.regs ∧ t.seq.waiting = true ∧ t.pkg = s.pkg ∧ t.core = s.core ∧
            t.strand.acc = s.strand.acc ++ [{ id := s.strand.nid, st := s.stream, op := .evwait v.toNat, sent := false, pages := [], cyc := s.cyc }])))

/-- R227 to R236: a barrier word with a bad id or count is ILLEGAL and one that names a barrier the context was not given is BAR;
BARINIT, BARARR and BAREXP hand their operation to the pipeline; BARWAIT writes the phase and lastfail of a completed phase
with an acquire, waits for one that is not complete, raises a recorded misuse, and traps BAR on an inactive barrier. A cancel
before a recorded misuse is log entry 25 (DEDUCED). -/
def Obligations.BarrierWords : Prop :=
  ∀ (bar x : SOp) (s : State), Calm s → Ready ([bar, x].flatMap sPops) [] s →
    let v := (vals [bar, x] s).getD 0 0#64
    let n := ((vals [bar, x] s).getD 1 0#64).toNat
    let die := v.toNat / 256
    let index := v.toNat % 256
    let u := popped [bar, x] s
    let given := s.barAt s.strand.slot die index
    (2048 ≤ v.toNat → ∀ d scope, exec (.barwait d bar x scope) s = .next (takeTrap .illegal s.ir s) ∧
      (x = .none → exec (.bararr d bar scope) s = .next (takeTrap .illegal s.ir s))) ∧
    ((2048 ≤ v.toNat ∨ n = 0 ∨ 65536 ≤ n) → exec (.barinit bar x) s = .next (takeTrap .illegal s.ir s)) ∧
    ((2048 ≤ v.toNat ∨ 16 ≤ n) → exec (.barexp bar x) s = .next (takeTrap .illegal s.ir s)) ∧
    (v.toNat < 2048 →
      (1 ≤ n → n < 65536 →
        (given = none → exec (.barinit bar x) s = .next (takeTrap .bar v s)) ∧
        (given ≠ none → exec (.barinit bar x) s = .next (issued s (addAcc (.barinit die index n) u)))) ∧
      (n < 16 →
        (given = none → exec (.barexp bar x) s = .next (takeTrap .bar v s)) ∧
        (given ≠ none →
          (¬Busy ((s.strand.slots[n]?).join) → exec (.barexp bar x) s = .next (issued s (addAcc (.barexp die index n 0) u))) ∧
          ∀ c, Busy (some c) → s.strand.slots[n]? = some (some c) →
            (c.bar ≠ none → exec (.barexp bar x) s = .next (takeTrap .bar v s)) ∧
            (c.bar = none → exec (.barexp bar x) s = .next (issued s (addAcc (.barexp die index n c.id)
              { u with strand := { u.strand with slots := u.strand.slots.set n (some { c with bar := some (die, index) }) } }))))) ∧
      (∀ d scope, s.strand.cancelled = true → EndsCancelled (.barwait d bar x scope) s) ∧
      (∀ d scope, s.strand.cancelled = false → Ready ([bar, x].flatMap sPops) (sPushes d) s →
        (given = none → exec (.barwait d bar x scope) s = .next (takeTrap .bar v s)) ∧
        ∀ b, given = some b →
          (∀ m, s.seq.misuse = some m →
            exec (.barwait d bar x scope) s = .next (takeTrap .bar m (withSeq s s.stream { s.seq with misuse := none }))) ∧
          (s.seq.misuse = none →
            (b.active = false → barPending s die index = false → exec (.barwait d bar x scope) s = .next (takeTrap .bar v s)) ∧
            (b.active = true → 0 < (b.phase - BitVec.ofNat 32 n).toInt →
              exec (.barwait d bar x scope) s = .next (issued s (addAcc (acquire scope)
                (putS d 1 (nat ((if b.lastf then 2 ^ 32 else 0) + b.phase.toNat)) u)))) ∧
            ((if b.active then (b.phase - BitVec.ofNat 32 n).toInt ≤ 0 else barPending s die index = true) →
              Stalls (.barwait d bar x scope) s))) ∧
      ∀ d scope, x = .none → Ready ([bar].flatMap sPops) (sPushes d) s →
        (given = none → exec (.bararr d bar scope) s = .next (takeTrap .bar v s)) ∧
        (given ≠ none → exec (.bararr d bar scope) s = .next (issued s (addAcc
          (.bararr die index scope u.strand.nid) (reserveS d u)))))

/-- R258, R267, R268, R386: CANCEL, GCNT and BALLOT ask Taproot and reserve their result, a bad target or handle being ILLEGAL; LAUNCH
takes one of its core's credits and hands its record's address over, waits without a credit and traps ALIGN for a bad address. -/
def Obligations.LaunchAndCancelWords : Prop :=
  ∀ (d : SOp) (s : State), Calm s →
    (∀ tgt level,
      let v := (vals [tgt] s).headD 0#64
      let u := popped [tgt] s
      let low := [0, 0, 16, 32, 48].getD level.val 0
      let ok := (v.toNat % 2 ^ low = 0 ∧ (level = 0 → v.toNat < 2 ^ 35) ∧ (level = 1 → v.toNat < 2 ^ 32))
      (¬ok → Ready ([tgt].flatMap sPops) [] s → exec (.cancel d tgt level) s = .next (takeTrap .illegal s.ir s) ∧
        exec (.gcnt d tgt level) s = .next (takeTrap .illegal s.ir s)) ∧
      (ok → Ready ([tgt].flatMap sPops) (sPushes d) s →
        exec (.cancel d tgt level) s = .next (issued s (addAcc (.cancel v level u.strand.nid) (reserveS d u))) ∧
        exec (.gcnt d tgt level) s = .next (issued s (addAcc (.gcnt v level u.strand.nid) (reserveS d u))))) ∧
    (∀ whorl hash,
      let v := (vals [whorl, hash] s).getD 0 0#64
      let u := popped [whorl, hash] s
      (65536 ≤ v.toNat → Ready ([whorl, hash].flatMap sPops) [] s → exec (.ballot d whorl hash) s = .next (takeTrap .illegal s.ir s)) ∧
      (v.toNat < 65536 → Ready ([whorl, hash].flatMap sPops) (sPushes d) s → exec (.ballot d whorl hash) s =
        .next (issued s (addAcc (.ballot v ((vals [whorl, hash] s).getD 1 0#64) u.strand.nid) (reserveS d u))))) ∧
    ∀ rec q, Ready ([rec].flatMap sPops) (sPushes d) s →
      let a := (vals [rec] s).headD 0#64
      let u := popped [rec] s
      let k := s.core.credit s.strand.slot
      (k = 0 → ∃ t, exec (.launch d rec q) s = .next t ∧ t.seq.pc = s.seq.pc ∧ t.seq.regs = s.seq.regs ∧ t.strand.acc = s.strand.acc ∧
        t.core = s.core ∧ ∀ c, t.ctxAt s.strand.slot = some c → s.core.num ∈ c.creditWait) ∧
      (k ≠ 0 → (¬Placed a 64 64 false ∨ inLocal a.toNat = true) → exec (.launch d rec q) s = .next (takeTrap .align a s)) ∧
      (k ≠ 0 → Placed a 64 64 false → inLocal a.toNat = false → ∃ c : Core, c.credit s.strand.slot = k - 1 ∧
        c = { u.core with credits := c.credits } ∧
        exec (.launch d rec q) s = .next (issued s (addAcc (.launch a.toNat q u.strand.nid) (reserveS d { u with core := c }))))

/-- R263 to R265, R271 to R275: QPUSH adds a record to the strand's uncommitted pushes, QCLOSE commits and closes its stage's queue,
QPOP commits, takes the next record of the stage's input and writes it with a predicate of ones, or 0 and a predicate of 0 at the end
of the input or a withdrawal; the QUEUE of a last stage, a closed queue or a seventeenth push; the waits of a full or empty queue. -/
def Obligations.StageQueueWords : Prop :=
  ∀ (s : State), Calm s →
    let slot := s.strand.slot
    let id := s.strand.launch.toNat
    let k := s.strand.unit.toNat
    (∀ val, Ready ([val].flatMap sPops) [] s →
      let u := popped [val] s
      (s.strand.lastStage = true → exec (.qpush val) s = .next (takeTrap .queue (nat k) s)) ∧
      ∀ l, s.strand.lastStage = false → s.launchAt slot id = some l →
        (l.closed k = true ∨ s.strand.queuePushed.length = 16 → exec (.qpush val) s = .next (takeTrap .queue (nat k) s)) ∧
        (l.closed k = false → s.strand.queuePushed.length < 16 →
          (s.qdepth slot l.id k ≤ (l.queue k).length + s.strand.queuePushed.length → Stalls (.qpush val) s) ∧
          ((l.queue k).length + s.strand.queuePushed.length < s.qdepth slot l.id k →
            exec (.qpush val) s = .next (issued s { u with strand := { u.strand with queuePushed := u.strand.queuePushed ++
              [⟨(vals [val] s).headD 0#64, u.strand.h, u.strand.nid⟩] } })))) ∧
    (
      let c := (s.commit s.strand.h true).updLaunch slot id (fun l => { l with sqs := l.sqs.modify k (fun q => { q with closed := true }) })
      (s.strand.lastStage = true → exec .qclose s = .next (takeTrap .queue (nat k) s)) ∧
      (∀ l, s.strand.lastStage = false → s.launchAt slot id = some l → l.closed k = true → exec .qclose s = .next (issued s s)) ∧
      (s.strand.lastStage = false → (∀ l, s.launchAt slot id = some l → l.closed k = false) →
        (∀ l, c.launchAt slot id = some l → (∃ x ∈ l.units, x.complete = false) ∧ ∀ j, unitDone c slot l j = false ∧ l.unitCancelled j = false) →
        exec .qclose s = .next (issued s c)) ∧
      ∀ l, c.launchAt slot id = some l → k < l.sqs.length → l.closed k = true) ∧
    ∀ d pd, Ready [] (sPushes d) s →
      let c := s.commit s.strand.h false
      let ends := fun (t : State) => exec (.qpop d pd) s = .next (issuedReset s (putP pd 0#512 1 (putS d 1 0#64 t)))
      (s.strand.cancelled = true → EndsCancelled (.qpop d pd) s) ∧
      (s.strand.cancelled = false → commitFits s = false → Stalls (.qpop d pd) s) ∧
      (s.strand.cancelled = false → commitFits s = true →
        (c.strand.withdrawn = true ∨ c.strand.reported = true → ends c) ∧
        (c.strand.withdrawn = false → c.strand.reported = false →
          (withdraws c = true → ends { c with strand := { c.strand with withdrawn := true } }) ∧
          (withdraws c = false →
            (nextInput c = .empty → ends { c with strand := { c.strand with reported := true } }) ∧
            (nextInput c = .wait → ∃ u, exec (.qpop d pd) s = .next u ∧ u.seq.pc = s.seq.pc ∧ u.seq.regs = s.seq.regs ∧
              u.strand.lq = s.strand.lq ∧ u.strand.sq = s.strand.sq ∧ u.strand.acc = s.strand.acc ∧ u.pkg = c.pkg ∧ u.core = s.core) ∧
            ∀ v b t, nextInput c = .record v b t → exec (.qpop d pd) s = .next (issuedReset s (putP pd (BitVec.allOnes 512) 1 (putS d 1 v
              (addAcc (.fence 1 2 ⟨false, true, true⟩) { t with strand := { t.strand with record := some (v, b) } }))))))) ∧
      ∀ l, s.strand.replay = none → s.launch = some l →
        (k = 0 → l.handed < l.count → l.unitCancelled 0 = false → ∃ t, nextInput s = .record (nat (l.inbase + l.handed * l.insize)) false t) ∧
        ∀ j r rs, k = j + 1 → l.queue j = r :: rs → released s r = true → ∃ t, nextInput s = .record r.val false t

/-- R203, R209, R213: TASK hands its record's address over as a new task, which a slot below 4 names from then on, and traps ALIGN for
a bad address; MPROG stops, when it is asked to, a slot's task that has not ended, at once when no unit of it runs, else as it stops,
and writes the state and progress that the task then has. A task whose record has not been read yet stops when it has been (log entry 43,
DEDUCED). -/
def Obligations.TaskWords : Prop :=
  ∀ (s : State), Calm s →
    (∀ rec (slot : Fin 5), Ready ([rec].flatMap sPops) [] s →
      let a := (vals [rec] s).headD 0#64
      let u := popped [rec] s
      let n := u.pkg.taskNo
      (¬Placed a 128 128 false ∨ inLocal a.toNat = true → exec (.task rec slot) s = .next (takeTrap .align a s)) ∧
      (Placed a 128 128 false → inLocal a.toNat = false → exec (.task rec slot) s = .next (issued s (addAcc (.task n)
        { u with pkg := { u.pkg with tasks := u.pkg.tasks ++ [Task.fresh n s.strand (s.strandClass s.strand) a.toNat], taskNo := n + 1 }
                 strand := if slot.val < 4 then { u.strand with prog := u.strand.prog.set slot.val (some n) } else u.strand })))) ∧
    ∀ d n, Ready [] (sPushes d) s →
      let writes := fun (v : State) => putS d 1 (v.progWord n.val) v
      exec (.mprog d n false) s = .next (issued s (writes s)) ∧
      (s.strand.prog[n.val]? = some none → exec (.mprog d n true) s = .next (issued s (writes s))) ∧
      ∀ k t, s.strand.prog[n.val]? = some (some k) → s.taskAt k = some t →
        (exec (.mprog d n true) s = .next (issued s (writes (s.stopTask k)))) ∧
        ((t.state.final = true ∨ t.state = .stopping ∨ t.state = .stopped) → s.stopTask k = s) ∧
        (t.state = .pending ∨ t.state = .ready ∨ t.state = .running → ∀ t', (s.stopTask k).taskAt k = some t' →
          t'.state = (if t.words = [] ∨ t.running ≠ [] then .stopping else .stopped))

namespace Sys2Proof.Claims
open Sys2Proof.Machine

/-- An engine word: its destination, its address operands with their alignments, its operation (R359, R360). -/
structure EngForm where
  d : LqDst
  srcs : List (SOp × Nat)
  op : List W64 → EngOp

def engForm : Instr → Option EngForm
  | .graft d a b => some ⟨d, [(a, 64), (b, 64)], fun v => .graft (v.getD 0 0#64) (v.getD 1 0#64)⟩
  | .kvseal d r => some ⟨d, [(r, 64)], fun v => .kvseal (v.getD 0 0#64)⟩
  | .kvcompact d r => some ⟨d, [(r, 64)], fun v => .kvcompact (v.getD 0 0#64)⟩
  | .beamix d a b => some ⟨d, [(a, 64), (b, 8)], fun v => .beamix (v.getD 0 0#64) (v.getD 1 0#64)⟩
  | .migrAdmit d r => some ⟨d, [(r, 64)], fun v => .migrAdmit (v.getD 0 0#64)⟩
  | .migrHand d r => some ⟨d, [(r, 64)], fun v => .migrHand (v.getD 0 0#64)⟩
  | .migrDone d r => some ⟨d, [(r, 64)], fun v => .migrDone (v.getD 0 0#64)⟩
  | .migrCancel d r => some ⟨d, [(r, 64)], fun v => .migrCancel (v.getD 0 0#64)⟩
  | .whorlOpen d r => some ⟨d, [(r, 64)], fun v => .whorlOpen (v.getD 0 0#64)⟩
  | .whorlClose d r => some ⟨d, [(r, 64)], fun v => .whorlClose (v.getD 0 0#64)⟩
  | .whorlRing d r => some ⟨d, [(r, 64)], fun v => .whorlRing (v.getD 0 0#64)⟩
  | .whorlUnring d r => some ⟨d, [(r, 64)], fun v => .whorlUnring (v.getD 0 0#64)⟩
  | .reshard d r => some ⟨d, [(r, 64)], fun v => .reshard (v.getD 0 0#64)⟩
  | _ => none

/-- An address that an engine admits: placed, and not in a window of local memory (R359). -/
def EngineAt (v : W64) (n : Nat) : Prop := Placed v 8 n false ∧ inLocal v.toNat = false

end Sys2Proof.Claims

/-- R359, R360, R365: an engine word checks its addresses in order, ALIGN at the first bad one, and hands its operation to the
pipeline, with a load queue as d reserving an entry; KVWALK loads the 8 bytes at its page as LD.s64 does, and demands the rebuild of a
page of a shard region that fails (R391). -/
def Obligations.EngineWords : Prop :=
  ∀ (s : State), Calm s →
    (∀ i f, engForm i = some f →
      let os := f.srcs.map (·.1)
      let u := popped os s
      let addrs := (vals os s).zip (f.srcs.map (·.2))
      (∀ pre x rest, addrs = pre ++ x :: rest → (∀ y ∈ pre, EngineAt y.1 y.2) → ¬EngineAt x.1 x.2 → Ready (os.flatMap sPops) [] s →
        exec i s = .next (takeTrap .align x.1 s)) ∧
      ((∀ y ∈ addrs, EngineAt y.1 y.2) →
        (f.d = .none → Ready (os.flatMap sPops) [] s →
          exec i s = .next (issued s (addAcc (.engine (f.op (vals os s)) none) u))) ∧
        ∀ q, f.d = .lq q → Ready (os.flatMap sPops) [(true, q)] s →
          exec i s = .next (issued s (addLoad q (.s 0#64) (fun ent => .engine (f.op (vals os s)) (some (q, ent))) u)))) ∧
    ∀ d page, Ready ([page].flatMap sPops) [] s →
      let a := (vals [page] s).headD 0#64
      let t := if s.pageFails s.strand.slot a.toNat then s.demandSlot s.strand.slot a.toNat else s
      (¬Placed a 8 8 false → exec (.kvwalk d page) s = .next (takeTrap .align a t)) ∧
      (Placed a 8 8 false → Ready ([page].flatMap sPops) [(true, d)] s → Mapped .read [(a.toNat, 8)] t →
        exec (.kvwalk d page) s = .next (issued t (addLoadVia (t.pagesOf [(a.toNat, 8)]) d (.s 0#64)
          (fun ent => .load d ent .s64 a.toNat) (popped [page] t)))) ∧
      (s.shardAt s.strand.slot = none → t = s)

namespace Sys2Proof.Claims
open Sys2Proof.Machine

/-- The next step looks at the word w, which the line of the program counter holds, at the state t (R54, R65, log 1): the issuing
stream's, after the results that land by then. -/
def Fetches (s : State) (w : W64) (t : State) : Prop :=
  let s0 := { s with sched := s.sched.tail }
  ∃ st c, nextStream s0 = some (st, c) ∧ mayIssue s0 c = true ∧
    t = { advance c s0 with stream := st, ir := w } ∧
    ∃ l, t.lineAt t.seq.pc = some l ∧ l.poisoned = false ∧ l.word t.seq.pc = w ∧
      ((∃ r, s.sched = .issue :: r) ∨
        (s.sched = [] ∧ firstMove s = none ∧ s.strand.wants = none ∧ s.lineAt (s.strand.seq st).pc = some l))

end Sys2Proof.Claims

/-- R54, R57, R62: a step whose next word decodes to an instruction that its stream, profile and guard admit is that instruction's
meaning at the state of its issue, and then what every step adds (tidy: requests that uncorrectable errors end, engine writes and
releases that were held, shootdowns to acknowledge, parked and ready strands; a word whose EVWAIT waits or has been woken runs whatever
its guard has become, log 99); a turn that is a well-
formed event is that event's meaning, once Taproot runs its firmware where the event is firmware's. Which word comes next is the model's turn (log entry 1, DESIGN CHOICE). -/
def Obligations.StepRunsDecodedWord : Prop :=
  (∀ s w t h i, Fetches s w t → decode w = .ok (h, i) → i.legal t.stream = true → (t.seq.started = true ∨ i = .go) →
    declared t.strand w = true → (vectorClass w = true ∨ guardScalar h t.seq = true ∨ t.seq.waiting = true ∨ t.seq.woken = true) → (elastic i = true → t.core.throttle ≤ t.cyc) →
    step s = tidied (exec i t)) ∧
  (∀ s i r, s.sched = .event i :: r → i.isEvent = true → i.wf = true → (s.pkg.boot.runs = true ∨ byFirmware i = false) → step s = tidied (exec i { s with sched := r })) ∧
  ∀ t, t.pkg.errs = [] → t.pkg.held = [] → t.pkg.late = [] → tidied (.next t) = .next (tidy t) ∧ (tidy t).core = t.core ∧ (tidy t).cores = t.cores ∧ (tidy t).strand.a = t.strand.a ∧
    (tidy t).strand.x = t.strand.x ∧ (tidy t).pkg.mem = t.pkg.mem ∧ (tidy t).pkg.ctxs = t.pkg.ctxs ∧ (tidy t).sched = t.sched

/-- R61, R62, R67: a word is checked in order: ILLEGAL with tval the word where it does not decode, where its stream does not admit
it and where a stream's first word is not GO; then PROFILE; then a scalar word with a false guard only moves its stream on. -/
def Obligations.WordChecksInOrder : Prop :=
  ∀ s w t, Fetches s w t →
    ((∀ x, decode w ≠ .ok x) → step s = .next (tidy (takeTrap .illegal w t))) ∧
    ∀ h i, decode w = .ok (h, i) →
      (i.legal t.stream = false → step s = .next (tidy (takeTrap .illegal w t))) ∧
      (i.legal t.stream = true →
        (t.seq.started = false → i ≠ .go → step s = .next (tidy (takeTrap .illegal w t))) ∧
        ((t.seq.started = true ∨ i = .go) →
          (declared t.strand w = false → step s = .next (tidy (takeTrap .profile w t))) ∧
          (declared t.strand w = true → vectorClass w = false → guardScalar h t.seq = false → t.seq.waiting = false → t.seq.woken = false → step s =
            .next (tidy (withSeq t t.stream { nextWord t.seq t.cyc with iters := t.seq.iters + t.seq.used t.cyc })))))

/-- R57 to R60: words that the spec writes out, with the instructions that it says they are; words of a reserved guard field, a body
of 0, an unassigned opcode and an operand code that no slot admits. -/
def Obligations.SpecWordsDecode : Prop :=
  let reads := fun (w : W64) (h : Hdr) (i : Instr) => (decode w).toOption = some (h, i)
  let fails := fun (w : W64) => (decode w).toOption = none
  reads 0x00D3C40101A0000A ⟨3, 2, 3, 3, 0⟩ (.vadd (.v 4) (.v 1) (.l 0) ⟨.bf16, .rz, false⟩) ∧
  reads 0x0000005D40020003 Hdr.zero (.loop (.imm 3) 2) ∧
  reads 0x001049302C000000 ⟨0, 2, 0, 1, 0⟩ (.topks (.lq 0)) ∧
  reads 0x0080064102B74038 ⟨2, 0, 0, 0, 0⟩ (.vtdot (.v 4) (.v 2) (.lq 1) .none false) ∧
  reads 0x00000B1002082000 Hdr.zero (.fence 2 2 ⟨false, true, false⟩) ∧
  reads 0x00000B3001002080 Hdr.zero (.pfence 1 0 ⟨false, true, false⟩ 2) ∧
  reads 0x00000A4B01680000 Hdr.zero (.lda .s64 2 0 (.reg 1) 0) ∧
  reads 0x00000A1B42000000 Hdr.zero (.ldv 1 (.reg 2) (.reg 0)) ∧
  reads 0x00000C1141003022 Hdr.zero (.cpyRing (.reg 5) (.reg 1) (.reg 3) 2) ∧
  reads 0x00000D0000043000 Hdr.zero (.mma 0 0 1 true true ⟨.f32, .rn, false⟩) ∧
  reads 0x00000D4080000000 Hdr.zero (.mstacc 2 0 false ⟨.f32, .rn, false⟩) ∧
  reads 0x00000D6108000000 Hdr.zero (.mwait (.reg 4) .all) ∧
  reads 0x00000D7003040000 Hdr.zero (.task (.reg 3) 1) ∧
  reads 0x00000E7189D02000 Hdr.zero (.barwait (.reg 6) (.reg 9) .none 2) ∧
  reads 0x00000EC080E40000 Hdr.zero (.qpop (.reg 2) 1) ∧
  reads 0x00000E91C3040000 Hdr.zero (.cancel (.reg 7) (.reg 3) 1) ∧
  reads 0x00000F41020C0000 Hdr.zero (.ballot (.reg 4) (.reg 2) (.reg 3)) ∧
  reads 0x0000029E81000084 Hdr.zero (.cmpi .ltu 2 (.reg 1) 16) ∧
  reads 0x00000940C1000000 Hdr.zero (.topkd (.v 3) 1) ∧
  reads 0x00000630AC000000 Hdr.zero (.vtrit (.v 2) (.lq 0) 0) ∧
  reads 0x00000F5D03080000 Hdr.zero (.whorlRing .none (.reg 3)) ∧
  fails 0x00100000D0000000 ∧
  fails 0x0000005D40000003 ∧
  fails 0x00000FF000000000 ∧
  fails 0x0000010D80000000 ∧
  fails 0x0000100000000000

/-- R57 to R63: for every instruction that a stream admits, with every operand, and every header that its opcode admits, the decoder
reads the encoded word back, and its eight bytes are the word. -/
def Obligations.DecodeOfEncode : Prop :=
  ∀ st h i, Instr.legal st i = true → h.ok i = true →
    ∃ w, encode h i = some w ∧ decode w = .ok (h, i) ∧ wordOfBytes (bytesOfWord w) = w

/-- R57 to R63: a word that decodes is the encoding of what it decodes to, so that every reserved field of it is 0, and some stream
admits the instruction. -/
def Obligations.EncodeOfDecode : Prop :=
  ∀ w h i, decode w = .ok (h, i) → encode h i = some w ∧ h.ok i = true ∧ (i.legal .a = true ∨ i.legal .x = true)

/-- R55 and the reset values that the spec gives: the lock block open with its ceiling and egress limits, every compute die in
reset, the queue ages, the fabric's defaults and the ports' after reset, no strand, no TLB entry and empty tables. Empty
tables where the spec gives no reset value are the model's choice (log entry 3). -/
def Obligations.ResetValues : Prop :=
  let p := State.reset.pkg
  p.lock.lock = false ∧ p.lock.ceil = 0x0AF0#16 ∧ p.lock.egr = List.replicate 32 0x00E0#16 ∧ p.numaMode = 0#2 ∧
  p.age3 = 1000#16 ∧ p.age2 = 1000#16 ∧ p.fabGap = 800#16 ∧ p.skew = 0#16 ∧ p.ctxs = [] ∧ p.tasks = [] ∧ p.engTlb = [] ∧
  (∀ d ∈ p.dies, d.up = false ∧ d.live = 0#48 ∧ d.state = 0) ∧
  (∀ q ∈ p.ports, q.en = false ∧ q.state = 0 ∧ q.errthr = 64#8) ∧
  (∀ c ∈ State.reset.allCores, c.runs = 0 ∧ c.tlb = [] ∧ c.icache = [] ∧ c.upd = [] ∧ c.accownValid = false) ∧
  ((List.range 352).all fun n => State.reset.allCores.any fun c => c.num == n) = true ∧
  (∀ t ∈ State.reset.allStrands, t.h = 0)

namespace Sys2Proof.Claims
open Sys2Proof.Machine

/-- Every memory of the machine is in its canonical form: the package's, each core's scratchpad, each strand's saved image. -/
def Canonical (s : State) : Prop :=
  s.pkg.mem.wf = true ∧ (∀ c ∈ s.allCores, c.scratch.wf = true) ∧ ∀ t ∈ s.allStrands, t.spimage.wf = true

/-- What a byte reads as when bytes have been written from an address on. -/
def overlay (a : Nat) (bs : List Byte) (m : Mem) (x : Nat) : Byte := if a ≤ x ∧ x < a + bs.length then bs.getD (x - a) 0#8 else m.get x

end Sys2Proof.Claims

/-- The memories of the reset state are canonical. The canonical form is the model's own way to hold memory (log entry 2), no rule
of the spec. -/
def Obligations.ResetInvariant : Prop := Canonical State.reset

/-- R1, R2, R188: a step keeps every memory canonical: addresses strictly rising, no byte listed that reads as an unlisted one.
The canonical form is the model's own way to hold memory (log entry 2), no rule of the spec. -/
def Obligations.StepKeepsInvariant : Prop := ∀ s t, Canonical s → step s = .next t → Canonical t

/-- R2, R174: reading after writing gives the bytes written and leaves every other byte; a write keeps the canonical form, in
which equal memories are equal data. The canonical form and the byte 0 of an unlisted address are the model's (log entry 2).
-/
def Obligations.MemoryReadAfterWrite : Prop :=
  (∀ (m : Mem) a bs, m.wf = true → (m.write a bs).wf = true ∧ (∀ x, (m.write a bs).get x = overlay a bs m x) ∧
    (m.write a bs).read a bs.length = bs) ∧
  (∀ m n : Mem, m.wf = true → n.wf = true → (∀ x, m.get x = n.get x) → m = n) ∧
  ∀ k v, (leBytes k v).length = k ∧ leNat (leBytes k v) = v % 256 ^ k

/-- Every step of every state gives a next state: no instruction and no event of the opcode table stops the machine. That an event
which does not apply changes nothing is the model's choice (log entry 1). -/
def Obligations.EveryStepAnswersNext : Prop := (∀ i s, ∃ t, exec i s = .next t) ∧ ∀ s, ∃ t, step s = .next t

/-- R147, R164, R416: a word changes no byte of memory or of a scratchpad at its issue, as every access is performed behind it, except
END, QPOP, QCLOSE and MPROG, whose commits and stops write state words into records. -/
def Obligations.WordsKeepMemory : Prop :=
  ∀ i s t, i.isEvent = false → i ≠ .end_ → i ≠ .qclose → (∀ d p, i ≠ .qpop d p) → (∀ d n b, i ≠ .mprog d n b) → exec i s = .next t →
    (∀ a, t.pkg.mem.get a = s.pkg.mem.get a) ∧ (∀ a, t.core.scratch.get a = s.core.scratch.get a) ∧ t.cores = s.cores

/-- R55, R61, R68, R69: a result with bound L is not read before issue + L and is read from then on; register 0 and p0 keep what they
read as; of a vector result the elements outside the guard keep their old value, a pushed entry holds 0 there, and the last-result
slot holds what the destination holds inside the shape. Which of the old and the new value is read inside the window is a list of turns
(log entry 68, DESIGN CHOICE). -/
def Obligations.ResultWindow : Prop :=
  (∀ st n v L s c, 2 ≤ L → s.strand.pend = [] → (s.strand.seq st).regs.length = 32 →
    let q := (settle c (putResult (.scal st n) (BitVec.allOnes 512) (.s v) L s).strand).seq st
    q.get n = (if n = 0 then 0#64 else if s.cyc + L ≤ c then v else (s.strand.seq st).get n) ∧
    ∀ m, m ≠ n → q.get m = (s.strand.seq st).get m) ∧
  (∀ (q : Seq) v m, q.get 0 = 0#64 ∧ q.pred 0 = BitVec.allOnes 512 ∧ q.put 0 v = q ∧ q.putPred 0 m = q) ∧
  (∀ (n : Fin 32) (m : Pred) (v : VReg) L s c, 2 ≤ L → s.strand.pend = [] → s.strand.v.length = 32 →
    let r := (settle c (putResult (.vec n) m (.v v) L s).strand).v.getD n.val VReg.zero
    ∀ p, p < 512 → r.getD p 0#32 = if s.cyc + L ≤ c ∧ m.getLsbD p = true then v.getD p 0#32 else (s.strand.v.getD n.val VReg.zero).getD p 0#32) ∧
  ∀ (n : Fin 32) (q : Fin 4) (m : Pred) (v : VReg) s, s.strand.pend = [] → s.strand.v.length = 32 → s.strand.l.length = 4 → s.strand.sq.length = 4 →
    let old := s.strand.v.getD n.val VReg.zero
    let t := (putV (.v n) m v 1 s).strand
    let u := (putV (.sq q) m v 1 s).strand
    let k := (s.strand.lpos + 1).val
    (∀ p, p < 512 →
      (t.v.getD n.val VReg.zero).getD p 0#32 = (if m.getLsbD p then v.getD p 0#32 else old.getD p 0#32) ∧
      (t.l.getD k VReg.zero).getD p 0#32 = (if inShape s.strand.vshape p then (if m.getLsbD p then v.getD p 0#32 else old.getD p 0#32) else 0#32)) ∧
    t.lpos.val = k ∧
    ∃ e, u.queue false q = s.strand.queue false q ++ [e] ∧ e.landed (s.cyc + 1) = true ∧
      ∃ c, e.val = .v (shRows s.strand.vshape) (shCols s.strand.vshape) c ∧
        ∀ p, p < 512 → c.getD p 0#32 = if inShape s.strand.vshape p && m.getLsbD p then v.getD p 0#32 else 0#32

/-- R88, R89: with a loop of b words and n iterations on top of an otherwise empty stack, words that fall through issue from the
loop's start: the k-th is word k mod b of iteration k / b, and after n × b words the stack is empty and the stream past the loop. -/
def Obligations.LoopRunsNTimes : Prop :=
  ∀ (q : Seq) (w : PC) (b : BitVec 14) (n : BitVec 32) (c : Nat → Nat), b ≠ 0#14 → n ≠ 0#32 → q.pc = w → q.loops = [⟨w, b, n, 0#32⟩] →
    let run := fun (k : Nat) => (List.range k).foldl (fun q j => nextWord q (c j)) q
    (∀ k, k < n.toNat * b.toNat → (run k).pc = w + BitVec.ofNat 56 (8 * (k % b.toNat)) ∧
      ∃ l, (run k).loops = [l] ∧ l.idx.toNat = k / b.toNat ∧ l.rem.toNat = n.toNat - k / b.toNat) ∧
    (run (n.toNat * b.toNat)).pc = w + BitVec.ofNat 56 (8 * b.toNat) ∧ (run (n.toNat * b.toNat)).loops = []

namespace Sys2Proof.Claims
open Sys2Proof.Machine

/-- The strand in the foreground is a strand, on the core in the foreground. -/
def Fronted (s : State) : Prop := s.strand.h ≠ 0 ∧ s.strand.core = s.core.num

end Sys2Proof.Claims

/-- R70 to R72, R93, R191, R248, R279, R290, R291: a trap writes its record and stops the strand; Taproot firmware suspends and
resumes a strand, past a TRAP, with its records kept; a time slice makes a pre-emption pending, a park threshold parks, a
saved pre-emption leaves the core with no copy of a remote line, ACCFIRST spills the holder's live tiles and gives the file with no tile of
another context, WATCHDOG comes at the word that would pass the bound. That the event of another strand or another phase changes nothing
is log entry 1; parking is log entry 29 (DEDUCED). -/
def Obligations.StrandStops : Prop :=
  (∀ c v s, let t := takeTrap c v s
    t.seq.tcause = c ∧ t.seq.tpc = s.seq.pc ∧ t.seq.tval = v ∧ t.seq.trapped = true ∧ t.seq.pc = s.seq.pc ∧ t.seq.regs = s.seq.regs ∧
    t.seq.preds = s.seq.preds ∧ t.seq.loops = s.seq.loops ∧ t.strand.phase = .stopping ∧ t.pkg = s.pkg ∧ t.core = s.core ∧
    (let o := t.strand.seq (Stream.other s.stream)
     let o' := s.strand.seq (Stream.other s.stream)
     o.regs = o'.regs ∧ o.pc = o'.pc ∧ o.trapped = o'.trapped) ∧ t.strand.lq = s.strand.lq ∧ t.strand.sq = s.strand.sq ∧ t.strand.v = s.strand.v) ∧
  (∀ s, let t := resumeStrand s
    t.strand.phase = (if 64 ≤ s.strand.sidelog.length then .stopping else .running) ∧ ∀ st, let q := s.strand.seq st
      let r := t.strand.seq st
      r.trapped = false ∧ r.regs = q.regs ∧ r.loops = q.loops ∧ r.tcause = q.tcause ∧ r.tpc = q.tpc ∧ r.tval = q.tval ∧
      r.pc = (if q.trapped = true ∧ q.tcause = .trap then q.tpc + 8#56 else q.pc)) ∧
  (∀ s : State, s.strand.phase = .stopping → s.strand.drained = true → s.pkg.epQuiet s.strand.h = true → let t := finishStop s
    (s.strand.logFull = false → (s.strand.a.ended = false ∨ s.strand.x.ended = false) →
      t.strand.phase = .suspended ∧ t.pkg = { s.pkg with rcache := [] } ∧ t.core = s.core ∧ t.strand.a.trapped = s.strand.a.trapped ∧
      (s.strand.a.trapped = false → t.strand.a.tcause = .none ∧ t.strand.a.tpc = s.strand.a.pc)) ∧
    (s.strand.logFull = true → (s.strand.a.ended = false ∨ s.strand.x.ended = false) → s.strand.a.trapped = false → s.strand.x.trapped = false →
      t.strand.phase = if s.strand.sidelog.length < 64 ∧ (∃ c, s.ctxAt s.strand.slot = some c ∧ c.state = 1) then .running else .suspended) ∧
    (s.strand.a.ended = true → s.strand.x.ended = true → t.strand.phase = .ended ∧ t.core.runs = 0 ∧ t.pkg.rcache = [] ∧
      (Holds s → t.core.acclive = 0#8))) ∧
  ∀ s : State, Fronted s →
    let h := s.strand.h
    (s.strand.phase = .running → exec (.strandSuspend h) s = .next { s with strand := s.strand.halt .stopping s.cyc }) ∧
    (s.strand.phase ≠ .running → exec (.strandSuspend h) s = .next s) ∧
    (∀ c n z, s.ctxAt s.strand.slot = some c → c.state = 1 → s.strand.phase = .suspended → c.dies.getLsbD (dieOf s.core.num) = true →
      ∃ u, exec (.strandResume h n z) s = .next u ∧ u.strand = (resumeStrand s).strand ∧ u.pkg.mem = s.pkg.mem) ∧
    (∀ c k, s.strand.phase = .running → s.coreOf s.strand = some k → s.ctxAt s.strand.slot = some c →
      1250 * c.fld 3 63 32 ≤ k.cyc - s.strand.slice →
      (∃ u ∈ s.strands, u.h ≠ 0 ∧ u.phase = .ready ∧ u.slot ≠ s.strand.slot ∧ s.strandClass u ≤ s.strandClass s.strand ∧
        s.mayRun u.slot (s.strandClass u) k.num = true ∧ (s.strandClass u ≠ 0 ∨ s.pkg.reserved k.num = true)) →
      exec (.timeSliceExpiry h) s = .next { s with strand := { s.strand with preempt := true } }) ∧
    (∀ c w, s.core.runs = h → s.ctxAt s.strand.slot = some c → c.parkEn = true → s.strand.phase = .running → s.strand.cancelled = false →
      s.strand.a.waitFrom = some w → c.parkThr < s.cyc - w → parkPlace s .a ≠ 0 →
      exec (.parkThresholdExpiry h) s =
        .next { s with strand := { s.strand.halt .preempting s.cyc with parked := true, parkAt := parkPlace s .a } }) ∧
    (s.strand.phase = .preempting → s.strand.parked = false → s.strand.drained = true → s.strand.copiesDone = true → s.pkg.epQuiet h = true →
      ∃ u, exec (.preemptionSave h) s = .next u ∧ u.strand.phase = .ready ∧ u.strand.preempt = false ∧ u.core.runs = 0 ∧ u.pkg.rcache = [] ∧
        u.strand.spimage = declaredOnly s.strand.spsave s.core.scratch) ∧
    (∀ c, s.ctxAt s.strand.slot = some c → c.state = 1 → c.dies.getLsbD (dieOf s.core.num) = true → s.strand.phase = .suspended →
      s.strand.a.trapped = true → s.strand.a.tcause = .accfirst → s.strand.sidelog.length < 64 →
      (s.core.accownHold = h ∨ holderBusy s s.core = false) →
      let k := s.core
      ∃ u, exec (.accfirstService h) s = .next u ∧ u.core.accownValid = true ∧ u.core.accownHold = h ∧ u.core.accownCtx = s.strand.ctx ∧
        u.core.acclive = (s.strand.spill.map (·.1)).getD 0#8 ∧ u.strand.spill = none ∧ u.strand.phase = .running ∧
        (∀ n, n < 8 → (∀ e ∈ (s.strand.spill.map (·.2)).getD [], e.1 ≠ n) →
          u.core.tile n = if k.accownValid = false ∨ k.accownCtx ≠ s.strand.ctx then List.replicate 1024 0#32 else k.tile n) ∧
        ∀ x, k.accownValid = true → k.accownHold ≠ 0 → k.accownHold ≠ h → k.acclive ≠ 0#8 → s.findStrand k.accownHold = some x →
          ∃ y, u.findStrand k.accownHold = some y ∧ y.spill = some (k.acclive, k.liveTiles) ∧ y.arrivals = k.arrivals ∧ y.refusals = k.refusals) ∧
    ∀ st c i t, nextStream s = some (st, c) → mayIssue s c = true → fetchAt st c s = .run i t → plainWord i = true →
      t.strand.iterbound ≠ 0 → t.strand.iterbound < (t.strand.seq st).iters + (t.strand.seq st).used t.cyc →
      exec (.watchdog st) s = .next (takeTrap .watchdog (nat t.strand.iterbound) t)

/-- R251, R252, R257, R259, R260, R274 to R277: writing a queue's state, the ageing limit, a credit for a core below four, a
launch record accepted in order, a stage's new strand, what a free core takes and the end of a strand. That a
poisoned record is refused is log entry 32 (DEDUCED). -/
def Obligations.LaunchEvents : Prop :=
  ∀ (s : State) (slot : Nat) (c : Ctx), s.ctxAt slot = some c →
    let queue := fun (u : State) q => (u.ctxAt slot).bind fun d => d.queues[q]?
    (∀ q k, c.queues[q]? = some k →
      (∃ u, exec (.queueEnable slot q) s = .next u ∧ queue u q =
        some (if k.state = 0 then { k with state := 1, cur := 0 } else if k.state = 2 then { k with state := 1 } else k)) ∧
      (∃ u, exec (.queuePause slot q) s = .next u ∧ queue u q = some (if k.state = 1 then { k with state := 2 } else k)) ∧
      (k.state ≠ 1 → k.state ≠ 2 → exec (.queueDisable slot q) s = .next s) ∧
      (k.state = 1 ∨ k.state = 2 → (∀ l ∈ c.launches, l.q = q → l.state ≠ .pending ∧ l.state ≠ .ready) →
        ∃ u, exec (.queueDisable slot q) s = .next u ∧ queue u q = some { k with state := 0 }) ∧
      ∀ l ls, c.waiting q = l :: ls →
        let limit := if k.cls = 3 then s.pkg.age3 else if k.cls = 2 then s.pkg.age2 else 0#16
        (l.state = .ready → limit ≠ 0#16 → exec (.ageingLimitExpiry slot q) s = .next (s.updLaunch slot l.id fun l => { l with aged := true })) ∧
        (l.state ≠ .ready ∨ limit = 0#16 → exec (.ageingLimitExpiry slot q) s = .next s)) ∧
    (∀ n k, s.findCore n = some k → s.coreRuns n slot = true → k.credit slot < 4 → c.creditWait.length < s.freePlaces c →
      ∃ u, exec (.launchCreditGrant n slot) s = .next u ∧ (u.findCore n).map (·.credit slot) = some (k.credit slot + 1)) ∧
    (∀ x xs bs s1, s.pkg.submits = x :: xs → x.slot = slot → x.askedBy ≠ none → x.refused = false → s.engRead slot x.addr 64 = (.ok bs, s1) →
      exec (.launchRecordAccept x.n) s = .next (acceptRecord x ⟨wordsOf bs⟩ c s1) ∧
      (LRec.ok ⟨wordsOf bs⟩ = false → acceptRecord x ⟨wordsOf bs⟩ c s1 = s1.refuseLaunch x 2) ∧
      (LRec.ok ⟨wordsOf bs⟩ = true → c.kernel (LRec.handle ⟨wordsOf bs⟩) = none → acceptRecord x ⟨wordsOf bs⟩ c s1 = s1.refuseLaunch x 3)) ∧
    (∀ id l stage h k d, s.launchAt slot id = some l → c.stageOf l stage = some (k, d) → mayOffer s c l stage = true → s.handleFree h = true →
      ∃ u, exec (.stageStrandOffer slot id stage h) s = .next u ∧ u.findStrand h = some (Strand.start h c l k stage d)) ∧
    (∀ n k h cls t, s.findCore n = some k → (s.pkg.dies.getD (dieOf n) Die.start).up = true → k.runs = 0 → cls < 4 →
      (∀ j, j < cls → dispatchClass n h j s = none) →
      firstBy (fun a b => lexLt (readyKey a) (readyKey b)) (s.allStrands.filter (fun t => s.readyFor n cls t)) = some t →
      exec (.coreFreeDispatch n h) s = .next (s.place t.h n false)) ∧
    (∀ h n z t k, s.findStrand h = some t → s.findCore n = some k → ∃ k' t', (s.place h n z).findCore n = some k' ∧ k'.runs = h ∧
      (s.place h n z).findStrand h = some t' ∧ t'.phase = (if 64 ≤ t.sidelog.length then .stopping else .running) ∧
      t'.a.trapped = false ∧ t'.x.trapped = false ∧ t'.core = n) ∧
    (Fronted s → s.pkg.epQuiet s.strand.h = true → s.strand.phase = .ended → s.strand.sidelog = [] → s.strand.acc = [] → s.strand.copiesDone = true → s.strand.chainsDone = true →
      let t := s.strand
      let u := s.dropStrand t.h
      (∀ l, u.launchAt t.slot t.launch.toNat = some l → l.state ≠ .running ∨
        ((∃ x ∈ l.units, x.complete = false) ∧ ∀ k, unitDone u t.slot l k = false ∧ l.unitCancelled k = false)) →
      exec (.strandComplete t.h) s = .next u ∧ u.strand = Strand.none ∧ ∀ c', u.ctxAt t.slot = some c' → ∀ e ∈ c'.images, e.1 ≠ t.h)

namespace Sys2Proof.Claims
open Sys2Proof.Machine

/-- Firmware may serve the request n, which has an op, keeps the format and concerns a context (R284). -/
def Due (s : State) (n op : Nat) (r : FwReq) (c : Ctx) : Prop :=
  s.reqTurn n = some r ∧ r.op = op ∧ r.malformed = false ∧ r.wrongRing = false ∧ r.slotOf.bind (fun k => s.ctxAt k) = some c

/-- The same for a request that concerns none. -/
def DueAlone (s : State) (n op : Nat) (r : FwReq) : Prop :=
  s.reqTurn n = some r ∧ r.op = op ∧ r.malformed = false ∧ r.wrongRing = false

/-- The host DMA window holds a range (R19). -/
def InWindow (s : State) (a n : Nat) : Prop :=
  s.pkg.lock.hbase.toNat / 4096 * 4096 ≤ a ∧ a + n ≤ s.pkg.lock.hlim.toNat / 4096 * 4096

end Sys2Proof.Claims

/-- R245 to R247, R282, R284, R285, R294 to R297, R310, R387: what serving LOAD, UNLOAD, PAUSE, RESUME, DESTROY, SHOOTDOWN, SHARD,
CREATE and MODE does and with which status, and the doorbell that brings records of the host ring. CREATE outside the DMA
window and SHARD's image are log entries 33 and 34 (DEDUCED). -/
def Obligations.HostRequests : Prop :=
  (∀ (s : State) (n : Nat) (r : FwReq) (c : Ctx),
    (Due s n 3 r c →
      (c.state ≠ 1 → exec (.pause n) s = .next (s.serve r 6 0)) ∧
      (c.state = 1 → exec (.pause n) s = .next (((s.updCtx c.slot (fun c => { c with state := 2 })).mapStrands (fun t =>
        if t.h ≠ 0 ∧ t.slot = c.slot ∧ (t.phase = .running ∨ t.phase = .stopping ∨ t.phase = .suspended) then { t with preempt := true } else t)).serve r 0 0))) ∧
    (Due s n 4 r c →
      (c.state ≠ 2 → c.state ≠ 3 → exec (.resume n) s = .next (s.serve r 6 0)) ∧
      (c.state = 2 ∨ c.state = 3 → r.arg0 = 0 → exec (.resume n) s = .next ((s.reactivate c).serve r 0 0))) ∧
    (Due s n 5 r c → r.host = true →
      (c.state = 0 ∨ 5 ≤ c.state → exec (.destroy n) s = .next (s.serve r 6 0)) ∧
      (c.state = 1 ∨ c.state = 2 ∨ c.state = 3 → exec (.destroy n) s = .next ((s.beginDestroy c).updPkg
        (fun p => { p with fwreqs := p.fwreqs.map (fun q => if q.n = r.n then q.mark else q) }))) ∧
      (c.state = 4 → r.marked = false → exec (.destroy n) s = .next (s.serve r 6 0)) ∧
      (c.state = 4 → r.marked = true → (∀ t ∈ s.allStrands, t.h ≠ 0 → t.slot = c.slot → s.canGo t = true) →
        (∀ t ∈ s.pkg.tasks, t.slot = c.slot → t.running = []) →
        exec (.destroy n) s = .next ((s.endDestroy c).serve r 0 0) ∧ (s.endDestroy c).ctxAt c.slot = none)) ∧
    (Due s n 1 r c →
      (∀ st s1, loadCheck c r.arg0 s = (st, none, s1) → exec (.load n) s = .next (s1.serve r st 0)) ∧
      ∀ st o s1, loadCheck c r.arg0 s = (st, some o, s1) → ∃ t : State, exec (.load n) s = .next (t.serve r 0 c.freeHandle) ∧
        ∀ c', t.ctxAt c.slot = some c' → ∃ k ∈ c'.kernels, k.handle = c.freeHandle ∧ k.va = o.va) ∧
    (Due s n 2 r c →
      (c.kernel r.arg0 = none → exec (.unload n) s = .next (s.serve r 10 0)) ∧
      ∀ k, c.kernel r.arg0 = some k →
        ((∃ l ∈ c.launches, l.handle = k.handle ∧ l.state.held = true) → exec (.unload n) s = .next (s.serve r 8 0)) ∧
        ((∀ l ∈ c.launches, l.handle = k.handle → l.state.held = false) → exec (.unload n) s = .next ((s.unloadKernel c k).serve r 0 0)) ∧
        ∀ c', (s.unloadKernel c k).ctxAt c.slot = some c' → ∀ x ∈ c'.kernels, x.handle ≠ k.handle) ∧
    (Due s n 6 r c → s.pkg.shoots = [] → (∀ e ∈ s.pkg.frames, e.2.rmap = false) →
      let t := s.dropPkg c.slot r.arg0 (min (r.arg0 + r.arg1) (2 ^ 56))
      exec (.shootdown n) s = .next (if t.quiet c.slot && t.unused (fun e => overlapsPage e c.slot r.arg0 (min (r.arg0 + r.arg1) (2 ^ 56)))
        then t.serve r 0 0 else t)) ∧
    (Due s n 7 r c →
      (c.shardOn = false → exec (.shard n) s = .next (s.serve r 1 0)) ∧
      ∀ bs s1, c.shardOn = true → s.engRead c.slot r.arg0 128 = (.ok bs, s1) →
        let g := Shard.ofImage (wordsOf bs)
        exec (.shard n) s = .next (if g.ok s.pkg.num then (s1.putShard c.slot g).serve r 0 0 else s1.serve r 1 0))) ∧
  (∀ (s : State) (n : Nat) (r : FwReq), DueAlone s n 8 r → ∀ slot num key rec,
    (¬InWindow s r.arg0 128 → exec (.create n slot num key rec) s = .next ((s.report (.dmaRefused r.arg0)).serve r 1 0)) ∧
    (InWindow s r.arg0 128 → createOk s.pkg rec = false → exec (.create n slot num key rec) s = .next (s.serve r 1 0)) ∧
    ∀ c, c = Ctx.create slot num key (s.parkWord slot) rec → InWindow s r.arg0 128 → createOk s.pkg rec = true → s.pkg.ctxs = [] → s.pkg.numaPend = false →
      s.pkg.modeReq = none → c.evq ≤ 4096 → c.lsq ≤ 8192 → quotasFit s.pkg slot c.tqb c.tqm c.nbar c.dies = true → c.bankkey ≠ 0#32 →
      1 ≤ num → num ≤ 65535 → slot ≤ 1023 → disjoint (areasOf rec) = true →
      (∀ a ∈ areasOf rec, ((s.dropPkg slot 0 (2 ^ 56)).updPkg fun p => { p with ctxs := [c] }).areaOk slot a = true) →
      ∃ t : State, exec (.create n slot num key rec) s = .next (t.serve r 0 (num * 2 ^ 16 + slot)) ∧ t.ctxAt slot = some c.listen ∧ t.pkg.mem = s.pkg.mem) ∧
  (∀ (s : State) (n : Nat),
    (s.pkg.numaPend = true → s.pkg.modeReq = none → exec (.mode n) s = .next s.finishMode ∧
      s.finishMode.pkg.numaPend = false ∧
      s.finishMode.pkg.mem = s.pkg.mem.filter (fun c => inTier2 c.1 && Config.firmwareHolds c.1) ∧ s.finishMode.core.tlb = [] ∧ s.finishMode.pkg.numaMode = s.pkg.numaMode) ∧
    ∀ r, s.pkg.numaPend = false → s.pkg.modeReq = none → DueAlone s n 9 r →
      (3 ≤ r.arg0 → exec (.mode n) s = .next (s.serve r 1 0)) ∧
      (r.arg0 < 3 → r.arg0 = s.pkg.numaMode.toNat → exec (.mode n) s = .next (s.serve r 0 0)) ∧
      (r.arg0 < 3 → r.arg0 ≠ s.pkg.numaMode.toNat → s.pkg.ctxs = [] → ∃ u, exec (.mode n) s = .next u ∧
        u.pkg.numaMode.toNat = r.arg0 ∧ u.pkg.numaPend = true)) ∧
  ∀ (s : State) (w : List W64),
    let base := s.pkg.hrbase.toNat / 4096 * 4096
    let slots := s.pkg.hrbase.toNat % 4096 + 1
    (¬InWindow s base (64 + 64 * slots) → exec (.hostDoorbell [w]) s = .next (s.report (.dmaRefused base))) ∧
    (InWindow s base (64 + 64 * slots) → w.length = 8 → (∀ r ∈ s.pkg.fwreqs, r.host = false) → ∃ (t : State) (k : Nat), exec (.hostDoorbell [w]) s = .next (t.serveBad k) ∧
      t.pkg.fwreqs = s.pkg.fwreqs ++ [⟨s.pkg.fwNo, true, 0, 0, w⟩] ∧ t.pkg.mem = s.pkg.mem)

/-- R18, R20, R243, R251, R260, R284, R312, R331, R343: writes of the registers of the management space: the mode while no context
exists, the lock block while it is open, the lock itself and the dies it starts, the ages, the rings' bases, a launch queue's
register; a write of a read-only or absent register changes nothing. -/
def Obligations.RegisterWrites : Prop :=
  ∀ (s : State) (v : W64),
    let m := v.truncate 2
    (m = 3#2 ∨ m = s.pkg.numaMode ∨ s.pkg.ctxs ≠ [] ∨ s.pkg.numaPend = true → exec (.numamodeWrite v) s = .next s) ∧
    (m ≠ 3#2 → m ≠ s.pkg.numaMode → s.pkg.ctxs = [] → s.pkg.numaPend = false →
      exec (.numamodeWrite v) s = .next { s with pkg := { s.pkg with numaMode := m, numaPend := true } }) ∧
    (exec (.lock v) s = .next (s.setLock v)) ∧
    (s.pkg.lock.lock = false → v.getLsbD 0 = true → (s.setLock v).pkg.lock = { s.pkg.lock with lock := true } ∧
      (s.setLock v).pkg.dies = s.pkg.dies.map fun d => if d.state = 0 then { d with state := 1 } else d) ∧
    (s.pkg.lock.lock = true ∨ v.getLsbD 0 = false → s.setLock v = s) ∧
    let w := fun a (p : Pkg) => exec (.registerWrite a v) s = .next { s with pkg := p }
    let p := s.pkg
    w 0x0F001000 p ∧ w 0x0F002004 p ∧ w 0x0F102008 p ∧ w 0x0F010000 p ∧
    w 0x0F002040 { p with age3 := v.extractLsb' 16 16, age2 := v.truncate 16,
                          ctxs := p.ctxs.map fun c => { c with launches := c.launches.map fun l => { l with aged := false } } } ∧
    w 0x0F004000 { p with hrbase := v } ∧ w 0x0F102000 { p with fabGap := v.truncate 16 } ∧
    w 0x0F003000 (if p.lock.lock then p else { p with ftbase := v &&& 0xFFFFFFFFF000#64 }) ∧
    w 0x0F000008 (if p.lock.lock then p else { p with lock := { p.lock with ceil := v.truncate 16 } }) ∧
    w 0x0F000010 (if p.lock.lock then p else { p with lock := { p.lock with hbase := v &&& 0xFFFFFFFFFFFFF000#64 } }) ∧
    (∀ k : Fin 32, w (0x0F000100 + 8 * k.val) (if p.lock.lock then p else { p with lock := { p.lock with egr := p.lock.egr.set k.val (v.truncate 16) } })) ∧
    (∀ k : Fin 8, w (0x0F002000 + 8 * k.val) { p with c0res := p.c0res.set k.val (v.truncate 6) }) ∧
    ∀ (slot : Fin 1024) (q : Fin 16), exec (.registerWrite (0x0F400000 + 0x1000 * slot.val + 0x40 * q.val) v) s = .next (s.writeQueue slot.val q.val v)

/-- R143, R295, R307 to R312, R322 to R324: a walk for a stalled word, firmware's answers, an acknowledged shootdown, an error in
memory (read again from a backing that has no error, a faulted context for a table of Taproot, else poison), fresh data, a lost controller of
tier 2, a failed read of it, and a dirty line written back, which is poisoned when the line was. The turns that bring these events are log entry 1;
the frames that a lost controller poisons and their order log entries 50 (DEDUCED) and 83 (DESIGN CHOICE), the TLB entries that an answer
drops log entry 85 (DEDUCED), what a failed read of tier 2 does log entry 98 (DEDUCED). -/
def Obligations.PageEvents : Prop :=
  ∀ s : State,
    (∀ w va s1, Fronted s → s.strand.wants = some w → w / 4096 = va / 4096 →
      (∀ e, s.translate s.strand.slot w .read = (.ok e, s1) → ∃ u, exec (.pageWalk s.strand.h va) s = .next u ∧
        u.strand.wants = none ∧ u.strand.failsVa = s.strand.failsVa ∧ u.strand.a = s.strand.a) ∧
      ∀ k, s.translate s.strand.slot w .read = (.fault k, s1) → ∃ u, exec (.pageWalk s.strand.h va) s = .next u ∧
        u.strand.wants = none ∧ u.strand.failsVa = some (w, k) ∧ u.strand.a = s.strand.a) ∧
    (∀ n f, s.pkg.faults[n]? = some f →
      let t := { s with pkg := { s.pkg with faults := s.pkg.faults.eraseIdx n } }
      (∀ h, f.agent = .sidelog h → exec (.firmwareMapAnswer n true) s = .next (t.dropFaulting f) ∧
        exec (.firmwareMapAnswer n false) s = .next (t.faultCtx f.slot)) ∧
      (∀ h k, f.agent = .launch h k → exec (.firmwareMapAnswer n true) s = .next (t.dropFaulting f) ∧
        exec (.firmwareMapAnswer n false) s = .next { t with pkg := { t.pkg with
          submits := t.pkg.submits.map fun x => if x.n = k then { x with refused := true } else x } })) ∧
    (∀ n p, exec (.shootdownAck n p) s = .next { s with pkg := { s.pkg with
      shoots := s.pkg.shoots.modify n fun x => { x with acks := x.acks.filter (· != p) } } }) ∧
    (∀ slot : Fin 1024, exec (.uncorrectableErrorDetected (0x0F400000 + 0x1000 * slot.val)) s = .next (s.faultCtx slot.val)) ∧
    (∀ slot : Fin 1024, exec (.uncorrectableErrorDetected (0x0F900000 + 0x100 * slot.val)) s = .next (s.faultCtx slot.val)) ∧
    (∀ pa, queueBlockSlot pa = none → endpointSlot pa = none →
      (inMemory pa = false → exec (.uncorrectableErrorDetected pa) s = .next s) ∧
      (inMemory pa = true →
        (∀ f, s.pkg.frame pa = some f → (tier1Die pa).isSome = true → f.bv = true → f.dirty.getLsbD (granuleOf pa) = false →
          s.pkg.sickAt (f.backing + 4096 * granuleOf pa) = false →
          exec (.uncorrectableErrorDetected pa) s = .next (({ s with pkg := s.pkg.refetch f pa }).report (.refetched pa))) ∧
        ((∀ f, s.pkg.frame pa = some f → (tier1Die pa).isSome = false ∨ f.bv = false ∨ f.dirty.getLsbD (granuleOf pa) = true ∨
            s.pkg.sickAt (f.backing + 4096 * granuleOf pa) = true) → ∃ u f, exec (.uncorrectableErrorDetected pa) s = .next u ∧ u.pkg.frame pa = some f ∧
          f.poison.getLsbD (granuleOf pa) = true ∧ u.pkg.mem = s.pkg.mem))) ∧
    (∀ frame g data f, tget s.pkg.frames frame = some f → inMemory (frameBase frame) = true → s.pkg.mem.wf = true →
      (512 ≤ g ∨ data.length ≠ 4096 ∨ f.poison.getLsbD g = false → exec (.poisonClear frame g data) s = .next s) ∧
      (g < 512 → data.length = 4096 → f.poison.getLsbD g = true → ∃ u f', exec (.poisonClear frame g data) s = .next u ∧
        u.pkg.mem.read (frameBase frame + 4096 * g) 4096 = data ∧ tget u.pkg.frames frame = some f' ∧
        ∀ k, k < 512 → f'.poison.getLsbD k = (f.poison.getLsbD k && k != g))) ∧
    (∀ n, ∃ u, exec (.tier2ControllerLoss n) s = .next u ∧ u.pkg.mem = s.pkg.mem ∧
      ∀ i f, (i, f) ∈ s.pkg.frames → ∃ f', (i, f') ∈ u.pkg.frames ∧ ∀ g, g < 512 → f'.poison.getLsbD g =
        (f.poison.getLsbD g || (inTier2 (frameBase i) && controllerOf s.pkg.numaMode (frameBase i + 4096 * g) == n))) ∧
    (∀ h k pa, inTier2 pa = false → ∀ lost, exec (.tier2ReadTimeout h k pa lost) s = .next s) ∧
    (∀ h k pa, inTier2 pa = true → exec (.tier2ReadTimeout h k pa true) s = .next ((s.setPoison pa).onStrand h fun t => performAt k t)) ∧
    ∀ pa, (pa / 64 ∉ s.pkg.dirtyL2 → pa / 64 ∉ s.pkg.l2Bad → exec (.l2LineWriteBack pa) s = .next s) ∧
      (pa / 64 ∈ s.pkg.dirtyL2 → pa / 64 ∈ s.pkg.l2Bad → ∃ u f, exec (.l2LineWriteBack pa) s = .next u ∧ u.pkg.mem = s.pkg.mem ∧
        u.pkg.frame (pa / 64 * 64) = some f ∧ f.poison.getLsbD (granuleOf (pa / 64 * 64)) = true ∧ pa / 64 ∉ u.pkg.dirtyL2 ∧ pa / 64 ∉ u.pkg.l2Bad) ∧
      (pa / 64 ∈ s.pkg.dirtyL2 → pa / 64 ∉ s.pkg.l2Bad → ∃ u, exec (.l2LineWriteBack pa) s = .next u ∧ u.pkg.mem = s.pkg.mem ∧ pa / 64 ∉ u.pkg.dirtyL2 ∧
        ∀ f, s.pkg.frame (pa / 64 * 64) = some f → (tier1Die (pa / 64 * 64)).isSome = true → ∃ f', u.pkg.frame (pa / 64 * 64) = some f' ∧
          f'.dirty.getLsbD (granuleOf (pa / 64 * 64)) = true)

namespace Sys2Proof.Claims
open Sys2Proof.Machine

/-- A migration request as it arrives (R314). -/
def asked (op : MigOp) (slot va target : Nat) : Mig := Mig.ofWords op (migWords op slot va target)

/-- The memory unit ends a request: its record with the status in bits [63:56] of its fourth word (R314). -/
def ended (op : MigOp) (slot va target st : Nat) (t : State) : State :=
  t.report (.migRecord ((migWords op slot va target).set 3 (nat (st * 2 ^ 56))))

/-- The page of a request: it is mapped and lies in this package, in a listed frame that is not locked; the request keeps R314's
format and nothing else migrates. -/
def PageAt (s : State) (slot va target : Nat) (e : TlbEnt) (f : Frame) : Prop :=
  s.pkg.migs = [] ∧ slot < 1024 ∧ va < 2 ^ 56 ∧ target % 4096 = 0 ∧ target < 2 ^ 58 ∧
  (s.walk (s.engDie slot va) slot va).1 = .ok e ∧ paPkg e.pa = s.pkg.num ∧ s.pkg.frame (paLocal e.pa) = some f

/-- A frame record changed. -/
def framed (pa : Nat) (f : Frame) (s : State) : State := { s with pkg := s.pkg.setFrame (frameIx pa) f }

end Sys2Proof.Claims

/-- R313 to R319, R324: a migration request of a mapped, unlocked page ends with the first status that holds or starts with its
frame locked; a locked frame makes it wait; a copied line moves; a forwarding that nothing uses ends with status 0. The order
of the checks is log entry 47, the states that frames take log entry 48 (both DEDUCED). -/
def Obligations.MigrationEvents : Prop :=
  (∀ (s : State) slot va target e f, PageAt s slot va target e f →
    let pa := paLocal e.pa
    let top := (tier1Die pa).isSome
    let sick := f.poison &&& pageMask pa e.size ≠ 0#512
    (f.lock = true → ∃ u, exec (.promote slot va target) s = .next u ∧ u.pkg.migs = [asked .promote slot va target] ∧ u.pkg.frames = s.pkg.frames) ∧
    (f.lock = false →
      (sick → exec (.release slot va) s = .next (ended .release slot va 0 4 s)) ∧
      (¬sick → f.ref = 0 → exec (.release slot va) s = .next (ended .release slot va 0 8 s)) ∧
      (¬sick → f.ref ≠ 0 → exec (.release slot va) s = .next (ended .release slot va 0 0 (framed pa { f with ref := f.ref - 1 } s))) ∧
      (e.size ≠ 0x200000 ∨ (top = true ∧ f.bv = false) → exec (.promote slot va target) s = .next (ended .promote slot va target 3 s)) ∧
      (e.size = 0x200000 → top = true → f.bv = true → sick → exec (.promote slot va target) s = .next (ended .promote slot va target 4 s)) ∧
      (e.size = 0x200000 → top = true → f.bv = true → ¬sick →
        (f.ref ≠ 0 ∧ f.rslot ≠ slot → exec (.promote slot va target) s = .next (ended .promote slot va target 5 s)) ∧
        (f.ref = 0 ∨ f.rslot = slot → exec (.promote slot va target) s =
          .next (ended .promote slot va target 0 (framed pa { f with ref := (f.ref + 1) % 2 ^ 16, rslot := slot } s)))) ∧
      (e.size = 0x200000 → top = false →
        (sick → exec (.promote slot va target) s = .next (ended .promote slot va target 4 s)) ∧
        (¬sick → targetOk s.pkg (asked .promote slot va target) e.size = false → exec (.promote slot va target) s = .next (ended .promote slot va target 7 s)) ∧
        (¬sick → targetOk s.pkg (asked .promote slot va target) e.size = true →
          exec (.promote slot va target) s = .next (s.startMig (asked .promote slot va target) e f))) ∧
      (e.size ≠ 0x200000 ∨ top = false →
        exec (.evict slot va) s = .next (ended .evict slot va 0 3 s) ∧ exec (.clean slot va) s = .next (ended .clean slot va 0 3 s)) ∧
      (e.size = 0x200000 → top = true →
        (sick → exec (.evict slot va) s = .next (ended .evict slot va 0 4 s) ∧ exec (.clean slot va) s = .next (ended .clean slot va 0 4 s)) ∧
        (¬sick → f.bv = false → exec (.evict slot va) s = .next (ended .evict slot va 0 2 s) ∧ exec (.clean slot va) s = .next (ended .clean slot va 0 2 s)) ∧
        (¬sick → f.bv = true →
          (f.ref ≠ 0 → exec (.evict slot va) s = .next (ended .evict slot va 0 1 s)) ∧
          (f.ref = 0 → exec (.evict slot va) s = .next (s.startMig (asked .evict slot va 0) e f)) ∧
          exec (.clean slot va) s = .next (s.startMig (asked .clean slot va 0) e f))) ∧
      (0x200000 < e.size → exec (.move slot va target) s = .next (ended .move slot va target 3 s)) ∧
      (e.size ≤ 0x200000 →
        (sick → exec (.move slot va target) s = .next (ended .move slot va target 4 s)) ∧
        (¬sick → targetOk s.pkg (asked .move slot va target) e.size = false → exec (.move slot va target) s = .next (ended .move slot va target 7 s)) ∧
        (¬sick → targetOk s.pkg (asked .move slot va target) e.size = true →
          exec (.move slot va target) s = .next (s.startMig (asked .move slot va target) e f))))) ∧
  (∀ (s : State) (m : Mig) e f, (m.op = .promote ∨ m.op = .move) → paPkg m.target = s.pkg.num → frameIx (paLocal m.target) ≠ frameIx (paLocal e.pa) →
    ∃ g, tget (s.startMig m e f).pkg.frames (frameIx (paLocal e.pa)) = some g ∧ g.lock = true ∧ g.mstate = 2 ∧
      (s.startMig m e f).pkg.mem = s.pkg.mem) ∧
  (∀ (s : State) (m : Mig) f, s.pkg.migs = [m] → m.started = true → s.pkg.frame m.old = some f → s.pkg.mem.wf = true →
    (f.mstate ≠ 3 → (m.op = .promote ∨ m.op = .move) → m.back = false → paPkg (m.target + 64 * m.copied) = s.pkg.num →
      64 * (m.copied + 1) < m.size → m.old % 64 = 0 → s.pkg.lineKey (m.old / 64 + m.copied) = m.key →
      (∀ c ∈ s.allCores, ∀ l ∈ c.upd, l.line ≠ m.old / 64 + m.copied) →
      ∃ u, exec (.migrationLineCopied (frameIx m.old) false) s = .next u ∧ u.pkg.migs = [{ m with copied := m.copied + 1, out := none }] ∧
        u.pkg.mem.read (paLocal (m.target + 64 * m.copied)) 64 = s.pkg.mem.read (m.old + 64 * m.copied) 64) ∧
    (f.mstate = 3 → exec (.migrationLineCopied (frameIx m.old) false) s = .next s) ∧
    (f.mstate ≠ 3 → exec (.forwardingEnd (frameIx m.old)) s = .next s) ∧
    (f.mstate = 3 → s.pkg.shoots = [] → s.heldEntry m.old m.size = false → s.mapped m.old m.size = false →
      s.unused (fun e => paPkg e.pa == s.pkg.num && overlap (paLocal e.pa) e.size m.old m.size) = true →
      (∀ c ∈ s.pkg.ctxs, s.quiet c.slot = true) → (∀ c ∈ s.pkg.fwdCopies, m.holds c.2.1 = false) → s.pkg.allSeen = true →
      ∃ u, exec (.forwardingEnd (frameIx m.old)) s = .next u ∧ u.pkg.migs = [] ∧
        u.pkg.reports = s.pkg.reports ++ [.migRecord (m.words.set 3 0#64)] ∧ u.pkg.mem = s.pkg.mem))

namespace Sys2Proof.Claims
open Sys2Proof.Machine

/-- The foreground returns to what it was after an event of a strand. -/
def back (s t : State) : State := (t.focusCore s.core.num).focusStrand s.strand.h

end Sys2Proof.Claims

/-- R144, R145, R156, R164, R165, R169, R194, R201, R202, R217, R225, R233: the events of accesses behind issue: a load's entry,
the side log, an update-only line, the event table, a barrier's cycle, chunks and chain records, the matrix unit's queue and
drain-adds. The turns that bring these events are log entry 1; a barrier cycle of one log entry 62; the status of a record of kind 5 log
entry 78 (DESIGN CHOICE), a signal at a full area log entry 23 (DESIGN CHOICE), a chunk that lands whole log entry 42 (DEDUCED). -/
def Obligations.AccessEvents : Prop :=
  (∀ s : State, Fronted s →
    let h := s.strand.h
    (∀ k a, s.strand.acc[k]? = some a → entryOf a.op ≠ none → exec (.loadEntryLands h k false) s = .next (back s (performAt k s))) ∧
    (∀ k a, s.strand.acc[k]? = some a → (roleOf a.op).object = 1 → exec (.eventTableOperation h k) s = .next (back s (performAt k s))) ∧
    (s.strand.sidelog = [] → exec (.sideLogReplay h) s = .next s) ∧
    (∀ a r s1, s.strand.sidelog = a :: r → (∀ f ∈ s.pkg.faults, f.agent ≠ .sidelog h) → (∀ c, s.ctxAt s.strand.slot = some c → c.state ≠ 3 ∧ c.state ≠ 4) →
      s.strand.acc = [] → s.strand.logFull = false →
      s.writeFault (match a.op with | .atom _ _ _ _ _ _ _ => .atomic | _ => .write) ((opRanges a.op).map (·.1)) = (none, s1) → s1.core.runs = h →
      exec (.sideLogReplay h) s = .next (back s (performAcc a { s1 with strand := { s1.strand with
        sidelog := s1.strand.sidelog.drop 1, acc := { a with sent := true } :: s1.strand.acc } }))) ∧
    (∀ (slot : Fin 16) (c : Copy), s.strand.slots[slot.val]? = some (some c) → c.chunks[0]? = some .pending → c.bar = none → c.ring = none →
      s.pkg.waitsFor (.chunk h c.id 0) = false → pathHeld s.strand .cpy c.ord (fun _ => true) = false →
      ∀ a, c.conv = false → c.src = 0xFFFFFFFFE00000 + a → a + c.len ≤ 2 ^ 21 → c.len ≤ 512 → 0 < c.len →
      (s.strand.request = 0 → ∃ u c', exec (.copyChunkLands h slot.val 0 2) s = .next u ∧ u.strand.slots[slot.val]? = some (some c') ∧
        c'.chunks[0]? = some (.failed 2) ∧ u.pkg.mem = s.pkg.mem ∧ u.core.scratch = s.core.scratch) ∧
      ∀ b, c.dst = 0xFFFFFFFFE00000 + b → b + c.len ≤ 2 ^ 21 → Clean s.core a c.len → s.core.scratch.wf = true →
        ∃ u c', exec (.copyChunkLands h slot.val 0 0) s = .next u ∧ u.strand.slots[slot.val]? = some (some c') ∧ c'.chunks[0]? = some .landed ∧
          (∀ x, u.core.scratch.get x = if b ≤ x ∧ x < b + c.len then s.core.scratch.get (a + (x - b)) else s.core.scratch.get x) ∧ u.pkg.mem = s.pkg.mem) ∧
    ∀ (ch : Fin 4) c, s.strand.chans[ch.val]? = some c → c.walking = false →
      (c.recs = [] → exec (.chainRecordComplete h ch.val) s = .next s) ∧
      ∀ r a, c.recs = [r] → r.step = 0 → r.copy = none → r.ctl.getLsbD 38 = false → r.addr = 0xFFFFFFFFE00000 + a → a % 64 = 0 → a < 2 ^ 21 →
        s.pkg.allSeen = true → s.pkg.waitsFor (.chunk h c.id 1) = false → (∀ f ∈ s.pkg.faults, f.agent ≠ .chain h ch.val) → s.core.scratch.wf = true →
        ∃ u c', exec (.chainRecordComplete h ch.val) s = .next u ∧ u.strand.chans[ch.val]? = some c' ∧ c'.recs = [] ∧ u.pkg.mem = s.pkg.mem ∧
          ∀ x, u.core.scratch.get x = if a + 0x18 ≤ x ∧ x < a + 0x20 then (leBytes 8 (r.ctl &&& ~~~0x100000000#64).toNat).getD (x - (a + 0x18)) 0#8
            else if a + 0x20 ≤ x ∧ x < a + 0x28 then (leBytes 8 0x51).getD (x - (a + 0x20)) 0#8 else s.core.scratch.get x) ∧
  (∀ (s : State) core line, exec (.updateLineMerge core line) s = .next (s.mergeAt core line) ∧
    ∀ c, s.findCore core = some c → (∀ l, c.upd.find? (fun l => l.line == line) = some l →
      ∃ c', (s.mergeAt core line).findCore core = some c' ∧ (∀ k ∈ c'.upd, k.line ≠ line) ∧ (s.mergeAt core line).pkg = mergeLine s.pkg core l) ∧
      ((∀ l ∈ c.upd, l.line ≠ line) → s.mergeAt core line = s)) ∧
  (∀ (s : State) slot name c, s.ctxAt slot = some c → (c.ringSlots = 0 ∨ name ≠ c.ringEvent) →
    (∃ c' e, (s.signal slot name).ctxAt slot = some c' ∧ c'.event name = some e ∧ e.set = true) ∧
    (∀ c' e, (s.clearEvent slot name).ctxAt slot = some c' → c'.event name = some e → e.set = false) ∧
    (c.event name = none → exec (.eventOverflowServe slot name) s = .next s) ∧
    ∀ e, c.event name = some e → e.set = true → ∃ u, exec (.eventOverflowServe slot name) s = .next u ∧
      ∀ c' e', u.ctxAt slot = some c' → c'.event name = some e' → e'.set = true ∧ e'.waiters = []) ∧
  (∀ (s : State) die i, (s.pkg.bars.filter fun b => b.die == die && !b.saved)[i]? = none → exec (.barrierCycle die i) s = .next s) ∧
  (∀ (s : State) die i b, (s.pkg.bars.filter fun b => b.die == die && !b.saved)[i]? = some b → (∀ t ∈ s.allStrands, t.acc = []) →
    exec (.barrierCycle die i) s = .next (s.barComplete b.slot die b.index) ∧
    (b.active = true → b.arr = 0 → b.exp = 0 → b.complete = { b with phase := b.phase + 1#32, lastf := b.pf, pf := false, arr := b.count }) ∧
    (b.active = false ∨ b.arr ≠ 0 ∨ b.exp ≠ 0 → b.complete = b)) ∧
  (∀ (s : State) slot h st die i b, s.barAt slot die i = some b → b.active = true → b.arr ≠ 0 →
    (s.barArrive slot h st die i).1 = b.phase.zeroExtend 64 ∧
    (s.barArrive slot h st die i).2.barAt slot die i = some { b with arr := b.arr - 1 }) ∧
  (∀ (s : State) id acc r, s.core.runs = s.strand.h → s.core.cmuq = (id, .zero acc) :: r → s.core.feedEnd ≤ s.cyc → s.core.tiles.length = 8 →
    ∃ u, exec (.cmuWordStart s.core.num) s = .next u ∧ u.core.cmuq = r ∧ u.core.tile acc.val = List.replicate 1024 0#32 ∧
      (∀ k : Fin 8, k ≠ acc → u.core.tile k.val = s.core.tile k.val) ∧ u.core.feedEnd = s.core.feedEnd + 1) ∧
  ∀ (s : State) n (d : DAdd), s.pkg.dadds[n]? = some d →
    (d.pkg = s.pkg.num → exec (.mdaddArrival n) s = .next ((s.daddApply d.peer d.tile.val d.ctx d.m d.data).2.daddDone d
      (s.daddApply d.peer d.tile.val d.ctx d.m d.data).1)) ∧
    (d.pkg ≠ s.pkg.num → s.pkg.allows d.pkg = true → exec (.mdaddArrival n) s = .next s) ∧
    (d.pkg ≠ s.pkg.num → s.pkg.allows d.pkg = false → exec (.mdaddArrival n) s = .next (s.daddDone d false)) ∧
    (s.core.num = d.peer → s.core.accownValid = true → s.core.accownCtx = d.ctx → s.core.acclive.getLsbD d.tile.val = true →
      s.daddApply d.peer d.tile.val d.ctx d.m d.data = (true, { s with core := { s.core with
        tiles := s.core.tiles.set d.tile.val (((s.core.tile d.tile.val).zip d.data).map fun x => daddElem d.m x.1 x.2)
        arrivals := bump s.core.arrivals d.tile.val } }))

/-- R203 to R212: reading a task's record, giving its next unit to a free array, a weight bank's error and the end of a unit. A
poisoned record and a unit's write in one turn are log entries 43 and 44 (DEDUCED), the place of an error that a unit finds log entry 88
(DESIGN CHOICE). -/
def Obligations.TaskEvents : Prop :=
  ∀ (s : State) n t, s.taskAt n = some t →
    (t.words ≠ [] ∨ t.state.final = true → exec (.taskRecordRead n) s = .next s) ∧
    (t.words = [] → t.state.final = false → (∀ u ∈ s.allStrands, ∀ a ∈ u.acc, a.op ≠ .task n) → (∀ f ∈ s.pkg.faults, f.agent ≠ .task n) →
      (∀ a s1, s.engRead t.slot t.addr 128 = (.poison a, s1) →
        let u := s1.updTask n fun t => { t with state := .failed, failKind := 2 }
        exec (.taskRecordRead n) s = .next (if t.request ≠ 0 then u.endRequest t.request else u.report (.discarded t.slot t.strand t.addr))) ∧
      (∀ a w s1, s.engRead t.slot t.addr 128 = (.fault a w, s1) → exec (.taskRecordRead n) s = .next (s1.askFirmware t.slot (.task n) a .read w)) ∧
      ∀ bs s1, s.engRead t.slot t.addr 128 = (.ok bs, s1) →
        let ws := wordsOf bs
        let p := (ws.getD 9 0#64).toNat
        let t2 := { t with words := ws, prog := p, next := p }
        let u := s1.updPkg fun q => { q with tasks := q.tasks.filter (fun x => x.n != n) ++ [t2] }
        exec (.taskRecordRead n) s = .next (if t2.recordOk then u.enterTask t2 else (u.updTask n fun x => { x with failKind := 0 }).endTask n .failed 5)) ∧
    (∀ a, s.dispatchable t = false → exec (.taskUnitDispatch n a) s = .next s) ∧
    (∀ a, s.dispatchable t = true → t.state = .ready → s.taskUnits t ≤ t.next → exec (.taskUnitDispatch n a) s = .next (s.endTask n .done 0)) ∧
    (∀ a, s.dispatchable t = true → t.state = .running → t.redo = [] → s.arrayFits t a = true → s.taskFirst t a = true →
      ∃ u t', exec (.taskUnitDispatch n a) s = .next u ∧ u.taskAt n = some t' ∧ t'.next = t.next + 1 ∧ t'.state = .running ∧
        t'.running = t.running ++ [⟨t.next, a, none, false, false, []⟩] ∧ u.pkg.arrays = s.pkg.arrays ++ [(a, n)] ∧ u.pkg.mem = s.pkg.mem) ∧
    (∀ a ok, (s.pkg.banksOf a).loading = none → exec (.bankLoadComplete a ok) s = .next s) ∧
    (∀ a, (s.pkg.banksOf a).loading ≠ none → let s1 := s.updBanks a fun b => { b with loading := none }
      exec (.bankLoadComplete a true) s = .next s1 ∧
      ∀ x u, s.pkg.arrays.find? (fun y => y.1 == a) = some (x, n) → t.running.find? (fun u => u.array == a) = some u → u.wrote = false →
        exec (.bankLoadComplete a false) s = .next (s1.failUnit n u.unit 4 t.request)) ∧
    ∀ unit u, t.running.find? (fun x => x.unit == unit) = some u →
      (u.out = none → t.fed unit u.rows = true → exec (.taskUnitComplete n unit 2) s =
        .next (if (s.unitError t u).1 then (s.unitError t u).2.unitMove t u else (s.unitError t u).2.failUnit n unit 2 t.request)) ∧
      (∀ kind, kind ≠ 2 ∨ u.out ≠ none ∨ t.fed unit u.rows = false → exec (.taskUnitComplete n unit kind) s = .next (s.unitMove t u)) ∧
      (u.wrote = true → s.unitMove t u = if s.pkg.waitsFor (.eng (taskObj t.n)) then s else s.passUnit t.n u.unit) ∧
      (u.wrote = false → (∀ f ∈ s.pkg.faults, f.agent ≠ .task t.n) →
        (∀ o, u.out = some o → s.unitMove t u = s.writeUnit t u.unit o) ∧
        (u.out = none → t.fed u.unit u.rows = true → ∀ o s1, (if t.attn then attnUnit t u s else gemmUnit t u s) = (.writes o, s1) →
          s.unitMove t u = s1.updUnit t.n u.unit fun u => { u with out := some o }))

/-- R346 to R349, R361 to R364, R380, R390 to R398, R414: the events of Taproot's engines: a transfer that lands, held writes and
page releases, a request's restart, a sibling's end, a lagging ring, lost lanes and their rebuilding, Coppice. RESHARD's end
is log entry 38 (DEDUCED). -/
def Obligations.EngineEvents : Prop :=
  (∀ (s : State) n g, s.pkg.grafts[n]? = some g →
    let away := (s.graftRanges g.slot g.src g.dst).any fun r => s.dieAway g.slot r.1 r.2
    (g.landed = true ∨ away = true → exec (.graftTransferLanding n) s = .next s) ∧
    (g.landed = false → away = false →
      (g.flight = none → exec (.graftTransferLanding n) s = .next (readGraft g s)) ∧
      ∀ f, g.flight = some f →
        (crc32c f.data ≠ f.crc → g.again = true → exec (.graftTransferLanding n) s = .next (s.failGraft g 3)) ∧
        (crc32c f.data ≠ f.crc → g.again = false →
          exec (.graftTransferLanding n) s = .next (s.updGraft g fun g => { g with flight := none, again := true })) ∧
        (crc32c f.data = f.crc → g.begun = false → exec (.graftTransferLanding n) s = .next (s.updGraft g fun g => { g with begun := true })) ∧
        (crc32c f.data = f.crc → g.begun = true → exec (.graftTransferLanding n) s = .next (landGraft g f.data s)))) ∧
  (∀ (s : State) n x, s.pkg.held[n]? = some x →
    exec (.freeRingRelease n) s = .next (s.runHeld x.obj) ∧ exec (.engineWriteHeld n) s = .next (s.runHeld x.obj) ∧
    (∀ h id w, s.pkg.held = [⟨x.obj, x.slot, [.land h id w], false, none⟩] → s.runHeld x.obj = (s.landWord h id w).updPkg fun p => { p with held := [] }) ∧
    (s.pkg.held = [x] → x.refused = true → s.runHeld x.obj = s)) ∧
  (∀ (s : State) handle r, s.reqAt handle = some r →
    (r.state ≠ .restarting ∨ r.ending = false → exec (.requestRestart handle) s = .next s) ∧
    (r.state = .restarting → r.ending = true → s.pkg.seqRings = [] → s.boundLaunches r = [] → (∀ g ∈ s.pkg.grafts, g.req ≠ handle) →
      (∀ x ∈ s.pkg.submits, x.req ≠ handle) → s.holds handle = false →
      (8 ≤ r.restarts → exec (.requestRestart handle) s = .next ((s.cancelRequest handle 3).report (.requestLimit handle))) ∧
      (r.restarts < 8 → s.pkg.held = [] → r.srchead = 0 → r.dsthead = 0 → ∃ u r', exec (.requestRestart handle) s = .next u ∧
        u.reqAt handle = some r' ∧ r'.restarts = r.restarts + 1 ∧ r'.ending = false))) ∧
  (∀ (s : State) handle sib w b l, s.whorlAt handle = some w → w.sibs[sib]? = some b → s.launchAt w.slot b.lid = some l →
    (b.fin ≠ 0 ∨ l.state.held = true ∨ s.holds (whorlObj handle) = true → exec (.whorlSiblingEnd handle sib) s = .next s) ∧
    (b.fin = 0 → l.state.held = false → s.holds (whorlObj handle) = false → (∀ t ∈ s.allStrands, t.acc = []) →
      let q := endSib w sib b l (s.tilesOf w.slot b.lid)
      exec (.whorlSiblingEnd handle sib) s = .next (s.whorlDo q.1 q.2) ∧ q.1.live = w.live - 1 ∧
        q.1.sibs[sib]? = some { b with fin := if l.state = .cancelled then 2 else 1 })) ∧
  (∀ (s : State) n m r, s.pkg.seqRings.find? (fun r => r.n == n) = some r →
    (r.state = 2 → exec (.ringStepTimeout n m) s = .next s.finishReforms) ∧
    (r.state = 1 → m < r.members → (∃ i, i < r.members ∧ s.memberDone r m < s.memberDone r i) → (s.beginReform r).memberReq r m = none →
      let at_ := (s.beginReform r).memberOf r m
      exec (.ringStepTimeout n m) s = .next (if at_.1 = (s.beginReform r).pkg.num then s.beginReform r
        else (s.beginReform r).updPkg fun p => p.sendPkt taproot at_.1 4 (.message at_.2) .none).finishReforms) ∧
    (r.state = 1 → (∀ i, i < r.members → s.memberDone r i ≤ s.memberDone r m) → exec (.ringStepTimeout n m) s = .next s.settleRings)) ∧
  (∀ (s : State) slot g, s.shardAt slot = some g →
    (∀ lane, 8 < lane → exec (.shardLaneLost slot lane) s = .next s) ∧
    (∀ lane, lane ≤ 8 → g.gstate = 1 → 0 < g.nslot → ∃ u, exec (.shardLaneLost slot lane) s = .next u ∧
      u.shardAt slot = some { g with gstate := 2, lost := g.lost ||| (1#9 <<< lane), swept := 0, ahead := [] }) ∧
    (∀ lane, lane ≤ 8 → g.gstate = 2 → g.lost.getLsbD lane = false →
      exec (.shardLaneLost slot lane) s = .next ((s.updShard slot fun g => { g with lost := g.lost ||| (1#9 <<< lane) }).expose slot)) ∧
    (∀ j p is, g.gstate = 0 ∨ g.gstate = 3 ∨ g.nslot ≤ j → exec (.shardRebuild slot j p is) s = .next s) ∧
    ∀ i parity images bs, g.gstate = 2 → 1 < g.nslot → 64 ≤ g.psize → (List.range 9).find? (fun i => g.lost.getLsbD i) = some i → i < 8 →
      g.m.getD g.lane 0 ≠ s.pkg.num → g.spare ≠ s.pkg.num → g.swept = 0 → g.ahead = [] → g.demand = [] →
      (images.length = 7 → (∀ p ∈ images, p.length = g.psize) → parity.length = g.psize → rebuildData i parity images = some bs →
        ∃ u, exec (.shardRebuild slot 0 parity images) s = .next u ∧ u.shardAt slot = some { g with swept := 1 }) ∧
      (images.length ≠ 7 → exec (.shardRebuild slot 0 parity images) s = .next ((s.putShard slot g).expose slot))) ∧
  (∀ s : State, s.pkg.reshards = [] → ∀ n, exec (.coppiceRun n) s = .next s) ∧
  ∀ (s : State) r rs, s.pkg.reshards = r :: rs → s.pkg.held = [] →
    (∀ n, n ≠ 0 → exec (.coppiceRun n) s = .next s) ∧
    (∀ a w s1, s.engRead r.slot r.recVa 64 = (.fault a w, s1) → exec (.coppiceRun 0) s = .next (s1.askFirmware r.slot (.engine r.h r.id) a .read w)) ∧
    ∀ bs s1 t, s.engRead r.slot r.recVa 64 = (.ok bs, s1) → s1.findStrand r.h = some t → t.cancelled = true → ∃ u, exec (.coppiceRun 0) s = .next u ∧
      u = s1.endReshard r 6 ((wordsOf bs).getD 3 0#64).toNat ∧ ∀ x ∈ u.pkg.reshards, x.h ≠ r.h ∨ x.id ≠ r.id

namespace Sys2Proof.Claims
open Sys2Proof.Machine

/-- Taproot has a management packet with the notice on its way to every other package that the link of port n is lost or back. -/
def Told (s u : State) (n : Nat) (up : Bool) : Prop :=
  ∀ d, d < 993 → d ≠ s.pkg.num → ∃ f ∈ u.pkg.flows, f.src = taproot ∧ f.dst = d ∧ f.cls = 4 ∧
    ∃ q ∈ f.sent, q.pkt.op = .notice s.pkg.num (s.pkg.farEnd n) up

/-- The word makes port n hold `t`, tells every package of the link when it says so and sends nothing else, and leaves the strands,
the cores, the memory, the frames, the contexts and the other ports as they are. -/
def PortTo (i : Instr) (s : State) (n : Nat) (t : Port) (note : Option Bool) : Prop :=
  ∃ u, exec i s = .next u ∧ u.pkg.ports = s.pkg.ports.set n t ∧ (∀ up, note = some up → Told s u n up) ∧ (note = none → u.pkg.flows = s.pkg.flows) ∧
    u.pkg.emits = s.pkg.emits ∧ u.strands = s.strands ∧
    u.strand = s.strand ∧ u.cores = s.cores ∧ u.core = s.core ∧ u.pkg.mem = s.pkg.mem ∧ u.pkg.frames = s.pkg.frames ∧ u.pkg.ctxs = s.pkg.ctxs

/-- The state of a quarantined port: QUARANTINED, and RETIRED at the fourth quarantine. -/
def quarState (t : Port) : Nat := if 3 ≤ t.quar.toNat then 5 else 4

/-- The word makes die d hold `t`, and nothing else. -/
def DieTo (i : Instr) (s : State) (d : Nat) (t : Die) : Prop :=
  exec i s = .next (s.updPkg fun p => { p with dies := p.dies.set d t })

/-- Every bit that says whether a path is usable is kept or becomes `b`. -/
def BitsGo (b : Bool) (p q : Pkg) : Prop :=
  q.routes.map (·.1) = p.routes.map (·.1) ∧ ∀ k : Nat, ∀ d r, p.routes[k]? = some (d, r) → ∃ r', q.routes[k]? = some (d, r') ∧
    r'.minport = r.minport ∧ (r'.minok = r.minok ∨ r'.minok = b) ∧ ∀ i, i < 8 → r'.altok.getLsbD i = r.altok.getLsbD i ∨ r'.altok.getLsbD i = b

end Sys2Proof.Claims

/-- R329, R330, R344: the states of a port. Enabling, disabling and retiring it, its permits, training that ends well, short of
lanes, at the wrong peer or out of time, a lost lane, flit replays, the error rate, a notice and a probe. The quarantine count
and the order of the reasons are log entry 52 (DEDUCED). -/
def Obligations.PortEvents : Prop :=
  (∀ (s : State) n t, s.pkg.ports[n]? = some t →
    (t.state = 0 → s.pkg.lock.lock = true → s.pkg.lock.egr.getD n 0#16 ≠ 0#16 → s.pkg.hasPort n = true →
      PortTo (.portEnable n) s n { t with en := true, state := 1 } none) ∧
    (t.state = 0 → s.pkg.lock.lock = false → PortTo (.portEnable n) s n { t with en := true } none) ∧
    (t.state = 4 → PortTo (.portEnable n) s n { t with en := true, state := 1, quar := t.quar + 1#8 } none) ∧
    (t.state = 1 ∨ t.state = 2 ∨ t.state = 3 → PortTo (.portDisable n) s n { t with en := false, state := 0, reason := 6 }
      (some false)) ∧
    (t.state = 0 ∨ t.state = 4 ∨ t.state = 5 → PortTo (.portDisable n) s n { t with en := false } none) ∧
    (PortTo (.portRetire n) s n (if t.state = 4 then { t with state := 5 } else t) none) ∧
    (∀ c0 rq rp bk mg : Nat, c0 < 256 → rq < 256 → rp < 256 → bk < 256 → mg < 256 →
      let v := BitVec.ofNat 64 (c0 + 256 * rq + 65536 * rp + 16777216 * bk + 4294967296 * mg)
      PortTo (.ppermWrite n v) s n (if 4 * (max 9 c0 + max 9 rq + max 9 rp + max 9 bk + max 9 mg) ≤ 4096 then
        { t with rc0 := c0, rreq := rq, rreply := rp, rbulk := bk, rmgmt := mg } else t) none) ∧
    (∀ lanes peer, t.state = 1 → lanesUp (lanes &&& ~~~t.gone) < 4 → PortTo (.portTrainingDone n lanes peer) s n
      { t with lanes := lanes &&& ~~~t.gone, gone := t.gone ||| ~~~lanes, peer := BitVec.ofNat 10 peer, state := quarState t, reason := 2 } none) ∧
    (∀ lanes peer, t.state = 1 → 4 ≤ lanesUp (lanes &&& ~~~t.gone) → (neighbours s.pkg.num)[n]? ≠ some peer → PortTo (.portTrainingDone n lanes peer) s n
      { t with lanes := lanes &&& ~~~t.gone, gone := t.gone ||| ~~~lanes, peer := BitVec.ofNat 10 peer, state := quarState t, reason := 3 } none) ∧
    (∀ lanes peer, t.state = 1 → 4 ≤ lanesUp (lanes &&& ~~~t.gone) → (neighbours s.pkg.num)[n]? = some peer → peer < 993 →
      PortTo (.portTrainingDone n lanes peer) s n { t with
        lanes := lanes &&& ~~~t.gone, gone := t.gone ||| ~~~lanes, peer := BitVec.ofNat 10 peer, state := if lanesUp (lanes &&& ~~~t.gone) = 8 then 2 else 3 }
        (some true)) ∧
    (t.state = 1 → PortTo (.portTrainingTimeout n) s n { t with state := quarState t, reason := 1 } none) ∧
    (∀ lane, t.carries = true → t.lanes.getLsbD lane = true → let live := t.lanes &&& ~~~(1#8 <<< lane)
      let u := { t with lanes := live, gone := t.gone ||| (1#8 <<< lane) }
      (4 ≤ lanesUp live → PortTo (.portLaneLoss n lane) s n { u with state := 3 } none) ∧
      (lanesUp live < 4 → PortTo (.portLaneLoss n lane) s n { u with state := quarState t, reason := 2 } (some false))) ∧
    (t.carries = true → PortTo (.flitCrcFail n false) s n { t with replays := t.replays + 1#32 } none ∧
      PortTo (.flitCrcFail n true) s n { t with replays := t.replays + 1#32, state := quarState t, reason := 4 }
        (some false)) ∧
    ∀ rate, (t.carries = true → t.errthr ≠ 0#8 → t.errthr.toNat < rate → PortTo (.portErrorRate n rate) s n
        { t with state := quarState t, reason := 5 } (some false)) ∧
      (t.errthr = 0#8 ∨ rate ≤ t.errthr.toNat → exec (.portErrorRate n rate) s = .next s)) ∧
  (∀ (s : State) a b, (∃ u, exec (.linkLossNotice a b false) s = .next u ∧ BitsGo false s.pkg u.pkg ∧ u.pkg.mem = s.pkg.mem ∧ u.pkg.ports = s.pkg.ports) ∧
    ∃ u, exec (.linkLossNotice a b true) s = .next u ∧ BitsGo true s.pkg u.pkg ∧ u.pkg.mem = s.pkg.mem ∧ u.pkg.ports = s.pkg.ports) ∧
  ∀ (s : State) skew, exec (.fabricProbe skew) s = .next (s.updPkg fun p => { p with skew := skew })

/-- R14, R15, R20, R331: the states of a die link, the reset of a compute die, its write-back out of time, and the lock. What a
die reset keeps is log entry 53, the strands of a lost die until its reset log entry 54 (both DEDUCED), the slice of a line log entry 87
(DESIGN CHOICE). -/
def Obligations.DieEvents : Prop :=
  (∀ (s : State) (d : Nat) (t : Die), s.pkg.dies[d]? = some t →
    (∀ live : BitVec 48, t.state = 1 → let ok := live &&& ~~~t.retired
      let u := { t with live := ok, retired := t.retired ||| ~~~live }
      (40 ≤ modulesUp ok → DieTo (.dieLinkTrained d live) s d { u with up := true, state := if modulesUp ok = 48 then 2 else 3 }) ∧
      (modulesUp ok < 40 → DieTo (.dieLinkTrained d live) s d { u with up := false, state := 4, reason := 2 })) ∧
    (t.state = 1 → DieTo (.dieLinkTrainingTimeout d) s d { t with up := false, state := 4, reason := 1 }) ∧
    (t.state = 2 ∨ t.state = 3 → ∀ m, t.live.getLsbD m = true → let live := t.live &&& ~~~(1#48 <<< m)
      let u := { t with live := live, retired := t.retired ||| (1#48 <<< m) }
      (40 ≤ modulesUp live → DieTo (.dieLinkModuleLoss d m) s d { u with state := 3 }) ∧
      (modulesUp live < 40 → DieTo (.dieLinkModuleLoss d m) s d { u with up := false, state := 4, reason := 2 })) ∧
    (t.state = 2 ∨ t.state = 3 → ∀ rate,
      DieTo (.dieLinkReplayExhaustion d rate) s d { t with up := false, state := 4, reason := if rate then 5 else 4 }) ∧
    (t.state = 0 ∨ t.state = 4 ∨ t.state = 5 → ∀ m rate, exec (.dieLinkModuleLoss d m) s = .next s ∧
      exec (.dieLinkReplayExhaustion d rate) s = .next s ∧ exec (.dieLinkTrainingTimeout d) s = .next s) ∧
    (d < 8 → t.state = 2 ∨ t.state = 3 → (t.up = true → DieTo (.computeDieReset d) s d { t with up := false }) ∧
      (t.up = false → exec (.computeDieReset d) s = .next ((s.resetDie d).updDie d fun u => { u with up := true }))) ∧
    (d < 8 → t.state = 4 → t.quar < 3 → exec (.computeDieReset d) s =
      .next ((s.resetDie d).updDie d fun u => { u with state := 1, quar := t.quar + 1 })) ∧
    (d < 8 → t.state = 4 → 3 ≤ t.quar → ∃ (u : State) (v : Die), exec (.computeDieReset d) s = .next u ∧ u.pkg.dies[d]? = some v ∧ v.state = 5) ∧
    (t.state = 0 ∨ t.state = 1 ∨ t.state = 5 → exec (.computeDieReset d) s = .next s) ∧
    (t.up = true → exec (.writebackTimeout d) s = .next s) ∧
    (d < 8 → t.up = false → ∃ u, exec (.writebackTimeout d) s = .next u ∧ u.pkg.mem = s.pkg.mem ∧
      u.pkg.dirtyL2 = s.pkg.dirtyL2.filter (fun l => homeSlice s.pkg.numaMode (64 * l) ≠ d))) ∧
  (∀ (s : State) (v : W64), (v.getLsbD 0 = false ∨ s.pkg.lock.lock = true → exec (.lock v) s = .next s) ∧
    (v.getLsbD 0 = true → s.pkg.lock.lock = false → ∃ u, exec (.lock v) s = .next u ∧ u.pkg.lock = { s.pkg.lock with lock := true } ∧
      u.pkg.ports = s.pkg.ports ∧ u.pkg.mem = s.pkg.mem ∧ ∀ (d : Nat) (t : Die), s.pkg.dies[d]? = some t →
        u.pkg.dies[d]? = some (if t.state = 0 then { t with state := 1 } else t))) ∧
  ∀ (s : State) (d : Nat), s.pkg.ctxs = [] → s.pkg.seqRings = [] → s.pkg.tasks = [] → s.pkg.dirtyL2 = [] →
    (∀ k ∈ s.core :: s.cores, k.upd = [] ∧ k.runs = 0) → let u := s.resetDie d
    u.pkg.mem = s.pkg.mem ∧ ∀ k ∈ u.core :: u.cores, dieOf k.num = d → k = Core.start k.num

/-- R177, R186, R333 to R335, R338 to R340, R344: a packet leaves by its port or is dropped, arrives in sequence (a permitted write,
read or atomic is performed and answered, the answer of a write behind its invalidations), late or early, its answer comes back or times
out, a silent flow is forgotten, and an invalidation drops the line. Ports of equal rank are log entry 9 (DESIGN CHOICE), the answers to a
packet outside memory log entry 56 (DEDUCED), the class of answers and the loss of one log entry 61 (DEDUCED). -/
def Obligations.FabricEvents : Prop :=
  (∀ (s : State) (pkt : Packet) f path, pkt.dst ≠ s.pkg.num → pkt.src = s.pkg.num →
    s.pkg.flows.find? (fun f => f.sent.any fun q => q.pkt == pkt) = some f → f.path = some path →
    ((s.pkg.route pkt.dst).takes path = false → exec (.packetForward pkt) s = .next s) ∧
    ∀ q, f.sent = [q] → q.pkt = pkt → (s.pkg.route pkt.dst).takes path = true → pkt.via ≠ some s.pkg.num →
      let port := (s.pkg.route (pkt.via.getD pkt.dst)).minport
      (s.pkg.port port).state = 2 → ∃ u, exec (.packetForward pkt) s = .next u ∧ u.pkg.emits = s.pkg.emits ++ [.fwd port pkt] ∧ u.pkg.mem = s.pkg.mem) ∧
  (∀ (s : State) (pkt : Packet), pkt.dst ≠ s.pkg.num → pkt.src ≠ s.pkg.num →
    let via := if pkt.via = some s.pkg.num then none else pkt.via
    let port := (s.pkg.route (via.getD pkt.dst)).minport
    ((s.pkg.port port).state = 2 ∨ (s.pkg.port port).state = 3 → exec (.packetForward pkt) s =
      .next (s.updPkg fun p => { p with emits := p.emits ++ [.fwd port { pkt with via := via, hops := pkt.hops + 1 }] })) ∧
    ((s.pkg.port port).state ≠ 2 → (s.pkg.port port).state ≠ 3 → exec (.packetForward pkt) s = .next s)) ∧
  (∀ (s : State) (pkt : Packet) f, pkt.dst = s.pkg.num → pkt.src ≠ s.pkg.num → pkt.src ≤ 992 → pkt.seq < 65536 →
    s.pkg.flowIn pkt.src pkt.core pkt.cls = some f → s.pkg.seqRings = [] → (∀ c k n a, pkt.op ≠ .reply c k n a) →
    let told := fun (a : FlowAns) => (s.updPkg fun p => p.reply pkt.src pkt.core pkt.cls pkt.seq a)
    (∀ a, 0 < (f.expect - BitVec.ofNat 16 pkt.seq).toNat → (f.expect - BitVec.ofNat 16 pkt.seq).toNat ≤ 32768 →
      f.answers.find? (fun x => x.1 == BitVec.ofNat 16 pkt.seq) = some (BitVec.ofNat 16 pkt.seq, a) →
      exec (.packetArrival pkt) s = .next (told a)) ∧
    (32768 < (f.expect - BitVec.ofNat 16 pkt.seq).toNat → pkt.restart = false →
      exec (.packetArrival pkt) s = .next (told (.expected f.expect.toNat))) ∧
    ∀ pa data, f.expect = BitVec.ofNat 16 pkt.seq → pkt.op = .write pa data →
      (s.pkg.permits pkt.src pa data.length 1 = false ∨ inMemory pa = false → ∃ u, exec (.packetArrival pkt) s = .next u ∧
        u.pkg.mem = s.pkg.mem ∧ u.pkg.emits = (told .denied).pkg.emits ∧
        ∃ g, u.pkg.flowIn pkt.src pkt.core pkt.cls = some g ∧ g.expect = BitVec.ofNat 16 (pkt.seq + 1))) ∧
  (∀ (s : State) (pkt : Packet) f, pkt.dst = s.pkg.num → pkt.src ≠ s.pkg.num → pkt.src ≤ 992 → pkt.seq < 65536 →
    s.pkg.flowIn pkt.src pkt.core pkt.cls = some f → s.pkg.seqRings = [] → s.pkg.migs = [] → s.pkg.numaPend = false →
    f.expect = BitVec.ofNat 16 pkt.seq → s.pkg.fwdOut pkt.src pkt.core pkt.cls = false →
    let answered := fun (t : State) (a : FlowAns) => ((t.updPkg fun p => p.updFlowIn pkt.src pkt.core pkt.cls fun g =>
      { g with expect := BitVec.ofNat 16 (pkt.seq + 1) }).updPkg fun p => p.answerPkt pkt.src pkt.core pkt.cls (BitVec.ofNat 16 pkt.seq) a)
    (∀ pa data, pkt.op = .write pa data → pa < 2 ^ 48 → s.pkg.permits pkt.src pa data.length 1 = true → inMemory pa = true → poisoned s.pkg pa data.length = false →
      let t := s.writeAs pa data pkt.key
      (t.pkg.invalOut pa data.length = false → exec (.packetArrival pkt) s = .next (answered t (.ack []))) ∧
      (t.pkg.invalOut pa data.length = true → ∃ u, exec (.packetArrival pkt) s = .next u ∧ u.pkg.mem = t.pkg.mem ∧ u.pkg.emits = t.pkg.emits ∧
        ∀ g, t.pkg.flowIn pkt.src pkt.core pkt.cls = some g → u.pkg.flowIn pkt.src pkt.core pkt.cls = some { g with
          expect := BitVec.ofNat 16 (pkt.seq + 1), owed := g.owed ++ [{ seq := BitVec.ofNat 16 pkt.seq, ans := .ack [], pa := pa, n := data.length }] })) ∧
    (∀ pa n, pkt.op = .read pa n → pa < 2 ^ 48 → s.pkg.permits pkt.src pa n 0 = true → inMemory pa = true → poisoned s.pkg pa n = false →
      let r := s.readAs pa n pkt.key
      exec (.packetArrival pkt) s = .next (answered (r.2.updPkg fun p => p.noteCopy pkt (p.num * 2 ^ 48 + pa)) (.ack r.1))) ∧
    ∀ op w64 u pa x y, pkt.op = .atomic op w64 u pa x y → pa < 2 ^ 48 → let n := if w64 then 8 else 4
      s.pkg.permits pkt.src pa n 2 = true → inMemory pa = true → poisoned s.pkg pa n = false →
      let r := s.readAs pa n pkt.key
      let t := r.2.writeAs pa (leBytes n (atomApply op w64 u (BitVec.ofNat 64 (leNat r.1)) x y).toNat) pkt.key
      t.pkg.invalOut pa n = false → exec (.packetArrival pkt) s = .next (answered t (.ack r.1))) ∧
  (∀ (s : State) dst core cls seq a, let flits := Config.egressFlits taproot dst 2 seq
    ((s.pkg.route dst).choose 2 flits = none → s.pkg.reply dst core cls seq a = s.pkg) ∧
    ∀ path, (s.pkg.route dst).choose 2 flits = some path → s.pkg.reply dst core cls seq a = s.pkg.forward
      { src := s.pkg.num, core := 352, dst := dst, via := (s.pkg.route dst).viaOf path, cls := 2, seq := 0, restart := false, hops := 0, key := 0,
        op := .reply core cls seq a }) ∧
  (∀ (s : State) src dst cls, s.pkg.flow src dst cls = none → ∀ seq ans,
    exec (.flowAckReceived src dst cls seq ans) s = .next s ∧ exec (.flowResendTimeout src dst cls) s = .next s) ∧
  (∀ (s : State) src dst cls f q, dst ≠ s.pkg.num → s.pkg.flow src dst cls = some f → f.sent = [q] → q.asker = .none → s.pkg.flowsIn = [] →
    (∀ pa data b, q.pkt.op = .write pa data →
      exec (.flowAckReceived src dst cls q.pkt.seq (.ack b)) s = .next (s.updPkg fun p => p.setFlow { f with sent := [] })) ∧
    (∀ e, q.tries < 8 → exec (.flowAckReceived src dst cls q.pkt.seq (.expected e)) s =
      .next (s.updPkg fun p => p.setFlow { f with sent := [{ q with tries := q.tries + 1 }] })) ∧
    (q.tries < 8 → ∃ u g r, exec (.flowResendTimeout src dst cls) s = .next u ∧ u.pkg.flow src dst cls = some g ∧ g.sent = [r] ∧
      r.pkt.op = q.pkt.op ∧ r.pkt.seq = q.pkt.seq ∧ r.tries = q.tries + 1) ∧
    (8 ≤ q.tries → ∃ u g, exec (.flowResendTimeout src dst cls) s = .next u ∧ u.pkg.flow src dst cls = some g ∧ g.sent = [] ∧
      .unreachable dst ∈ u.pkg.reports)) ∧
  (∀ (s : State) src core cls f, s.pkg.flowIn src core cls = some f → f.owed = [] → s.pkg.fwdOut src core cls = false →
    ∃ u, exec (.flowStateExpiry src core cls) s = .next u ∧ u.pkg.flowIn src core cls = none ∧ u.pkg.mem = s.pkg.mem ∧ u.pkg.flows = s.pkg.flows) ∧
  ∀ (s : State) home line, let gpa := home * 2 ^ 48 + 64 * line
    (s.pkg.readOut gpa = true → exec (.invalidation home line) s = .next s) ∧
    (s.pkg.readOut gpa = false → line < 2 ^ 42 → ∃ u, exec (.invalidation home line) s = .next u ∧ (∀ l ∈ u.pkg.rcache, l.pa ≠ gpa) ∧
      u.pkg.mem = s.pkg.mem)

/-- R20 to R24, R249, R250, R390: cold and warm resets, throttled power, the failure of this package (its running contexts that are not
sharded are FAULTED) and of another one (a sharded group begins to rebuild its lane), a code line that arrives and its errors. That a
reset keeps memory and the package number is log entries 2 and 53 (DESIGN CHOICE, DEDUCED), the index of the identity key log entry 82
(DESIGN CHOICE). -/
def Obligations.ResetEvents : Prop :=
  (∀ s : State, ∃ u, exec .coldReset s = .next u ∧ u.pkg.lock = Pkg.reset.lock ∧ u.pkg.ctxs = [] ∧ u.pkg.ports = Pkg.reset.ports ∧
    u.pkg.dies = Pkg.reset.dies ∧ u.cores = State.reset.cores ∧ u.strands = State.reset.strands ∧ u.pkg.num = s.pkg.num ∧
    u.pkg.mem = s.pkg.rawMem ∧ u.pkg.boot = { Pkg.reset.boot with signed := s.pkg.boot.signed }) ∧
  (∀ s : State, ∃ u, exec .warmReset s = .next u ∧ u.pkg.lock = s.pkg.lock ∧ u.pkg.ctxs = [] ∧ u.cores = State.reset.cores ∧
    u.strands = State.reset.strands ∧ u.pkg.num = s.pkg.num ∧ u.pkg.mem = s.pkg.rawMem ∧
    u.pkg.boot = { Pkg.reset.boot with signed := s.pkg.boot.signed } ∧ (∀ (k : Nat) (t : Port), s.pkg.ports[k]? = some t → ∃ t' : Port, u.pkg.ports[k]? = some t' ∧ t'.gone = t.gone ∧ t'.quar = t.quar ∧
      t'.state = if t.state = 5 then 5 else 0) ∧
    ∀ (d : Nat) (t : Die), s.pkg.dies[d]? = some t → ∃ t' : Die, u.pkg.dies[d]? = some t' ∧ t'.retired = t.retired ∧ t'.quar = t.quar ∧ t'.up = false ∧
      t'.state = if t.state = 5 then 5 else if s.pkg.lock.lock then 1 else 0) ∧
  (∀ (s : State) cycles, exec (.powerThrottle s.core.num cycles) s = .next (s.updCore s.core.num fun c => { c with throttle := max c.throttle (c.cyc + cycles) })) ∧
  (∀ s : State, (∀ c ∈ s.pkg.ctxs, c.shardOn = true) → exec (.packageFailure s.pkg.num) s = .next s) ∧
  (∀ (s : State) c, s.pkg.ctxs = [c] → c.shardOn = false → c.state = 1 ∨ c.state = 2 → s.pkg.tasks = [] → ∃ u c',
    exec (.packageFailure s.pkg.num) s = .next u ∧ u.ctxAt c.slot = some c' ∧ c'.state = 3 ∧ u.pkg.mem = s.pkg.mem ∧
      u.pkg.reports = s.pkg.reports ++ [.faulted c.slot] ∧ ∀ t ∈ u.allStrands, t.h ≠ 0 → t.slot = c.slot → t.phase ≠ .running) ∧
  (∀ (s : State) pkg, pkg ≠ s.pkg.num → (∀ c ∈ s.pkg.ctxs, s.shardAt c.slot = none) → s.pkg.seqRings = [] →
    exec (.packageFailure pkg) s = .next s) ∧
  (∀ (s : State) pkg c g i, pkg ≠ s.pkg.num → s.pkg.ctxs = [c] → s.shardAt c.slot = some g → s.pkg.seqRings = [] →
    g.gstate = 1 → 0 < g.nslot → i < 9 → (∀ k, k < 9 → (g.m.getD k 0 = pkg ↔ k = i)) → ∃ u, exec (.packageFailure pkg) s = .next u ∧
      u.shardAt c.slot = some { g with gstate := 2, lost := g.lost ||| (1#9 <<< i), swept := 0, ahead := [] } ∧
      u.pkg.mem = s.pkg.mem ∧ u.strands = s.strands ∧ u.strand = s.strand ∧ u.pkg.ctxs = s.pkg.ctxs) ∧
  (∀ (s : State) core line, s.findCore core = none → exec (.icacheLineFill core line) s = .next s) ∧
  (∀ (s : State) core line slot, let on := (s.ctxAt slot).any fun c => c.dies.getLsbD (dieOf core) && (c.pinsOn (dieOf core)).contains line
    exec (.icacheError core line (.pin slot)) s = .next (if on then s.poisonLine core slot 0 line true else s)) ∧
  ∀ (s : State) line, Fronted s → s.core.runs = s.strand.h →
    (s.strand.phase ≠ .running ∨ mayFill s line = false → exec (.icacheLineFill s.core.num line) s = .next s) ∧
    (s.strand.phase = .running → mayFill s line = true → exec (.icacheLineFill s.core.num line) s = .next (back s (fetchLine line false s)) ∧
      ∀ e s1 bs s2, s.translate s.strand.slot (256 * line) .fetch = (.ok e, s1) → s1.fetchBytes (e.addr (256 * line)) 256 e.key e.l2only = (.ok bs, s2) →
        ∃ u, exec (.icacheLineFill s.core.num line) s = .next u ∧ ∃ l ∈ u.core.icache, l.slot = s.strand.slot ∧ l.line = line ∧ l.poisoned = false ∧
          l.words = wordsOf bs) ∧
    (∃ u, exec (.icacheError s.core.num line .parity) s = .next u ∧ (∀ l ∈ u.core.icache, l.slot = s.strand.slot → l.line ≠ line) ∧
      (∀ l ∈ s.core.icache, l.slot ≠ s.strand.slot → l ∈ u.core.icache) ∧ u.strand = s.strand ∧
      u.pkg.mem = s.pkg.mem ∧ u.pkg.reports = s.pkg.reports ++ [.icacheFixed s.core.num line]) ∧
    (waitsLine s line = none → mayFill s line = true → ∃ u, exec (.icacheError s.core.num line .prefetch) s = .next u ∧ u.strand = s.strand ∧
      u.pkg.reports = s.pkg.reports ++ [.latent s.core.num s.strand.slot (s.kernelOf s.strand.slot line s.strand.kernel) line
        (match (s.engTranslate s.strand.slot (256 * line) .fetch).1 with
         | .ok e => e.addr (256 * line)
         | .fault _ | .poison _ => 0)] ∧
      (∃ l ∈ u.core.icache, l.slot = s.strand.slot ∧ l.line = line ∧ l.poisoned = true)) ∧
    (waitsLine s line ≠ none → exec (.icacheError s.core.num line .fetchGood) s = .next (back s (fetchLine line false s)) ∧
      exec (.icacheError s.core.num line .fetchBad) s = .next (back s (fetchLine line true s)))
end

