-- ==== Sys2Proof/Laws/State.lean ====
section
/-! SUPPORT. One lemma per field per update of the state records, so that no later proof unfolds a record update. -/

namespace Sys2Proof.Machine


-- ## A sequencer set in a strand

@[simp] theorem Strand.seq_setSeq (t : Strand) (st : Stream) (q : Seq) : (t.setSeq st q).seq st = q := by cases st <;> rfl
@[simp] theorem Strand.seq_setSeq_other (t : Strand) (st : Stream) (q : Seq) : (t.setSeq st q).seq (Stream.other st) = t.seq (Stream.other st) := by
  cases st <;> rfl
@[simp] theorem Strand.setSeq_setSeq (t : Strand) (st : Stream) (p q : Seq) : (t.setSeq st p).setSeq st q = t.setSeq st q := by
  cases st <;> rfl
@[simp] theorem Strand.setSeq_seq (t : Strand) (st : Stream) : t.setSeq st (t.seq st) = t := by cases st <;> rfl
@[simp] theorem Strand.setSeq_h (t : Strand) (st : Stream) (q : Seq) : (t.setSeq st q).h = t.h := by cases st <;> rfl
@[simp] theorem Strand.setSeq_phase (t : Strand) (st : Stream) (q : Seq) : (t.setSeq st q).phase = t.phase := by cases st <;> rfl
@[simp] theorem Strand.setSeq_slot (t : Strand) (st : Stream) (q : Seq) : (t.setSeq st q).slot = t.slot := by cases st <;> rfl
@[simp] theorem Strand.setSeq_ctx (t : Strand) (st : Stream) (q : Seq) : (t.setSeq st q).ctx = t.ctx := by cases st <;> rfl
@[simp] theorem Strand.setSeq_index (t : Strand) (st : Stream) (q : Seq) : (t.setSeq st q).index = t.index := by cases st <;> rfl
@[simp] theorem Strand.setSeq_unit (t : Strand) (st : Stream) (q : Seq) : (t.setSeq st q).unit = t.unit := by cases st <;> rfl
@[simp] theorem Strand.setSeq_launch (t : Strand) (st : Stream) (q : Seq) : (t.setSeq st q).launch = t.launch := by cases st <;> rfl
@[simp] theorem Strand.setSeq_unitNo (t : Strand) (st : Stream) (q : Seq) : (t.setSeq st q).unitNo = t.unitNo := by cases st <;> rfl
@[simp] theorem Strand.setSeq_kernel (t : Strand) (st : Stream) (q : Seq) : (t.setSeq st q).kernel = t.kernel := by cases st <;> rfl
@[simp] theorem Strand.setSeq_gi (t : Strand) (st : Stream) (q : Seq) : (t.setSeq st q).gi = t.gi := by cases st <;> rfl
@[simp] theorem Strand.setSeq_gm (t : Strand) (st : Stream) (q : Seq) : (t.setSeq st q).gm = t.gm := by cases st <;> rfl
@[simp] theorem Strand.setSeq_gv (t : Strand) (st : Stream) (q : Seq) : (t.setSeq st q).gv = t.gv := by cases st <;> rfl
@[simp] theorem Strand.setSeq_iterbound (t : Strand) (st : Stream) (q : Seq) : (t.setSeq st q).iterbound = t.iterbound := by cases st <;> rfl
@[simp] theorem Strand.setSeq_spsave (t : Strand) (st : Stream) (q : Seq) : (t.setSeq st q).spsave = t.spsave := by cases st <;> rfl
@[simp] theorem Strand.setSeq_lastStage (t : Strand) (st : Stream) (q : Seq) : (t.setSeq st q).lastStage = t.lastStage := by cases st <;> rfl
@[simp] theorem Strand.setSeq_v (t : Strand) (st : Stream) (q : Seq) : (t.setSeq st q).v = t.v := by cases st <;> rfl
@[simp] theorem Strand.setSeq_o (t : Strand) (st : Stream) (q : Seq) : (t.setSeq st q).o = t.o := by cases st <;> rfl
@[simp] theorem Strand.setSeq_l (t : Strand) (st : Stream) (q : Seq) : (t.setSeq st q).l = t.l := by cases st <;> rfl
@[simp] theorem Strand.setSeq_lpos (t : Strand) (st : Stream) (q : Seq) : (t.setSeq st q).lpos = t.lpos := by cases st <;> rfl
@[simp] theorem Strand.setSeq_lq (t : Strand) (st : Stream) (q : Seq) : (t.setSeq st q).lq = t.lq := by cases st <;> rfl
@[simp] theorem Strand.setSeq_sq (t : Strand) (st : Stream) (q : Seq) : (t.setSeq st q).sq = t.sq := by cases st <;> rfl
@[simp] theorem Strand.setSeq_vshape (t : Strand) (st : Stream) (q : Seq) : (t.setSeq st q).vshape = t.vshape := by cases st <;> rfl
@[simp] theorem Strand.setSeq_ashape (t : Strand) (st : Stream) (q : Seq) : (t.setSeq st q).ashape = t.ashape := by cases st <;> rfl
@[simp] theorem Strand.setSeq_fpflags (t : Strand) (st : Stream) (q : Seq) : (t.setSeq st q).fpflags = t.fpflags := by cases st <;> rfl
@[simp] theorem Strand.setSeq_tstat (t : Strand) (st : Stream) (q : Seq) : (t.setSeq st q).tstat = t.tstat := by cases st <;> rfl
@[simp] theorem Strand.setSeq_topk (t : Strand) (st : Stream) (q : Seq) : (t.setSeq st q).topk = t.topk := by cases st <;> rfl
@[simp] theorem Strand.setSeq_topbuf (t : Strand) (st : Stream) (q : Seq) : (t.setSeq st q).topbuf = t.topbuf := by cases st <;> rfl
@[simp] theorem Strand.setSeq_prog (t : Strand) (st : Stream) (q : Seq) : (t.setSeq st q).prog = t.prog := by cases st <;> rfl
@[simp] theorem Strand.setSeq_pend (t : Strand) (st : Stream) (q : Seq) : (t.setSeq st q).pend = t.pend := by cases st <;> rfl
@[simp] theorem Strand.setSeq_nid (t : Strand) (st : Stream) (q : Seq) : (t.setSeq st q).nid = t.nid := by cases st <;> rfl
@[simp] theorem Strand.setSeq_acc (t : Strand) (st : Stream) (q : Seq) : (t.setSeq st q).acc = t.acc := by cases st <;> rfl
@[simp] theorem Strand.setSeq_afences (t : Strand) (st : Stream) (q : Seq) : (t.setSeq st q).afences = t.afences := by cases st <;> rfl
@[simp] theorem Strand.setSeq_sidelog (t : Strand) (st : Stream) (q : Seq) : (t.setSeq st q).sidelog = t.sidelog := by cases st <;> rfl
@[simp] theorem Strand.setSeq_logFull (t : Strand) (st : Stream) (q : Seq) : (t.setSeq st q).logFull = t.logFull := by cases st <;> rfl
@[simp] theorem Strand.setSeq_rings (t : Strand) (st : Stream) (q : Seq) : (t.setSeq st q).rings = t.rings := by cases st <;> rfl
@[simp] theorem Strand.setSeq_fr (t : Strand) (st : Stream) (q : Seq) : (t.setSeq st q).fr = t.fr := by cases st <;> rfl
@[simp] theorem Strand.setSeq_slots (t : Strand) (st : Stream) (q : Seq) : (t.setSeq st q).slots = t.slots := by cases st <;> rfl
@[simp] theorem Strand.setSeq_chans (t : Strand) (st : Stream) (q : Seq) : (t.setSeq st q).chans = t.chans := by cases st <;> rfl
@[simp] theorem Strand.setSeq_six (t : Strand) (st : Stream) (q : Seq) : (t.setSeq st q).six = t.six := by cases st <;> rfl
@[simp] theorem Strand.setSeq_eps (t : Strand) (st : Stream) (q : Seq) : (t.setSeq st q).eps = t.eps := by cases st <;> rfl
@[simp] theorem Strand.setSeq_wants (t : Strand) (st : Stream) (q : Seq) : (t.setSeq st q).wants = t.wants := by cases st <;> rfl
@[simp] theorem Strand.setSeq_failsVa (t : Strand) (st : Stream) (q : Seq) : (t.setSeq st q).failsVa = t.failsVa := by cases st <;> rfl
@[simp] theorem Strand.setSeq_failsPa (t : Strand) (st : Stream) (q : Seq) : (t.setSeq st q).failsPa = t.failsPa := by cases st <;> rfl
@[simp] theorem Strand.setSeq_ringPops (t : Strand) (st : Stream) (q : Seq) : (t.setSeq st q).ringPops = t.ringPops := by cases st <;> rfl
@[simp] theorem Strand.setSeq_matIds (t : Strand) (st : Stream) (q : Seq) : (t.setSeq st q).matIds = t.matIds := by cases st <;> rfl
@[simp] theorem Strand.setSeq_refusals (t : Strand) (st : Stream) (q : Seq) : (t.setSeq st q).refusals = t.refusals := by cases st <;> rfl
@[simp] theorem Strand.setSeq_arrivals (t : Strand) (st : Stream) (q : Seq) : (t.setSeq st q).arrivals = t.arrivals := by cases st <;> rfl
@[simp] theorem Strand.setSeq_spill (t : Strand) (st : Stream) (q : Seq) : (t.setSeq st q).spill = t.spill := by cases st <;> rfl
@[simp] theorem Strand.setSeq_record (t : Strand) (st : Stream) (q : Seq) : (t.setSeq st q).record = t.record := by cases st <;> rfl
@[simp] theorem Strand.setSeq_queuePushed (t : Strand) (st : Stream) (q : Seq) : (t.setSeq st q).queuePushed = t.queuePushed := by cases st <;> rfl
@[simp] theorem Strand.setSeq_reported (t : Strand) (st : Stream) (q : Seq) : (t.setSeq st q).reported = t.reported := by cases st <;> rfl
@[simp] theorem Strand.setSeq_withdrawn (t : Strand) (st : Stream) (q : Seq) : (t.setSeq st q).withdrawn = t.withdrawn := by cases st <;> rfl
@[simp] theorem Strand.setSeq_closed (t : Strand) (st : Stream) (q : Seq) : (t.setSeq st q).closed = t.closed := by cases st <;> rfl
@[simp] theorem Strand.setSeq_preempt (t : Strand) (st : Stream) (q : Seq) : (t.setSeq st q).preempt = t.preempt := by cases st <;> rfl
@[simp] theorem Strand.setSeq_cancelled (t : Strand) (st : Stream) (q : Seq) : (t.setSeq st q).cancelled = t.cancelled := by cases st <;> rfl
@[simp] theorem Strand.setSeq_cancelEnd (t : Strand) (st : Stream) (q : Seq) : (t.setSeq st q).cancelEnd = t.cancelEnd := by cases st <;> rfl
@[simp] theorem Strand.setSeq_parked (t : Strand) (st : Stream) (q : Seq) : (t.setSeq st q).parked = t.parked := by cases st <;> rfl
@[simp] theorem Strand.setSeq_parkAt (t : Strand) (st : Stream) (q : Seq) : (t.setSeq st q).parkAt = t.parkAt := by cases st <;> rfl
@[simp] theorem Strand.setSeq_request (t : Strand) (st : Stream) (q : Seq) : (t.setSeq st q).request = t.request := by cases st <;> rfl
@[simp] theorem Strand.setSeq_replay (t : Strand) (st : Stream) (q : Seq) : (t.setSeq st q).replay = t.replay := by cases st <;> rfl
@[simp] theorem Strand.setSeq_doneTo (t : Strand) (st : Stream) (q : Seq) : (t.setSeq st q).doneTo = t.doneTo := by cases st <;> rfl
@[simp] theorem Strand.setSeq_since (t : Strand) (st : Stream) (q : Seq) : (t.setSeq st q).since = t.since := by cases st <;> rfl
@[simp] theorem Strand.setSeq_slice (t : Strand) (st : Stream) (q : Seq) : (t.setSeq st q).slice = t.slice := by cases st <;> rfl
@[simp] theorem Strand.setSeq_core (t : Strand) (st : Stream) (q : Seq) : (t.setSeq st q).core = t.core := by cases st <;> rfl
@[simp] theorem Strand.setSeq_readyAt (t : Strand) (st : Stream) (q : Seq) : (t.setSeq st q).readyAt = t.readyAt := by cases st <;> rfl
@[simp] theorem Strand.setSeq_spimage (t : Strand) (st : Stream) (q : Seq) : (t.setSeq st q).spimage = t.spimage := by cases st <;> rfl
@[simp] theorem Strand.setSeq_spBad (t : Strand) (st : Stream) (q : Seq) : (t.setSeq st q).spBad = t.spBad := by cases st <;> rfl

-- ## The entries of a queue set in a strand

@[simp] theorem Strand.setQueue_h (t : Strand) (b : Bool) (q : Fin 4) (l : List QEnt) : (t.setQueue b q l).h = t.h := by
  cases b <;> rfl
@[simp] theorem Strand.setQueue_phase (t : Strand) (b : Bool) (q : Fin 4) (l : List QEnt) : (t.setQueue b q l).phase = t.phase := by
  cases b <;> rfl
@[simp] theorem Strand.setQueue_slot (t : Strand) (b : Bool) (q : Fin 4) (l : List QEnt) : (t.setQueue b q l).slot = t.slot := by
  cases b <;> rfl
@[simp] theorem Strand.setQueue_ctx (t : Strand) (b : Bool) (q : Fin 4) (l : List QEnt) : (t.setQueue b q l).ctx = t.ctx := by
  cases b <;> rfl
@[simp] theorem Strand.setQueue_index (t : Strand) (b : Bool) (q : Fin 4) (l : List QEnt) : (t.setQueue b q l).index = t.index := by
  cases b <;> rfl
@[simp] theorem Strand.setQueue_unit (t : Strand) (b : Bool) (q : Fin 4) (l : List QEnt) : (t.setQueue b q l).unit = t.unit := by
  cases b <;> rfl
@[simp] theorem Strand.setQueue_launch (t : Strand) (b : Bool) (q : Fin 4) (l : List QEnt) : (t.setQueue b q l).launch = t.launch := by
  cases b <;> rfl
@[simp] theorem Strand.setQueue_unitNo (t : Strand) (b : Bool) (q : Fin 4) (l : List QEnt) : (t.setQueue b q l).unitNo = t.unitNo := by
  cases b <;> rfl
@[simp] theorem Strand.setQueue_kernel (t : Strand) (b : Bool) (q : Fin 4) (l : List QEnt) : (t.setQueue b q l).kernel = t.kernel := by
  cases b <;> rfl
@[simp] theorem Strand.setQueue_gi (t : Strand) (b : Bool) (q : Fin 4) (l : List QEnt) : (t.setQueue b q l).gi = t.gi := by
  cases b <;> rfl
@[simp] theorem Strand.setQueue_gm (t : Strand) (b : Bool) (q : Fin 4) (l : List QEnt) : (t.setQueue b q l).gm = t.gm := by
  cases b <;> rfl
@[simp] theorem Strand.setQueue_gv (t : Strand) (b : Bool) (q : Fin 4) (l : List QEnt) : (t.setQueue b q l).gv = t.gv := by
  cases b <;> rfl
@[simp] theorem Strand.setQueue_iterbound (t : Strand) (b : Bool) (q : Fin 4) (l : List QEnt) : (t.setQueue b q l).iterbound = t.iterbound := by
  cases b <;> rfl
@[simp] theorem Strand.setQueue_spsave (t : Strand) (b : Bool) (q : Fin 4) (l : List QEnt) : (t.setQueue b q l).spsave = t.spsave := by
  cases b <;> rfl
@[simp] theorem Strand.setQueue_lastStage (t : Strand) (b : Bool) (q : Fin 4) (l : List QEnt) : (t.setQueue b q l).lastStage = t.lastStage := by
  cases b <;> rfl
@[simp] theorem Strand.setQueue_a (t : Strand) (b : Bool) (q : Fin 4) (l : List QEnt) : (t.setQueue b q l).a = t.a := by
  cases b <;> rfl
@[simp] theorem Strand.setQueue_x (t : Strand) (b : Bool) (q : Fin 4) (l : List QEnt) : (t.setQueue b q l).x = t.x := by
  cases b <;> rfl
@[simp] theorem Strand.setQueue_v (t : Strand) (b : Bool) (q : Fin 4) (l : List QEnt) : (t.setQueue b q l).v = t.v := by
  cases b <;> rfl
@[simp] theorem Strand.setQueue_o (t : Strand) (b : Bool) (q : Fin 4) (l : List QEnt) : (t.setQueue b q l).o = t.o := by
  cases b <;> rfl
@[simp] theorem Strand.setQueue_l (t : Strand) (b : Bool) (q : Fin 4) (l : List QEnt) : (t.setQueue b q l).l = t.l := by
  cases b <;> rfl
@[simp] theorem Strand.setQueue_lpos (t : Strand) (b : Bool) (q : Fin 4) (l : List QEnt) : (t.setQueue b q l).lpos = t.lpos := by
  cases b <;> rfl
@[simp] theorem Strand.setQueue_vshape (t : Strand) (b : Bool) (q : Fin 4) (l : List QEnt) : (t.setQueue b q l).vshape = t.vshape := by
  cases b <;> rfl
@[simp] theorem Strand.setQueue_ashape (t : Strand) (b : Bool) (q : Fin 4) (l : List QEnt) : (t.setQueue b q l).ashape = t.ashape := by
  cases b <;> rfl
@[simp] theorem Strand.setQueue_fpflags (t : Strand) (b : Bool) (q : Fin 4) (l : List QEnt) : (t.setQueue b q l).fpflags = t.fpflags := by
  cases b <;> rfl
@[simp] theorem Strand.setQueue_tstat (t : Strand) (b : Bool) (q : Fin 4) (l : List QEnt) : (t.setQueue b q l).tstat = t.tstat := by
  cases b <;> rfl
@[simp] theorem Strand.setQueue_topk (t : Strand) (b : Bool) (q : Fin 4) (l : List QEnt) : (t.setQueue b q l).topk = t.topk := by
  cases b <;> rfl
@[simp] theorem Strand.setQueue_topbuf (t : Strand) (b : Bool) (q : Fin 4) (l : List QEnt) : (t.setQueue b q l).topbuf = t.topbuf := by
  cases b <;> rfl
@[simp] theorem Strand.setQueue_prog (t : Strand) (b : Bool) (q : Fin 4) (l : List QEnt) : (t.setQueue b q l).prog = t.prog := by
  cases b <;> rfl
@[simp] theorem Strand.setQueue_pend (t : Strand) (b : Bool) (q : Fin 4) (l : List QEnt) : (t.setQueue b q l).pend = t.pend := by
  cases b <;> rfl
@[simp] theorem Strand.setQueue_nid (t : Strand) (b : Bool) (q : Fin 4) (l : List QEnt) : (t.setQueue b q l).nid = t.nid := by
  cases b <;> rfl
@[simp] theorem Strand.setQueue_acc (t : Strand) (b : Bool) (q : Fin 4) (l : List QEnt) : (t.setQueue b q l).acc = t.acc := by
  cases b <;> rfl
@[simp] theorem Strand.setQueue_afences (t : Strand) (b : Bool) (q : Fin 4) (l : List QEnt) : (t.setQueue b q l).afences = t.afences := by
  cases b <;> rfl
@[simp] theorem Strand.setQueue_sidelog (t : Strand) (b : Bool) (q : Fin 4) (l : List QEnt) : (t.setQueue b q l).sidelog = t.sidelog := by
  cases b <;> rfl
@[simp] theorem Strand.setQueue_logFull (t : Strand) (b : Bool) (q : Fin 4) (l : List QEnt) : (t.setQueue b q l).logFull = t.logFull := by
  cases b <;> rfl
@[simp] theorem Strand.setQueue_rings (t : Strand) (b : Bool) (q : Fin 4) (l : List QEnt) : (t.setQueue b q l).rings = t.rings := by
  cases b <;> rfl
@[simp] theorem Strand.setQueue_fr (t : Strand) (b : Bool) (q : Fin 4) (l : List QEnt) : (t.setQueue b q l).fr = t.fr := by
  cases b <;> rfl
@[simp] theorem Strand.setQueue_slots (t : Strand) (b : Bool) (q : Fin 4) (l : List QEnt) : (t.setQueue b q l).slots = t.slots := by
  cases b <;> rfl
@[simp] theorem Strand.setQueue_chans (t : Strand) (b : Bool) (q : Fin 4) (l : List QEnt) : (t.setQueue b q l).chans = t.chans := by
  cases b <;> rfl
@[simp] theorem Strand.setQueue_six (t : Strand) (b : Bool) (q : Fin 4) (l : List QEnt) : (t.setQueue b q l).six = t.six := by
  cases b <;> rfl
@[simp] theorem Strand.setQueue_eps (t : Strand) (b : Bool) (q : Fin 4) (l : List QEnt) : (t.setQueue b q l).eps = t.eps := by
  cases b <;> rfl
@[simp] theorem Strand.setQueue_wants (t : Strand) (b : Bool) (q : Fin 4) (l : List QEnt) : (t.setQueue b q l).wants = t.wants := by
  cases b <;> rfl
@[simp] theorem Strand.setQueue_failsVa (t : Strand) (b : Bool) (q : Fin 4) (l : List QEnt) : (t.setQueue b q l).failsVa = t.failsVa := by
  cases b <;> rfl
@[simp] theorem Strand.setQueue_failsPa (t : Strand) (b : Bool) (q : Fin 4) (l : List QEnt) : (t.setQueue b q l).failsPa = t.failsPa := by
  cases b <;> rfl
@[simp] theorem Strand.setQueue_ringPops (t : Strand) (b : Bool) (q : Fin 4) (l : List QEnt) : (t.setQueue b q l).ringPops = t.ringPops := by
  cases b <;> rfl
@[simp] theorem Strand.setQueue_matIds (t : Strand) (b : Bool) (q : Fin 4) (l : List QEnt) : (t.setQueue b q l).matIds = t.matIds := by
  cases b <;> rfl
@[simp] theorem Strand.setQueue_refusals (t : Strand) (b : Bool) (q : Fin 4) (l : List QEnt) : (t.setQueue b q l).refusals = t.refusals := by
  cases b <;> rfl
@[simp] theorem Strand.setQueue_arrivals (t : Strand) (b : Bool) (q : Fin 4) (l : List QEnt) : (t.setQueue b q l).arrivals = t.arrivals := by
  cases b <;> rfl
@[simp] theorem Strand.setQueue_spill (t : Strand) (b : Bool) (q : Fin 4) (l : List QEnt) : (t.setQueue b q l).spill = t.spill := by
  cases b <;> rfl
@[simp] theorem Strand.setQueue_record (t : Strand) (b : Bool) (q : Fin 4) (l : List QEnt) : (t.setQueue b q l).record = t.record := by
  cases b <;> rfl
@[simp] theorem Strand.setQueue_queuePushed (t : Strand) (b : Bool) (q : Fin 4) (l : List QEnt) : (t.setQueue b q l).queuePushed = t.queuePushed := by
  cases b <;> rfl
@[simp] theorem Strand.setQueue_reported (t : Strand) (b : Bool) (q : Fin 4) (l : List QEnt) : (t.setQueue b q l).reported = t.reported := by
  cases b <;> rfl
@[simp] theorem Strand.setQueue_withdrawn (t : Strand) (b : Bool) (q : Fin 4) (l : List QEnt) : (t.setQueue b q l).withdrawn = t.withdrawn := by
  cases b <;> rfl
@[simp] theorem Strand.setQueue_closed (t : Strand) (b : Bool) (q : Fin 4) (l : List QEnt) : (t.setQueue b q l).closed = t.closed := by
  cases b <;> rfl
@[simp] theorem Strand.setQueue_preempt (t : Strand) (b : Bool) (q : Fin 4) (l : List QEnt) : (t.setQueue b q l).preempt = t.preempt := by
  cases b <;> rfl
@[simp] theorem Strand.setQueue_cancelled (t : Strand) (b : Bool) (q : Fin 4) (l : List QEnt) : (t.setQueue b q l).cancelled = t.cancelled := by
  cases b <;> rfl
@[simp] theorem Strand.setQueue_cancelEnd (t : Strand) (b : Bool) (q : Fin 4) (l : List QEnt) : (t.setQueue b q l).cancelEnd = t.cancelEnd := by
  cases b <;> rfl
@[simp] theorem Strand.setQueue_parked (t : Strand) (b : Bool) (q : Fin 4) (l : List QEnt) : (t.setQueue b q l).parked = t.parked := by
  cases b <;> rfl
@[simp] theorem Strand.setQueue_parkAt (t : Strand) (b : Bool) (q : Fin 4) (l : List QEnt) : (t.setQueue b q l).parkAt = t.parkAt := by
  cases b <;> rfl
@[simp] theorem Strand.setQueue_request (t : Strand) (b : Bool) (q : Fin 4) (l : List QEnt) : (t.setQueue b q l).request = t.request := by
  cases b <;> rfl
@[simp] theorem Strand.setQueue_replay (t : Strand) (b : Bool) (q : Fin 4) (l : List QEnt) : (t.setQueue b q l).replay = t.replay := by
  cases b <;> rfl
@[simp] theorem Strand.setQueue_doneTo (t : Strand) (b : Bool) (q : Fin 4) (l : List QEnt) : (t.setQueue b q l).doneTo = t.doneTo := by
  cases b <;> rfl
@[simp] theorem Strand.setQueue_since (t : Strand) (b : Bool) (q : Fin 4) (l : List QEnt) : (t.setQueue b q l).since = t.since := by
  cases b <;> rfl
@[simp] theorem Strand.setQueue_slice (t : Strand) (b : Bool) (q : Fin 4) (l : List QEnt) : (t.setQueue b q l).slice = t.slice := by
  cases b <;> rfl
@[simp] theorem Strand.setQueue_core (t : Strand) (b : Bool) (q : Fin 4) (l : List QEnt) : (t.setQueue b q l).core = t.core := by
  cases b <;> rfl
@[simp] theorem Strand.setQueue_readyAt (t : Strand) (b : Bool) (q : Fin 4) (l : List QEnt) : (t.setQueue b q l).readyAt = t.readyAt := by
  cases b <;> rfl
@[simp] theorem Strand.setQueue_spimage (t : Strand) (b : Bool) (q : Fin 4) (l : List QEnt) : (t.setQueue b q l).spimage = t.spimage := by
  cases b <;> rfl
@[simp] theorem Strand.setQueue_spBad (t : Strand) (b : Bool) (q : Fin 4) (l : List QEnt) : (t.setQueue b q l).spBad = t.spBad := by
  cases b <;> rfl
@[simp] theorem Strand.setQueue_seq (t : Strand) (b : Bool) (q : Fin 4) (l : List QEnt) (st : Stream) :
    (t.setQueue b q l).seq st = t.seq st := by cases b <;> cases st <;> rfl

-- ## A strand that begins to stop

@[simp] theorem Strand.halt_phase (t : Strand) (p : Phase) (c : Nat) : (t.halt p c).phase = p := rfl
@[simp] theorem Strand.halt_h (t : Strand) (p : Phase) (c : Nat) : (t.halt p c).h = t.h := rfl
@[simp] theorem Strand.halt_slot (t : Strand) (p : Phase) (c : Nat) : (t.halt p c).slot = t.slot := rfl
@[simp] theorem Strand.halt_ctx (t : Strand) (p : Phase) (c : Nat) : (t.halt p c).ctx = t.ctx := rfl
@[simp] theorem Strand.halt_index (t : Strand) (p : Phase) (c : Nat) : (t.halt p c).index = t.index := rfl
@[simp] theorem Strand.halt_unit (t : Strand) (p : Phase) (c : Nat) : (t.halt p c).unit = t.unit := rfl
@[simp] theorem Strand.halt_launch (t : Strand) (p : Phase) (c : Nat) : (t.halt p c).launch = t.launch := rfl
@[simp] theorem Strand.halt_unitNo (t : Strand) (p : Phase) (c : Nat) : (t.halt p c).unitNo = t.unitNo := rfl
@[simp] theorem Strand.halt_kernel (t : Strand) (p : Phase) (c : Nat) : (t.halt p c).kernel = t.kernel := rfl
@[simp] theorem Strand.halt_gi (t : Strand) (p : Phase) (c : Nat) : (t.halt p c).gi = t.gi := rfl
@[simp] theorem Strand.halt_gm (t : Strand) (p : Phase) (c : Nat) : (t.halt p c).gm = t.gm := rfl
@[simp] theorem Strand.halt_gv (t : Strand) (p : Phase) (c : Nat) : (t.halt p c).gv = t.gv := rfl
@[simp] theorem Strand.halt_iterbound (t : Strand) (p : Phase) (c : Nat) : (t.halt p c).iterbound = t.iterbound := rfl
@[simp] theorem Strand.halt_spsave (t : Strand) (p : Phase) (c : Nat) : (t.halt p c).spsave = t.spsave := rfl
@[simp] theorem Strand.halt_lastStage (t : Strand) (p : Phase) (c : Nat) : (t.halt p c).lastStage = t.lastStage := rfl
@[simp] theorem Strand.halt_v (t : Strand) (p : Phase) (c : Nat) : (t.halt p c).v = t.v := rfl
@[simp] theorem Strand.halt_o (t : Strand) (p : Phase) (c : Nat) : (t.halt p c).o = t.o := rfl
@[simp] theorem Strand.halt_l (t : Strand) (p : Phase) (c : Nat) : (t.halt p c).l = t.l := rfl
@[simp] theorem Strand.halt_lpos (t : Strand) (p : Phase) (c : Nat) : (t.halt p c).lpos = t.lpos := rfl
@[simp] theorem Strand.halt_lq (t : Strand) (p : Phase) (c : Nat) : (t.halt p c).lq = t.lq := rfl
@[simp] theorem Strand.halt_sq (t : Strand) (p : Phase) (c : Nat) : (t.halt p c).sq = t.sq := rfl
@[simp] theorem Strand.halt_vshape (t : Strand) (p : Phase) (c : Nat) : (t.halt p c).vshape = t.vshape := rfl
@[simp] theorem Strand.halt_ashape (t : Strand) (p : Phase) (c : Nat) : (t.halt p c).ashape = t.ashape := rfl
@[simp] theorem Strand.halt_fpflags (t : Strand) (p : Phase) (c : Nat) : (t.halt p c).fpflags = t.fpflags := rfl
@[simp] theorem Strand.halt_tstat (t : Strand) (p : Phase) (c : Nat) : (t.halt p c).tstat = t.tstat := rfl
@[simp] theorem Strand.halt_topk (t : Strand) (p : Phase) (c : Nat) : (t.halt p c).topk = t.topk := rfl
@[simp] theorem Strand.halt_topbuf (t : Strand) (p : Phase) (c : Nat) : (t.halt p c).topbuf = t.topbuf := rfl
@[simp] theorem Strand.halt_prog (t : Strand) (p : Phase) (c : Nat) : (t.halt p c).prog = t.prog := rfl
@[simp] theorem Strand.halt_pend (t : Strand) (p : Phase) (c : Nat) : (t.halt p c).pend = t.pend := rfl
@[simp] theorem Strand.halt_nid (t : Strand) (p : Phase) (c : Nat) : (t.halt p c).nid = t.nid := rfl
@[simp] theorem Strand.halt_acc (t : Strand) (p : Phase) (c : Nat) : (t.halt p c).acc = t.acc := rfl
@[simp] theorem Strand.halt_afences (t : Strand) (p : Phase) (c : Nat) : (t.halt p c).afences = t.afences := rfl
@[simp] theorem Strand.halt_sidelog (t : Strand) (p : Phase) (c : Nat) : (t.halt p c).sidelog = t.sidelog := rfl
@[simp] theorem Strand.halt_logFull (t : Strand) (p : Phase) (c : Nat) : (t.halt p c).logFull = t.logFull := rfl
@[simp] theorem Strand.halt_rings (t : Strand) (p : Phase) (c : Nat) : (t.halt p c).rings = t.rings := rfl
@[simp] theorem Strand.halt_fr (t : Strand) (p : Phase) (c : Nat) : (t.halt p c).fr = t.fr := rfl
@[simp] theorem Strand.halt_slots (t : Strand) (p : Phase) (c : Nat) : (t.halt p c).slots = t.slots := rfl
@[simp] theorem Strand.halt_chans (t : Strand) (p : Phase) (c : Nat) : (t.halt p c).chans = t.chans := rfl
@[simp] theorem Strand.halt_six (t : Strand) (p : Phase) (c : Nat) : (t.halt p c).six = t.six := rfl
@[simp] theorem Strand.halt_eps (t : Strand) (p : Phase) (c : Nat) : (t.halt p c).eps = t.eps := rfl
@[simp] theorem Strand.halt_wants (t : Strand) (p : Phase) (c : Nat) : (t.halt p c).wants = t.wants := rfl
@[simp] theorem Strand.halt_failsVa (t : Strand) (p : Phase) (c : Nat) : (t.halt p c).failsVa = t.failsVa := rfl
@[simp] theorem Strand.halt_failsPa (t : Strand) (p : Phase) (c : Nat) : (t.halt p c).failsPa = t.failsPa := rfl
@[simp] theorem Strand.halt_ringPops (t : Strand) (p : Phase) (c : Nat) : (t.halt p c).ringPops = t.ringPops := rfl
@[simp] theorem Strand.halt_matIds (t : Strand) (p : Phase) (c : Nat) : (t.halt p c).matIds = t.matIds := rfl
@[simp] theorem Strand.halt_refusals (t : Strand) (p : Phase) (c : Nat) : (t.halt p c).refusals = t.refusals := rfl
@[simp] theorem Strand.halt_arrivals (t : Strand) (p : Phase) (c : Nat) : (t.halt p c).arrivals = t.arrivals := rfl
@[simp] theorem Strand.halt_spill (t : Strand) (p : Phase) (c : Nat) : (t.halt p c).spill = t.spill := rfl
@[simp] theorem Strand.halt_record (t : Strand) (p : Phase) (c : Nat) : (t.halt p c).record = t.record := rfl
@[simp] theorem Strand.halt_queuePushed (t : Strand) (p : Phase) (c : Nat) : (t.halt p c).queuePushed = t.queuePushed := rfl
@[simp] theorem Strand.halt_reported (t : Strand) (p : Phase) (c : Nat) : (t.halt p c).reported = t.reported := rfl
@[simp] theorem Strand.halt_withdrawn (t : Strand) (p : Phase) (c : Nat) : (t.halt p c).withdrawn = t.withdrawn := rfl
@[simp] theorem Strand.halt_closed (t : Strand) (p : Phase) (c : Nat) : (t.halt p c).closed = t.closed := rfl
@[simp] theorem Strand.halt_preempt (t : Strand) (p : Phase) (c : Nat) : (t.halt p c).preempt = t.preempt := rfl
@[simp] theorem Strand.halt_cancelled (t : Strand) (p : Phase) (c : Nat) : (t.halt p c).cancelled = t.cancelled := rfl
@[simp] theorem Strand.halt_cancelEnd (t : Strand) (p : Phase) (c : Nat) : (t.halt p c).cancelEnd = t.cancelEnd := rfl
@[simp] theorem Strand.halt_parked (t : Strand) (p : Phase) (c : Nat) : (t.halt p c).parked = t.parked := rfl
@[simp] theorem Strand.halt_parkAt (t : Strand) (p : Phase) (c : Nat) : (t.halt p c).parkAt = t.parkAt := rfl
@[simp] theorem Strand.halt_request (t : Strand) (p : Phase) (c : Nat) : (t.halt p c).request = t.request := rfl
@[simp] theorem Strand.halt_replay (t : Strand) (p : Phase) (c : Nat) : (t.halt p c).replay = t.replay := rfl
@[simp] theorem Strand.halt_doneTo (t : Strand) (p : Phase) (c : Nat) : (t.halt p c).doneTo = t.doneTo := rfl
@[simp] theorem Strand.halt_since (t : Strand) (p : Phase) (c : Nat) : (t.halt p c).since = t.since := rfl
@[simp] theorem Strand.halt_slice (t : Strand) (p : Phase) (c : Nat) : (t.halt p c).slice = t.slice := rfl
@[simp] theorem Strand.halt_core (t : Strand) (p : Phase) (c : Nat) : (t.halt p c).core = t.core := rfl
@[simp] theorem Strand.halt_readyAt (t : Strand) (p : Phase) (c : Nat) : (t.halt p c).readyAt = t.readyAt := rfl
@[simp] theorem Strand.halt_spimage (t : Strand) (p : Phase) (c : Nat) : (t.halt p c).spimage = t.spimage := rfl
@[simp] theorem Strand.halt_spBad (t : Strand) (p : Phase) (c : Nat) : (t.halt p c).spBad = t.spBad := rfl

-- ## A ring set in a strand

@[simp] theorem Strand.setRing_h (t : Strand) (k : Nat) (r : Ring) : (t.setRing k r).h = t.h := rfl
@[simp] theorem Strand.setRing_phase (t : Strand) (k : Nat) (r : Ring) : (t.setRing k r).phase = t.phase := rfl
@[simp] theorem Strand.setRing_slot (t : Strand) (k : Nat) (r : Ring) : (t.setRing k r).slot = t.slot := rfl
@[simp] theorem Strand.setRing_ctx (t : Strand) (k : Nat) (r : Ring) : (t.setRing k r).ctx = t.ctx := rfl
@[simp] theorem Strand.setRing_index (t : Strand) (k : Nat) (r : Ring) : (t.setRing k r).index = t.index := rfl
@[simp] theorem Strand.setRing_unit (t : Strand) (k : Nat) (r : Ring) : (t.setRing k r).unit = t.unit := rfl
@[simp] theorem Strand.setRing_launch (t : Strand) (k : Nat) (r : Ring) : (t.setRing k r).launch = t.launch := rfl
@[simp] theorem Strand.setRing_unitNo (t : Strand) (k : Nat) (r : Ring) : (t.setRing k r).unitNo = t.unitNo := rfl
@[simp] theorem Strand.setRing_kernel (t : Strand) (k : Nat) (r : Ring) : (t.setRing k r).kernel = t.kernel := rfl
@[simp] theorem Strand.setRing_gi (t : Strand) (k : Nat) (r : Ring) : (t.setRing k r).gi = t.gi := rfl
@[simp] theorem Strand.setRing_gm (t : Strand) (k : Nat) (r : Ring) : (t.setRing k r).gm = t.gm := rfl
@[simp] theorem Strand.setRing_gv (t : Strand) (k : Nat) (r : Ring) : (t.setRing k r).gv = t.gv := rfl
@[simp] theorem Strand.setRing_iterbound (t : Strand) (k : Nat) (r : Ring) : (t.setRing k r).iterbound = t.iterbound := rfl
@[simp] theorem Strand.setRing_spsave (t : Strand) (k : Nat) (r : Ring) : (t.setRing k r).spsave = t.spsave := rfl
@[simp] theorem Strand.setRing_lastStage (t : Strand) (k : Nat) (r : Ring) : (t.setRing k r).lastStage = t.lastStage := rfl
@[simp] theorem Strand.setRing_a (t : Strand) (k : Nat) (r : Ring) : (t.setRing k r).a = t.a := rfl
@[simp] theorem Strand.setRing_x (t : Strand) (k : Nat) (r : Ring) : (t.setRing k r).x = t.x := rfl
@[simp] theorem Strand.setRing_v (t : Strand) (k : Nat) (r : Ring) : (t.setRing k r).v = t.v := rfl
@[simp] theorem Strand.setRing_o (t : Strand) (k : Nat) (r : Ring) : (t.setRing k r).o = t.o := rfl
@[simp] theorem Strand.setRing_l (t : Strand) (k : Nat) (r : Ring) : (t.setRing k r).l = t.l := rfl
@[simp] theorem Strand.setRing_lpos (t : Strand) (k : Nat) (r : Ring) : (t.setRing k r).lpos = t.lpos := rfl
@[simp] theorem Strand.setRing_lq (t : Strand) (k : Nat) (r : Ring) : (t.setRing k r).lq = t.lq := rfl
@[simp] theorem Strand.setRing_sq (t : Strand) (k : Nat) (r : Ring) : (t.setRing k r).sq = t.sq := rfl
@[simp] theorem Strand.setRing_vshape (t : Strand) (k : Nat) (r : Ring) : (t.setRing k r).vshape = t.vshape := rfl
@[simp] theorem Strand.setRing_ashape (t : Strand) (k : Nat) (r : Ring) : (t.setRing k r).ashape = t.ashape := rfl
@[simp] theorem Strand.setRing_fpflags (t : Strand) (k : Nat) (r : Ring) : (t.setRing k r).fpflags = t.fpflags := rfl
@[simp] theorem Strand.setRing_tstat (t : Strand) (k : Nat) (r : Ring) : (t.setRing k r).tstat = t.tstat := rfl
@[simp] theorem Strand.setRing_topk (t : Strand) (k : Nat) (r : Ring) : (t.setRing k r).topk = t.topk := rfl
@[simp] theorem Strand.setRing_topbuf (t : Strand) (k : Nat) (r : Ring) : (t.setRing k r).topbuf = t.topbuf := rfl
@[simp] theorem Strand.setRing_prog (t : Strand) (k : Nat) (r : Ring) : (t.setRing k r).prog = t.prog := rfl
@[simp] theorem Strand.setRing_pend (t : Strand) (k : Nat) (r : Ring) : (t.setRing k r).pend = t.pend := rfl
@[simp] theorem Strand.setRing_nid (t : Strand) (k : Nat) (r : Ring) : (t.setRing k r).nid = t.nid := rfl
@[simp] theorem Strand.setRing_acc (t : Strand) (k : Nat) (r : Ring) : (t.setRing k r).acc = t.acc := rfl
@[simp] theorem Strand.setRing_afences (t : Strand) (k : Nat) (r : Ring) : (t.setRing k r).afences = t.afences := rfl
@[simp] theorem Strand.setRing_sidelog (t : Strand) (k : Nat) (r : Ring) : (t.setRing k r).sidelog = t.sidelog := rfl
@[simp] theorem Strand.setRing_logFull (t : Strand) (k : Nat) (r : Ring) : (t.setRing k r).logFull = t.logFull := rfl
@[simp] theorem Strand.setRing_fr (t : Strand) (k : Nat) (r : Ring) : (t.setRing k r).fr = t.fr := rfl
@[simp] theorem Strand.setRing_slots (t : Strand) (k : Nat) (r : Ring) : (t.setRing k r).slots = t.slots := rfl
@[simp] theorem Strand.setRing_chans (t : Strand) (k : Nat) (r : Ring) : (t.setRing k r).chans = t.chans := rfl
@[simp] theorem Strand.setRing_six (t : Strand) (k : Nat) (r : Ring) : (t.setRing k r).six = t.six := rfl
@[simp] theorem Strand.setRing_eps (t : Strand) (k : Nat) (r : Ring) : (t.setRing k r).eps = t.eps := rfl
@[simp] theorem Strand.setRing_wants (t : Strand) (k : Nat) (r : Ring) : (t.setRing k r).wants = t.wants := rfl
@[simp] theorem Strand.setRing_failsVa (t : Strand) (k : Nat) (r : Ring) : (t.setRing k r).failsVa = t.failsVa := rfl
@[simp] theorem Strand.setRing_failsPa (t : Strand) (k : Nat) (r : Ring) : (t.setRing k r).failsPa = t.failsPa := rfl
@[simp] theorem Strand.setRing_ringPops (t : Strand) (k : Nat) (r : Ring) : (t.setRing k r).ringPops = t.ringPops := rfl
@[simp] theorem Strand.setRing_matIds (t : Strand) (k : Nat) (r : Ring) : (t.setRing k r).matIds = t.matIds := rfl
@[simp] theorem Strand.setRing_refusals (t : Strand) (k : Nat) (r : Ring) : (t.setRing k r).refusals = t.refusals := rfl
@[simp] theorem Strand.setRing_arrivals (t : Strand) (k : Nat) (r : Ring) : (t.setRing k r).arrivals = t.arrivals := rfl
@[simp] theorem Strand.setRing_spill (t : Strand) (k : Nat) (r : Ring) : (t.setRing k r).spill = t.spill := rfl
@[simp] theorem Strand.setRing_record (t : Strand) (k : Nat) (r : Ring) : (t.setRing k r).record = t.record := rfl
@[simp] theorem Strand.setRing_queuePushed (t : Strand) (k : Nat) (r : Ring) : (t.setRing k r).queuePushed = t.queuePushed := rfl
@[simp] theorem Strand.setRing_reported (t : Strand) (k : Nat) (r : Ring) : (t.setRing k r).reported = t.reported := rfl
@[simp] theorem Strand.setRing_withdrawn (t : Strand) (k : Nat) (r : Ring) : (t.setRing k r).withdrawn = t.withdrawn := rfl
@[simp] theorem Strand.setRing_closed (t : Strand) (k : Nat) (r : Ring) : (t.setRing k r).closed = t.closed := rfl
@[simp] theorem Strand.setRing_preempt (t : Strand) (k : Nat) (r : Ring) : (t.setRing k r).preempt = t.preempt := rfl
@[simp] theorem Strand.setRing_cancelled (t : Strand) (k : Nat) (r : Ring) : (t.setRing k r).cancelled = t.cancelled := rfl
@[simp] theorem Strand.setRing_cancelEnd (t : Strand) (k : Nat) (r : Ring) : (t.setRing k r).cancelEnd = t.cancelEnd := rfl
@[simp] theorem Strand.setRing_parked (t : Strand) (k : Nat) (r : Ring) : (t.setRing k r).parked = t.parked := rfl
@[simp] theorem Strand.setRing_parkAt (t : Strand) (k : Nat) (r : Ring) : (t.setRing k r).parkAt = t.parkAt := rfl
@[simp] theorem Strand.setRing_request (t : Strand) (k : Nat) (r : Ring) : (t.setRing k r).request = t.request := rfl
@[simp] theorem Strand.setRing_replay (t : Strand) (k : Nat) (r : Ring) : (t.setRing k r).replay = t.replay := rfl
@[simp] theorem Strand.setRing_doneTo (t : Strand) (k : Nat) (r : Ring) : (t.setRing k r).doneTo = t.doneTo := rfl
@[simp] theorem Strand.setRing_since (t : Strand) (k : Nat) (r : Ring) : (t.setRing k r).since = t.since := rfl
@[simp] theorem Strand.setRing_slice (t : Strand) (k : Nat) (r : Ring) : (t.setRing k r).slice = t.slice := rfl
@[simp] theorem Strand.setRing_core (t : Strand) (k : Nat) (r : Ring) : (t.setRing k r).core = t.core := rfl
@[simp] theorem Strand.setRing_readyAt (t : Strand) (k : Nat) (r : Ring) : (t.setRing k r).readyAt = t.readyAt := rfl
@[simp] theorem Strand.setRing_spimage (t : Strand) (k : Nat) (r : Ring) : (t.setRing k r).spimage = t.spimage := rfl
@[simp] theorem Strand.setRing_spBad (t : Strand) (k : Nat) (r : Ring) : (t.setRing k r).spBad = t.spBad := rfl

-- ## Registers and predicates put into a sequencer

@[simp] theorem Seq.putPred_regs (q : Seq) (n : Fin 8) (v : Pred) : (q.putPred n v).regs = q.regs := by unfold Seq.putPred; split <;> rfl
@[simp] theorem Seq.put_preds (q : Seq) (n : Fin 32) (v : W64) : (q.put n v).preds = q.preds := by unfold Seq.put; split <;> rfl
@[simp] theorem Seq.put_pc (q : Seq) (n : Fin 32) (v : W64) : (q.put n v).pc = q.pc := by unfold Seq.put; split <;> rfl
@[simp] theorem Seq.putPred_pc (q : Seq) (n : Fin 8) (v : Pred) : (q.putPred n v).pc = q.pc := by unfold Seq.putPred; split <;> rfl
@[simp] theorem Seq.put_loops (q : Seq) (n : Fin 32) (v : W64) : (q.put n v).loops = q.loops := by unfold Seq.put; split <;> rfl
@[simp] theorem Seq.putPred_loops (q : Seq) (n : Fin 8) (v : Pred) : (q.putPred n v).loops = q.loops := by unfold Seq.putPred; split <;> rfl
@[simp] theorem Seq.put_iters (q : Seq) (n : Fin 32) (v : W64) : (q.put n v).iters = q.iters := by unfold Seq.put; split <;> rfl
@[simp] theorem Seq.putPred_iters (q : Seq) (n : Fin 8) (v : Pred) : (q.putPred n v).iters = q.iters := by unfold Seq.putPred; split <;> rfl
@[simp] theorem Seq.put_last (q : Seq) (n : Fin 32) (v : W64) : (q.put n v).last = q.last := by unfold Seq.put; split <;> rfl
@[simp] theorem Seq.putPred_last (q : Seq) (n : Fin 8) (v : Pred) : (q.putPred n v).last = q.last := by unfold Seq.putPred; split <;> rfl
@[simp] theorem Seq.put_waitFrom (q : Seq) (n : Fin 32) (v : W64) : (q.put n v).waitFrom = q.waitFrom := by unfold Seq.put; split <;> rfl
@[simp] theorem Seq.putPred_waitFrom (q : Seq) (n : Fin 8) (v : Pred) : (q.putPred n v).waitFrom = q.waitFrom := by unfold Seq.putPred; split <;> rfl
@[simp] theorem Seq.put_tried (q : Seq) (n : Fin 32) (v : W64) : (q.put n v).tried = q.tried := by unfold Seq.put; split <;> rfl
@[simp] theorem Seq.putPred_tried (q : Seq) (n : Fin 8) (v : Pred) : (q.putPred n v).tried = q.tried := by unfold Seq.putPred; split <;> rfl
@[simp] theorem Seq.put_atGo (q : Seq) (n : Fin 32) (v : W64) : (q.put n v).atGo = q.atGo := by unfold Seq.put; split <;> rfl
@[simp] theorem Seq.putPred_atGo (q : Seq) (n : Fin 8) (v : Pred) : (q.putPred n v).atGo = q.atGo := by unfold Seq.putPred; split <;> rfl
@[simp] theorem Seq.put_started (q : Seq) (n : Fin 32) (v : W64) : (q.put n v).started = q.started := by unfold Seq.put; split <;> rfl
@[simp] theorem Seq.putPred_started (q : Seq) (n : Fin 8) (v : Pred) : (q.putPred n v).started = q.started := by unfold Seq.putPred; split <;> rfl
@[simp] theorem Seq.put_ended (q : Seq) (n : Fin 32) (v : W64) : (q.put n v).ended = q.ended := by unfold Seq.put; split <;> rfl
@[simp] theorem Seq.putPred_ended (q : Seq) (n : Fin 8) (v : Pred) : (q.putPred n v).ended = q.ended := by unfold Seq.putPred; split <;> rfl
@[simp] theorem Seq.put_trapped (q : Seq) (n : Fin 32) (v : W64) : (q.put n v).trapped = q.trapped := by unfold Seq.put; split <;> rfl
@[simp] theorem Seq.putPred_trapped (q : Seq) (n : Fin 8) (v : Pred) : (q.putPred n v).trapped = q.trapped := by unfold Seq.putPred; split <;> rfl
@[simp] theorem Seq.put_tcause (q : Seq) (n : Fin 32) (v : W64) : (q.put n v).tcause = q.tcause := by unfold Seq.put; split <;> rfl
@[simp] theorem Seq.putPred_tcause (q : Seq) (n : Fin 8) (v : Pred) : (q.putPred n v).tcause = q.tcause := by unfold Seq.putPred; split <;> rfl
@[simp] theorem Seq.put_tpc (q : Seq) (n : Fin 32) (v : W64) : (q.put n v).tpc = q.tpc := by unfold Seq.put; split <;> rfl
@[simp] theorem Seq.putPred_tpc (q : Seq) (n : Fin 8) (v : Pred) : (q.putPred n v).tpc = q.tpc := by unfold Seq.putPred; split <;> rfl
@[simp] theorem Seq.put_tval (q : Seq) (n : Fin 32) (v : W64) : (q.put n v).tval = q.tval := by unfold Seq.put; split <;> rfl
@[simp] theorem Seq.putPred_tval (q : Seq) (n : Fin 8) (v : Pred) : (q.putPred n v).tval = q.tval := by unfold Seq.putPred; split <;> rfl
@[simp] theorem Seq.put_misuse (q : Seq) (n : Fin 32) (v : W64) : (q.put n v).misuse = q.misuse := by unfold Seq.put; split <;> rfl
@[simp] theorem Seq.putPred_misuse (q : Seq) (n : Fin 8) (v : Pred) : (q.putPred n v).misuse = q.misuse := by unfold Seq.putPred; split <;> rfl
@[simp] theorem Seq.put_woken (q : Seq) (n : Fin 32) (v : W64) : (q.put n v).woken = q.woken := by unfold Seq.put; split <;> rfl
@[simp] theorem Seq.putPred_woken (q : Seq) (n : Fin 8) (v : Pred) : (q.putPred n v).woken = q.woken := by unfold Seq.putPred; split <;> rfl
@[simp] theorem Seq.put_waiting (q : Seq) (n : Fin 32) (v : W64) : (q.put n v).waiting = q.waiting := by unfold Seq.put; split <;> rfl
@[simp] theorem Seq.putPred_waiting (q : Seq) (n : Fin 8) (v : Pred) : (q.putPred n v).waiting = q.waiting := by unfold Seq.putPred; split <;> rfl
@[simp] theorem Seq.get_zero (q : Seq) : q.get 0 = 0#64 := rfl
@[simp] theorem Seq.put_zero (q : Seq) (v : W64) : q.put 0 v = q := rfl
@[simp] theorem Seq.pred_zero (q : Seq) : q.pred 0 = BitVec.allOnes 512 := rfl
@[simp] theorem Seq.putPred_zero (q : Seq) (v : Pred) : q.putPred 0 v = q := rfl

-- ## Updates of the whole state

@[simp] theorem State.setSeq_core (s : State) (q : Seq) : (s.setSeq q).core = s.core := rfl
@[simp] theorem State.setSeq_strands (s : State) (q : Seq) : (s.setSeq q).strands = s.strands := rfl
@[simp] theorem State.setSeq_cores (s : State) (q : Seq) : (s.setSeq q).cores = s.cores := rfl
@[simp] theorem State.setSeq_pkg (s : State) (q : Seq) : (s.setSeq q).pkg = s.pkg := rfl
@[simp] theorem State.setSeq_stream (s : State) (q : Seq) : (s.setSeq q).stream = s.stream := rfl
@[simp] theorem State.setSeq_ir (s : State) (q : Seq) : (s.setSeq q).ir = s.ir := rfl
@[simp] theorem State.setSeq_sched (s : State) (q : Seq) : (s.setSeq q).sched = s.sched := rfl
@[simp] theorem State.seq_setSeq (s : State) (q : Seq) : (s.setSeq q).seq = q := Strand.seq_setSeq s.strand s.stream q
@[simp] theorem State.updPkg_strand (s : State) (f : Pkg → Pkg) : (s.updPkg f).strand = s.strand := rfl
@[simp] theorem State.updPkg_core (s : State) (f : Pkg → Pkg) : (s.updPkg f).core = s.core := rfl
@[simp] theorem State.updPkg_strands (s : State) (f : Pkg → Pkg) : (s.updPkg f).strands = s.strands := rfl
@[simp] theorem State.updPkg_cores (s : State) (f : Pkg → Pkg) : (s.updPkg f).cores = s.cores := rfl
@[simp] theorem State.updPkg_stream (s : State) (f : Pkg → Pkg) : (s.updPkg f).stream = s.stream := rfl
@[simp] theorem State.updPkg_ir (s : State) (f : Pkg → Pkg) : (s.updPkg f).ir = s.ir := rfl
@[simp] theorem State.updPkg_sched (s : State) (f : Pkg → Pkg) : (s.updPkg f).sched = s.sched := rfl
@[simp] theorem State.updPkg_pkg (s : State) (f : Pkg → Pkg) : (s.updPkg f).pkg = f s.pkg := rfl
@[simp] theorem State.updCtx_strand (s : State) (slot : Nat) (f : Ctx → Ctx) : (s.updCtx slot f).strand = s.strand := rfl
@[simp] theorem State.updCtx_core (s : State) (slot : Nat) (f : Ctx → Ctx) : (s.updCtx slot f).core = s.core := rfl
@[simp] theorem State.updCtx_strands (s : State) (slot : Nat) (f : Ctx → Ctx) : (s.updCtx slot f).strands = s.strands := rfl
@[simp] theorem State.updCtx_cores (s : State) (slot : Nat) (f : Ctx → Ctx) : (s.updCtx slot f).cores = s.cores := rfl
@[simp] theorem State.updCtx_stream (s : State) (slot : Nat) (f : Ctx → Ctx) : (s.updCtx slot f).stream = s.stream := rfl
@[simp] theorem State.updCtx_ir (s : State) (slot : Nat) (f : Ctx → Ctx) : (s.updCtx slot f).ir = s.ir := rfl
@[simp] theorem State.updCtx_sched (s : State) (slot : Nat) (f : Ctx → Ctx) : (s.updCtx slot f).sched = s.sched := rfl
@[simp] theorem State.report_strand (s : State) (r : Report) : (s.report r).strand = s.strand := rfl
@[simp] theorem State.report_core (s : State) (r : Report) : (s.report r).core = s.core := rfl
@[simp] theorem State.report_strands (s : State) (r : Report) : (s.report r).strands = s.strands := rfl
@[simp] theorem State.report_cores (s : State) (r : Report) : (s.report r).cores = s.cores := rfl
@[simp] theorem State.report_stream (s : State) (r : Report) : (s.report r).stream = s.stream := rfl
@[simp] theorem State.report_ir (s : State) (r : Report) : (s.report r).ir = s.ir := rfl
@[simp] theorem State.report_sched (s : State) (r : Report) : (s.report r).sched = s.sched := rfl
@[simp] theorem State.popQ_core (s : State) (b : Bool) (q : Fin 4) : (s.popQ b q).core = s.core := rfl
@[simp] theorem State.popQ_strands (s : State) (b : Bool) (q : Fin 4) : (s.popQ b q).strands = s.strands := rfl
@[simp] theorem State.popQ_cores (s : State) (b : Bool) (q : Fin 4) : (s.popQ b q).cores = s.cores := rfl
@[simp] theorem State.popQ_pkg (s : State) (b : Bool) (q : Fin 4) : (s.popQ b q).pkg = s.pkg := rfl
@[simp] theorem State.popQ_stream (s : State) (b : Bool) (q : Fin 4) : (s.popQ b q).stream = s.stream := rfl
@[simp] theorem State.popQ_ir (s : State) (b : Bool) (q : Fin 4) : (s.popQ b q).ir = s.ir := rfl
@[simp] theorem State.popQ_sched (s : State) (b : Bool) (q : Fin 4) : (s.popQ b q).sched = s.sched := rfl
@[simp] theorem State.pushQ_core (s : State) (b : Bool) (q : Fin 4) (v : QVal) (L : Nat) : (s.pushQ b q v L).core = s.core := rfl
@[simp] theorem State.pushQ_strands (s : State) (b : Bool) (q : Fin 4) (v : QVal) (L : Nat) : (s.pushQ b q v L).strands = s.strands := rfl
@[simp] theorem State.pushQ_cores (s : State) (b : Bool) (q : Fin 4) (v : QVal) (L : Nat) : (s.pushQ b q v L).cores = s.cores := rfl
@[simp] theorem State.pushQ_pkg (s : State) (b : Bool) (q : Fin 4) (v : QVal) (L : Nat) : (s.pushQ b q v L).pkg = s.pkg := rfl
@[simp] theorem State.pushQ_stream (s : State) (b : Bool) (q : Fin 4) (v : QVal) (L : Nat) : (s.pushQ b q v L).stream = s.stream := rfl
@[simp] theorem State.pushQ_ir (s : State) (b : Bool) (q : Fin 4) (v : QVal) (L : Nat) : (s.pushQ b q v L).ir = s.ir := rfl
@[simp] theorem State.pushQ_sched (s : State) (b : Bool) (q : Fin 4) (v : QVal) (L : Nat) : (s.pushQ b q v L).sched = s.sched := rfl
@[simp] theorem State.reserveQ_core (s : State) (b : Bool) (q : Fin 4) (v : QVal) : (s.reserveQ b q v).core = s.core := rfl
@[simp] theorem State.reserveQ_strands (s : State) (b : Bool) (q : Fin 4) (v : QVal) : (s.reserveQ b q v).strands = s.strands := rfl
@[simp] theorem State.reserveQ_cores (s : State) (b : Bool) (q : Fin 4) (v : QVal) : (s.reserveQ b q v).cores = s.cores := rfl
@[simp] theorem State.reserveQ_pkg (s : State) (b : Bool) (q : Fin 4) (v : QVal) : (s.reserveQ b q v).pkg = s.pkg := rfl
@[simp] theorem State.reserveQ_stream (s : State) (b : Bool) (q : Fin 4) (v : QVal) : (s.reserveQ b q v).stream = s.stream := rfl
@[simp] theorem State.reserveQ_ir (s : State) (b : Bool) (q : Fin 4) (v : QVal) : (s.reserveQ b q v).ir = s.ir := rfl
@[simp] theorem State.reserveQ_sched (s : State) (b : Bool) (q : Fin 4) (v : QVal) : (s.reserveQ b q v).sched = s.sched := rfl
@[simp] theorem putResult_core (d : FDest) (m : Pred) (v : FVal) (L : Nat) (s : State) : (putResult d m v L s).core = s.core := by
  unfold putResult; split <;> rfl
@[simp] theorem putResult_strands (d : FDest) (m : Pred) (v : FVal) (L : Nat) (s : State) : (putResult d m v L s).strands = s.strands := by
  unfold putResult; split <;> rfl
@[simp] theorem putResult_cores (d : FDest) (m : Pred) (v : FVal) (L : Nat) (s : State) : (putResult d m v L s).cores = s.cores := by
  unfold putResult; split <;> rfl
@[simp] theorem putResult_pkg (d : FDest) (m : Pred) (v : FVal) (L : Nat) (s : State) : (putResult d m v L s).pkg = s.pkg := by
  unfold putResult; split <;> rfl
@[simp] theorem putResult_stream (d : FDest) (m : Pred) (v : FVal) (L : Nat) (s : State) : (putResult d m v L s).stream = s.stream := by
  unfold putResult; split <;> rfl
@[simp] theorem putResult_ir (d : FDest) (m : Pred) (v : FVal) (L : Nat) (s : State) : (putResult d m v L s).ir = s.ir := by
  unfold putResult; split <;> rfl
@[simp] theorem putResult_sched (d : FDest) (m : Pred) (v : FVal) (L : Nat) (s : State) : (putResult d m v L s).sched = s.sched := by
  unfold putResult; split <;> rfl
@[simp] theorem pushLast_core (v : VReg) (L : Nat) (s : State) : (pushLast v L s).core = s.core := by
  simp [pushLast]
@[simp] theorem pushLast_strands (v : VReg) (L : Nat) (s : State) : (pushLast v L s).strands = s.strands := by
  simp [pushLast]
@[simp] theorem pushLast_cores (v : VReg) (L : Nat) (s : State) : (pushLast v L s).cores = s.cores := by
  simp [pushLast]
@[simp] theorem pushLast_pkg (v : VReg) (L : Nat) (s : State) : (pushLast v L s).pkg = s.pkg := by
  simp [pushLast]
@[simp] theorem pushLast_stream (v : VReg) (L : Nat) (s : State) : (pushLast v L s).stream = s.stream := by
  simp [pushLast]
@[simp] theorem pushLast_ir (v : VReg) (L : Nat) (s : State) : (pushLast v L s).ir = s.ir := by
  simp [pushLast]
@[simp] theorem pushLast_sched (v : VReg) (L : Nat) (s : State) : (pushLast v L s).sched = s.sched := by
  simp [pushLast]
@[simp] theorem putS_core (d : SOp) (L : Nat) (v : W64) (s : State) : (putS d L v s).core = s.core := by
  cases d <;> simp [putS]
@[simp] theorem putS_strands (d : SOp) (L : Nat) (v : W64) (s : State) : (putS d L v s).strands = s.strands := by
  cases d <;> simp [putS]
@[simp] theorem putS_cores (d : SOp) (L : Nat) (v : W64) (s : State) : (putS d L v s).cores = s.cores := by
  cases d <;> simp [putS]
@[simp] theorem putS_pkg (d : SOp) (L : Nat) (v : W64) (s : State) : (putS d L v s).pkg = s.pkg := by
  cases d <;> simp [putS]
@[simp] theorem putS_stream (d : SOp) (L : Nat) (v : W64) (s : State) : (putS d L v s).stream = s.stream := by
  cases d <;> simp [putS]
@[simp] theorem putS_ir (d : SOp) (L : Nat) (v : W64) (s : State) : (putS d L v s).ir = s.ir := by
  cases d <;> simp [putS]
@[simp] theorem putS_sched (d : SOp) (L : Nat) (v : W64) (s : State) : (putS d L v s).sched = s.sched := by
  cases d <;> simp [putS]
@[simp] theorem putP_core (p : Fin 8) (v : Pred) (L : Nat) (s : State) : (putP p v L s).core = s.core := by
  simp [putP]
@[simp] theorem putP_strands (p : Fin 8) (v : Pred) (L : Nat) (s : State) : (putP p v L s).strands = s.strands := by
  simp [putP]
@[simp] theorem putP_cores (p : Fin 8) (v : Pred) (L : Nat) (s : State) : (putP p v L s).cores = s.cores := by
  simp [putP]
@[simp] theorem putP_pkg (p : Fin 8) (v : Pred) (L : Nat) (s : State) : (putP p v L s).pkg = s.pkg := by
  simp [putP]
@[simp] theorem putP_stream (p : Fin 8) (v : Pred) (L : Nat) (s : State) : (putP p v L s).stream = s.stream := by
  simp [putP]
@[simp] theorem putP_ir (p : Fin 8) (v : Pred) (L : Nat) (s : State) : (putP p v L s).ir = s.ir := by
  simp [putP]
@[simp] theorem putP_sched (p : Fin 8) (v : Pred) (L : Nat) (s : State) : (putP p v L s).sched = s.sched := by
  simp [putP]
@[simp] theorem putLink_core (d : LinkDst) (v : W64) (s : State) : (putLink d v s).core = s.core := by
  cases d <;> simp [putLink]
@[simp] theorem putLink_strands (d : LinkDst) (v : W64) (s : State) : (putLink d v s).strands = s.strands := by
  cases d <;> simp [putLink]
@[simp] theorem putLink_cores (d : LinkDst) (v : W64) (s : State) : (putLink d v s).cores = s.cores := by
  cases d <;> simp [putLink]
@[simp] theorem putLink_pkg (d : LinkDst) (v : W64) (s : State) : (putLink d v s).pkg = s.pkg := by
  cases d <;> simp [putLink]
@[simp] theorem putLink_stream (d : LinkDst) (v : W64) (s : State) : (putLink d v s).stream = s.stream := by
  cases d <;> simp [putLink]
@[simp] theorem putLink_ir (d : LinkDst) (v : W64) (s : State) : (putLink d v s).ir = s.ir := by
  cases d <;> simp [putLink]
@[simp] theorem putLink_sched (d : LinkDst) (v : W64) (s : State) : (putLink d v s).sched = s.sched := by
  cases d <;> simp [putLink]
@[simp] theorem putVsh_core (sh : BitVec 13) (d : VDst) (m : Pred) (v : VReg) (L : Nat) (s : State) : (putVsh sh d m v L s).core = s.core := by
  cases d <;> simp [putVsh]
@[simp] theorem putVsh_strands (sh : BitVec 13) (d : VDst) (m : Pred) (v : VReg) (L : Nat) (s : State) : (putVsh sh d m v L s).strands = s.strands := by
  cases d <;> simp [putVsh]
@[simp] theorem putVsh_cores (sh : BitVec 13) (d : VDst) (m : Pred) (v : VReg) (L : Nat) (s : State) : (putVsh sh d m v L s).cores = s.cores := by
  cases d <;> simp [putVsh]
@[simp] theorem putVsh_pkg (sh : BitVec 13) (d : VDst) (m : Pred) (v : VReg) (L : Nat) (s : State) : (putVsh sh d m v L s).pkg = s.pkg := by
  cases d <;> simp [putVsh]
@[simp] theorem putVsh_stream (sh : BitVec 13) (d : VDst) (m : Pred) (v : VReg) (L : Nat) (s : State) : (putVsh sh d m v L s).stream = s.stream := by
  cases d <;> simp [putVsh]
@[simp] theorem putVsh_ir (sh : BitVec 13) (d : VDst) (m : Pred) (v : VReg) (L : Nat) (s : State) : (putVsh sh d m v L s).ir = s.ir := by
  cases d <;> simp [putVsh]
@[simp] theorem putVsh_sched (sh : BitVec 13) (d : VDst) (m : Pred) (v : VReg) (L : Nat) (s : State) : (putVsh sh d m v L s).sched = s.sched := by
  cases d <;> simp [putVsh]
@[simp] theorem putV_core (d : VDst) (m : Pred) (v : VReg) (L : Nat) (s : State) : (putV d m v L s).core = s.core := by
  simp [putV]
@[simp] theorem putV_strands (d : VDst) (m : Pred) (v : VReg) (L : Nat) (s : State) : (putV d m v L s).strands = s.strands := by
  simp [putV]
@[simp] theorem putV_cores (d : VDst) (m : Pred) (v : VReg) (L : Nat) (s : State) : (putV d m v L s).cores = s.cores := by
  simp [putV]
@[simp] theorem putV_pkg (d : VDst) (m : Pred) (v : VReg) (L : Nat) (s : State) : (putV d m v L s).pkg = s.pkg := by
  simp [putV]
@[simp] theorem putV_stream (d : VDst) (m : Pred) (v : VReg) (L : Nat) (s : State) : (putV d m v L s).stream = s.stream := by
  simp [putV]
@[simp] theorem putV_ir (d : VDst) (m : Pred) (v : VReg) (L : Nat) (s : State) : (putV d m v L s).ir = s.ir := by
  simp [putV]
@[simp] theorem putV_sched (d : VDst) (m : Pred) (v : VReg) (L : Nat) (s : State) : (putV d m v L s).sched = s.sched := by
  simp [putV]
@[simp] theorem putVP_core (p : Fin 8) (m b : Pred) (L : Nat) (s : State) : (putVP p m b L s).core = s.core := by
  simp [putVP]
@[simp] theorem putVP_strands (p : Fin 8) (m b : Pred) (L : Nat) (s : State) : (putVP p m b L s).strands = s.strands := by
  simp [putVP]
@[simp] theorem putVP_cores (p : Fin 8) (m b : Pred) (L : Nat) (s : State) : (putVP p m b L s).cores = s.cores := by
  simp [putVP]
@[simp] theorem putVP_pkg (p : Fin 8) (m b : Pred) (L : Nat) (s : State) : (putVP p m b L s).pkg = s.pkg := by
  simp [putVP]
@[simp] theorem putVP_stream (p : Fin 8) (m b : Pred) (L : Nat) (s : State) : (putVP p m b L s).stream = s.stream := by
  simp [putVP]
@[simp] theorem putVP_ir (p : Fin 8) (m b : Pred) (L : Nat) (s : State) : (putVP p m b L s).ir = s.ir := by
  simp [putVP]
@[simp] theorem putVP_sched (p : Fin 8) (m b : Pred) (L : Nat) (s : State) : (putVP p m b L s).sched = s.sched := by
  simp [putVP]
@[simp] theorem putFlags_core (f : BitVec 5) (t : BitVec 3) (L : Nat) (s : State) : (putFlags f t L s).core = s.core := by
  unfold putFlags; split <;> split <;> simp
@[simp] theorem putFlags_strands (f : BitVec 5) (t : BitVec 3) (L : Nat) (s : State) : (putFlags f t L s).strands = s.strands := by
  unfold putFlags; split <;> split <;> simp
@[simp] theorem putFlags_cores (f : BitVec 5) (t : BitVec 3) (L : Nat) (s : State) : (putFlags f t L s).cores = s.cores := by
  unfold putFlags; split <;> split <;> simp
@[simp] theorem putFlags_pkg (f : BitVec 5) (t : BitVec 3) (L : Nat) (s : State) : (putFlags f t L s).pkg = s.pkg := by
  unfold putFlags; split <;> split <;> simp
@[simp] theorem putFlags_stream (f : BitVec 5) (t : BitVec 3) (L : Nat) (s : State) : (putFlags f t L s).stream = s.stream := by
  unfold putFlags; split <;> split <;> simp
@[simp] theorem putFlags_ir (f : BitVec 5) (t : BitVec 3) (L : Nat) (s : State) : (putFlags f t L s).ir = s.ir := by
  unfold putFlags; split <;> split <;> simp
@[simp] theorem putFlags_sched (f : BitVec 5) (t : BitVec 3) (L : Nat) (s : State) : (putFlags f t L s).sched = s.sched := by
  unfold putFlags; split <;> split <;> simp
@[simp] theorem addAcc_core (op : AccOp) (s : State) : (addAcc op s).core = s.core := rfl
@[simp] theorem addAcc_strands (op : AccOp) (s : State) : (addAcc op s).strands = s.strands := rfl
@[simp] theorem addAcc_cores (op : AccOp) (s : State) : (addAcc op s).cores = s.cores := rfl
@[simp] theorem addAcc_pkg (op : AccOp) (s : State) : (addAcc op s).pkg = s.pkg := rfl
@[simp] theorem addAcc_stream (op : AccOp) (s : State) : (addAcc op s).stream = s.stream := rfl
@[simp] theorem addAcc_ir (op : AccOp) (s : State) : (addAcc op s).ir = s.ir := rfl
@[simp] theorem addAcc_sched (op : AccOp) (s : State) : (addAcc op s).sched = s.sched := rfl
@[simp] theorem addLoad_core (q : Fin 4) (v : QVal) (op : Nat → AccOp) (s : State) : (addLoad q v op s).core = s.core := rfl
@[simp] theorem addLoad_strands (q : Fin 4) (v : QVal) (op : Nat → AccOp) (s : State) : (addLoad q v op s).strands = s.strands := rfl
@[simp] theorem addLoad_cores (q : Fin 4) (v : QVal) (op : Nat → AccOp) (s : State) : (addLoad q v op s).cores = s.cores := rfl
@[simp] theorem addLoad_pkg (q : Fin 4) (v : QVal) (op : Nat → AccOp) (s : State) : (addLoad q v op s).pkg = s.pkg := rfl
@[simp] theorem addLoad_stream (q : Fin 4) (v : QVal) (op : Nat → AccOp) (s : State) : (addLoad q v op s).stream = s.stream := rfl
@[simp] theorem addLoad_ir (q : Fin 4) (v : QVal) (op : Nat → AccOp) (s : State) : (addLoad q v op s).ir = s.ir := rfl
@[simp] theorem addLoad_sched (q : Fin 4) (v : QVal) (op : Nat → AccOp) (s : State) : (addLoad q v op s).sched = s.sched := rfl
@[simp] theorem reserveS_core (d : SOp) (s : State) : (reserveS d s).core = s.core := by
  cases d <;> rfl
@[simp] theorem reserveS_strands (d : SOp) (s : State) : (reserveS d s).strands = s.strands := by
  cases d <;> rfl
@[simp] theorem reserveS_cores (d : SOp) (s : State) : (reserveS d s).cores = s.cores := by
  cases d <;> rfl
@[simp] theorem reserveS_pkg (d : SOp) (s : State) : (reserveS d s).pkg = s.pkg := by
  cases d <;> rfl
@[simp] theorem reserveS_stream (d : SOp) (s : State) : (reserveS d s).stream = s.stream := by
  cases d <;> rfl
@[simp] theorem reserveS_ir (d : SOp) (s : State) : (reserveS d s).ir = s.ir := by
  cases d <;> rfl
@[simp] theorem reserveS_sched (d : SOp) (s : State) : (reserveS d s).sched = s.sched := by
  cases d <;> rfl
@[simp] theorem takeS_snd_core (o : SOp) (s : State) : ((takeS o s).2).core = s.core := by
  cases o <;> rfl
@[simp] theorem takeS_snd_strands (o : SOp) (s : State) : ((takeS o s).2).strands = s.strands := by
  cases o <;> rfl
@[simp] theorem takeS_snd_cores (o : SOp) (s : State) : ((takeS o s).2).cores = s.cores := by
  cases o <;> rfl
@[simp] theorem takeS_snd_pkg (o : SOp) (s : State) : ((takeS o s).2).pkg = s.pkg := by
  cases o <;> rfl
@[simp] theorem takeS_snd_stream (o : SOp) (s : State) : ((takeS o s).2).stream = s.stream := by
  cases o <;> rfl
@[simp] theorem takeS_snd_ir (o : SOp) (s : State) : ((takeS o s).2).ir = s.ir := by
  cases o <;> rfl
@[simp] theorem takeS_snd_sched (o : SOp) (s : State) : ((takeS o s).2).sched = s.sched := by
  cases o <;> rfl
@[simp] theorem takeV_snd_core (o : VSrc) (s : State) : ((takeV o s).2).core = s.core := by
  cases o <;> rfl
@[simp] theorem takeV_snd_strands (o : VSrc) (s : State) : ((takeV o s).2).strands = s.strands := by
  cases o <;> rfl
@[simp] theorem takeV_snd_cores (o : VSrc) (s : State) : ((takeV o s).2).cores = s.cores := by
  cases o <;> rfl
@[simp] theorem takeV_snd_pkg (o : VSrc) (s : State) : ((takeV o s).2).pkg = s.pkg := by
  cases o <;> rfl
@[simp] theorem takeV_snd_stream (o : VSrc) (s : State) : ((takeV o s).2).stream = s.stream := by
  cases o <;> rfl
@[simp] theorem takeV_snd_ir (o : VSrc) (s : State) : ((takeV o s).2).ir = s.ir := by
  cases o <;> rfl
@[simp] theorem takeV_snd_sched (o : VSrc) (s : State) : ((takeV o s).2).sched = s.sched := by
  cases o <;> rfl
@[simp] theorem takeSs_snd_core (os : List SOp) (s : State) : (takeSs os s).2.core = s.core := by
  induction os generalizing s with
  | nil => rfl
  | cons o r ih => simp [takeSs, ih]
@[simp] theorem takeVs_snd_core (os : List VSrc) (s : State) : (takeVs os s).2.core = s.core := by
  induction os generalizing s with
  | nil => rfl
  | cons o r ih => simp [takeVs, ih]
@[simp] theorem takeSs_snd_strands (os : List SOp) (s : State) : (takeSs os s).2.strands = s.strands := by
  induction os generalizing s with
  | nil => rfl
  | cons o r ih => simp [takeSs, ih]
@[simp] theorem takeVs_snd_strands (os : List VSrc) (s : State) : (takeVs os s).2.strands = s.strands := by
  induction os generalizing s with
  | nil => rfl
  | cons o r ih => simp [takeVs, ih]
@[simp] theorem takeSs_snd_cores (os : List SOp) (s : State) : (takeSs os s).2.cores = s.cores := by
  induction os generalizing s with
  | nil => rfl
  | cons o r ih => simp [takeSs, ih]
@[simp] theorem takeVs_snd_cores (os : List VSrc) (s : State) : (takeVs os s).2.cores = s.cores := by
  induction os generalizing s with
  | nil => rfl
  | cons o r ih => simp [takeVs, ih]
@[simp] theorem takeSs_snd_pkg (os : List SOp) (s : State) : (takeSs os s).2.pkg = s.pkg := by
  induction os generalizing s with
  | nil => rfl
  | cons o r ih => simp [takeSs, ih]
@[simp] theorem takeVs_snd_pkg (os : List VSrc) (s : State) : (takeVs os s).2.pkg = s.pkg := by
  induction os generalizing s with
  | nil => rfl
  | cons o r ih => simp [takeVs, ih]
@[simp] theorem takeSs_snd_stream (os : List SOp) (s : State) : (takeSs os s).2.stream = s.stream := by
  induction os generalizing s with
  | nil => rfl
  | cons o r ih => simp [takeSs, ih]
@[simp] theorem takeVs_snd_stream (os : List VSrc) (s : State) : (takeVs os s).2.stream = s.stream := by
  induction os generalizing s with
  | nil => rfl
  | cons o r ih => simp [takeVs, ih]
@[simp] theorem takeSs_snd_ir (os : List SOp) (s : State) : (takeSs os s).2.ir = s.ir := by
  induction os generalizing s with
  | nil => rfl
  | cons o r ih => simp [takeSs, ih]
@[simp] theorem takeVs_snd_ir (os : List VSrc) (s : State) : (takeVs os s).2.ir = s.ir := by
  induction os generalizing s with
  | nil => rfl
  | cons o r ih => simp [takeVs, ih]
@[simp] theorem takeSs_snd_sched (os : List SOp) (s : State) : (takeSs os s).2.sched = s.sched := by
  induction os generalizing s with
  | nil => rfl
  | cons o r ih => simp [takeSs, ih]
@[simp] theorem takeVs_snd_sched (os : List VSrc) (s : State) : (takeVs os s).2.sched = s.sched := by
  induction os generalizing s with
  | nil => rfl
  | cons o r ih => simp [takeVs, ih]

-- ## Handing an operation to the access pipeline

@[simp] theorem addAcc_strand_h (op : AccOp) (s : State) : (addAcc op s).strand.h = s.strand.h := rfl
@[simp] theorem addAcc_strand_phase (op : AccOp) (s : State) : (addAcc op s).strand.phase = s.strand.phase := rfl
@[simp] theorem addAcc_strand_slot (op : AccOp) (s : State) : (addAcc op s).strand.slot = s.strand.slot := rfl
@[simp] theorem addAcc_strand_ctx (op : AccOp) (s : State) : (addAcc op s).strand.ctx = s.strand.ctx := rfl
@[simp] theorem addAcc_strand_index (op : AccOp) (s : State) : (addAcc op s).strand.index = s.strand.index := rfl
@[simp] theorem addAcc_strand_unit (op : AccOp) (s : State) : (addAcc op s).strand.unit = s.strand.unit := rfl
@[simp] theorem addAcc_strand_launch (op : AccOp) (s : State) : (addAcc op s).strand.launch = s.strand.launch := rfl
@[simp] theorem addAcc_strand_unitNo (op : AccOp) (s : State) : (addAcc op s).strand.unitNo = s.strand.unitNo := rfl
@[simp] theorem addAcc_strand_kernel (op : AccOp) (s : State) : (addAcc op s).strand.kernel = s.strand.kernel := rfl
@[simp] theorem addAcc_strand_gi (op : AccOp) (s : State) : (addAcc op s).strand.gi = s.strand.gi := rfl
@[simp] theorem addAcc_strand_gm (op : AccOp) (s : State) : (addAcc op s).strand.gm = s.strand.gm := rfl
@[simp] theorem addAcc_strand_gv (op : AccOp) (s : State) : (addAcc op s).strand.gv = s.strand.gv := rfl
@[simp] theorem addAcc_strand_iterbound (op : AccOp) (s : State) : (addAcc op s).strand.iterbound = s.strand.iterbound := rfl
@[simp] theorem addAcc_strand_spsave (op : AccOp) (s : State) : (addAcc op s).strand.spsave = s.strand.spsave := rfl
@[simp] theorem addAcc_strand_lastStage (op : AccOp) (s : State) : (addAcc op s).strand.lastStage = s.strand.lastStage := rfl
@[simp] theorem addAcc_strand_a (op : AccOp) (s : State) : (addAcc op s).strand.a = s.strand.a := rfl
@[simp] theorem addAcc_strand_x (op : AccOp) (s : State) : (addAcc op s).strand.x = s.strand.x := rfl
@[simp] theorem addAcc_strand_v (op : AccOp) (s : State) : (addAcc op s).strand.v = s.strand.v := rfl
@[simp] theorem addAcc_strand_o (op : AccOp) (s : State) : (addAcc op s).strand.o = s.strand.o := rfl
@[simp] theorem addAcc_strand_l (op : AccOp) (s : State) : (addAcc op s).strand.l = s.strand.l := rfl
@[simp] theorem addAcc_strand_lpos (op : AccOp) (s : State) : (addAcc op s).strand.lpos = s.strand.lpos := rfl
@[simp] theorem addAcc_strand_lq (op : AccOp) (s : State) : (addAcc op s).strand.lq = s.strand.lq := rfl
@[simp] theorem addAcc_strand_sq (op : AccOp) (s : State) : (addAcc op s).strand.sq = s.strand.sq := rfl
@[simp] theorem addAcc_strand_vshape (op : AccOp) (s : State) : (addAcc op s).strand.vshape = s.strand.vshape := rfl
@[simp] theorem addAcc_strand_ashape (op : AccOp) (s : State) : (addAcc op s).strand.ashape = s.strand.ashape := rfl
@[simp] theorem addAcc_strand_fpflags (op : AccOp) (s : State) : (addAcc op s).strand.fpflags = s.strand.fpflags := rfl
@[simp] theorem addAcc_strand_tstat (op : AccOp) (s : State) : (addAcc op s).strand.tstat = s.strand.tstat := rfl
@[simp] theorem addAcc_strand_topk (op : AccOp) (s : State) : (addAcc op s).strand.topk = s.strand.topk := rfl
@[simp] theorem addAcc_strand_topbuf (op : AccOp) (s : State) : (addAcc op s).strand.topbuf = s.strand.topbuf := rfl
@[simp] theorem addAcc_strand_prog (op : AccOp) (s : State) : (addAcc op s).strand.prog = s.strand.prog := rfl
@[simp] theorem addAcc_strand_pend (op : AccOp) (s : State) : (addAcc op s).strand.pend = s.strand.pend := rfl
@[simp] theorem addAcc_strand_afences (op : AccOp) (s : State) : (addAcc op s).strand.afences = s.strand.afences := rfl
@[simp] theorem addAcc_strand_sidelog (op : AccOp) (s : State) : (addAcc op s).strand.sidelog = s.strand.sidelog := rfl
@[simp] theorem addAcc_strand_logFull (op : AccOp) (s : State) : (addAcc op s).strand.logFull = s.strand.logFull := rfl
@[simp] theorem addAcc_strand_rings (op : AccOp) (s : State) : (addAcc op s).strand.rings = s.strand.rings := rfl
@[simp] theorem addAcc_strand_fr (op : AccOp) (s : State) : (addAcc op s).strand.fr = s.strand.fr := rfl
@[simp] theorem addAcc_strand_slots (op : AccOp) (s : State) : (addAcc op s).strand.slots = s.strand.slots := rfl
@[simp] theorem addAcc_strand_chans (op : AccOp) (s : State) : (addAcc op s).strand.chans = s.strand.chans := rfl
@[simp] theorem addAcc_strand_six (op : AccOp) (s : State) : (addAcc op s).strand.six = s.strand.six := rfl
@[simp] theorem addAcc_strand_eps (op : AccOp) (s : State) : (addAcc op s).strand.eps = s.strand.eps := rfl
@[simp] theorem addAcc_strand_wants (op : AccOp) (s : State) : (addAcc op s).strand.wants = s.strand.wants := rfl
@[simp] theorem addAcc_strand_failsVa (op : AccOp) (s : State) : (addAcc op s).strand.failsVa = s.strand.failsVa := rfl
@[simp] theorem addAcc_strand_failsPa (op : AccOp) (s : State) : (addAcc op s).strand.failsPa = s.strand.failsPa := rfl
@[simp] theorem addAcc_strand_ringPops (op : AccOp) (s : State) : (addAcc op s).strand.ringPops = s.strand.ringPops := rfl
@[simp] theorem addAcc_strand_matIds (op : AccOp) (s : State) : (addAcc op s).strand.matIds = s.strand.matIds := rfl
@[simp] theorem addAcc_strand_refusals (op : AccOp) (s : State) : (addAcc op s).strand.refusals = s.strand.refusals := rfl
@[simp] theorem addAcc_strand_arrivals (op : AccOp) (s : State) : (addAcc op s).strand.arrivals = s.strand.arrivals := rfl
@[simp] theorem addAcc_strand_spill (op : AccOp) (s : State) : (addAcc op s).strand.spill = s.strand.spill := rfl
@[simp] theorem addAcc_strand_record (op : AccOp) (s : State) : (addAcc op s).strand.record = s.strand.record := rfl
@[simp] theorem addAcc_strand_queuePushed (op : AccOp) (s : State) : (addAcc op s).strand.queuePushed = s.strand.queuePushed := rfl
@[simp] theorem addAcc_strand_reported (op : AccOp) (s : State) : (addAcc op s).strand.reported = s.strand.reported := rfl
@[simp] theorem addAcc_strand_withdrawn (op : AccOp) (s : State) : (addAcc op s).strand.withdrawn = s.strand.withdrawn := rfl
@[simp] theorem addAcc_strand_closed (op : AccOp) (s : State) : (addAcc op s).strand.closed = s.strand.closed := rfl
@[simp] theorem addAcc_strand_preempt (op : AccOp) (s : State) : (addAcc op s).strand.preempt = s.strand.preempt := rfl
@[simp] theorem addAcc_strand_cancelled (op : AccOp) (s : State) : (addAcc op s).strand.cancelled = s.strand.cancelled := rfl
@[simp] theorem addAcc_strand_cancelEnd (op : AccOp) (s : State) : (addAcc op s).strand.cancelEnd = s.strand.cancelEnd := rfl
@[simp] theorem addAcc_strand_parked (op : AccOp) (s : State) : (addAcc op s).strand.parked = s.strand.parked := rfl
@[simp] theorem addAcc_strand_parkAt (op : AccOp) (s : State) : (addAcc op s).strand.parkAt = s.strand.parkAt := rfl
@[simp] theorem addAcc_strand_request (op : AccOp) (s : State) : (addAcc op s).strand.request = s.strand.request := rfl
@[simp] theorem addAcc_strand_replay (op : AccOp) (s : State) : (addAcc op s).strand.replay = s.strand.replay := rfl
@[simp] theorem addAcc_strand_doneTo (op : AccOp) (s : State) : (addAcc op s).strand.doneTo = s.strand.doneTo := rfl
@[simp] theorem addAcc_strand_since (op : AccOp) (s : State) : (addAcc op s).strand.since = s.strand.since := rfl
@[simp] theorem addAcc_strand_slice (op : AccOp) (s : State) : (addAcc op s).strand.slice = s.strand.slice := rfl
@[simp] theorem addAcc_strand_core (op : AccOp) (s : State) : (addAcc op s).strand.core = s.strand.core := rfl
@[simp] theorem addAcc_strand_readyAt (op : AccOp) (s : State) : (addAcc op s).strand.readyAt = s.strand.readyAt := rfl
@[simp] theorem addAcc_strand_spimage (op : AccOp) (s : State) : (addAcc op s).strand.spimage = s.strand.spimage := rfl
@[simp] theorem addAcc_strand_spBad (op : AccOp) (s : State) : (addAcc op s).strand.spBad = s.strand.spBad := rfl
@[simp] theorem addAcc_strand_acc (op : AccOp) (s : State) :
    (addAcc op s).strand.acc = s.strand.acc ++ [{ id := s.strand.nid, st := s.stream, op := op, sent := false, pages := [], cyc := s.cyc }] := rfl
@[simp] theorem addAcc_strand_nid (op : AccOp) (s : State) : (addAcc op s).strand.nid = s.strand.nid + 1 := rfl

end Sys2Proof.Machine
end

