-- ==== Sys2Proof/Laws/Issue.lean ====
section
/-! SUPPORT. The gate of a word and how a word ends: when every queue operand is ready the gate lets the word through, and a
word with no stop due retires as Claims.issued, Claims.branched and Claims.issuedReset say. -/

namespace Sys2Proof.Machine

open Sys2Proof.Claims

/-- An entry has nothing wrong exactly when it suits its slot (R56, R144). -/
theorem entTraps_nil {t : Strand} {p : Pop} {e : QEnt} : entTraps t p e = [] ↔ Suits t p e := by
  unfold entTraps Suits
  cases hm : e.mark <;> cases hv : e.val <;> simp
  · rename_i r c _
    cases hp : p.vec <;> cases hl : p.lq <;> simp

theorem firstTrap_nil_iff {l : List (Cause × W64)} : firstTrap l = none ↔ l = [] := by
  cases l with
  | nil => simp [firstTrap]
  | cons a r => simp only [firstTrap]; cases h : firstTrap r <;> simp; split <;> simp

/-- The gate lets a word through exactly when its queue operands are ready (R56, R94). -/
theorem gate_go_iff (pops pushes s) : gate pops pushes s = .go ↔ Ready pops pushes s := by
  unfold gate Ready
  simp only
  constructor
  · intro h
    split at h
    · cases h
    · rename_i h1
      split at h
      · cases h
      · rename_i h2
        split at h
        · cases h
        · rename_i h3
          simp only [Bool.or_eq_true, not_or, Bool.not_eq_true, List.any_eq_false, Bool.not_eq_false', List.isEmpty_iff] at h2
          obtain ⟨h2a, h2b⟩ := h2
          rw [firstTrap_nil_iff, List.flatMap_eq_nil_iff] at h3
          constructor
          · intro x hx
            have ha := h2a x hx
            have hb := h3 x hx
            cases he : x.2.1 with
            | none => simp [he] at ha
            | some e => simp [he] at ha hb; exact ⟨e, rfl, ha, entTraps_nil.1 hb⟩
          · intro p hp
            have := List.filter_eq_nil_iff.1 h2b p hp
            simpa using this
  · rintro ⟨h1, h2⟩
    have hf : (pushes.filter (fun p => decide (16 ≤ (s.strand.queue p.1 p.2).length))) = [] := by
      rw [List.filter_eq_nil_iff]; intro p hp; have := h2 p hp; simp; omega
    have hd : (popEnts s.strand pops).filter (fun e => e.2.1.isNone && pusherEnded s.strand e.1.lq) = [] := by
      rw [List.filter_eq_nil_iff]; intro x hx; obtain ⟨e, he, _⟩ := h1 x hx; simp [he]
    have ha : (popEnts s.strand pops).any (fun e => !(e.2.1.any (fun x => x.landed s.cyc))) = false := by
      rw [List.any_eq_false]; intro x hx; obtain ⟨e, he, hl, _⟩ := h1 x hx; simp [he, hl]
    simp only [hf, hd, ha, List.filter_nil, List.map_nil, List.append_nil, firstTrap]
    simp only [List.isEmpty_nil, Bool.not_true, Bool.or_false, Bool.false_eq_true, if_false]
    split
    · rename_i h
      rw [firstTrap_nil_iff.2] at h
      · cases h
      · rw [List.flatMap_eq_nil_iff]; intro x hx; obtain ⟨e, he, _, hs⟩ := h1 x hx; simp [he, entTraps_nil.2 hs]
    · rfl

theorem overBound_calm {s : State} (h : Calm s) : overBound s s.stream = false := by
  unfold overBound
  obtain ⟨h1, _⟩ := h
  simp only [Bool.and_eq_false_iff, bne_eq_false_iff_eq, decide_eq_false_iff_not, Nat.not_lt]
  rcases h1 with h | h
  · exact .inl h
  · exact .inr h

/-- A word retires when no WATCHDOG is due and its effects leave no pre-emption pending. -/
theorem retire_calm {s u : State} (h : Calm s) (hp : u.strand.preempt = s.strand.preempt) : retire s u = .next (issued s u) := by
  have h2 : u.strand.preempt = false := hp.trans h.2
  simp [retire, retireWith, overBound_calm h, h2, issued, withSeq, nextWord, Seq.retire]

theorem retireTo_calm {s u : State} {p} (h : Calm s) (hp : u.strand.preempt = s.strand.preempt) : retireTo p s u = .next (branched p s u) := by
  have h2 : u.strand.preempt = false := hp.trans h.2
  simp [retireTo, retireWith, overBound_calm h, h2, branched, withSeq, jumpTo, Seq.retire]

theorem retireReset_calm {s u : State} (h : Calm s) (hp : u.strand.preempt = s.strand.preempt) : retireReset s u = .next (issuedReset s u) := by
  have h2 : u.strand.preempt = false := hp.trans h.2
  simp [retireReset, retireWith, overBound_calm h, h2, issuedReset, withSeq, nextWord, Seq.retire]

-- No operand or result operation touches the pending pre-emption.

@[simp] theorem writeDest_preempt (d m v) (t : Strand) : (writeDest d m v t).preempt = t.preempt := by
  cases d <;> simp [writeDest] <;> split <;> simp
@[simp] theorem putResult_preempt (d m v L) (s : State) : (putResult d m v L s).strand.preempt = s.strand.preempt := by
  unfold putResult; split <;> simp
@[simp] theorem takeS_preempt (o) (s : State) : (takeS o s).2.strand.preempt = s.strand.preempt := by
  cases o <;> simp [takeS, State.popQ]
@[simp] theorem takeSs_preempt (os) (s : State) : (takeSs os s).2.strand.preempt = s.strand.preempt := by
  induction os generalizing s with
  | nil => rfl
  | cons o r ih => simp [takeSs, ih]
@[simp] theorem pushQ_preempt (b q v L) (s : State) : (s.pushQ b q v L).strand.preempt = s.strand.preempt := by
  simp [State.pushQ]
@[simp] theorem putS_preempt (d L v) (s : State) : (putS d L v s).strand.preempt = s.strand.preempt := by
  cases d <;> simp [putS]
@[simp] theorem takeV_preempt (o) (s : State) : (takeV o s).2.strand.preempt = s.strand.preempt := by
  cases o <;> simp [takeV, State.popQ]
@[simp] theorem takeVs_preempt (os) (s : State) : (takeVs os s).2.strand.preempt = s.strand.preempt := by
  induction os generalizing s with
  | nil => rfl
  | cons o r ih => simp [takeVs, ih]
@[simp] theorem pushLast_preempt (v L) (s : State) : (pushLast v L s).strand.preempt = s.strand.preempt := by
  simp [pushLast]
@[simp] theorem putVsh_preempt (sh d m v L) (s : State) : (putVsh sh d m v L s).strand.preempt = s.strand.preempt := by
  cases d <;> simp [putVsh]
@[simp] theorem putV_preempt (d m v L) (s : State) : (putV d m v L s).strand.preempt = s.strand.preempt := by
  simp [putV]
@[simp] theorem putVP_preempt (d m v L) (s : State) : (putVP d m v L s).strand.preempt = s.strand.preempt := by
  simp [putVP]
@[simp] theorem putP_preempt (d v L) (s : State) : (putP d v L s).strand.preempt = s.strand.preempt := by
  simp [putP]
@[simp] theorem putLink_preempt (d v) (s : State) : (putLink d v s).strand.preempt = s.strand.preempt := by
  cases d <;> simp [putLink]
@[simp] theorem putFlags_preempt (f t L) (s : State) : (putFlags f t L s).strand.preempt = s.strand.preempt := by
  unfold putFlags; split <;> split <;> simp

/-- With its operands ready a word answers what its body answers. -/
theorem gatedOr_ready {pops pushes s b k} (h : Ready pops pushes s) : gatedOr pops pushes s b k = k := by
  simp [gatedOr, (gate_go_iff pops pushes s).2 h]
theorem gated_ready {pops pushes s k} (h : Ready pops pushes s) : gated pops pushes s k = k := gatedOr_ready h
theorem gatedPre_ready {pre pops pushes s k} (h : Ready pops pushes s) : gatedPre pre pops pushes s k = k := gatedOr_ready h

/-- A scalar word with its operands ready and no stop due. -/
theorem scalarWord_ready {d srcs L f} {s : State} (h : Ready (srcs.flatMap sPops) (sPushes d) s) (hc : Calm s) :
    scalarWord d srcs L f s = .next (issued s (putS d L (f (vals srcs s)) (popped srcs s))) := by
  simp only [scalarWord, gated_ready h]
  exact retire_calm hc (by simp)


end Sys2Proof.Machine
end

