-- ==== Sys2Proof/Laws/Memory.lean ====
section
/-! SUPPORT. Laws of a memory as a list of cells: what a byte reads as after a write, the canonical form that every operation
keeps, and equal memories as equal data (spec/00_scope.md R2, spec/07_consistency.md R174; log 2). -/

namespace Sys2Proof.Machine

-- ## The canonical form

theorem Mem.wf_above {m : Mem} {b : Nat} (h : Mem.above b m = true) : m.wf = true := by
  cases m with
  | nil => rfl
  | cons c r => simp_all [Mem.above, Mem.wf]

theorem Mem.wf_tail {c : Host.Cell} {r : Mem} (h : Mem.wf (c :: r) = true) : Mem.above c.1 r = true ∧ c.2 ≠ 0#8 := by
  simp_all [Mem.wf]

theorem Mem.above_mono {m : Mem} {a b : Nat} (h : Mem.above b m = true) (hab : a ≤ b) : Mem.above a m = true := by
  cases m with
  | nil => rfl
  | cons c r => simp only [Mem.above, Bool.and_eq_true, decide_eq_true_eq] at h ⊢; exact ⟨⟨by omega, h.1.2⟩, h.2⟩

theorem Mem.get_above {m : Mem} {b x : Nat} (h : Mem.above b m = true) (hx : x ≤ b) : m.get x = 0#8 := by
  cases m with
  | nil => rfl
  | cons c r =>
    simp only [Mem.above, Bool.and_eq_true, decide_eq_true_eq] at h
    simp only [Mem.get]
    rw [if_neg (by omega), if_pos (by omega)]

theorem Mem.set_above {m : Mem} {a b : Nat} {v : Byte} (h : Mem.above b m = true) (hb : b < a) : Mem.above b (m.set a v) = true := by
  induction m generalizing b with
  | nil => by_cases hv : v = 0#8 <;> simp [Mem.set, Mem.above, hv, hb]
  | cons c r ih =>
    simp only [Mem.above, Bool.and_eq_true, decide_eq_true_eq] at h
    simp only [Mem.set]
    split
    · split
      · simp [Mem.above, h]
      · rename_i hac hv; simp [Mem.above, h.1.2, h.2, hb, hac, hv]
    · split
      · rename_i hac; subst hac
        split
        · exact Mem.above_mono h.2 (by omega)
        · rename_i hv; simp [Mem.above, h.2, hb, hv]
      · have := ih h.2 (show c.1 < a by omega)
        simp [Mem.above, h.1.1, h.1.2, this]

/-- A byte written keeps the canonical form. -/
theorem Mem.set_wf {m : Mem} (h : m.wf = true) (a : Nat) (v : Byte) : (m.set a v).wf = true := by
  cases m with
  | nil => by_cases hv : v = 0#8 <;> simp [Mem.set, Mem.wf, Mem.above, hv]
  | cons c r =>
    obtain ⟨h1, h2⟩ := Mem.wf_tail h
    simp only [Mem.set]
    split
    · split
      · exact h
      · rename_i hac hv; simp [Mem.wf, Mem.above, hac, hv, h1, h2]
    · split
      · rename_i hac; subst hac
        split
        · exact Mem.wf_above h1
        · rename_i hv; simp [Mem.wf, hv, h1]
      · simp [Mem.wf, h2, Mem.set_above h1 (show c.1 < a by omega)]

/-- Bytes written keep the canonical form. -/
theorem Mem.write_wf {m : Mem} (h : m.wf = true) (a : Nat) (bs : List Byte) : (m.write a bs).wf = true := by
  induction bs generalizing m a with
  | nil => exact h
  | cons b r ih => exact ih (Mem.set_wf h a b) (a + 1)

theorem Mem.filter_above {m : Mem} {b : Nat} (p : Host.Cell → Bool) (h : Mem.above b m = true) : Mem.above b (m.filter p) = true := by
  induction m generalizing b with
  | nil => rfl
  | cons c r ih =>
    simp only [Mem.above, Bool.and_eq_true, decide_eq_true_eq] at h
    simp only [List.filter_cons]
    split
    · simp only [Mem.above, Bool.and_eq_true, decide_eq_true_eq]; exact ⟨h.1, ih h.2⟩
    · exact ih (Mem.above_mono h.2 (by omega))

/-- A choice among the cells keeps the canonical form. -/
theorem Mem.filter_wf {m : Mem} (p : Host.Cell → Bool) (h : m.wf = true) : Mem.wf (m.filter p) = true := by
  cases m with
  | nil => rfl
  | cons c r =>
    obtain ⟨h1, h2⟩ := Mem.wf_tail h
    simp only [List.filter_cons]
    split
    · simp [Mem.wf, h2, Mem.filter_above p h1]
    · exact Mem.wf_above (Mem.filter_above p h1)

/-- The bytes of a scratchpad image that a stage declares (R289). -/
theorem declaredOnly_wf {m : Mem} (k : BitVec 32) (h : m.wf = true) : (declaredOnly k m).wf = true := Mem.filter_wf _ h

/-- Cells written one by one keep the canonical form (R289). -/
theorem Mem.fold_set_wf {m : Mem} (l : List Host.Cell) (h : m.wf = true) : (l.foldl (fun m b => Mem.set m b.1 b.2) m).wf = true := by
  induction l generalizing m with
  | nil => exact h
  | cons c r ih => exact ih (Mem.set_wf h c.1 c.2)

-- ## Reading after writing

/-- A byte read after a byte was written. -/
theorem Mem.get_set {m : Mem} (h : m.wf = true) (a : Nat) (v : Byte) (x : Nat) : (m.set a v).get x = if x = a then v else m.get x := by
  induction m with
  | nil => by_cases hv : v = 0#8 <;> by_cases hx : x = a <;> simp [Mem.set, Mem.get, hv, hx]
  | cons c r ih =>
    obtain ⟨h1, -⟩ := Mem.wf_tail h
    simp only [Mem.set]
    split
    · split
      · rename_i hac hv
        by_cases hx : x = a
        · subst hx; simp only [Mem.get, if_true, hv]; rw [if_neg (by omega), if_pos hac]
        · simp [hx]
      · rename_i hac hv
        by_cases hx : x = a
        · simp [Mem.get, hx]
        · by_cases hxa : x < a
          · simp only [Mem.get, hx, hxa, if_true, if_false]; rw [if_neg (by omega), if_pos (by omega)]
          · simp [Mem.get, hx, hxa]
    · split
      · rename_i hac; subst hac
        split
        · rename_i hv; subst hv
          by_cases hx : x = c.1
          · subst hx; simp [Mem.get_above h1 (Nat.le_refl _)]
          · by_cases hxa : x < c.1
            · simp [Mem.get, hx, hxa, Mem.get_above h1 (show x ≤ c.1 by omega)]
            · simp [Mem.get, hx, hxa]
        · by_cases hx : x = c.1 <;> simp [Mem.get, hx]
      · have ih := ih (Mem.wf_above h1)
        by_cases hx : x = c.1
        · subst hx; rw [if_neg (by omega)]; simp [Mem.get]
        · by_cases hxa : x < c.1
          · rw [if_neg (by omega)]; simp [Mem.get, hx, hxa]
          · simp [Mem.get, hx, hxa, ih]

/-- A byte read after bytes were written. -/
theorem Mem.get_write {m : Mem} (h : m.wf = true) (a : Nat) (bs : List Byte) (x : Nat) :
    (m.write a bs).get x = if a ≤ x ∧ x < a + bs.length then bs.getD (x - a) 0#8 else m.get x := by
  induction bs generalizing m a with
  | nil => rw [if_neg (by simp)]; rfl
  | cons b r ih =>
    simp only [Mem.write, ih (Mem.set_wf h a b), Mem.get_set h, List.length_cons]
    by_cases hx : x = a
    · subst hx; rw [if_neg (by omega), if_pos rfl, if_pos (by omega), Nat.sub_self]; rfl
    · by_cases hr : a + 1 ≤ x ∧ x < a + 1 + r.length
      · rw [if_pos hr, if_pos (by omega), show x - a = (x - (a + 1)) + 1 by omega, List.getD_cons_succ]
      · rw [if_neg hr, if_neg hx, if_neg (by omega)]

theorem Mem.read_length (m : Mem) (a n : Nat) : (m.read a n).length = n := by simp [Mem.read]

/-- The bytes read back from where they were written. -/
theorem Mem.read_write {m : Mem} (h : m.wf = true) (a : Nat) (bs : List Byte) : (m.write a bs).read a bs.length = bs := by
  apply List.ext_getElem
  · simp [Mem.read]
  · intro i h1 h2
    simp only [Mem.read, List.getElem_map, List.getElem_range, Mem.get_write h]
    rw [if_pos (by omega), Nat.add_sub_cancel_left]
    simp [List.getD, h2]

-- ## Equal memories are equal data

theorem Mem.ext_wf {m n : Mem} (hm : m.wf = true) (hn : n.wf = true) (h : ∀ x, m.get x = n.get x) : m = n := by
  induction m generalizing n with
  | nil =>
    cases n with
    | nil => rfl
    | cons d q =>
      obtain ⟨-, h2⟩ := Mem.wf_tail hn
      have := h d.1; simp [Mem.get] at this; exact absurd this.symm h2
  | cons c r ih =>
    obtain ⟨c1, c2⟩ := Mem.wf_tail hm
    cases n with
    | nil => have := h c.1; simp [Mem.get] at this; exact absurd this c2
    | cons d q =>
      obtain ⟨d1, d2⟩ := Mem.wf_tail hn
      have hcd : c.1 = d.1 := by
        rcases Nat.lt_trichotomy c.1 d.1 with hlt | heq | hlt
        · have := h c.1; rw [Mem.get, Mem.get, if_pos rfl, if_neg (by omega), if_pos hlt] at this; exact absurd this c2
        · exact heq
        · have := h d.1; rw [Mem.get, Mem.get, if_neg (by omega), if_pos hlt, if_pos rfl] at this; exact absurd this.symm d2
      have hv : c.2 = d.2 := by have := h c.1; simpa [Mem.get, hcd] using this
      have hr : r = q := by
        refine ih (Mem.wf_above c1) (Mem.wf_above d1) fun x => ?_
        by_cases hx : x ≤ c.1
        · rw [Mem.get_above c1 hx, Mem.get_above d1 (by omega)]
        · have := h x
          rw [Mem.get, Mem.get, if_neg (by omega), if_neg (by omega), if_neg (by omega), if_neg (by omega)] at this
          exact this
      rw [hr, show c = d from Prod.ext hcd hv]

-- ## Bytes of a number (R2)

@[simp] theorem leBytes_length (k v : Nat) : (leBytes k v).length = k := by
  induction k generalizing v with
  | zero => rfl
  | succ k ih => simp [leBytes, ih]

-- ## The memories of the reset state

theorem reset_mem_wf : State.reset.pkg.mem.wf = true := rfl
theorem reset_scratch : State.reset.core.scratch = [] := rfl

end Sys2Proof.Machine
end

