-- ==== Sys2Proof/Laws/Objects.lean ====
section
/-! SUPPORT. Finding and changing the objects of the machine: tables, contexts, cores and strands by number, an operation on
the strand in the foreground, and what landing results keeps of a strand. -/

namespace Sys2Proof.Machine

/-- A search in a list whose elements are changed without changing what the search looks at. -/
theorem find_map {α} (l : List α) (p : α → Bool) (f : α → α) (hp : ∀ x, p (f x) = p x) : (l.map f).find? p = (l.find? p).map f := by
  induction l with
  | nil => rfl
  | cons a r ih => simp only [List.map_cons, List.find?_cons, hp]; cases p a <;> simp [ih]

/-- A fold whose step changes nothing. -/
theorem foldl_id {α β} (u : β) (f : β → α → β) (h : ∀ k, f u k = u) (l : List α) : l.foldl f u = u := by
  induction l with
  | nil => rfl
  | cons a r ih => rw [List.foldl_cons, h]; exact ih

/-- A table holds what has been set. -/
theorem tget_tset {α} (l : List (Nat × α)) (k : Nat) (v : α) : tget (tset l k v) k = some v := by
  induction l with
  | nil => simp [tset, tget]
  | cons e r ih =>
    unfold tset; split
    · simp [tget]
    · split
      · simp [tget]
      · unfold tget at *; rename_i h1 h2; simp only [List.find?_cons]
        have : (e.1 == k) = false := by simpa using fun h => h2 h.symm
        simp only [this]; simpa using ih

/-- A strand put among others is found by its handle. -/
theorem find_putStrand (l : List Strand) (t : Strand) (h : ∀ u ∈ l, u.h ≠ t.h) : (putStrand t l).find? (fun u => u.h == t.h) = some t := by
  induction l with
  | nil => simp [putStrand]
  | cons a r ih =>
    unfold putStrand; split
    · simp
    · have := h a (by simp); simp only [List.find?_cons]
      have e : (a.h == t.h) = false := by simpa using this
      rw [e]; exact ih (fun u hu => h u (by simp [hu]))

/-- A context changed is found changed. -/
theorem ctxAt_upd (s : State) (slot : Nat) (f : Ctx → Ctx) (hf : ∀ c, (f c).slot = c.slot) : (s.updCtx slot f).ctxAt slot = (s.ctxAt slot).map f := by
  unfold State.ctxAt State.updCtx State.updPkg
  dsimp only
  rw [find_map]
  · cases h : s.pkg.ctxs.find? (fun c => c.slot == slot) with
    | none => rfl
    | some c => have := List.find?_some h; simp at this; simp [this]
  · intro x; split <;> simp [hf]

/-- A context found is that of its slot. -/
theorem ctxAt_slot {s : State} {slot c} (h : s.ctxAt slot = some c) : c.slot = slot := by
  have := List.find?_some h; simpa using this

/-- A core changed is found changed. -/
theorem findCore_upd (s : State) (n : Nat) (f : Core → Core) (k : Core) (hk : s.findCore n = some k) (hf : ∀ c, (f c).num = c.num) : (s.updCore n f).findCore n = some (f k) := by
  unfold State.findCore State.updCore State.allCores at *
  split
  · rename_i e; simp only [List.find?_cons, e, hf, BEq.rfl] at hk ⊢; simpa using congrArg f (Option.some.inj hk)
  · rename_i e
    have : (s.core.num == n) = false := by simpa using e
    simp only [List.find?_cons, this] at hk ⊢
    rw [find_map _ _ _ (by intro x; split <;> simp [hf]), hk]
    have := List.find?_some hk; simp at this; simp [this]

/-- The core in the foreground is found. -/
theorem findCore_self (s : State) : s.findCore s.core.num = some s.core := by simp [State.findCore, State.allCores]

/-- A strand changed is found changed. -/
theorem findStrand_upd (s : State) (h : Nat) (f : Strand → Strand) (t : Strand) (ht : s.findStrand h = some t) (hf : ∀ c, (f c).h = c.h) : (s.updStrand h f).findStrand h = some (f t) := by
  unfold State.findStrand State.updStrand State.allStrands at *
  split at ht
  · simp at ht
  · rename_i h0; simp only [if_neg h0]
    split
    · rename_i e; simp only [List.find?_cons, e, hf, BEq.rfl] at ht ⊢; simpa using congrArg f (Option.some.inj ht)
    · rename_i e
      have : (s.strand.h == h) = false := by simpa using e
      simp only [List.find?_cons, this] at ht ⊢
      rw [find_map _ _ _ (by intro x; split <;> simp [hf]), ht]
      have := List.find?_some ht; simp at this; simp [this]

/-- A change of a core changes no strand. -/
theorem findStrand_updCore (s : State) (n f h) : (s.updCore n f).findStrand h = s.findStrand h := by unfold State.updCore; split <;> rfl

/-- The strand in the foreground is found. -/
theorem findStrand_fronted {s : State} (h : s.strand.h ≠ 0) : s.findStrand s.strand.h = some s.strand := by
  simp [State.findStrand, h, State.allStrands]

/-- Bringing the foreground core to the foreground changes nothing. -/
theorem focusCore_self (s : State) : s.focusCore s.core.num = s := by simp [State.focusCore]

/-- Bringing the foreground strand to the foreground changes nothing. -/
theorem focusStrand_self (s : State) : s.focusStrand s.strand.h = s := by simp [State.focusStrand]

/-- An operation on the strand in the foreground, on its core, is the operation itself. -/
theorem onStrand_fronted {s : State} (h : s.strand.h ≠ 0) (hn : s.strand.core = s.core.num) {f : State → State} (hc : (f s).core.num = s.core.num) (hh : (f s).strand.h = s.strand.h) :
    s.onStrand s.strand.h f = f s := by
  unfold State.onStrand
  rw [findStrand_fronted h]
  simp only [hn, focusCore_self, focusStrand_self]
  rw [← hc, focusCore_self, ← hh, focusStrand_self]

/-- What a result written keeps of a strand. -/
theorem writeDest_keeps (d : FDest) (m v) (t : Strand) : (writeDest d m v t).a.trapped = t.a.trapped ∧ (writeDest d m v t).x.trapped = t.x.trapped ∧
    (writeDest d m v t).a.pc = t.a.pc ∧ (writeDest d m v t).h = t.h ∧ (writeDest d m v t).slot = t.slot ∧ (writeDest d m v t).core = t.core ∧ (writeDest d m v t).spsave = t.spsave ∧
    (writeDest d m v t).launch = t.launch ∧ (writeDest d m v t).parked = t.parked ∧ (writeDest d m v t).since = t.since := by
  cases d with
  | scal st n => cases st <;> simp only [writeDest] <;> split <;> simp [Strand.setSeq, Strand.seq, Seq.put] <;> split <;> simp
  | pred st n => cases st <;> simp [writeDest, Strand.setSeq, Strand.seq, Seq.putPred] <;> split <;> simp
  | _ => simp [writeDest]

/-- What a result that lands keeps of a strand. -/
theorem landAt_keeps (n m) (t : Strand) : (landAt n m t).a.trapped = t.a.trapped ∧ (landAt n m t).x.trapped = t.x.trapped ∧ (landAt n m t).a.pc = t.a.pc ∧ (landAt n m t).h = t.h ∧
    (landAt n m t).slot = t.slot ∧ (landAt n m t).core = t.core ∧ (landAt n m t).spsave = t.spsave ∧ (landAt n m t).launch = t.launch ∧ (landAt n m t).parked = t.parked ∧
    (landAt n m t).since = t.since := by
  unfold landAt; split
  · simp
  · exact writeDest_keeps _ _ _ t

/-- What results whose windows end keep of a strand. -/
theorem settleFrom_keeps (c fuel) : ∀ (n) (t : Strand), (settleFrom c fuel n t).a.trapped = t.a.trapped ∧ (settleFrom c fuel n t).x.trapped = t.x.trapped ∧ (settleFrom c fuel n t).a.pc = t.a.pc ∧
    (settleFrom c fuel n t).h = t.h ∧ (settleFrom c fuel n t).slot = t.slot ∧ (settleFrom c fuel n t).core = t.core ∧ (settleFrom c fuel n t).spsave = t.spsave ∧
    (settleFrom c fuel n t).launch = t.launch ∧ (settleFrom c fuel n t).parked = t.parked ∧ (settleFrom c fuel n t).since = t.since := by
  induction fuel with
  | zero => intro n t; simp [settleFrom]
  | succ k ih =>
    intro n t; unfold settleFrom; split
    · simp
    · split
      · have h1 := ih (n - (t.pend.length - (landAt n (BitVec.allOnes 512) t).pend.length - 1)) (landAt n (BitVec.allOnes 512) t)
        have h2 := landAt_keeps n (BitVec.allOnes 512) t
        simp only [h2] at h1; exact h1
      · exact ih _ _

/-- What landing every result keeps of a strand. -/
theorem landAll_keeps (c) (t : Strand) : (landAll c t).a.trapped = t.a.trapped ∧ (landAll c t).x.trapped = t.x.trapped ∧ (landAll c t).a.pc = t.a.pc ∧ (landAll c t).h = t.h ∧
    (landAll c t).slot = t.slot ∧ (landAll c t).core = t.core ∧ (landAll c t).spsave = t.spsave ∧ (landAll c t).launch = t.launch ∧ (landAll c t).parked = t.parked ∧
    (landAll c t).since = t.since := by
  have := settleFrom_keeps c (t.pend.map (fun f => if f.due.isSome then { f with due := some 0 } else f)).length 0
    { t with pend := t.pend.map (fun f => if f.due.isSome then { f with due := some 0 } else f) }
  exact this

end Sys2Proof.Machine
end

