-- ==== Sys2Proof/Laws/PerInstr.lean ====
section
/-! SUPPORT. One lemma for each constructor of Instr: the family Encoded (spec/03_core.md R57). -/

namespace Sys2Proof.Laws.Encoded

/-- A word of the opcode table has an encoding, an event of the package has none. -/
def Statement (i : Instr) : Prop := (encodeOp i).isSome = !i.isEvent

theorem nop : Statement (.nop) := rfl
theorem go : Statement (.go) := rfl
theorem br (off) : Statement (.br off) := rfl
theorem call (d) (off) : Statement (.call d off) := rfl
theorem jmp (d) (s1) : Statement (.jmp d s1) := rfl
theorem loop (c) (body) : Statement (.loop c body) := rfl
theorem breakl : Statement (.breakl) := rfl
theorem lidx (d) (n) (rem) : Statement (.lidx d n rem) := rfl
theorem trap (imm) : Statement (.trap imm) := rfl
theorem end_ : Statement (.end_) := rfl
theorem yield : Statement (.yield) := rfl
theorem rds (d) (n) : Statement (.rds d n) := rfl
theorem wrs (n) (s1) : Statement (.wrs n s1) := rfl
theorem cpoint : Statement (.cpoint) := rfl
theorem add (d) (s1) (s2) : Statement (.add d s1 s2) := rfl
theorem sub (d) (s1) (s2) : Statement (.sub d s1 s2) := rfl
theorem addi (d) (s1) (imm) : Statement (.addi d s1 imm) := rfl
theorem mul (d) (s1) (s2) : Statement (.mul d s1 s2) := rfl
theorem mulh (u) (d) (s1) (s2) : Statement (.mulh u d s1 s2) := rfl
theorem div (u) (d) (s1) (s2) : Statement (.div u d s1 s2) := rfl
theorem rem (u) (d) (s1) (s2) : Statement (.rem u d s1 s2) := rfl
theorem and (d) (s1) (s2) : Statement (.and d s1 s2) := rfl
theorem or (d) (s1) (s2) : Statement (.or d s1 s2) := rfl
theorem xor (d) (s1) (s2) : Statement (.xor d s1 s2) := rfl
theorem andi (d) (s1) (imm) : Statement (.andi d s1 imm) := rfl
theorem ori (d) (s1) (imm) : Statement (.ori d s1 imm) := rfl
theorem xori (d) (s1) (imm) : Statement (.xori d s1 imm) := rfl
theorem shl (d) (s1) (s2) : Statement (.shl d s1 s2) := rfl
theorem shr (d) (s1) (s2) : Statement (.shr d s1 s2) := rfl
theorem sha (d) (s1) (s2) : Statement (.sha d s1 s2) := rfl
theorem limm (d) (imm) : Statement (.limm d imm) := rfl
theorem lhi (d) (s1) (value) (sel) : Statement (.lhi d s1 value sel) := rfl
theorem min (u) (d) (s1) (s2) : Statement (.min u d s1 s2) := rfl
theorem max (u) (d) (s1) (s2) : Statement (.max u d s1 s2) := rfl
theorem clz (d) (s1) : Statement (.clz d s1) := rfl
theorem popc (d) (s1) : Statement (.popc d s1) := rfl
theorem sel (d) (s1) (s2) (p) : Statement (.sel d s1 s2 p) := rfl
theorem mad (d) (s1) (s2) (s3) : Statement (.mad d s1 s2 s3) := rfl
theorem cmp (c) (p) (s1) (s2) : Statement (.cmp c p s1 s2) := rfl
theorem cmpi (c) (p) (s1) (imm) : Statement (.cmpi c p s1 imm) := rfl
theorem mov (d) (s1) : Statement (.mov d s1) := rfl
theorem bfx (sx) (d) (s1) (pos) (w1) : Statement (.bfx sx d s1 pos w1) := rfl
theorem bfi (d) (s1) (s2) (pos) (w1) : Statement (.bfi d s1 s2 pos w1) := rfl
theorem pand (pd) (ps1) (ps2) : Statement (.pand pd ps1 ps2) := rfl
theorem por (pd) (ps1) (ps2) : Statement (.por pd ps1 ps2) := rfl
theorem pxor (pd) (ps1) (ps2) : Statement (.pxor pd ps1 ps2) := rfl
theorem pnot (pd) (ps1) : Statement (.pnot pd ps1) := rfl
theorem pset (pd) (s1) (imm) : Statement (.pset pd s1 imm) := rfl
theorem pany (pd) (ps1) : Statement (.pany pd ps1) := rfl
theorem pcnt (d) (ps1) : Statement (.pcnt d ps1) := rfl
theorem pfirst (d) (ps1) : Statement (.pfirst d ps1) := rfl
theorem vadd (d) (s1) (s2) (m) : Statement (.vadd d s1 s2 m) := rfl
theorem vsub (d) (s1) (s2) (m) : Statement (.vsub d s1 s2 m) := rfl
theorem vmul (d) (s1) (s2) (m) : Statement (.vmul d s1 s2 m) := rfl
theorem vfma (d) (s1) (s2) (s3) (m) : Statement (.vfma d s1 s2 s3 m) := rfl
theorem vfms (d) (s1) (s2) (s3) (m) : Statement (.vfms d s1 s2 s3 m) := rfl
theorem vmin (d) (s1) (s2) (t) : Statement (.vmin d s1 s2 t) := rfl
theorem vmax (d) (s1) (s2) (t) : Statement (.vmax d s1 s2 t) := rfl
theorem vabs (d) (s1) (t) (sat) : Statement (.vabs d s1 t sat) := rfl
theorem vneg (d) (s1) (t) (sat) : Statement (.vneg d s1 t sat) := rfl
theorem vcmp (pd) (s1) (s2) (c) (t) : Statement (.vcmp pd s1 s2 c t) := rfl
theorem vsel (d) (s1) (s2) (p) : Statement (.vsel d s1 s2 p) := rfl
theorem vand (d) (s1) (s2) : Statement (.vand d s1 s2) := rfl
theorem vor (d) (s1) (s2) : Statement (.vor d s1 s2) := rfl
theorem vxor (d) (s1) (s2) : Statement (.vxor d s1 s2) := rfl
theorem vshl (d) (s1) (s2) (t) (sat) : Statement (.vshl d s1 s2 t sat) := rfl
theorem vshr (u) (d) (s1) (s2) (t) (rnd) : Statement (.vshr u d s1 s2 t rnd) := rfl
theorem vcvt (d) (s1) (src) (part) (m) : Statement (.vcvt d s1 src part m) := rfl
theorem vbcast (d) (s1) (t) : Statement (.vbcast d s1 t) := rfl
theorem viota (d) (s1) (s2) (t) (sat) : Statement (.viota d s1 s2 t sat) := rfl
theorem vmov (d) (s1) : Statement (.vmov d s1) := rfl
theorem vshape (rows) (cols) : Statement (.vshape rows cols) := rfl
theorem vtrn (d) (s1) : Statement (.vtrn d s1) := rfl
theorem vrot (row) (d) (s1) (s2) : Statement (.vrot row d s1 s2) := rfl
theorem vred (op) (d) (s1) (m) : Statement (.vred op d s1 m) := rfl
theorem vscan (op) (d) (s1) (m) : Statement (.vscan op d s1 m) := rfl
theorem vdot (d) (s1) (s2) (s3) (m) : Statement (.vdot d s1 s2 s3 m) := rfl
theorem vperm (d) (s1) (s2) : Statement (.vperm d s1 s2) := rfl
theorem vins (d) (s1) (s2) (s3) : Statement (.vins d s1 s2 s3) := rfl
theorem vext (d) (s1) (s2) : Statement (.vext d s1 s2) := rfl
theorem vclass (d) (s1) (t) : Statement (.vclass d s1 t) := rfl
theorem vscale (d) (s1) (s2) (m) : Statement (.vscale d s1 s2 m) := rfl
theorem vtf (d) (s1) (conv) (part) (rnd) : Statement (.vtf d s1 conv part rnd) := rfl
theorem vtcmp (pd) (s1) (s2) (c) (t) : Statement (.vtcmp pd s1 s2 c t) := rfl
theorem vfb4d (d) (s1) (part) (m) : Statement (.vfb4d d s1 part m) := rfl
theorem vfb4e (d) (s1) (part) (t) (rnd) : Statement (.vfb4e d s1 part t rnd) := rfl
theorem vtrit (d) (s1) (part) : Statement (.vtrit d s1 part) := rfl
theorem vtdot (d) (s1) (s2) (s3) (sat) : Statement (.vtdot d s1 s2 s3 sat) := rfl
theorem fexp (d) (s1) (t) (sat) : Statement (.fexp d s1 t sat) := rfl
theorem flog (d) (s1) (t) (sat) : Statement (.flog d s1 t sat) := rfl
theorem frcp (d) (s1) (t) (sat) : Statement (.frcp d s1 t sat) := rfl
theorem frsq (d) (s1) (t) (sat) : Statement (.frsq d s1 t sat) := rfl
theorem fsqrt (d) (s1) (m) : Statement (.fsqrt d s1 m) := rfl
theorem fdiv (d) (s1) (s2) (m) : Statement (.fdiv d s1 s2 m) := rfl
theorem ftanh (d) (s1) (t) (sat) : Statement (.ftanh d s1 t sat) := rfl
theorem fsig (d) (s1) (t) (sat) : Statement (.fsig d s1 t sat) := rfl
theorem fexpq (d) (s1) (s2) (part) : Statement (.fexpq d s1 s2 part) := rfl
theorem vtopk (idx) (d) (s1) (k) (t) : Statement (.vtopk idx d s1 k t) := rfl
theorem vtopkm (pd) (s1) (k) (t) : Statement (.vtopkm pd s1 k t) := rfl
theorem vargmx (d) (s1) (t) : Statement (.vargmx d s1 t) := rfl
theorem topks (s1) : Statement (.topks s1) := rfl
theorem topkd (d) (sel) : Statement (.topkd d sel) := rfl
theorem ld (t) (d) (base) (off) : Statement (.ld t d base off) := rfl
theorem ldv (d) (base) (stride) : Statement (.ldv d base stride) := rfl
theorem st (t) (data) (base) (off) : Statement (.st t data base off) := rfl
theorem stv (base) (stride) (data) : Statement (.stv base stride data) := rfl
theorem lda (t) (scope) (d) (base) (off) : Statement (.lda t scope d base off) := rfl
theorem ldg (d) (base) : Statement (.ldg d base) := rfl
theorem pref (base) (off) : Statement (.pref base off) := rfl
theorem mark : Statement (.mark) := rfl
theorem aadd (w) (d) (addr) (s2) : Statement (.aadd w d addr s2) := rfl
theorem amin (u) (w) (d) (addr) (s2) : Statement (.amin u w d addr s2) := rfl
theorem amax (u) (w) (d) (addr) (s2) : Statement (.amax u w d addr s2) := rfl
theorem aor (w) (d) (addr) (s2) : Statement (.aor w d addr s2) := rfl
theorem axch (w) (d) (addr) (s2) : Statement (.axch w d addr s2) := rfl
theorem acas (w) (d) (addr) (s2) (s3) : Statement (.acas w d addr s2 s3) := rfl
theorem afadd (d) (addr) (s2) : Statement (.afadd d addr s2) := rfl
theorem sixcfg (meta_) (cfg) : Statement (.sixcfg meta_ cfg) := rfl
theorem fence (kind) (scope) (stor) : Statement (.fence kind scope stor) := rfl
theorem afence : Statement (.afence) := rfl
theorem pfence (from_) (to_) (stor) (scope) : Statement (.pfence from_ to_ stor scope) := rfl
theorem drain (path) (stor) : Statement (.drain path stor) := rfl
theorem cflush (mem) (base) (len) : Statement (.cflush mem base len) := rfl
theorem cinv (base) (len) : Statement (.cinv base len) := rfl
theorem tlbinv (base) (len) (scope) : Statement (.tlbinv base len scope) := rfl
theorem ringcfg (k) (img) : Statement (.ringcfg k img) := rfl
theorem cpy (d) (src) (dst) (len) : Statement (.cpy d src dst len) := rfl
theorem cpyRing (d) (src) (len) (k) : Statement (.cpyRing d src len k) := rfl
theorem chain (ch) (head) : Statement (.chain ch head) := rfl
theorem cwait (d) (slot) (mlo) (mhi) : Statement (.cwait d slot mlo mhi) := rfl
theorem ctest (d) (slot) (chunk) : Statement (.ctest d slot chunk) := rfl
theorem rstat (d) (k) (sel) : Statement (.rstat d k sel) := rfl
theorem rpop (k) (n) : Statement (.rpop k n) := rfl
theorem bfmt (fr) (fmt) : Statement (.bfmt fr fmt) := rfl
theorem mma (acc) (ka) (kb) (keepA) (keepB) (m) : Statement (.mma acc ka kb keepA keepB m) := rfl
theorem mmaz (acc) (ka) (kb) (keepA) (keepB) (m) : Statement (.mmaz acc ka kb keepA keepB m) := rfl
theorem mzero (acc) : Statement (.mzero acc) := rfl
theorem mldacc (acc) (k) (keep) (m) : Statement (.mldacc acc k keep m) := rfl
theorem mstacc (k) (acc) (free) (m) : Statement (.mstacc k acc free m) := rfl
theorem mdadd (acc) (peer) (free) (m) : Statement (.mdadd acc peer free m) := rfl
theorem mwait (d) (sel) : Statement (.mwait d sel) := rfl
theorem task (rec) (slot) : Statement (.task rec slot) := rfl
theorem mprog (d) (n) (stop) : Statement (.mprog d n stop) := rfl
theorem evsig (name) (scope) : Statement (.evsig name scope) := rfl
theorem evwait (name) (scope) : Statement (.evwait name scope) := rfl
theorem evtest (d) (name) : Statement (.evtest d name) := rfl
theorem evclr (name) : Statement (.evclr name) := rfl
theorem barinit (bar) (cnt) : Statement (.barinit bar cnt) := rfl
theorem bararr (d) (bar) (scope) : Statement (.bararr d bar scope) := rfl
theorem barexp (bar) (slot) : Statement (.barexp bar slot) := rfl
theorem barwait (d) (bar) (ph) (scope) : Statement (.barwait d bar ph scope) := rfl
theorem launch (d) (rec) (q) : Statement (.launch d rec q) := rfl
theorem cancel (d) (tgt) (level) : Statement (.cancel d tgt level) := rfl
theorem gcnt (d) (tgt) (level) : Statement (.gcnt d tgt level) := rfl
theorem qpush (val) : Statement (.qpush val) := rfl
theorem qpop (d) (pd) : Statement (.qpop d pd) := rfl
theorem qclose : Statement (.qclose) := rfl
theorem graft (d) (src) (dst) : Statement (.graft d src dst) := rfl
theorem kvwalk (d) (page) : Statement (.kvwalk d page) := rfl
theorem kvseal (d) (page) : Statement (.kvseal d page) := rfl
theorem kvcompact (d) (rec) : Statement (.kvcompact d rec) := rfl
theorem ballot (d) (whorl) (hash) : Statement (.ballot d whorl hash) := rfl
theorem whorlOpen (d) (rec) : Statement (.whorlOpen d rec) := rfl
theorem whorlClose (d) (rec) : Statement (.whorlClose d rec) := rfl
theorem whorlRing (d) (rec) : Statement (.whorlRing d rec) := rfl
theorem whorlUnring (d) (rec) : Statement (.whorlUnring d rec) := rfl
theorem reshard (d) (rec) : Statement (.reshard d rec) := rfl
theorem migrAdmit (d) (rec) : Statement (.migrAdmit d rec) := rfl
theorem migrHand (d) (rec) : Statement (.migrHand d rec) := rfl
theorem migrDone (d) (rec) : Statement (.migrDone d rec) := rfl
theorem migrCancel (d) (rec) : Statement (.migrCancel d rec) := rfl
theorem beamix (d) (tbl) (perm) : Statement (.beamix d tbl perm) := rfl
theorem loadEntryLands (h) (k) (err) : Statement (.loadEntryLands h k err) := rfl
theorem sideLogReplay (h) : Statement (.sideLogReplay h) := rfl
theorem updateLineMerge (core) (line) : Statement (.updateLineMerge core line) := rfl
theorem copyChunkLands (h) (slot) (chunk) (kind) : Statement (.copyChunkLands h slot chunk kind) := rfl
theorem chainRecordComplete (h) (ch) : Statement (.chainRecordComplete h ch) := rfl
theorem cmuWordStart (core) : Statement (.cmuWordStart core) := rfl
theorem mdaddArrival (n) : Statement (.mdaddArrival n) := rfl
theorem taskRecordRead (n) : Statement (.taskRecordRead n) := rfl
theorem taskUnitDispatch (t) (array) : Statement (.taskUnitDispatch t array) := rfl
theorem bankLoadComplete (array) (ok) : Statement (.bankLoadComplete array ok) := rfl
theorem taskUnitComplete (t) (unit) (kind) : Statement (.taskUnitComplete t unit kind) := rfl
theorem eventTableOperation (h) (k) : Statement (.eventTableOperation h k) := rfl
theorem eventOverflowServe (ctx) (name) : Statement (.eventOverflowServe ctx name) := rfl
theorem barrierCycle (die) (index) : Statement (.barrierCycle die index) := rfl
theorem launchRecordAccept (n) : Statement (.launchRecordAccept n) := rfl
theorem launchCreditGrant (core) (ctx) : Statement (.launchCreditGrant core ctx) := rfl
theorem coreFreeDispatch (core) (handle) : Statement (.coreFreeDispatch core handle) := rfl
theorem ageingLimitExpiry (slot) (q) : Statement (.ageingLimitExpiry slot q) := rfl
theorem stageStrandOffer (slot) (launch) (stage) (handle) : Statement (.stageStrandOffer slot launch stage handle) := rfl
theorem strandComplete (h) : Statement (.strandComplete h) := rfl
theorem timeSliceExpiry (h) : Statement (.timeSliceExpiry h) := rfl
theorem parkThresholdExpiry (h) : Statement (.parkThresholdExpiry h) := rfl
theorem preemptionSave (h) : Statement (.preemptionSave h) := rfl
theorem strandResume (h) (core) (zero) : Statement (.strandResume h core zero) := rfl
theorem strandSuspend (h) : Statement (.strandSuspend h) := rfl
theorem accfirstService (h) : Statement (.accfirstService h) := rfl
theorem watchdog (st) : Statement (.watchdog st) := rfl
theorem icacheLineFill (core) (line) : Statement (.icacheLineFill core line) := rfl
theorem icacheError (core) (line) (kind) : Statement (.icacheError core line kind) := rfl
theorem hostDoorbell (recs) : Statement (.hostDoorbell recs) := rfl
theorem load (r) : Statement (.load r) := rfl
theorem unload (r) : Statement (.unload r) := rfl
theorem pause (r) : Statement (.pause r) := rfl
theorem resume (r) : Statement (.resume r) := rfl
theorem destroy (r) : Statement (.destroy r) := rfl
theorem shootdown (r) : Statement (.shootdown r) := rfl
theorem shard (r) : Statement (.shard r) := rfl
theorem create (r) (slot) (num) (key) (rec) : Statement (.create r slot num key rec) := rfl
theorem mode (r) : Statement (.mode r) := rfl
theorem numamodeWrite (v) : Statement (.numamodeWrite v) := rfl
theorem lock (v) : Statement (.lock v) := rfl
theorem registerWrite (addr) (v) : Statement (.registerWrite addr v) := rfl
theorem queueEnable (slot) (q) : Statement (.queueEnable slot q) := rfl
theorem queuePause (slot) (q) : Statement (.queuePause slot q) := rfl
theorem queueDisable (slot) (q) : Statement (.queueDisable slot q) := rfl
theorem pageWalk (h) (va) : Statement (.pageWalk h va) := rfl
theorem firmwareMapAnswer (n) (map) : Statement (.firmwareMapAnswer n map) := rfl
theorem shootdownAck (n) (pkg) : Statement (.shootdownAck n pkg) := rfl
theorem promote (slot) (va) (target) : Statement (.promote slot va target) := rfl
theorem evict (slot) (va) : Statement (.evict slot va) := rfl
theorem move (slot) (va) (target) : Statement (.move slot va target) := rfl
theorem release (slot) (va) : Statement (.release slot va) := rfl
theorem clean (slot) (va) : Statement (.clean slot va) := rfl
theorem migrationLineCopied (frame) (err) : Statement (.migrationLineCopied frame err) := rfl
theorem forwardingEnd (frame) : Statement (.forwardingEnd frame) := rfl
theorem uncorrectableErrorDetected (pa) : Statement (.uncorrectableErrorDetected pa) := rfl
theorem poisonClear (frame) (granule) (data) : Statement (.poisonClear frame granule data) := rfl
theorem tier2ReadTimeout (h) (k) (pa) (lost) : Statement (.tier2ReadTimeout h k pa lost) := rfl
theorem tier2ControllerLoss (n) : Statement (.tier2ControllerLoss n) := rfl
theorem computeDieReset (die) : Statement (.computeDieReset die) := rfl
theorem writebackTimeout (die) : Statement (.writebackTimeout die) := rfl
theorem dieLinkTrained (die) (live) : Statement (.dieLinkTrained die live) := rfl
theorem dieLinkTrainingTimeout (die) : Statement (.dieLinkTrainingTimeout die) := rfl
theorem dieLinkModuleLoss (die) (m) : Statement (.dieLinkModuleLoss die m) := rfl
theorem dieLinkReplayExhaustion (die) (rate) : Statement (.dieLinkReplayExhaustion die rate) := rfl
theorem portEnable (p) : Statement (.portEnable p) := rfl
theorem portDisable (p) : Statement (.portDisable p) := rfl
theorem portRetire (p) : Statement (.portRetire p) := rfl
theorem ppermWrite (p) (v) : Statement (.ppermWrite p v) := rfl
theorem portTrainingDone (p) (lanes) (peer) : Statement (.portTrainingDone p lanes peer) := rfl
theorem portTrainingTimeout (p) : Statement (.portTrainingTimeout p) := rfl
theorem portLaneLoss (p) (lane) : Statement (.portLaneLoss p lane) := rfl
theorem flitCrcFail (p) (sixteenth) : Statement (.flitCrcFail p sixteenth) := rfl
theorem portErrorRate (p) (replays) : Statement (.portErrorRate p replays) := rfl
theorem linkLossNotice (m) (n) (up) : Statement (.linkLossNotice m n up) := rfl
theorem fabricProbe (skew) : Statement (.fabricProbe skew) := rfl
theorem packetForward (pkt) : Statement (.packetForward pkt) := rfl
theorem packetArrival (pkt) : Statement (.packetArrival pkt) := rfl
theorem flowAckReceived (src) (dst) (cls) (seq) (ans) : Statement (.flowAckReceived src dst cls seq ans) := rfl
theorem flowResendTimeout (src) (dst) (cls) : Statement (.flowResendTimeout src dst cls) := rfl
theorem flowStateExpiry (src) (core) (cls) : Statement (.flowStateExpiry src core cls) := rfl
theorem invalidation (home) (line) : Statement (.invalidation home line) := rfl
theorem powerThrottle (core) (cycles) : Statement (.powerThrottle core cycles) := rfl
theorem coldReset : Statement (.coldReset) := rfl
theorem packageFailure (pkg) : Statement (.packageFailure pkg) := rfl
theorem graftTransferLanding (n) : Statement (.graftTransferLanding n) := rfl
theorem requestRestart (handle) : Statement (.requestRestart handle) := rfl
theorem freeRingRelease (n) : Statement (.freeRingRelease n) := rfl
theorem engineWriteHeld (n) : Statement (.engineWriteHeld n) := rfl
theorem whorlSiblingEnd (handle) (sib) : Statement (.whorlSiblingEnd handle sib) := rfl
theorem ringStepTimeout (n) (member) : Statement (.ringStepTimeout n member) := rfl
theorem shardLaneLost (slot) (lane) : Statement (.shardLaneLost slot lane) := rfl
theorem shardRebuild (slot) (j) (parity) (images) : Statement (.shardRebuild slot j parity images) := rfl
theorem coppiceRun (n) : Statement (.coppiceRun n) := rfl
theorem l2LineWriteBack (pa) : Statement (.l2LineWriteBack pa) := rfl
theorem warmReset : Statement (.warmReset) := rfl

end Sys2Proof.Laws.Encoded
end

