-- ==== Sys2Proof/Laws/Vector.lean ====
section
/-! SUPPORT. Containers made lane by lane: what a lane of the result is, and which flags are raised (spec/05_vector.md R110,
R112). -/

namespace Sys2Proof.Machine

/-- A bit of flags gathered by OR is set exactly when one of them has it. -/
theorem foldl_or_bits {α} (g : α → BitVec 5) (l : List α) (a : BitVec 5) (k : Nat) :
    (l.foldl (fun a x => a ||| g x) a).getLsbD k = true ↔ a.getLsbD k = true ∨ ∃ x ∈ l, (g x).getLsbD k = true := by
  induction l generalizing a with
  | nil => simp
  | cons x r ih => simp only [List.foldl_cons]; rw [ih]; simp [or_assoc]

/-- A bit of the flags of several lanes is set exactly when a lane has it. -/
theorem allFlags_bits (l : List Flags2) (a : Flags2) (k : Nat) :
    (l.foldl (fun a b => (a.1 ||| b.1, a.2 ||| b.2)) a).1.getLsbD k = true ↔ a.1.getLsbD k = true ∨ ∃ x ∈ l, x.1.getLsbD k = true := by
  induction l generalizing a with
  | nil => simp
  | cons x r ih => simp only [List.foldl_cons]; rw [ih]; simp [or_assoc]

/-- Lanes that raise no tapered flag raise none together. -/
theorem allFlags_t (l : List Flags2) (a : Flags2) (h : ∀ x ∈ l, x.2 = 0#3) (ha : a.2 = 0#3) :
    (l.foldl (fun a b => (a.1 ||| b.1, a.2 ||| b.2)) a).2 = 0#3 := by
  induction l generalizing a with
  | nil => exact ha
  | cons x r ih => simp only [List.foldl_cons]; exact ih _ (fun y hy => h y (by simp [hy])) (by simp [ha, h x])

/-- Lane b of packed lanes, as a number. -/
theorem pack_fold (w : Nat) (ls : List Nat) (b : Nat) :
    (ls.foldr (fun l acc => l % 2 ^ w + 2 ^ w * acc) 0) / 2 ^ (w * b) % 2 ^ w = ls.getD b 0 % 2 ^ w := by
  induction ls generalizing b with
  | nil => simp
  | cons x r ih =>
    cases b with
    | zero => simp
    | succ n =>
      simp only [List.foldr_cons, List.getD_cons_succ]
      rw [← ih n, show w * (n + 1) = w + w * n from by ring, pow_add, ← Nat.div_div_eq_div_mul]
      congr 2
      rw [Nat.add_mul_div_left _ _ (by positivity), Nat.div_eq_of_lt (Nat.mod_lt _ (by positivity))]; simp

/-- Packed lanes fit their bits. -/
theorem pack_lt (w : Nat) (ls : List Nat) : (ls.foldr (fun l acc => l % 2 ^ w + 2 ^ w * acc) 0) < 2 ^ (w * ls.length) := by
  induction ls with
  | nil => simp
  | cons x r ih =>
    simp only [List.foldr_cons, List.length_cons]
    have h1 := Nat.mod_lt x (show 2 ^ w > 0 by positivity)
    have : 2 ^ (w * (r.length + 1)) = 2 ^ w * 2 ^ (w * r.length) := by rw [← pow_add]; ring_nf
    rw [this]; nlinarith [Nat.mul_le_mul_left (2^w) (Nat.succ_le_of_lt ih)]

/-- Lane b of a packed container is lane b of the list. -/
theorem lane_pack (w : Nat) (ls : List Nat) (b : Nat) (h : w * ls.length ≤ 32) : lane w (packLanes w ls) b = ls.getD b 0 % 2 ^ w := by
  have h2 : (ls.foldr (fun l acc => l % 2 ^ w + 2 ^ w * acc) 0) < 2 ^ 32 :=
    lt_of_lt_of_le (pack_lt w ls) (Nat.pow_le_pow_right (by decide) h)
  simp only [lane, packLanes, BitVec.toNat_ofNat, Nat.mod_eq_of_lt h2]
  exact pack_fold w ls b

/-- Elements that raise no tapered flag raise none together. -/
theorem build_t (m : Pred) (f : Nat → Elem) (hf : ∀ p, (f p).2.2 = 0#3) : (build m f).2.2 = 0#3 := by
  simp only [build, allFlags]; apply allFlags_t
  · intro x hx; simp only [List.map_map, List.mem_map] at hx; obtain ⟨p, _, rfl⟩ := hx
    simp only [Function.comp]; split <;> simp [noFlags, hf]
  · rfl

/-- A container of a built vector, where the mask is set. -/
theorem build_get (m : Pred) (f : Nat → Elem) (p : Nat) (hp : p < 512) (hm : m.getLsbD p = true) :
    (build m f).1.getD p 0#32 = (f p).1 := by
  simp only [build, List.map_map]
  rw [List.getD_eq_getElem?_getD, List.getElem?_map, List.getElem?_range hp]
  simp [hm]

/-- A flag of a built vector is raised exactly by an element of the mask that raises it. -/
theorem build_flag (m : Pred) (f : Nat → Elem) (k : Nat) :
    (build m f).2.1.getLsbD k = true ↔ ∃ p, p < 512 ∧ m.getLsbD p = true ∧ (f p).2.1.getLsbD k = true := by
  simp only [build, allFlags, List.map_map]
  rw [allFlags_bits]
  simp only [noFlags, List.mem_map, List.mem_range, Function.comp]
  constructor
  · rintro (h | ⟨x, ⟨p, hp, rfl⟩, h⟩)
    · simp at h
    · by_cases hm : m.getLsbD p = true
      · exact ⟨p, hp, hm, by simpa [hm] using h⟩
      · simp [hm] at h
  · rintro ⟨p, hp, hm, h⟩
    exact .inr ⟨_, ⟨p, hp, rfl⟩, by simpa [hm] using h⟩

/-- Lane b of a container made lane by lane. -/
theorem laneElem_lane (w : Nat) (f : Nat → Nat × BitVec 5) (b : Nat) (hb : b < 32 / w) :
    lane w (laneElem w f).1 b = (f b).1 % 2 ^ w := by
  have hw : w * (32 / w) ≤ 32 := Nat.mul_div_le _ _
  simp only [laneElem, List.map_map]
  rw [lane_pack _ _ _ (by simpa using hw), List.getD_eq_getElem?_getD, List.getElem?_map, List.getElem?_range hb]
  simp

/-- A flag of a container made lane by lane. -/
theorem laneElem_flag (w : Nat) (f : Nat → Nat × BitVec 5) (k : Nat) :
    (laneElem w f).2.1.getLsbD k = true ↔ ∃ b, b < 32 / w ∧ (f b).2.getLsbD k = true := by
  simp only [laneElem]
  rw [foldl_or_bits]
  simp

end Sys2Proof.Machine
end

