-- ==== Sys2Proof/Tests/Slice0.lean ====
section
/-! SUPPORT. Tests: words written out from the encoding of R57, R58, R63 and what the decoder reads from them; words and terms
that are refused; single steps whose results are worked out by hand from the rules; and for every statement with hypotheses a state
and operands that meet them (witness_…). -/

namespace Sys2Proof.Tests

open Sys2Proof.Machine Sys2Proof.Claims

set_option Elab.async false

-- ## Words

/-- The word with header 0 of an opcode and the six operand fields (R57, R58). -/
def fieldN (op d s1 s2 s3 s4 md : Nat) : W64 :=
  BitVec.ofNat 64 (op * 2 ^ 36 + d * 2 ^ 30 + s1 * 2 ^ 24 + s2 * 2 ^ 18 + s3 * 2 ^ 12 + s4 * 2 ^ 6 + md)
/-- The same with a 24-bit immediate, and with a 30-bit offset. -/
def fieldI (op d s1 imm : Nat) : W64 := BitVec.ofNat 64 (op * 2 ^ 36 + d * 2 ^ 30 + s1 * 2 ^ 24 + imm)
def fieldJ (op d off : Nat) : W64 := BitVec.ofNat 64 (op * 2 ^ 36 + d * 2 ^ 30 + off)

/-- The decoder reads i from w, under header 0; it refuses w. -/
abbrev Reads (w : W64) (i : Instr) : Prop := (decode w).toOption = some (Hdr.zero, i)
abbrev Refuses (w : W64) (r : Reject) : Prop := (match decode w with | .error e => e == r | .ok _ => false) = true

theorem test_control_words :
    Reads (fieldN 0x00 0 0 0 0 0 0) .nop ∧
    Reads (fieldN 0x01 0 0 0 0 0 0) .go ∧
    Reads (fieldJ 0x02 52 0x3FFFFFFE) (.br 0x3FFFFFFE) ∧
    Reads (fieldJ 0x03 31 5) (.call (.reg 31) 5) ∧
    Reads (fieldN 0x04 52 7 0 0 0 0) (.jmp .none (.reg 7)) ∧
    Reads (fieldN 0x06 0 0 0 0 0 0) .breakl ∧
    Reads (fieldN 0x07 4 5 0 0 0 1) (.lidx (.reg 4) 5 true) ∧
    Reads (fieldI 0x08 0 0 0xABCDEF) (.trap 0xABCDEF) ∧
    Reads (fieldN 0x09 0 0 0 0 0 0) .end_ ∧
    Reads (fieldN 0x0A 0 0 0 0 0 0) .yield ∧
    Reads (fieldI 0x0B 3 0 32) (.rds (.reg 3) 0x020) ∧
    Reads (fieldN 0x0D 0 0 0 0 0 0) .cpoint ∧
    Reads (fieldJ 0x05 53 0x20003) (.loop (.imm 3) 2) ∧
    Reads (fieldJ 0x05 9 0x3FFF0000) (.loop (.reg 9) 16383) ∧
    Reads (fieldI 0x0C 0 5 2) (.wrs 2 (.reg 5)) := by decide +kernel

theorem test_scalar_words_1 :
    Reads (fieldN 0x10 1 2 3 0 0 0) (.add (.reg 1) (.reg 2) (.reg 3)) ∧
    Reads (fieldN 0x11 52 44 47 0 0 0) (.sub .none (.lq 0) (.lq 3)) ∧
    Reads (fieldI 0x12 1 2 0x800000) (.addi (.reg 1) (.reg 2) 0x800000) ∧
    Reads (fieldN 0x13 48 2 3 0 0 0) (.mul (.sq 0) (.reg 2) (.reg 3)) ∧
    Reads (fieldN 0x14 1 2 3 0 0 1) (.mulh true (.reg 1) (.reg 2) (.reg 3)) ∧
    Reads (fieldN 0x15 1 2 3 0 0 0) (.div false (.reg 1) (.reg 2) (.reg 3)) ∧
    Reads (fieldN 0x16 1 2 3 0 0 1) (.rem true (.reg 1) (.reg 2) (.reg 3)) ∧
    Reads (fieldN 0x17 1 2 3 0 0 0) (.and (.reg 1) (.reg 2) (.reg 3)) ∧
    Reads (fieldN 0x18 1 2 3 0 0 0) (.or (.reg 1) (.reg 2) (.reg 3)) ∧
    Reads (fieldN 0x19 1 2 3 0 0 0) (.xor (.reg 1) (.reg 2) (.reg 3)) ∧
    Reads (fieldI 0x1A 1 2 9) (.andi (.reg 1) (.reg 2) 9) ∧
    Reads (fieldI 0x1B 1 2 9) (.ori (.reg 1) (.reg 2) 9) ∧
    Reads (fieldI 0x1C 1 2 9) (.xori (.reg 1) (.reg 2) 9) ∧
    Reads (fieldN 0x1D 1 2 3 0 0 0) (.shl (.reg 1) (.reg 2) (.reg 3)) ∧
    Reads (fieldN 0x1E 1 2 3 0 0 0) (.shr (.reg 1) (.reg 2) (.reg 3)) ∧
    Reads (fieldN 0x1F 1 2 3 0 0 0) (.sha (.reg 1) (.reg 2) (.reg 3)) := by decide +kernel

theorem test_scalar_words_2 :
    Reads (fieldI 0x20 1 0 0x123456) (.limm (.reg 1) 0x123456) ∧
    Reads (fieldI 0x21 1 2 0x3BEEF) (.lhi (.reg 1) (.reg 2) 0xBEEF 3) ∧
    Reads (fieldN 0x22 1 2 3 0 0 1) (.min true (.reg 1) (.reg 2) (.reg 3)) ∧
    Reads (fieldN 0x23 1 2 3 0 0 0) (.max false (.reg 1) (.reg 2) (.reg 3)) ∧
    Reads (fieldN 0x24 1 2 0 0 0 0) (.clz (.reg 1) (.reg 2)) ∧
    Reads (fieldN 0x25 1 2 0 0 0 0) (.popc (.reg 1) (.reg 2)) ∧
    Reads (fieldN 0x26 1 2 3 63 0 0) (.sel (.reg 1) (.reg 2) (.reg 3) 7) ∧
    Reads (fieldN 0x27 1 2 3 4 0 0) (.mad (.reg 1) (.reg 2) (.reg 3) (.reg 4)) ∧
    Reads (fieldN 0x28 57 2 3 0 0 6) (.cmp .tst 1 (.reg 2) (.reg 3)) ∧
    Reads (fieldI 0x29 57 2 42) (.cmpi .lt 1 (.reg 2) 5) ∧
    Reads (fieldN 0x2A 1 2 0 0 0 0) (.mov (.reg 1) (.reg 2)) ∧
    Reads (fieldN 0x2B 1 2 0 60 3 1) (.bfx true (.reg 1) (.reg 2) 60 3) ∧
    Reads (fieldN 0x2C 1 2 3 8 7 0) (.bfi (.reg 1) (.reg 2) (.reg 3) 8 7) := by decide +kernel

theorem test_predicate_words :
    Reads (fieldN 0x30 57 58 59 0 0 0) (.pand 1 2 3) ∧
    Reads (fieldN 0x31 57 58 59 0 0 0) (.por 1 2 3) ∧
    Reads (fieldN 0x32 57 58 59 0 0 0) (.pxor 1 2 3) ∧
    Reads (fieldN 0x33 57 58 0 0 0 0) (.pnot 1 2) ∧
    Reads (fieldI 0x34 57 2 7) (.pset 1 (.reg 2) 7) ∧
    Reads (fieldN 0x35 57 58 0 0 0 0) (.pany 1 2) ∧
    Reads (fieldN 0x36 1 58 0 0 0 0) (.pcnt (.reg 1) 2) ∧
    Reads (fieldN 0x37 1 58 0 0 0 0) (.pfirst (.reg 1) 2) := by decide +kernel

theorem test_vector_words_1 :
    Reads (fieldN 0x40 4 1 40 0 0 10) (.vadd (.v 4) (.v 1) (.l 0) ⟨.bf16, .rz, false⟩) ∧
    Reads (fieldN 0x41 32 39 47 0 0 0) (.vsub (.o 0) (.o 7) (.lq 3) ⟨.f32, .rn, false⟩) ∧
    Reads (fieldN 0x42 51 1 2 0 0 41) (.vmul (.sq 3) (.v 1) (.v 2) ⟨.s32, .rn, true⟩) ∧
    Reads (fieldN 0x43 52 1 2 3 0 6) (.vfma .none (.v 1) (.v 2) (.v 3) ⟨.f32, .ru, false⟩) ∧
    Reads (fieldN 0x44 4 1 2 3 0 4) (.vfms (.v 4) (.v 1) (.v 2) (.v 3) ⟨.f32, .rd, false⟩) ∧
    Reads (fieldN 0x45 4 1 2 0 0 56) (.vmin (.v 4) (.v 1) (.v 2) .s8) ∧
    Reads (fieldN 0x46 4 1 2 0 0 24) (.vmax (.v 4) (.v 1) (.v 2) .e4m3) ∧
    Reads (fieldN 0x47 4 1 0 0 0 49) (.vabs (.v 4) (.v 1) .s16 true) ∧
    Reads (fieldN 0x48 4 1 0 0 0 40) (.vneg (.v 4) (.v 1) .s32 false) ∧
    Reads (fieldN 0x49 57 1 2 10 0 0) (.vcmp 1 (.v 1) (.v 2) 10 .f32) ∧
    Reads (fieldN 0x4A 4 1 2 58 0 0) (.vsel (.v 4) (.v 1) (.v 2) 2) ∧
    Reads (fieldN 0x4B 4 1 2 0 0 0) (.vand (.v 4) (.v 1) (.v 2)) ∧
    Reads (fieldN 0x4C 4 1 2 0 0 0) (.vor (.v 4) (.v 1) (.v 2)) ∧
    Reads (fieldN 0x4D 4 1 2 0 0 0) (.vxor (.v 4) (.v 1) (.v 2)) ∧
    Reads (fieldN 0x4E 4 1 2 0 0 57) (.vshl (.v 4) (.v 1) (.v 2) .s8 true) ∧
    Reads (fieldN 0x4F 4 1 2 0 0 43) (.vshr true (.v 4) (.v 1) (.v 2) .s32 .rz) := by decide +kernel

theorem test_vector_words_2 :
    Reads (fieldN 0x50 4 1 1 1 0 0) (.vcvt (.v 4) (.v 1) .bf16 1 ⟨.f32, .rn, false⟩) ∧
    Reads (fieldN 0x51 4 1 0 0 0 8) (.vbcast (.v 4) (.reg 1) .bf16) ∧
    Reads (fieldN 0x52 4 1 2 0 0 40) (.viota (.v 4) (.reg 1) (.reg 2) .s32 false) ∧
    Reads (fieldN 0x53 4 1 0 0 0 0) (.vmov (.v 4) (.v 1)) ∧
    Reads (fieldI 0x54 0 0 0x1020) (.vshape 16 32) ∧
    Reads (fieldN 0x55 4 1 0 0 0 0) (.vtrn (.v 4) (.v 1)) ∧
    Reads (fieldN 0x56 4 1 2 0 0 1) (.vrot true (.v 4) (.v 1) (.reg 2)) ∧
    Reads (fieldN 0x57 4 1 2 0 0 0) (.vred .min (.v 4) (.v 1) ⟨.f32, .rn, false⟩) ∧
    Reads (fieldN 0x58 4 1 1 0 0 40) (.vscan .max (.v 4) (.v 1) ⟨.s32, .rn, false⟩) ∧
    Reads (fieldN 0x59 4 1 2 3 0 8) (.vdot (.v 4) (.v 1) (.v 2) (.v 3) ⟨.bf16, .rn, false⟩) ∧
    Reads (fieldN 0x5A 4 1 2 0 0 0) (.vperm (.v 4) (.v 1) (.v 2)) ∧
    Reads (fieldN 0x5B 4 1 2 3 0 0) (.vins (.v 4) (.v 1) (.reg 2) (.reg 3)) ∧
    Reads (fieldN 0x5C 4 1 2 0 0 0) (.vext (.reg 4) (.v 1) (.reg 2)) ∧
    Reads (fieldN 0x5D 4 1 0 0 0 16) (.vclass (.v 4) (.v 1) .f16) ∧
    Reads (fieldN 0x5E 4 1 2 0 0 0) (.vscale (.v 4) (.v 1) (.v 2) ⟨.f32, .rn, false⟩) ∧
    Reads (fieldN 0x60 57 1 2 6 0 56) (.vtcmp 1 (.v 1) (.v 2) 6 .s8) := by decide +kernel

theorem test_vector_words_3 :
    Reads (fieldN 0x64 4 2 45 52 0 56) (.vtdot (.v 4) (.v 2) (.lq 1) .none false) ∧
    Reads (fieldN 0x63 2 44 0 0 0 0) (.vtrit (.v 2) (.lq 0) 0) ∧
    Reads (fieldN 0x5F 4 1 0 0 0 0) (.vtf (.v 4) (.v 1) 0 0 .rn) ∧
    Reads (fieldN 0x61 4 1 2 0 0 8) (.vfb4d (.v 4) (.v 1) 2 ⟨.bf16, .rn, false⟩) ∧
    Reads (fieldN 0x62 4 1 0 0 0 0) (.vfb4e (.v 4) (.v 1) 0 .f32 .rn) := by decide +kernel

theorem test_special_words :
    Reads (fieldN 0x80 4 1 0 0 0 0) (.fexp (.v 4) (.v 1) .f32 false) ∧
    Reads (fieldN 0x81 4 1 0 0 0 0) (.flog (.v 4) (.v 1) .f32 false) ∧
    Reads (fieldN 0x82 4 1 0 0 0 8) (.frcp (.v 4) (.v 1) .bf16 false) ∧
    Reads (fieldN 0x83 4 1 0 0 0 16) (.frsq (.v 4) (.v 1) .f16 false) ∧
    Reads (fieldN 0x84 4 1 0 0 0 2) (.fsqrt (.v 4) (.v 1) ⟨.f32, .rz, false⟩) ∧
    Reads (fieldN 0x85 4 1 2 0 0 4) (.fdiv (.v 4) (.v 1) (.v 2) ⟨.f32, .rd, false⟩) ∧
    Reads (fieldN 0x86 4 1 0 0 0 0) (.ftanh (.v 4) (.v 1) .f32 false) ∧
    Reads (fieldN 0x87 4 1 0 0 0 0) (.fsig (.v 4) (.v 1) .f32 false) ∧
    Reads (fieldN 0x92 4 1 0 0 0 0) (.vargmx (.v 4) (.v 1) .f32) ∧
    Reads (fieldN 0x93 0 44 0 0 0 0) (.topks (.lq 0)) ∧
    Reads (fieldN 0x94 3 1 0 0 0 0) (.topkd (.v 3) 1) ∧
    Reads (fieldN 0x88 4 1 2 3 0 24) (.fexpq (.v 4) (.v 1) (.v 2) 3) ∧
    Reads (fieldN 0x90 4 1 8 0 0 1) (.vtopk true (.v 4) (.v 1) 8 .f32) ∧
    Reads (fieldN 0x91 57 1 8 0 0 0) (.vtopkm 1 (.v 1) 8 .f32) := by decide +kernel

theorem test_access_words_1 :
    Reads (fieldI 0xA0 44 3 0x4FFFF0) (.ld .s32 0 (.reg 3) 0xFFFF0) ∧
    Reads (fieldN 0xA1 45 2 0 0 0 0) (.ldv 1 (.reg 2) (.reg 0)) ∧
    Reads (fieldI 0xA2 48 3 0x600008) (.st .s64 (.sq 0) (.reg 3) 8) ∧
    Reads (fieldN 0xA3 0 2 3 49 0 0) (.stv (.reg 2) (.reg 3) 1) ∧
    Reads (fieldI 0xA4 44 1 0x680000) (.lda .s64 2 0 (.reg 1) 0) ∧
    Reads (fieldN 0xA5 47 1 0 0 0 0) (.ldg 3 (.reg 1)) ∧
    Reads (fieldI 0xA6 0 1 64) (.pref (.reg 1) 64) ∧
    Reads (fieldN 0xA7 0 0 0 0 0 0) .mark ∧
    Reads (fieldN 0xA8 52 1 2 0 0 32) (.aadd .w32 .none (.reg 1) (.reg 2)) ∧
    Reads (fieldN 0xA9 44 1 2 0 0 40) (.amin true .w32 (.lq 0) (.reg 1) (.reg 2)) ∧
    Reads (fieldN 0xAA 44 1 2 0 0 48) (.amax false .w64 (.lq 0) (.reg 1) (.reg 2)) ∧
    Reads (fieldN 0xAB 44 1 2 0 0 48) (.aor .w64 (.lq 0) (.reg 1) (.reg 2)) ∧
    Reads (fieldN 0xAC 44 1 2 0 0 48) (.axch .w64 (.lq 0) (.reg 1) (.reg 2)) ∧
    Reads (fieldN 0xAD 44 1 2 3 0 48) (.acas .w64 (.lq 0) (.reg 1) (.reg 2) (.reg 3)) ∧
    Reads (fieldN 0xAE 44 1 2 0 0 32) (.afadd (.lq 0) (.reg 1) (.reg 2)) ∧
    Reads (fieldN 0xB0 0 1 2 0 0 0) (.sixcfg (.reg 1) (.reg 2)) := by decide +kernel

theorem test_access_words_2 :
    Reads (fieldN 0xB1 0 2 2 2 0 0) (.fence 2 2 ⟨false, true, false⟩) ∧
    Reads (fieldN 0xB2 0 0 0 0 0 0) .afence ∧
    Reads (fieldN 0xB3 0 1 0 2 2 0) (.pfence 1 0 ⟨false, true, false⟩ 2) ∧
    Reads (fieldN 0xB4 0 5 7 0 0 0) (.drain 5 ⟨true, true, true⟩) ∧
    Reads (fieldN 0xB5 0 1 2 0 0 1) (.cflush true (.reg 1) (.reg 2)) ∧
    Reads (fieldN 0xB6 0 1 2 0 0 0) (.cinv (.reg 1) (.reg 2)) ∧
    Reads (fieldN 0xB7 0 1 2 2 0 0) (.tlbinv (.reg 1) (.reg 2) 2) := by decide +kernel

theorem test_copy_words :
    Reads (fieldN 0xC0 15 1 0 0 0 0) (.ringcfg 15 (.reg 1)) ∧
    Reads (fieldN 0xC1 1 2 3 4 0 0) (.cpy (.reg 1) (.reg 2) (.reg 3) (.reg 4)) ∧
    Reads (fieldN 0xC1 5 1 0 3 0 34) (.cpyRing (.reg 5) (.reg 1) (.reg 3) 2) ∧
    Reads (fieldN 0xC2 0 3 1 0 0 0) (.chain 3 (.reg 1)) ∧
    Reads (fieldN 0xC3 1 2 3 4 0 0) (.cwait (.reg 1) (.reg 2) (.reg 3) (.reg 4)) ∧
    Reads (fieldN 0xC4 1 2 3 0 0 0) (.ctest (.reg 1) (.reg 2) (.reg 3)) ∧
    Reads (fieldN 0xC5 1 15 3 0 0 0) (.rstat (.reg 1) 15 3) ∧
    Reads (fieldN 0xC6 0 2 4 0 0 0) (.rpop 2 4) ∧
    Reads (fieldN 0xC7 0 7 12 0 0 0) (.bfmt 7 12) := by decide +kernel

theorem test_matrix_words :
    Reads (fieldN 0xD0 0 0 1 3 0 0) (.mma 0 0 1 true true ⟨.f32, .rn, false⟩) ∧
    Reads (fieldN 0xD1 7 1 2 2 0 40) (.mmaz 7 1 2 false true ⟨.s32, .rn, false⟩) ∧
    Reads (fieldN 0xD2 7 0 0 0 0 0) (.mzero 7) ∧
    Reads (fieldN 0xD3 1 2 0 1 0 0) (.mldacc 1 2 true ⟨.f32, .rn, false⟩) ∧
    Reads (fieldN 0xD4 2 0 0 0 0 0) (.mstacc 2 0 false ⟨.f32, .rn, false⟩) ∧
    Reads (fieldN 0xD5 0 3 4 1 0 0) (.mdadd 3 (.reg 4) true ⟨.f32, .rn, false⟩) ∧
    Reads (fieldN 0xD6 4 8 0 0 0 0) (.mwait (.reg 4) .all) ∧
    Reads (fieldN 0xD6 4 7 9 0 0 0) (.mwait (.reg 4) (.tile 7 (.reg 9))) ∧
    Reads (fieldN 0xD7 0 3 1 0 0 0) (.task (.reg 3) 1) ∧
    Reads (fieldN 0xD8 1 3 0 0 0 1) (.mprog (.reg 1) 3 true) := by decide +kernel

theorem test_event_words :
    Reads (fieldN 0xE0 0 1 2 0 0 0) (.evsig (.reg 1) 2) ∧
    Reads (fieldN 0xE1 0 1 1 0 0 0) (.evwait (.reg 1) 1) ∧
    Reads (fieldN 0xE2 1 2 0 0 0 0) (.evtest (.reg 1) (.reg 2)) ∧
    Reads (fieldN 0xE3 0 1 0 0 0 0) (.evclr (.reg 1)) ∧
    Reads (fieldN 0xE4 0 1 2 0 0 0) (.barinit (.reg 1) (.reg 2)) ∧
    Reads (fieldN 0xE5 1 2 1 0 0 0) (.bararr (.reg 1) (.reg 2) 1) ∧
    Reads (fieldN 0xE6 0 1 2 0 0 0) (.barexp (.reg 1) (.reg 2)) ∧
    Reads (fieldN 0xE7 6 9 52 2 0 0) (.barwait (.reg 6) (.reg 9) .none 2) ∧
    Reads (fieldN 0xE8 1 2 15 0 0 0) (.launch (.reg 1) (.reg 2) 15) ∧
    Reads (fieldN 0xE9 7 3 1 0 0 0) (.cancel (.reg 7) (.reg 3) 1) ∧
    Reads (fieldN 0xEA 1 2 4 0 0 0) (.gcnt (.reg 1) (.reg 2) 4) ∧
    Reads (fieldN 0xEB 0 1 0 0 0 0) (.qpush (.reg 1)) ∧
    Reads (fieldN 0xEC 2 0 57 0 0 0) (.qpop (.reg 2) 1) ∧
    Reads (fieldN 0xED 0 0 0 0 0 0) .qclose := by decide +kernel

theorem test_engine_words :
    Reads (fieldN 0xF0 44 1 2 0 0 0) (.graft (.lq 0) (.reg 1) (.reg 2)) ∧
    Reads (fieldN 0xF1 44 1 0 0 0 0) (.kvwalk 0 (.reg 1)) ∧
    Reads (fieldN 0xF2 52 1 0 0 0 0) (.kvseal .none (.reg 1)) ∧
    Reads (fieldN 0xF3 44 1 0 0 0 0) (.kvcompact (.lq 0) (.reg 1)) ∧
    Reads (fieldN 0xF4 4 2 3 0 0 0) (.ballot (.reg 4) (.reg 2) (.reg 3)) ∧
    Reads (fieldN 0xF5 44 1 0 0 0 0) (.whorlOpen (.lq 0) (.reg 1)) ∧
    Reads (fieldN 0xF5 44 1 1 0 0 0) (.whorlClose (.lq 0) (.reg 1)) ∧
    Reads (fieldN 0xF5 52 3 2 0 0 0) (.whorlRing .none (.reg 3)) ∧
    Reads (fieldN 0xF5 52 3 3 0 0 0) (.whorlUnring .none (.reg 3)) ∧
    Reads (fieldN 0xF6 44 1 0 0 0 0) (.reshard (.lq 0) (.reg 1)) ∧
    Reads (fieldN 0xF7 44 1 0 0 0 0) (.migrAdmit (.lq 0) (.reg 1)) ∧
    Reads (fieldN 0xF7 44 1 1 0 0 0) (.migrHand (.lq 0) (.reg 1)) ∧
    Reads (fieldN 0xF7 44 1 2 0 0 0) (.migrDone (.lq 0) (.reg 1)) ∧
    Reads (fieldN 0xF7 44 1 3 0 0 0) (.migrCancel (.lq 0) (.reg 1)) ∧
    Reads (fieldN 0xF8 44 1 2 0 0 0) (.beamix (.lq 0) (.reg 1) (.reg 2)) := by decide +kernel

-- ## Words and terms that are refused

/-- R57 to R60, R63: a guard field under gm 0, a hint on ADD, unassigned opcodes, a field that NOP does not use, codes that no
scalar slot has, a load queue as d of an X-stream source's word, sources of both streams. -/
theorem test_refused_words :
    Refuses (fieldN 0x10 1 2 3 0 0 0 ||| 0x0008000000000000#64) .guard ∧ Refuses (fieldN 0x10 1 2 3 0 0 0 ||| 0x0000100000000000#64) .hint ∧
    Refuses (fieldN 0x0E 0 0 0 0 0 0) .payload ∧ Refuses (fieldN 0x70 0 0 0 0 0 0) .payload ∧ Refuses (fieldN 0x00 0 0 0 0 0 1) .payload ∧
    Refuses (fieldN 0x10 32 2 3 0 0 0) .payload ∧ Refuses (fieldN 0x10 54 2 3 0 0 0) .payload ∧ Refuses (fieldN 0x10 44 44 3 0 0 0) .slots ∧
    Refuses (fieldN 0x10 1 48 47 0 0 0) .slots ∧ Refuses (fieldN 0x40 53 1 2 0 0 0) .payload ∧ Refuses (fieldN 0x40 44 1 2 0 0 0) .payload := by
  decide +kernel

/-- R85, R88, R97, R113, R120, R152, R164, R195: fields out of their ranges. -/
theorem test_refused_fields :
    Refuses (fieldJ 0x05 53 3) .slots ∧ Refuses (fieldJ 0x05 9 (2 * 65536 + 1)) .payload ∧ Refuses (fieldJ 0x02 0 8) .payload ∧
    Refuses (fieldN 0x07 1 6 0 0 0 0) .payload ∧ Refuses (fieldI 0x0B 1 0 0x123) .slots ∧ Refuses (fieldI 0x0B 1 0 0x1001) .payload ∧
    Refuses (fieldN 0x28 57 2 3 0 0 7) .payload ∧ Refuses (fieldN 0x50 4 1 0 1 0 0) .slots ∧ Refuses (fieldI 0xA2 1 3 (1 * 2 ^ 20)) .payload ∧
    Refuses (fieldI 0xA0 44 3 (7 * 2 ^ 20)) .payload ∧ Refuses (fieldN 0xC1 1 2 0 3 0 0x30) .payload ∧ Refuses (fieldN 0xD6 4 8 9 0 0 0) .payload ∧
    Refuses (fieldN 0xC6 0 2 0 0 0 0) .slots ∧ Refuses (fieldN 0xF7 44 1 4 0 0 0) .payload ∧ Refuses (fieldN 0xB1 0 2 2 0 0 0) .payload := by
  decide +kernel

/-- For each check of WellFormed a term that it refuses, in both streams or in the one named. -/
theorem test_ill_formed :
    (([.jmp .none (.lq 0), .add (.sq 0) (.reg 1) (.reg 2), .add (.reg 1) (.lq 0) (.reg 2), .rds (.reg 1) 0x011, .wrs 0x040 (.reg 1), .vadd (.v 0) (.v 1) (.v 2) ⟨.f32, .rn, false⟩,
      .rpop 0 1, .mma 0 0 1 false false ⟨.f32, .rn, false⟩] : List Instr).all fun i => !Instr.legal .a i) = true ∧
    (([.add (.reg 1) (.sq 0) (.reg 2), .add (.lq 0) (.reg 1) (.reg 2), .rds (.reg 1) 0x050, .ld .s32 0 (.reg 1) 0, .ld .s32 0 (.lq 1) 0, .fence 0 0 ⟨true, false, false⟩,
      .cpy (.reg 1) (.reg 2) (.reg 3) (.reg 4), .evsig (.sq 0) 0, .launch (.reg 1) (.reg 2) 0, .graft .none (.reg 1) (.reg 2)] : List Instr).all fun i => !Instr.legal .x i) = true ∧
    (([.loop (.imm 1) 0, .vadd (.v 0) (.v 1) (.v 2) ⟨.s32, .rz, false⟩, .vabs (.v 0) (.v 1) .f32 true, .vcmp 1 (.v 0) (.v 1) 6 .f32, .vcmp 1 (.v 0) (.v 1) 10 .s8,
      .vshl (.v 0) (.v 1) (.v 2) .f32 false, .vshr false (.v 0) (.v 1) (.v 2) .bf16 .rn, .vcvt (.v 0) (.v 1) .bf16 2 ⟨.f32, .rn, false⟩,
      .viota (.v 0) (.reg 1) (.reg 2) .f32 false, .vred .add (.v 0) (.v 1) ⟨.f32, .rn, true⟩, .vscan .add (.v 0) (.v 1) ⟨.s16, .rn, false⟩,
      .vdot (.v 0) (.v 1) (.v 2) (.v 3) ⟨.s32, .rn, false⟩, .vclass (.v 0) (.v 1) .s8, .vscale (.v 0) (.v 1) (.v 2) ⟨.s8, .rn, false⟩,
      .vtf (.v 0) (.v 1) 0 2 .rn, .vtf (.v 0) (.v 1) 1 0 .rz, .vtcmp 1 (.v 0) (.v 1) 0 .s32, .vfb4d (.v 0) (.v 1) 0 ⟨.s8, .rn, false⟩,
      .vfb4e (.v 0) (.v 1) 0 .e4m3 .rn, .fexp (.v 0) (.v 1) .e5m2 false, .fsqrt (.v 0) (.v 1) ⟨.s32, .rn, false⟩, .vtopk false (.v 0) (.v 1) 33 .f32,
      .vtopkm 1 (.v 0) 0 .f32, .vargmx (.v 0) (.v 1) .f16, .drain 0 ⟨false, false, false⟩, .rpop 0 0, .portEnable 32, .computeDieReset 8,
      .portLaneLoss 0 8, .dieLinkModuleLoss 0 48, .linkLossNotice 5 5 false, .tier2ControllerLoss 32, .packageFailure 993, .queueEnable 1024 0,
      .taskUnitDispatch 0 304, .cmuWordStart 352, .shardLaneLost 0 9, .poisonClear 0 512 []] : List Instr).all fun i => !i.wf) = true := by
  decide +kernel

-- ## Single steps, their results worked out by hand from the rules

/-- A word where the next step fetches, with registers from 1 on in both streams. -/
def machine (w : W64) (rs : List W64) : State :=
  let s := State.reset.withFetchWord 64 w.toNat
  let put := fun (q : Seq) => { q with regs := (0#64 :: rs) ++ List.replicate (31 - rs.length) 0#64 }
  { s with strand := { s.strand with a := put s.strand.a, x := put s.strand.x } }

/-- The state after one step, and a value of it with all results landed. -/
def after (s : State) : State := match step s with | .next t => t | _ => s
def landed (s : State) : Strand := settle (s.cyc + 1000) (after s).strand
def reg (s : State) (n : Fin 32) : W64 := (landed s).a.get n

theorem test_add_wraps : reg (machine (fieldN 0x10 3 1 2 0 0 0) [0xFFFFFFFFFFFFFFFF, 5]) 3 = 4 := by decide +kernel
theorem test_sub_source_is_destination : reg (machine (fieldN 0x11 1 1 2 0 0 0) [3, 5]) 1 = 0xFFFFFFFFFFFFFFFE := by decide +kernel
theorem test_addi_sign : reg (machine (fieldI 0x12 2 1 0xFFFFFF) [0]) 2 = 0xFFFFFFFFFFFFFFFF := by decide +kernel
theorem test_mulh_signed : reg (machine (fieldN 0x14 3 1 2 0 0 0) [0xFFFFFFFFFFFFFFFF, 2]) 3 = 0xFFFFFFFFFFFFFFFF := by decide +kernel
theorem test_mulh_unsigned : reg (machine (fieldN 0x14 3 1 2 0 0 1) [0xFFFFFFFFFFFFFFFF, 2]) 3 = 1 := by decide +kernel
theorem test_div_by_zero : reg (machine (fieldN 0x15 3 1 2 0 0 0) [7, 0]) 3 = 0xFFFFFFFFFFFFFFFF := by decide +kernel
theorem test_div_toward_zero : reg (machine (fieldN 0x15 3 1 2 0 0 0) [0xFFFFFFFFFFFFFFF9, 2]) 3 = 0xFFFFFFFFFFFFFFFD := by decide +kernel
theorem test_rem_sign : reg (machine (fieldN 0x16 3 1 2 0 0 0) [0xFFFFFFFFFFFFFFF9, 2]) 3 = 0xFFFFFFFFFFFFFFFF := by decide +kernel
theorem test_shl_by_64 : reg (machine (fieldN 0x1D 3 1 2 0 0 0) [9, 64]) 3 = 9 := by decide +kernel
theorem test_sha_sign : reg (machine (fieldN 0x1F 3 1 2 0 0 0) [0x8000000000000000, 63]) 3 = 0xFFFFFFFFFFFFFFFF := by decide +kernel
theorem test_lhi_third : reg (machine (fieldI 0x21 2 1 (2 * 65536 + 0xBEEF)) [0x1111222233334444]) 2 = 0x1111BEEF33334444 := by decide +kernel
theorem test_min_unsigned : reg (machine (fieldN 0x22 3 1 2 0 0 1) [0xFFFFFFFFFFFFFFFF, 1]) 3 = 1 := by decide +kernel
theorem test_max_signed : reg (machine (fieldN 0x23 3 1 2 0 0 0) [0xFFFFFFFFFFFFFFFF, 1]) 3 = 1 := by decide +kernel
theorem test_clz_zero : reg (machine (fieldN 0x24 2 1 0 0 0 0) [0]) 2 = 64 := by decide +kernel
theorem test_popc : reg (machine (fieldN 0x25 2 1 0 0 0 0) [0xF0F]) 2 = 8 := by decide +kernel
theorem test_mad : reg (machine (fieldN 0x27 4 1 2 3 0 0) [3, 5, 7]) 4 = 22 := by decide +kernel
theorem test_bfx_signed : reg (machine (fieldN 0x2B 2 1 0 4 3 1) [0x80]) 2 = 0xFFFFFFFFFFFFFFF8 := by decide +kernel
theorem test_bfi : reg (machine (fieldN 0x2C 3 1 2 8 7 0) [0x11223344, 0xABCD]) 3 = 0x1122CD44 := by decide +kernel
theorem test_register_zero : reg (machine (fieldN 0x10 0 1 2 0 0 0) [1, 2]) 0 = 0 := by decide +kernel
theorem test_compare_unsigned : ((landed (machine (fieldN 0x28 57 1 2 0 0 4) [1, 0xFFFFFFFFFFFFFFFF])).a.pred 1).getLsbD 511 = true := by decide +kernel
theorem test_branch_back : (after (machine (fieldJ 0x02 52 0x3FFFFFFF) [])).strand.a.pc = 0xFFF8#56 := by decide +kernel
theorem test_call_links : (after (machine (fieldJ 0x03 5 2) [])).strand.a.pc = 0x10010#56 ∧ reg (machine (fieldJ 0x03 5 2) []) 5 = 0x10008 := by decide +kernel
theorem test_jmp_unaligned : (after (machine (fieldN 0x04 52 1 0 0 0 0) [0x1004])).strand.a.tcause = .align ∧
    (after (machine (fieldN 0x04 52 1 0 0 0 0) [0x1004])).strand.a.tval = 0x1004 := by decide +kernel
theorem test_loop_pushes : (after (machine (fieldJ 0x05 53 (2 * 65536 + 3)) [])).strand.a.loops = [⟨0x10008#56, 2#14, 3#32, 0#32⟩] := by decide +kernel
theorem test_loop_of_zero_skips : (after (machine (fieldJ 0x05 53 (2 * 65536)) [])).strand.a.pc = 0x10018#56 := by decide +kernel
theorem test_trap_stops : (after (machine (fieldI 0x08 0 0 0xFFFFFF) [])).strand.phase = .stopping ∧
    (after (machine (fieldI 0x08 0 0 0xFFFFFF) [])).strand.a.tval = 0xFFFFFFFFFFFFFFFF := by decide +kernel
theorem test_illegal_word : (after (machine 0x0000010D80000000 [])).strand.a.tcause = .illegal ∧
    (after (machine 0x0000010D80000000 [])).strand.a.tpc = 0x10000#56 := by decide +kernel
theorem test_read_only_register : (after (machine (fieldI 0x0C 0 1 0x020) [])).strand.a.tcause = .priv := by decide +kernel
theorem test_lidx_empty : (after (machine (fieldN 0x07 1 0 0 0 0 0) [])).strand.a.tcause = .illegal := by decide +kernel
theorem test_store_waits_behind_issue : (after (machine (fieldI 0xA2 2 1 (0 * 2 ^ 20)) [0x10100, 0xABCD])).strand.acc.map (·.op) = [.store [(0x10100, 0xCD)]] := by decide +kernel
theorem test_load_unaligned : (after (machine (fieldI 0xA0 44 1 (4 * 2 ^ 20 + 2)) [0x10100])).strand.a.tcause = .align := by decide +kernel
theorem test_wrs_shape_refused : (after (machine (fieldI 0x0C 0 1 0x050) [0x1100])).strand.a.tcause = .illegal := by decide +kernel
theorem test_viota : let v := (landed (machine (fieldN 0x52 4 1 2 0 0 40) [5, 3])).v.getD 4 []
    v.getD 0 0 = 5 ∧ v.getD 1 0 = 8 ∧ v.getD 32 0 = 101 ∧ v.getD 511 0 = 1538 := by decide +kernel
theorem test_vbcast_lanes : ((landed (machine (fieldN 0x51 4 1 0 0 0 56) [0x1FF])).v.getD 4 []).getD 7 0 = 0xFFFFFFFF := by decide +kernel
theorem test_fmt_infinity : deliverF (fmtOf .f32) .rn false (Machine.decodeF (fmtOf .bf16) 0x7F80) = (0x7F800000, 0#5) := by decide +kernel
theorem test_fmt_ties_to_even : deliverF (fmtOf .bf16) .rn false (Machine.decodeF (fmtOf .f32) 0x3F808000) = (0x3F80, 0x01#5) := by decide +kernel

-- ## Witnesses of the statements' hypotheses

/-- A strand that runs a NOP; the same with values in registers 1 to 4 of both streams; the same at the X stream. -/
def s0 : State := machine 0 [0x1004, 0x10000, 3, 0xFFFFFFFFFFFFFFFF]
def sX : State := { s0 with stream := .x }

theorem ready_nil (s : State) : Ready [] [] s := ⟨by simp [popEnts], by simp⟩
theorem calm0 : Calm s0 := ⟨.inl (by decide +kernel), by decide +kernel⟩
theorem calmX : Calm sX := ⟨.inl (by decide +kernel), by decide +kernel⟩
theorem ready_lq (n : Fin 4) : Ready [] [(true, n)] s0 := (gate_go_iff _ _ _).1 (by revert n; decide +kernel)
theorem ready_sq (n : Fin 4) : Ready [] [(false, n)] sX := (gate_go_iff _ _ _).1 (by revert n; decide +kernel)

/-- A machine whose X stream has a scalar entry at the head of load queue 0 and a vector entry of the shape at that of 1. -/
def sQ : State :=
  { sX with strand := { sX.strand with lq := [[⟨1, .s 7#64, some 0, none⟩], [⟨2, .v 16 32 VReg.zero, some 0, none⟩], [], []] } }
theorem calmQ : Calm sQ := ⟨.inl (by decide +kernel), by decide +kernel⟩

theorem witness_ScalarWords :
    (∃ i F s, arithForm i = some F ∧ Ready (F.srcs.flatMap sPops) (sPushes F.d) s ∧ Calm s) ∧
    (∃ i F s, arithForm i = some F ∧ F.srcs.flatMap sPops ≠ [] ∧ sPushes F.d ≠ [] ∧ Ready (F.srcs.flatMap sPops) (sPushes F.d) s ∧ Calm s) ∧
    ∃ i F s, bitForm i = some F ∧ Ready (F.srcs.flatMap sPops) (sPushes F.d) s ∧ Calm s :=
  ⟨⟨.add (.reg 1) (.reg 2) (.reg 3), _, s0, rfl, ready_nil _, calm0⟩,
    ⟨.mul (.sq 1) (.lq 0) (.reg 3), _, sQ, rfl, by decide, by decide, (gate_go_iff _ _ _).1 (by decide +kernel), calmQ⟩,
    ⟨.bfx true (.reg 1) (.reg 2) 60 3, _, s0, rfl, ready_nil _, calm0⟩⟩

theorem witness_CompareAndPredicateWords : ∃ s, Calm s ∧ Ready ([SOp.reg 1, .reg 2].flatMap sPops) [] s ∧ Ready [] (sPushes (.reg 1)) s ∧
    shapeOk (shRows s.shape) (shCols s.shape) := ⟨s0, calm0, ready_nil _, ready_nil _, by decide +kernel⟩

theorem witness_ControlWords :
    (∃ s, Calm s ∧ Ready ([SOp.reg 2].flatMap sPops) [] s ∧ (∃ a, vals [.reg 2] s = [a] ∧ a.toNat < 2 ^ 56 ∧ a.toNat % 8 = 0)) ∧
    (∃ s, Calm s ∧ Ready ([SOp.reg 1].flatMap sPops) [] s ∧ (∃ a, vals [.reg 1] s = [a] ∧ ¬(a.toNat < 2 ^ 56 ∧ a.toNat % 8 = 0))) ∧
    (∃ s : State, Calm s ∧ (s.seq.get 0).toNat = 0 ∧ 0 < (s.seq.get 3).toNat ∧ (s.seq.get 3).toNat < 2 ^ 32 ∧ s.seq.loops.length < 6 ∧
      2 ^ 32 ≤ (s.seq.get 4).toNat ∧ s.seq.loops = []) ∧
    ∃ (s : State) (l : Sys2Proof.Machine.Loop) (r : List Sys2Proof.Machine.Loop), Calm s ∧ s.seq.loops = l :: r ∧ s.seq.loops.length = 6 ∧ s.seq.loops[5]? = some l ∧ Ready [] (sPushes (.reg 1)) s :=
  ⟨⟨s0, calm0, ready_nil _, 0x10000, by decide +kernel, by decide, by decide⟩, ⟨s0, calm0, ready_nil _, 0x1004, by decide +kernel, by decide⟩,
    ⟨s0, calm0, by decide +kernel⟩,
    ⟨{ s0 with strand := { s0.strand with a := { s0.strand.a with loops := List.replicate 6 ⟨0x10008#56, 2#14, 3#32, 0#32⟩ } } }, ⟨0x10008#56, 2#14, 3#32, 0#32⟩,
      List.replicate 5 ⟨0x10008#56, 2#14, 3#32, 0#32⟩, ⟨.inl (by decide +kernel), by decide +kernel⟩, by decide +kernel, by decide +kernel, by decide +kernel, ready_nil _⟩⟩

theorem witness_StopWords : (∃ s : State, s.seq.misuse = none ∧ Calm s ∧ s.strand.h ≠ 0 ∧ (s.strand.seq (Stream.other s.stream)).ended = false ∧ s.strand.pend = []) ∧
    (∃ s : State, s.seq.misuse = none ∧ Calm s ∧ s.strand.h ≠ 0 ∧ (s.strand.seq (Stream.other s.stream)).ended = true) ∧
    ∃ (s : State) (m : W64), s.seq.misuse = some m :=
  ⟨⟨s0, by decide +kernel, calm0, by decide +kernel⟩,
    ⟨{ s0 with strand := { s0.strand with x := { s0.strand.x with ended := true } } }, by decide +kernel, ⟨.inl (by decide +kernel), by decide +kernel⟩,
      by decide +kernel⟩,
    ⟨{ s0 with strand := { s0.strand with a := { s0.strand.a with misuse := some 1 } } }, 1, by decide +kernel⟩⟩

theorem witness_PassingWords : (∃ s : State, s.strand.iterbound = 0 ∧ s.strand.cancelled = false) ∧ (∃ s : State, s.strand.iterbound = 0 ∧ s.strand.cancelled = true) ∧
    (∃ s : State, (s.strand.seq (Stream.other s.stream)).ended = true) ∧
    (∃ s : State, (s.strand.seq (Stream.other s.stream)).ended = false ∧ (s.strand.seq (Stream.other s.stream)).atGo = false) ∧
    ∃ s : State, (s.strand.seq (Stream.other s.stream)).ended = false ∧ (s.strand.seq (Stream.other s.stream)).atGo = true ∧ Calm s ∧ s.strand.iterbound = 0 :=
  ⟨⟨s0, by decide +kernel⟩, ⟨{ s0 with strand := { s0.strand with cancelled := true } }, by decide +kernel⟩,
    ⟨{ s0 with strand := { s0.strand with x := { s0.strand.x with ended := true } } }, by decide +kernel⟩, ⟨s0, by decide +kernel⟩,
    ⟨{ s0 with strand := { s0.strand with x := { s0.strand.x with atGo := true } } }, by decide +kernel, by decide +kernel,
      ⟨.inl (by decide +kernel), by decide +kernel⟩, by decide +kernel⟩⟩

/-- The strand in the foreground holds the accumulator file. -/
def sH : State := { sX with core := { sX.core with accownValid := true, accownHold := 1 } }
theorem calmH : Calm sH := ⟨.inl (by decide +kernel), by decide +kernel⟩
theorem holdsH : Holds sH := ⟨by decide +kernel, by decide +kernel⟩

theorem witness_SpecialRegisterWords : (∃ s, Ready [] (sPushes (.reg 1)) s ∧ Calm s ∧ Holds s ∧ Ready ([SOp.reg 1].flatMap sPops) [] s) ∧
    (∃ v, shapeLegal v) ∧ (∃ v, ¬shapeLegal v) ∧ (∃ v, topkLegal v) ∧ (∃ v, ¬topkLegal v) ∧
    ∃ n : BitVec 12, n.toNat ∉ [0x001, 0x002, 0x003, 0x011, 0x040, 0x050] :=
  ⟨⟨sH, ready_nil _, calmH, holdsH, ready_nil _⟩, ⟨0x1020, by unfold shapeLegal; decide⟩, ⟨0x1021, by unfold shapeLegal; decide⟩,
    ⟨64, by unfold topkLegal; decide⟩, ⟨65, by unfold topkLegal; decide⟩, ⟨0x020, by decide⟩⟩

-- Vector words: the operands are registers, a last result and a load queue.

theorem witness_IntegerLaneWords : ∃ i F s, intForm i = some F ∧ Ready (F.srcs.flatMap vPops) (vPushes F.d) s ∧ Calm s :=
  ⟨.vadd (.sq 1) (.lq 1) (.l 0) ⟨.s8, .rn, true⟩, _, sQ, rfl, (gate_go_iff _ _ _).1 (by decide +kernel), calmQ⟩

theorem witness_FloatLaneWords : ∃ i F s, floatForm i = some F ∧ Ready (F.srcs.flatMap vPops) (vPushes F.d) s ∧ Calm s :=
  ⟨.vfma (.v 1) (.lq 1) (.v 2) (.o 3) ⟨.bf16, .ru, false⟩, _, sQ, rfl, (gate_go_iff _ _ _).1 (by decide +kernel), calmQ⟩

theorem witness_ContainerWords : ∃ s, Ready (vpops [.lq 1, .v 2]) (vPushes (.v 1)) s ∧ Ready (vpops [.lq 1] ++ [SOp.lq 0].flatMap sPops) (vPushes (.v 1)) s ∧ Calm s :=
  ⟨sQ, (gate_go_iff _ _ _).1 (by decide +kernel), (gate_go_iff _ _ _).1 (by decide +kernel), calmQ⟩

theorem witness_FillingWords : ∃ s, Ready ([SOp.reg 1, .lq 0].flatMap sPops) (vPushes (.v 1)) s ∧
    Ready (vpops [.lq 1] ++ [SOp.reg 1, .lq 0].flatMap sPops) (vPushes (.sq 1)) s ∧ Calm s :=
  ⟨sQ, (gate_go_iff _ _ _).1 (by decide +kernel), (gate_go_iff _ _ _).1 (by decide +kernel), calmQ⟩

theorem witness_ShapeWords : (∃ s : State, 16 < shCols s.strand.vshape ∧ Ready (vpops [.lq 1] ++ [SOp.lq 0].flatMap sPops) (sPushes (.reg 1)) s ∧ Calm s ∧
      guardAt (hdrOf s.ir) s.strand.x 0 = true) ∧
    (∃ s : State, Ready (vpops [.lq 1] ++ [SOp.lq 0].flatMap sPops) (sPushes (.reg 1)) s ∧ Calm s ∧ guardAt (hdrOf s.ir) s.strand.x 0 = false) ∧
    ∃ s : State, shCols s.strand.vshape ≤ 16 ∧ Ready (vpops [.v 1]) (vPushes (.v 2)) s ∧ Calm s :=
  ⟨⟨sQ, by decide +kernel, (gate_go_iff _ _ _).1 (by decide +kernel), calmQ, by decide +kernel⟩,
    ⟨{ sQ with ir := BitVec.ofNat 64 (2 ^ 46 + 2 ^ 51) }, (gate_go_iff _ _ _).1 (by decide +kernel), ⟨.inl (by decide +kernel), by decide +kernel⟩, by decide +kernel⟩,
    ⟨{ sX with strand := { sX.strand with vshape := 0x1010#13 } }, by decide +kernel, ready_nil _, ⟨.inl (by decide +kernel), by decide +kernel⟩⟩⟩

theorem witness_CompareVectorWords : ∃ s, Ready (vpops [.lq 1, .v 2]) [] s ∧ Calm s := ⟨sQ, (gate_go_iff _ _ _).1 (by decide +kernel), calmQ⟩

theorem witness_RowWords : ∃ s, Ready (vpops [.lq 1, .v 2, .v 3]) (vPushes (.v 1)) s ∧ Calm s := ⟨sQ, (gate_go_iff _ _ _).1 (by decide +kernel), calmQ⟩

theorem witness_ConversionWords : ∃ s : State, Ready (vpops [.lq 1]) (vPushes (.v 1)) s ∧ Calm s ∧
    Instr.legal .x (.vcvt (.v 1) (.lq 1) .bf16 1 ⟨.f32, .rn, false⟩) = true ∧ Instr.legal .x (.vtf (.v 1) (.lq 1) 5 3 .rn) = true ∧
    let N := shRows s.strand.vshape * shCols s.strand.vshape
    (N * (32 / Ty.f32.width) % 16 = 0 ∧ 12 * (4 + 1) * (N * (32 / Ty.f32.width) / 16) ≤ 4 * N) ∧
    ¬(N * (32 / Ty.bf16.width) % 16 = 0 ∧ 12 * (4 + 1) * (N * (32 / Ty.bf16.width) / 16) ≤ 4 * N) :=
  ⟨sQ, (gate_go_iff _ _ _).1 (by decide +kernel), calmQ, by decide, by decide, by decide +kernel⟩

theorem witness_SpecialFunctionWordsAndPoints : (∃ s, Ready ([VSrc.lq 1, .v 2].flatMap vPops) (vPushes (.v 1)) s ∧ Calm s) ∧ ∃ x : FNum, x.isNaN = true :=
  ⟨⟨sQ, (gate_go_iff _ _ _).1 (by decide +kernel), calmQ⟩, canonNaN, by decide⟩

theorem witness_SelectionWordsAndOrder : (∃ (t : Ty) (k : BitVec 6) (s : State), t.is32 = true ∧ shCols s.strand.vshape < k.toNat) ∧
    (∃ (t : Ty) (k : BitVec 6) (s : State), t.is32 = true ∧ k.toNat ≤ shCols s.strand.vshape ∧ Ready (vpops [.lq 1]) (vPushes (.v 1)) s ∧ Ready (vpops [.lq 1]) [] s ∧ Calm s) ∧
    (∃ s : State, s.strand.topkNow.toNat % 128 = 0) ∧
    (∃ s : State, s.strand.topkNow.toNat % 128 ≠ 0 ∧ s.strand.topkNow.toNat / 2 ^ 32 % 2 ^ 25 + shRows s.strand.vshape * shCols s.strand.vshape ≤ 2 ^ 24 ∧
      Ready (vpops [.v 1]) [] s ∧ Calm s) ∧
    ∃ a b c : TopEnt, precedes 0 a b = true ∧ precedes 0 b c = true ∧ a.idx ≠ b.idx :=
  ⟨⟨.f32, 33, sX, by decide, by decide +kernel⟩, ⟨.s32, 32, sQ, by decide, by decide +kernel, (gate_go_iff _ _ _).1 (by decide +kernel),
      (gate_go_iff _ _ _).1 (by decide +kernel), calmQ⟩, ⟨sX, by decide +kernel⟩,
    ⟨{ sX with strand := { sX.strand with topk := 8#64 } }, by decide +kernel, by decide +kernel, ready_nil _, ⟨.inl (by decide +kernel), by decide +kernel⟩⟩,
    ⟨⟨1, 1⟩, ⟨1, 2⟩, ⟨1, 3⟩, by decide +kernel⟩⟩

theorem witness_Rounding : (∃ (t : Ty) (n : Nat), t.isF = true ∧ n < 2 ^ t.width ∧ (val t n).isNaN = false) ∧ (∃ n x, n < 2 ^ 16 ∧ tfDecode 16 1 n = some x) ∧
    (∃ n x, n < 2 ^ 8 ∧ tfDecode 8 0 n = some x) ∧
    ∃ (t : Ty) (m : Nat) (e : Int), t.isF = true ∧ let c := (deliverF (fmtOf t) .rn false (.fin false m e)).1
      (val t c).isNaN = false ∧ (val t c).isInf = false :=
  ⟨⟨.e4m3, 0x38, by decide, by decide, by decide⟩, ⟨0, (tfDecode 16 1 0).getD canonNaN, by decide, by decide +kernel⟩,
    ⟨0, (tfDecode 8 0 0).getD canonNaN, by decide, by decide +kernel⟩, ⟨.bf16, 3, -9, by decide, by decide +kernel⟩⟩

-- Accesses: register 1 holds an address that is not aligned to a word, register 2 one of the placed page.

/-- A list of hypotheses on the ranges of a page that the core's TLB translates. -/
theorem mapped1 (s : State) (k : AKind) (a n : Nat) (h : s.strand.acc.all (fun a => !a.op.isTlbinv) = true ∧
    ((touched [(a, n)]).all fun va => (s.tlbHit va).any fun e => (permFault e k).isNone) = true ∧ loggedByte s.strand [(a, n)] = none) :
    Mapped k [(a, n)] s := by
  obtain ⟨h1, h2, h3⟩ := h
  refine ⟨fun a ha => by simpa using List.all_eq_true.1 h1 a ha, fun va hv => ?_, h3⟩
  have := List.all_eq_true.1 h2 va hv
  cases he : s.tlbHit va with
  | none => simp [he] at this
  | some e => exact ⟨e, rfl, by simpa [he] using this⟩

theorem mapped0 (k : AKind) (a n : Nat) (h : s0.strand.acc.all (fun a => !a.op.isTlbinv) = true ∧
    ((touched [(a, n)]).all fun va => (s0.tlbHit va).any fun e => (permFault e k).isNone) = true ∧ loggedByte s0.strand [(a, n)] = none) :
    Mapped k [(a, n)] s0 := mapped1 s0 k a n h

/-- Register 1 of the A stream holds the endpoint window's first address. -/
def sE : State := machine 0 [0xFFFFFFFFC00000, 0x10040]
theorem calmE : Calm sE := ⟨.inl (by decide +kernel), by decide +kernel⟩

theorem witness_LoadWords :
    (∃ s a, Calm s ∧ Ready ([SOp.reg 1].flatMap sPops) [] s ∧ vals [.reg 1] s = [a] ∧ ¬Placed a 8 8 true) ∧
    (∃ s a, Calm s ∧ Ready ([SOp.reg 2].flatMap sPops) [(true, 3)] s ∧ vals [.reg 2] s = [a] ∧ Placed a 8 8 true ∧ inEndpoint a.toNat = false ∧ Mapped .read [(a.toNat, 8)] s) ∧
    ∃ s a, Calm s ∧ Ready ([SOp.reg 1].flatMap sPops) [(true, 3)] s ∧ vals [.reg 1] s = [a] ∧ Placed a 8 8 true ∧ inEndpoint a.toNat = true ∧ Mapped .read [] s :=
  ⟨⟨s0, 0x1004, calm0, ready_nil _, by decide +kernel, by unfold Placed; decide⟩,
    ⟨s0, 0x10000, calm0, ready_lq 3, by decide +kernel, by unfold Placed; decide, by decide, mapped0 _ _ _ (by decide +kernel)⟩,
    ⟨sE, 0xFFFFFFFFC00000, calmE, (gate_go_iff _ _ _).1 (by decide +kernel), by decide +kernel, by unfold Placed; decide, by decide,
      ⟨by rw [show sE.strand.acc = [] from by decide +kernel]; exact fun a h => absurd h (by simp), fun va h => absurd h (by simp [touched]), by decide +kernel⟩⟩⟩

/-- The A stream's shape is one element. -/
def s1 : State := { s0 with strand := { s0.strand with ashape := 0x0101#13 } }
theorem calm1 : Calm s1 := ⟨.inl (by decide +kernel), by decide +kernel⟩

theorem witness_LoadVectorWord :
    (∃ s, Calm s ∧ Ready ([SOp.reg 1, .none].flatMap sPops) [] s ∧ vals [.reg 1, .none] s = [0x1004, 0] ∧ ¬Placed 0x1005 4 4 false) ∧
    ∃ s, Calm s ∧ Ready ([SOp.reg 2, .none].flatMap sPops) [(true, 0)] s ∧ vals [.reg 2, .none] s = [0x10000, 0] ∧ shRows s.strand.ashape = 1 ∧
      rows 0x10000 4 1 = [0x10000] ∧ Placed 0x10000 4 4 false ∧ Mapped .read [(0x10000, 4)] s :=
  ⟨⟨s1, calm1, ready_nil _, by decide +kernel, by unfold Placed; decide⟩,
    ⟨s1, calm1, (gate_go_iff _ _ _).1 (by decide +kernel), by decide +kernel, by decide +kernel, by decide +kernel, by unfold Placed; decide,
      mapped1 _ _ _ _ (by decide +kernel)⟩⟩

/-- A machine whose store queue 1 has a vector entry. -/
def sS : State := { s0 with strand := { s0.strand with sq := [[], [⟨2, .v 16 32 VReg.zero, some 0, none⟩], [], []] } }
theorem calmS : Calm sS := ⟨.inl (by decide +kernel), by decide +kernel⟩

theorem witness_StoreWords :
    (∃ s a, Calm s ∧ Ready ([SOp.reg 1, .reg 3].flatMap sPops) [] s ∧ vals [.reg 1, .reg 3] s = [a, 3] ∧ ¬Placed a 8 8 true ∧ Placed a 4 4 false ∧ inEndpoint a.toNat = false) ∧
    (∃ s a, Calm s ∧ Ready ([SOp.reg 1, .reg 2].flatMap sPops) [] s ∧ vals [.reg 1] s = [a] ∧ Placed a 8 8 true ∧ inEndpoint a.toNat = true) ∧
    ∃ s e, Calm s ∧ Ready ([SOp.reg 2, .none].flatMap sPops ++ [⟨false, 1, true⟩]) [] s ∧ (popped [.reg 2, .none] s).strand.queue false 1 = [e] ∧
      e.val = .v 16 32 VReg.zero ∧ rows 0x10000 0 1 = [0x10000] ∧ Placed 0x10000 128 4 false :=
  ⟨⟨s0, 0x1004, calm0, ready_nil _, by decide +kernel, by unfold Placed; decide, by unfold Placed; decide, by decide⟩,
    ⟨sE, 0xFFFFFFFFC00000, calmE, ready_nil _, by decide +kernel, by unfold Placed; decide, by decide⟩,
    ⟨sS, ⟨2, .v 16 32 VReg.zero, some 0, none⟩, calmS, (gate_go_iff _ _ _).1 (by decide +kernel), by decide +kernel, rfl, by decide +kernel, by unfold Placed; decide⟩⟩

theorem witness_AtomicWords : ∃ i op u n d srcs s a, atomicForm i = some (op, u, n, d, srcs) ∧ d = .lq 2 ∧ Calm s ∧ Ready (srcs.flatMap sPops) [(true, 2)] s ∧
    (vals srcs s).getD 0 0#64 = a ∧ Placed a n n false ∧ Mapped .atomic [(a.toNat, n)] s ∧ ¬Placed (a + 4) n n false :=
  ⟨.acas .w64 (.lq 2) (.reg 2) (.reg 3) (.reg 4), 5, false, 8, .lq 2, [.reg 2, .reg 3, .reg 4], s0, 0x10000, rfl, rfl, calm0, ready_lq 2, by decide +kernel,
    by unfold Placed; decide, mapped0 _ _ _ (by decide +kernel), by unfold Placed; decide⟩

theorem witness_GatherAndFenceWords :
    (∃ s, Calm s ∧ Ready ([SOp.reg 2, .reg 3].flatMap sPops) [] s ∧ s.strand.six = [] ∧ Ready ([SOp.reg 2].flatMap sPops) [(true, 1)] s ∧ Placed 0x10000 4 4 false) ∧
    (∃ c : W64, c.toNat / 2 ^ 32 ≠ 0 ∧ c.toNat / 2 ^ 16 % 2 ^ 16 % 4 = 0 ∧ 4 ≤ c.toNat / 2 ^ 16 % 2 ^ 16 ∧ c.toNat / 2 ^ 12 % 16 = 0 ∧ c.toNat / 4 % 64 = 0 ∧ c.toNat % 4 < 2) ∧
    ∃ (s : State) (x : Six) (r : List Six), Calm s ∧ s.strand.six = x :: r :=
  ⟨⟨s0, calm0, ready_nil _, by decide +kernel, ready_lq 1, by unfold Placed; decide⟩, ⟨0x0000000100040001, by decide⟩,
    ⟨{ s0 with strand := { s0.strand with six := [⟨1, 0x10000, 1, 4, false, 0, 0, []⟩] } }, ⟨1, 0x10000, 1, 4, false, 0, 0, []⟩, [],
      ⟨.inl (by decide +kernel), by decide +kernel⟩, rfl⟩⟩

/-- The load of register 2's word at the head of the pipeline, with its entry reserved; the same with another operation, and with the
bytes in the scratchpad. -/
def sAcc (op : AccOp) : State :=
  { s0 with strand := { s0.strand with acc := [⟨5, .a, op, false, [], 0⟩], lq := [[⟨4, .s 0, none, none⟩], [], [], []] } }

theorem first_sAcc (op : AccOp) : First op (sAcc op) := by
  have h : s0.strand.h ≠ 0 ∧ s0.strand.sidelog = [] ∧ s0.strand.request = 0 ∧ s0.pkg.seqRings = [] ∧ s0.pkg.errs = [] ∧ s0.pkg.shards = [] := by decide +kernel
  have g : (sAcc op).shardAt (sAcc op).strand.slot = none := by
    have e : (sAcc op).pkg.shards = [] := h.2.2.2.2.2
    unfold State.shardAt State.shardRec
    rw [e]; rfl
  exact ⟨h.1, h.2.1, h.2.2.1, h.2.2.2.1, h.2.2.2.2.1, (fun x hx => by rw [g] at hx; cases hx), _, _, rfl, rfl, rfl⟩

theorem witness_PerformedAccesses :
    (∃ s, First (.load 0 4 .s32 0x10040) s ∧ Reserved 0 4 s ∧ Plain .read 0x10040 4 (placePa + 0x40) s ∧ s.pkg.mem.wf = true ∧ s.core.scratch.wf = true) ∧
    (∃ s, First (.store (storeCells 0xFFFFFFFFE00040 8 0x1234)) s ∧ CleanPad 0xFFFFFFFFE00040 8 0x40 s) ∧
    ∃ s, First (.atom 0 true false 0x10040 1 0 (some (0, 4))) s ∧ Reserved 0 4 s ∧ Plain .atomic 0x10040 8 (placePa + 0x40) s := by
  refine ⟨⟨sAcc (.load 0 4 .s32 0x10040), first_sAcc _, ?_,
      ⟨by decide +kernel, by decide, by decide, by decide +kernel, by decide +kernel, by decide +kernel, by decide +kernel, ?_, by decide +kernel, ?_⟩, by decide +kernel⟩,
    ⟨sAcc (.store (storeCells 0xFFFFFFFFE00040 8 0x1234)), first_sAcc _,
      ⟨⟨by decide, by decide, by decide, by decide⟩, by decide +kernel⟩⟩,
    ⟨sAcc (.atom 0 true false 0x10040 1 0 (some (0, 4))), first_sAcc _, ?_,
      ⟨by decide +kernel, by decide, by decide, by decide +kernel, by decide +kernel, by decide +kernel, by decide +kernel, ?_, by decide +kernel, ?_⟩⟩⟩
  · intro e he hid; simp [sAcc, Strand.queue] at he; subst he; exact ⟨rfl, rfl⟩
  · have h : ((sAcc (.load 0 4 .s32 0x10040)).allCores.all fun c => c.upd.isEmpty) = true := by decide +kernel
    intro c hc l hl; have := List.all_eq_true.1 h c hc; simp at this; rw [this] at hl; cases hl
  · exact ⟨placeEntry 0, by decide +kernel, by decide +kernel, by decide +kernel, by decide +kernel, fun a ha f hf => by cases ha; cases hf⟩
  · intro e he hid; simp [sAcc, Strand.queue] at he; subst he; exact ⟨rfl, rfl⟩
  · have h : ((sAcc (.atom 0 true false 0x10040 1 0 (some (0, 4)))).allCores.all fun c => c.upd.isEmpty) = true := by decide +kernel
    intro c hc l hl; have := List.all_eq_true.1 h c hc; simp at this; rw [this] at hl; cases hl
  · exact ⟨placeEntry 0, by decide +kernel, by decide +kernel, by decide +kernel, by decide +kernel, fun a ha f hf => by cases ha; cases hf⟩

-- Copies and matrix words

/-- One with every copy slot busy, and one whose first slot is. -/
def aCopy : Copy := Copy.start s0.strand 1 0x10000 0x10200 4 none
def sB : State := { s0 with strand := { s0.strand with slots := List.replicate 16 (some aCopy) } }
theorem calmB : Calm sB := ⟨.inl (by decide +kernel), by decide +kernel⟩

theorem witness_RingWords :
    (∃ s v, Calm s ∧ Ready ([SOp.reg 1].flatMap sPops) [] s ∧ vals [.reg 1] s = [v] ∧ ¬ImageOk v) ∧
    (∃ (s : State) (v : W64), Calm s ∧ vals [.reg 0] s = [v] ∧ ImageOk v ∧ (s.strand.ring 3).resv = (s.strand.ring 3).tail ∧ Ready [] (sPushes (.reg 1)) s ∧
      ((s.strand.ring 3).tail - (s.strand.ring 3).head).toNat < (1#6).toNat ∧ (0#6).toNat ≤ ((s.strand.ring 3).tail - (s.strand.ring 3).head).toNat) ∧
    ∃ s : State, Calm s ∧ ImageOk 0 ∧ (s.strand.ring 3).resv ≠ (s.strand.ring 3).tail :=
  ⟨⟨s0, 0x1004, calm0, ready_nil _, by decide +kernel, by unfold ImageOk; decide⟩,
    ⟨s0, 0, calm0, by decide +kernel, by unfold ImageOk; decide, by decide +kernel, ready_nil _, by decide +kernel⟩,
    ⟨{ s0 with strand := s0.strand.setRing 3 ⟨0, 1, 0, 0, [], []⟩ }, ⟨.inl (by decide +kernel), by decide +kernel⟩, by unfold ImageOk; decide, by decide +kernel⟩⟩

theorem busy_aCopy : Busy (some aCopy) := ⟨aCopy, rfl, .pending, by decide +kernel, .inl rfl⟩
theorem free0 : FreeSlot s0.strand 0 := ⟨⟨none, by decide +kernel, fun ⟨_, h, _⟩ => by cases h⟩, fun _ _ h => by omega⟩

/-- No copy, no chain record and no matrix word or drain-add of the strand. -/
theorem numbered_of (s : State) (h : (s.strand.slots.all (·.isNone)) = true ∧ (s.strand.chans.all fun c => decide (c.id ≤ s.strand.nid)) = true ∧ s.core.cmuq = [] ∧
    s.pkg.dadds = []) : Numbered s := by
  refine ⟨fun c hc => ?_, fun c hc => by simpa using List.all_eq_true.1 h.2.1 c hc, fun q hq => ?_, fun d hd => ?_⟩
  · have := List.all_eq_true.1 h.1 _ hc; cases this
  · rw [h.2.2.1] at hq; cases hq
  · rw [h.2.2.2] at hd; cases hd
theorem idle0 : (s0.strand.slots.all (·.isNone)) = true ∧ (s0.strand.chans.all fun c => decide (c.id ≤ s0.strand.nid)) = true ∧ s0.core.cmuq = [] ∧ s0.pkg.dadds = [] := by
  decide +kernel

theorem witness_CopyAndWaitWords :
    (∃ s, Calm s ∧ Ready ([SOp.reg 1, .reg 2, .reg 3].flatMap sPops) (sPushes (.reg 4)) s ∧ ∀ c ∈ s.strand.slots, Busy c) ∧
    (∃ s k, Calm s ∧ FreeSlot s.strand k ∧ copyBad s.strand 0x10000 0x10200 4 none = none ∧ inScratch 0x10000 = false ∧ copyBad s.strand 0x10000 0x10200 3 none ≠ none) ∧
    (∃ s : State, Calm s ∧ (s.strand.ring 3).count ≤ ((s.strand.ring 3).resv - (s.strand.ring 3).head).toNat) ∧
    (∃ s : State, Calm s ∧ ((s.strand.ring 3).resv - (s.strand.ring 3).head).toNat < (s.strand.ring 3).count ∧
      copyBad s.strand 0x10000 (nat (0xFFFFFFFFE00000 + (s.strand.ring 3).tileAt (s.strand.ring 3).resv.toNat)) 512 (some (s.strand.ring 3).tileBytes) = none) ∧
    (∃ s : State, Calm s ∧ ((s.strand.ring 3).resv - (s.strand.ring 3).head).toNat < (s.strand.ring 3).count ∧
      copyBad s.strand 0x10002 (nat (0xFFFFFFFFE00000 + (s.strand.ring 3).tileAt (s.strand.ring 3).resv.toNat)) 512 (some (s.strand.ring 3).tileBytes) = some (.align, 0x10002)) ∧
    (∃ (s : State) (c : Copy), Calm s ∧ s.strand.slots[3]? = some (some c) ∧ c.chunks = [.pending] ∧ ((1#64).toNat + 0).testBit 0 = true) ∧
    (∃ s : State, Calm s ∧ s.strand.slots[3]? = some none ∧ (∃ c, s.strand.chans[1]? = some c ∧ c.walking = false ∧ c.recs = []) ∧
      Placed 0x10000 64 64 false ∧ ¬Placed 0x10004 64 64 false ∧ Numbered s ∧ ¬Outstanding 0 ⟨true, true, true⟩ s) ∧
    ∃ s : State, Calm s ∧ Numbered s ∧ Outstanding 0 ⟨true, true, true⟩ s := by
  refine ⟨⟨sB, calmB, ready_nil _, fun c hc => ?_⟩, ⟨s0, 0, calm0, free0, by decide +kernel, by decide, by decide +kernel⟩,
    ⟨{ s0 with strand := s0.strand.setRing 3 ⟨0, 1, 0, 0, [], []⟩ }, ⟨.inl (by decide +kernel), by decide +kernel⟩, by decide +kernel⟩,
    ⟨s0, calm0, by decide +kernel⟩, ⟨s0, calm0, by decide +kernel⟩, ⟨sB, aCopy, calmB, by decide +kernel, by decide +kernel, by decide⟩,
    ⟨s0, calm0, by decide +kernel, ⟨⟨0, 0, false, [], []⟩, by decide +kernel, rfl, rfl⟩, by unfold Placed; decide, by unfold Placed; decide, numbered_of _ idle0,
      fun ⟨a, ha, _⟩ => by rw [show s0.strand.acc ++ s0.strand.sidelog = [] from by decide +kernel] at ha; cases ha⟩,
    ⟨sAcc (.store [(0x10040, 1)]), ⟨.inl (by decide +kernel), by decide +kernel⟩, numbered_of _ (by decide +kernel), _, .head _, _, .head _, by decide +kernel⟩⟩
  have : c = some aCopy := List.eq_of_mem_replicate hc
  subst this; exact busy_aCopy

/-- The holder's machine with rings 1 and 2 of one landed tile each and ring 3 of one free tile, of format 2 (bf16) in its region. -/
def sM : State :=
  { sH with strand := { sH.strand with
    rings := ([⟨0, 0, 0, 0, [], []⟩, ⟨0x03000000, 1, 1, 0, [], []⟩, ⟨0x03000000, 1, 1, 0, [], []⟩, ⟨0x07000000, 0, 0, 0, [], []⟩] : List Ring) ++ sH.strand.rings.drop 4
    fr := 2 :: sH.strand.fr.drop 1 } }
theorem calmM : Calm sM := ⟨.inl (by decide +kernel), by decide +kernel⟩
theorem holdsM : Holds sM := ⟨by decide +kernel, by decide +kernel⟩

theorem witness_MatrixUse : (∃ s, Calm s ∧ s.core.cmuq.length < 4 ∧ Holds s) ∧
    (∃ s, Calm s ∧ s.core.cmuq.length < 4 ∧ ¬Holds s ∧ s.strand.spill = none ∧ s.core.accownValid = false ∧ s.core.accownHold = 0) ∧
    (∃ s, Calm s ∧ s.core.cmuq.length < 4 ∧ ¬Holds s ∧ s.strand.spill = none ∧ s.core.accownValid = true ∧ s.core.accownHold ≠ 0 ∧ s.core.accownCtx = s.strand.ctx ∧
      s.core.acclive = 0#8) ∧
    ∃ s, Calm s ∧ s.core.cmuq.length < 4 ∧ ¬Holds s ∧ ¬(s.strand.spill = none ∧ (s.core.accownValid = false ∨ (s.core.accownCtx = s.strand.ctx ∧ s.core.acclive = 0#8))) :=
  ⟨⟨sH, calmH, by decide +kernel, holdsH⟩, ⟨sX, calmX, by decide +kernel, by unfold Holds; decide +kernel, by decide +kernel⟩,
    ⟨{ sX with core := { sX.core with accownValid := true, accownHold := 9, accownCtx := sX.strand.ctx } }, ⟨.inl (by decide +kernel), by decide +kernel⟩, by decide +kernel,
      by unfold Holds; decide +kernel, by decide +kernel⟩,
    ⟨{ sX with core := { sX.core with accownValid := true, accownHold := 9, acclive := 1 } }, ⟨.inl (by decide +kernel), by decide +kernel⟩, by decide +kernel,
      by unfold Holds; decide +kernel, by decide +kernel⟩⟩

theorem witness_MatrixProducts :
    (∃ s : State, Calm s ∧ Holds s ∧ UnitFree s ∧ Landed (s.strand.ring 1) ∧ Landed (s.strand.ring 2) ∧
      pairs (s.strand.ringFmt (s.strand.ring 1)) (s.strand.ringFmt (s.strand.ring 2)) = some (32, 64, .f32) ∧ 32 * 64 ≤ (s.strand.ring 1).tileBytes ∧
      32 * 64 ≤ (s.strand.ring 2).tileBytes ∧ Clean s.core ((s.strand.ring 1).tileAt 0) (32 * 64) ∧ Clean s.core ((s.strand.ring 2).tileAt 0) (32 * 64)) ∧
    (∃ s : State, Calm s ∧ Holds s ∧ pairs (s.strand.ringFmt (s.strand.ring 1)) (s.strand.ringFmt (s.strand.ring 2)) = none) ∧
    (∃ s : State, Calm s ∧ Holds s ∧ UnitFree s ∧ (s.strand.ring 1).tail ≠ (s.strand.ring 1).head ∧ (s.strand.ring 1).head.toNat ∈ (s.strand.ring 1).failed) ∧
    (∃ s : State, Calm s ∧ Holds s ∧ (s.strand.ring 1).tail = (s.strand.ring 1).head) ∧
    ∃ a : List Byte, a.length = 2048 :=
  ⟨⟨sM, calmM, holdsM, by unfold UnitFree; decide +kernel, by unfold Landed; decide +kernel, by unfold Landed; decide +kernel, by decide +kernel, by decide +kernel, by decide +kernel,
      by unfold Clean; decide +kernel, by unfold Clean; decide +kernel⟩,
    ⟨sH, calmH, holdsH, by decide +kernel⟩,
    ⟨{ sM with strand := sM.strand.setRing 1 ⟨0x03000000, 1, 1, 0, [0], []⟩ }, ⟨.inl (by decide +kernel), by decide +kernel⟩, ⟨by decide +kernel, by decide +kernel⟩,
      by unfold UnitFree; decide +kernel, by decide +kernel⟩,
    ⟨sH, calmH, holdsH, by decide +kernel⟩, List.replicate 2048 0, by rw [List.length_replicate]⟩

theorem witness_MatrixTileWords :
    (∃ s : State, Calm s ∧ Holds s ∧ s.core.cmuq.length < 4 ∧ UnitFree s ∧ Landed (s.strand.ring 1) ∧ s.strand.ringFmt (s.strand.ring 1) < 11 ∧
      1024 * elemBytes (s.strand.ringFmt (s.strand.ring 1)) ≤ (s.strand.ring 1).tileBytes ∧ ((s.strand.ring 3).resv - (s.strand.ring 3).head).toNat < (s.strand.ring 3).count ∧
      s.strand.matIds = [] ∧ Ready [] (sPushes (.reg 1)) s ∧ Ready ([SOp.reg 3].flatMap sPops) [] s ∧ vals [.reg 3] s = [3] ∧ vals [.reg 4] s = [0xFFFFFFFFFFFFFFFF]) ∧
    (∃ s : State, Calm s ∧ Holds s ∧ 4 ≤ s.core.cmuq.length ∧ ¬UnitFree s) ∧
    ∃ s : State, Calm s ∧ Holds s ∧ (s.strand.ring 0).tail = (s.strand.ring 0).head ∧ (s.strand.ring 0).tileBytes < 4096 :=
  ⟨⟨sM, calmM, holdsM, by decide +kernel, by unfold UnitFree; decide +kernel, by unfold Landed; decide +kernel, by decide +kernel, by decide +kernel, by decide +kernel,
      by decide +kernel, ready_nil _, ready_nil _, by decide +kernel⟩,
    ⟨{ sM with core := { sM.core with cmuq := List.replicate 4 (1, .zero 0) } }, ⟨.inl (by decide +kernel), by decide +kernel⟩, ⟨by decide +kernel, by decide +kernel⟩,
      by decide +kernel, by unfold UnitFree; decide +kernel⟩,
    ⟨sM, calmM, holdsM, by decide +kernel⟩⟩

-- Events, barriers, launches, queues, tasks, engines

/-- A context in slot 0 of whose record every field is in range, and the machine with it and one running launch of one stage. -/
def rec0 : List W64 :=
  [0, 0x0000000500100010, 0x0000000008FF0000, 0x0000000A00000000, 0x100000, 0x0000001000000001, 0x200000, 0x300000, 0x0000000900000000, 0x400000, 1] ++ List.replicate 5 0
def ctx0 : Ctx := Ctx.create 0 1 0 0x1000009C4 rec0
def sC : State := { s0 with pkg := { s0.pkg with ctxs := [ctx0] } }
theorem calmC : Calm sC := ⟨.inl (by decide +kernel), by decide +kernel⟩

theorem witness_EventWords :
    (∃ s v, Ready ([SOp.reg 4].flatMap sPops) [] s ∧ vals [.reg 4] s = [v] ∧ 65536 ≤ v.toNat) ∧
    (∃ s v, Ready ([SOp.reg 3].flatMap sPops) (sPushes (.reg 1)) s ∧ Calm s ∧ vals [.reg 3] s = [v] ∧ v.toNat < 65536 ∧ eventFull s v.toNat false = false ∧
      eventFull s v.toNat true = false ∧ s.strand.cancelled = false ∧ s.seq.woken = false ∧ s.seq.waiting = false) ∧
    (∃ s : State, Calm s ∧ s.strand.cancelled = false ∧ s.seq.woken = true) ∧ (∃ s : State, Calm s ∧ s.strand.cancelled = false ∧ s.seq.woken = false ∧ s.seq.waiting = true) ∧
    ∃ s : State, s.strand.cancelled = true :=
  ⟨⟨s0, 0xFFFFFFFFFFFFFFFF, ready_nil _, by decide +kernel, by decide⟩,
    ⟨s0, 3, ready_nil _, calm0, by decide +kernel, by decide, by decide +kernel⟩,
    ⟨{ s0 with strand := { s0.strand with a := { s0.strand.a with woken := true } } }, ⟨.inl (by decide +kernel), by decide +kernel⟩, by decide +kernel⟩,
    ⟨{ s0 with strand := { s0.strand with a := { s0.strand.a with waiting := true } } }, ⟨.inl (by decide +kernel), by decide +kernel⟩, by decide +kernel⟩,
    ⟨{ s0 with strand := { s0.strand with cancelled := true } }, rfl⟩⟩

/-- A barrier of the context, on die 0 under index 3. -/
def bar0 : Bar := { die := 0, slot := 0, index := 3, active := true, phase := 5, count := 2, arr := 2, pf := false, lastf := false, exp := 0, saved := false }
def sBar (b : Bar) : State := { s0 with pkg := { s0.pkg with bars := [b] } }

theorem witness_BarrierWords :
    (∃ s, Calm s ∧ Ready ([SOp.reg 3, .reg 3].flatMap sPops) [] s ∧ vals [.reg 3, .reg 3] s = [3, 3] ∧ s.barAt s.strand.slot 0 3 = some bar0 ∧ s.strand.cancelled = false ∧
      s.seq.misuse = none ∧ 0 < (bar0.phase - BitVec.ofNat 32 3).toInt ∧ Ready [] (sPushes (.reg 1)) s ∧ ¬Busy ((s.strand.slots[3]?).join)) ∧
    (∃ s, Calm s ∧ vals [.reg 3, .reg 3] s = [3, 3] ∧ s.barAt s.strand.slot 0 3 = none) ∧ (∃ s, Calm s ∧ (∃ v, vals [.reg 2, .reg 3] s = [v, 3] ∧ 2048 ≤ v.toNat)) ∧
    (∃ (s : State) (b : Bar), Calm s ∧ s.barAt s.strand.slot 0 3 = some b ∧ b.active = false ∧ barPending s 0 3 = false) ∧
    ∃ s c, Calm s ∧ s.barAt s.strand.slot 0 3 = some bar0 ∧ Busy (some c) ∧ s.strand.slots[3]? = some (some c) ∧ c.bar = none :=
  ⟨⟨sBar bar0, ⟨.inl (by decide +kernel), by decide +kernel⟩, ready_nil _, by decide +kernel, by decide +kernel, by decide +kernel, by decide +kernel, by decide, ready_nil _,
      fun ⟨_, h, _⟩ => absurd h (by rw [show ((sBar bar0).strand.slots[3]?).join = none from by decide +kernel]; simp)⟩,
    ⟨s0, calm0, by decide +kernel⟩, ⟨s0, calm0, 0x10000, by decide +kernel, by decide⟩,
    ⟨sBar { bar0 with active := false }, { bar0 with active := false }, ⟨.inl (by decide +kernel), by decide +kernel⟩, by decide +kernel, rfl, by decide +kernel⟩,
    ⟨{ sBar bar0 with strand := sB.strand }, aCopy, ⟨.inl (by decide +kernel), by decide +kernel⟩, by decide +kernel, busy_aCopy, by decide +kernel⟩⟩

theorem witness_LaunchAndCancelWords :
    (∃ s v, Calm s ∧ Ready ([SOp.reg 4].flatMap sPops) [] s ∧ vals [.reg 4] s = [v] ∧ ¬(v.toNat % 2 ^ 0 = 0 ∧ v.toNat < 2 ^ 35)) ∧
    (∃ s v, Calm s ∧ Ready ([SOp.reg 3].flatMap sPops) (sPushes (.reg 1)) s ∧ vals [.reg 3] s = [v] ∧ (v.toNat % 2 ^ 0 = 0 ∧ v.toNat < 2 ^ 35) ∧ v.toNat < 65536) ∧
    (∃ s a, Calm s ∧ Ready ([SOp.reg 2].flatMap sPops) (sPushes (.reg 1)) s ∧ vals [.reg 2] s = [a] ∧ s.core.credit s.strand.slot ≠ 0 ∧ Placed a 64 64 false ∧ inLocal a.toNat = false) ∧
    ∃ s : State, Calm s ∧ s.core.credit s.strand.slot = 0 :=
  ⟨⟨s0, 0xFFFFFFFFFFFFFFFF, calm0, ready_nil _, by decide +kernel, by decide⟩, ⟨s0, 3, calm0, ready_nil _, by decide +kernel, by decide, by decide⟩,
    ⟨{ s0 with core := { s0.core with credits := [(0, 3)] } }, 0x10000, ⟨.inl (by decide +kernel), by decide +kernel⟩, ready_nil _, by decide +kernel, by decide +kernel, by unfold Placed; decide, by decide⟩,
    ⟨{ s0 with core := { s0.core with credits := [(0, 0)] } }, ⟨.inl (by decide +kernel), by decide +kernel⟩, by decide +kernel⟩⟩

/-- A kernel of two stages, a launch of it that runs, and the strand of its first stage. -/
def stage0 : StageD := { aoff := 0, awords := 32, xoff := 256, xwords := 32, iterbound := 0, spsave := 0, rows := 16, cols := 32, qdepth := 4, rings := [] }
def kernel0 : Kernel := { handle := 5, va := 0x20000, objsize := 0x1000, gi := true, gm := true, gv := true, stages := [stage0, stage0], pins := [], perms := [], pinDies := 0 }
def unit0 : UnitSt := { nextIndex := 1, completed := 0, cancelled := false, complete := false, offered := false }
def launch0 : Launch :=
  { id := 1, order := 0, q := 0, handle := 5, addr := 0x30000, waits := [], sig := false, done := 0, count := 4, insize := 64, inbase := 0x40000, job := 0, phase := 0,
    graph := 0, maxcores := 0, state := .running, inStore := true, place := 0, cls := 3, aged := false, handed := 0, sqs := [⟨[], false⟩], units := [unit0, unit0], request := 0, cycles := 0, acqFrom := 0 }
def sL (k : BitVec 3) (last : Bool) (recs : List SQRec) : State :=
  { s0 with strand := { s0.strand with launch := 1, unit := k, lastStage := last }
            pkg := { s0.pkg with ctxs := [{ ctx0 with kernels := [kernel0], launches := [{ launch0 with sqs := [⟨recs, false⟩] }] }] } }

theorem witness_StageQueueWords :
    (∃ s l, Calm s ∧ Ready ([SOp.reg 3].flatMap sPops) [] s ∧ s.strand.lastStage = false ∧ s.launchAt s.strand.slot s.strand.launch.toNat = some l ∧ l.closed 0 = false ∧
      s.strand.queuePushed.length < 16 ∧ (l.queue 0).length + s.strand.queuePushed.length < s.qdepth s.strand.slot l.id 0 ∧ Ready [] (sPushes (.reg 1)) s ∧
      s.strand.cancelled = false ∧ commitFits s = true ∧ withdraws (s.commit s.strand.h false) = false ∧ s.strand.replay = none ∧ s.launch = some l ∧ l.handed < l.count ∧
      l.unitCancelled 0 = false) ∧
    (∃ s, Calm s ∧ s.strand.lastStage = true) ∧
    (∃ s l r, Calm s ∧ s.strand.unit = 1#3 ∧ s.launch = some l ∧ l.queue 0 = [r] ∧ released s r = true) ∧
    ∃ s l, Calm s ∧ s.strand.lastStage = false ∧ s.launch = some l ∧ s.qdepth s.strand.slot l.id 0 ≤ (l.queue 0).length :=
  ⟨⟨sL 0 false [], launch0, ⟨.inl (by decide +kernel), by decide +kernel⟩, ready_nil _, by decide +kernel, by decide +kernel, by decide +kernel, by decide +kernel,
      by decide +kernel, ready_nil _, by decide +kernel⟩,
    ⟨sL 1 true [], ⟨.inl (by decide +kernel), by decide +kernel⟩, rfl⟩,
    ⟨sL 1 true [⟨7, 9, 3⟩], { launch0 with sqs := [⟨[⟨7, 9, 3⟩], false⟩] }, ⟨7, 9, 3⟩, ⟨.inl (by decide +kernel), by decide +kernel⟩, by decide +kernel⟩,
    ⟨sL 0 false (List.replicate 4 ⟨7, 9, 3⟩), { launch0 with sqs := [⟨List.replicate 4 ⟨7, 9, 3⟩, false⟩] }, ⟨.inl (by decide +kernel), by decide +kernel⟩, by decide +kernel⟩⟩

theorem witness_TaskWords :
    (∃ s a, Calm s ∧ Ready ([SOp.reg 2].flatMap sPops) [] s ∧ vals [.reg 2] s = [a] ∧ Placed a 128 128 false ∧ inLocal a.toNat = false ∧ Ready [] (sPushes (.reg 1)) s ∧
      s.strand.prog[1]? = some none) ∧
    (∃ s a, Calm s ∧ Ready ([SOp.reg 1].flatMap sPops) [] s ∧ vals [.reg 1] s = [a] ∧ ¬Placed a 128 128 false) ∧
    ∃ (s : State) (t : Task), Calm s ∧ s.strand.prog[1]? = some (some 7) ∧ s.taskAt 7 = some t ∧ t.state = .pending :=
  ⟨⟨s0, 0x10000, calm0, ready_nil _, by decide +kernel, by unfold Placed; decide, by decide, ready_nil _, by decide +kernel⟩,
    ⟨s0, 0x1004, calm0, ready_nil _, by decide +kernel, by unfold Placed; decide⟩,
    ⟨{ s0 with strand := { s0.strand with prog := [none, some 7, none, none] }, pkg := { s0.pkg with tasks := [Task.fresh 7 s0.strand 3 0x10000] } },
      Task.fresh 7 s0.strand 3 0x10000, ⟨.inl (by decide +kernel), by decide +kernel⟩, by decide +kernel⟩⟩

theorem witness_EngineWords :
    (∃ s, Calm s ∧ Ready ([SOp.reg 2, .reg 2].flatMap sPops) [(true, 0)] s ∧ vals [.reg 2, .reg 2] s = [0x10000, 0x10000] ∧ EngineAt 0x10000 64 ∧ Placed 0x10000 8 8 false ∧ ¬Placed 0x10004 8 8 false ∧
      s.pageFails s.strand.slot 0x10000 = false ∧ s.shardAt s.strand.slot = none ∧ Mapped .read [(0x10000, 8)] s) ∧
    ∃ s, Calm s ∧ Ready ([SOp.reg 2, .reg 1].flatMap sPops) [] s ∧ vals [.reg 2, .reg 1] s = [0x10000, 0x1004] ∧ EngineAt 0x10000 64 ∧ ¬EngineAt 0x1004 64 :=
  ⟨⟨s0, calm0, ready_lq 0, by decide +kernel, by unfold EngineAt Placed; decide, by unfold Placed; decide, by unfold Placed; decide, by decide +kernel, by decide +kernel,
      mapped0 _ _ _ (by decide +kernel)⟩,
    ⟨s0, calm0, ready_nil _, by decide +kernel, by unfold EngineAt Placed; decide, by unfold EngineAt Placed; decide⟩⟩

-- The step as a whole

/-- The state at which the NOP of s0 issues. -/
def t0 : State := { advance ((nextStream s0).getD (.a, 0)).2 s0 with stream := .a, ir := 0#64 }
theorem fetches0 : Fetches s0 0 t0 :=
  ⟨.a, ((nextStream s0).getD (.a, 0)).2, by decide +kernel, by decide +kernel, rfl, (t0.lineAt 0x10000#56).getD ⟨0, 0, false, false, []⟩, by decide +kernel, by decide +kernel,
    by decide +kernel, .inr ⟨by decide +kernel, by decide +kernel⟩⟩

theorem witness_StepRunsDecodedWord :
    (∃ s w t h i, Fetches s w t ∧ decode w = .ok (h, i) ∧ i.legal t.stream = true ∧ (t.seq.started = true ∨ i = .go) ∧ declared t.strand w = true ∧ guardScalar h t.seq = true ∧
      (elastic i = true → t.core.throttle ≤ t.cyc)) ∧
    ∃ (s : State) (i : Instr) (r : List Turn), s.sched = .event i :: r ∧ i.isEvent = true ∧ i.wf = true :=
  ⟨⟨s0, 0, t0, Hdr.zero, .nop, fetches0, rfl, by decide, .inl (by decide +kernel), by decide +kernel, by decide +kernel, by decide⟩,
    { s0 with sched := [.event .coldReset] }, .coldReset, [], rfl, rfl, rfl⟩

theorem witness_WordChecksInOrder :
    ∃ s w t h i, Fetches s w t ∧ decode w = .ok (h, i) ∧ i.legal t.stream = true ∧ t.seq.started = true ∧ declared t.strand w = true ∧ vectorClass w = false :=
  ⟨s0, 0, t0, Hdr.zero, .nop, fetches0, rfl, by decide, by decide +kernel⟩

theorem witness_StepKeepsInvariant : ∃ s t, Canonical s ∧ step s = .next t := by
  refine ⟨s0, after s0, ⟨by decide +kernel, ?_, ?_⟩, ?_⟩
  · have h : (s0.allCores.all fun c => c.scratch.wf) = true := by decide +kernel
    exact fun c hc => List.all_eq_true.1 h c hc
  · have h : (s0.allStrands.all fun c => c.spimage.wf) = true := by decide +kernel
    exact fun c hc => List.all_eq_true.1 h c hc
  · unfold after; cases h : step s0 with
    | next t => rfl
    | fault r => have : (match step s0 with | .next _ => true | _ => false) = true := by decide +kernel
                 rw [h] at this; cases this
    | refused r => have : (match step s0 with | .next _ => true | _ => false) = true := by decide +kernel
                   rw [h] at this; cases this

theorem witness_DecodeOfEncode : ∃ st, ∃ h : Hdr, ∃ i, Instr.legal st i = true ∧ h.ok i = true := ⟨.a, Hdr.zero, .nop, by decide, by decide⟩
theorem witness_EncodeOfDecode : ∃ w h i, decode w = .ok (h, i) := ⟨0, Hdr.zero, .nop, by rfl⟩
theorem witness_MemoryReadAfterWrite : ∃ m n : Mem, m.wf = true ∧ n.wf = true ∧ m = [(3, 5)] ∧ n = [] := ⟨[(3, 5)], [], by decide, by decide, rfl, rfl⟩
theorem witness_LoopRunsNTimes : ∃ (q : Seq) (w : PC) (b : BitVec 14) (n : BitVec 32), b ≠ 0#14 ∧ n ≠ 0#32 ∧ q.pc = w ∧ q.loops = [⟨w, b, n, 0#32⟩] :=
  ⟨{ s0.strand.a with pc := 0x10000#56, loops := [⟨0x10000#56, 3, 4, 0⟩] }, 0x10000#56, 3, 4, by decide, by decide, rfl, rfl⟩
theorem witness_WordsKeepMemory : ∃ (i : Instr) (s t : State), i.isEvent = false ∧ i ≠ .end_ ∧ i ≠ .qclose ∧ exec i s = .next t :=
  ⟨.br 1, s0, _, rfl, by decide, by decide, rfl⟩
theorem witness_ResultWindow : ∃ s : State, s.strand.pend = [] ∧ (∀ st, (s.strand.seq st).regs.length = 32) ∧ s.strand.v.length = 32 ∧ s.strand.l.length = 4 ∧ s.strand.sq.length = 4 :=
  ⟨s0, by decide +kernel, fun st => by cases st <;> decide +kernel, by decide +kernel⟩

-- Events of the package: the strand of s0 with context 0 and a running launch

def sF : State := sL 0 false []
theorem frontedF : Fronted sF := ⟨by decide +kernel, by decide +kernel⟩
def sPh (p : Phase) (f : Strand → Strand) : State := { sF with strand := f { sF.strand with phase := p } }

theorem witness_StrandStops :
    (∃ s c, Fronted s ∧ s.strand.phase = .running ∧ s.ctxAt s.strand.slot = some c ∧ c.state = 1 ∧ s.core.runs = s.strand.h) ∧
    (∃ s c, Fronted s ∧ s.ctxAt s.strand.slot = some c ∧ c.state = 1 ∧ c.dies.getLsbD (dieOf s.core.num) = true ∧ s.strand.phase = .suspended ∧ s.strand.a.trapped = true ∧
      s.strand.a.tcause = .accfirst ∧ s.strand.sidelog.length < 64 ∧ holderBusy s s.core = false) ∧
    (∃ s : State, Fronted s ∧ s.strand.phase = .preempting ∧ s.strand.parked = false ∧ s.strand.drained = true ∧ s.strand.copiesDone = true ∧ s.strand.chainsDone = true ∧ s.pkg.epQuiet s.strand.h = true) ∧
    (∀ full, ∃ s : State, s.strand.phase = .stopping ∧ s.strand.drained = true ∧ s.pkg.epQuiet s.strand.h = true ∧ s.strand.logFull = full ∧ s.strand.a.ended = false ∧
      s.strand.a.trapped = false ∧ s.strand.x.trapped = false) ∧
    (∃ (s : State) (l : ILine), Fronted s ∧ s.strand.phase = .running ∧ (s.strand.seq .a).waitFrom = none ∧ s.lineAt (s.strand.seq .a).pc = some l ∧
      guardScalar (hdrOf (l.word (s.strand.seq .a).pc)) (s.strand.seq .a) = true ∧ s.strand.iterbound ≠ 0 ∧ s.strand.iterbound < (s.strand.seq .a).iters + (s.strand.seq .a).used s.cyc) ∧
    (∃ s c k, Fronted s ∧ s.strand.phase = .running ∧ s.coreOf s.strand = some k ∧ s.ctxAt s.strand.slot = some c ∧ 1250 * c.fld 3 63 32 ≤ k.cyc - s.strand.since ∧
      ∃ u ∈ s.strands, u.h ≠ 0 ∧ u.phase = .ready ∧ u.slot ≠ s.strand.slot ∧ s.strandClass u ≤ s.strandClass s.strand ∧ s.mayRun u.slot (s.strandClass u) k.num = true) ∧
    ∃ s c w, Fronted s ∧ s.core.runs = s.strand.h ∧ s.ctxAt s.strand.slot = some c ∧ c.parkEn = true ∧ s.strand.phase = .running ∧ s.strand.cancelled = false ∧
      s.strand.a.waitFrom = some w ∧ c.parkThr < s.cyc - w ∧ parkPlace s .a ≠ 0 := by
  refine ⟨⟨sF, (sF.ctxAt 0).getD ctx0, frontedF, by decide +kernel, by rfl, by decide +kernel⟩,
    ⟨sPh .suspended (fun t => { t with a := { t.a with trapped := true, tcause := .accfirst } }), (sF.ctxAt 0).getD ctx0, ⟨by decide +kernel, by decide +kernel⟩, by rfl, by decide +kernel, by decide +kernel, rfl,
      by decide +kernel⟩,
    ⟨sPh .preempting id, ⟨by decide +kernel, by decide +kernel⟩, rfl, by decide +kernel⟩,
    by
      intro b
      cases b
      · exact ⟨sPh .stopping id, rfl, by decide +kernel⟩
      · exact ⟨sPh .stopping fun t => { t with logFull := true }, rfl, by decide +kernel⟩,
    ⟨sPh .running (fun t => { t with iterbound := 1, a := { t.a with iters := 5 } }), (sF.lineAt 0x10000#56).getD ⟨0, 0, false, false, []⟩, ⟨by decide +kernel, by decide +kernel⟩, rfl, by decide +kernel⟩, ?_, ?_⟩
  · refine ⟨{ sF with core := { sF.core with cyc := 100000 }, strands := [{ Strand.none with h := 2, phase := .ready, slot := 1, launch := 1 }]
                      pkg := { sF.pkg with ctxs := sF.pkg.ctxs ++ [{ ctx0 with slot := 1, launches := [{ launch0 with cls := 0 }] }] } }, (sF.ctxAt 0).getD ctx0, { sF.core with cyc := 100000 },
      ⟨by decide +kernel, by decide +kernel⟩, by decide +kernel, by decide +kernel, by rfl, by decide +kernel, _, .head _, by decide +kernel⟩
  · refine ⟨{ machine (fieldN 0xEC 2 0 57 0 0 0) [] with
        core := { (machine (fieldN 0xEC 2 0 57 0 0 0) []).core with cyc := 10000 }
        strand := { (machine (fieldN 0xEC 2 0 57 0 0 0) []).strand with a := { (machine (fieldN 0xEC 2 0 57 0 0 0) []).strand.a with waitFrom := some 10 } }
        pkg := sF.pkg }, (sF.ctxAt 0).getD ctx0, 10, ⟨by decide +kernel, by decide +kernel⟩, by decide +kernel, by rfl, by decide +kernel, by decide +kernel, by decide +kernel, rfl,
      by decide +kernel⟩

/-- The strand of a launch of class C0 is ready, and its core is free. -/
def sR : State :=
  { sF with core := { sF.core with runs := 0 }, strand := { sF.strand with phase := .ready }
            pkg := { sF.pkg with ctxs := [{ ctx0 with kernels := [kernel0], launches := [{ launch0 with cls := 0 }] }] } }

theorem witness_LaunchEvents :
    (∃ (s : State) (c : Ctx) (k : LQueue), s.ctxAt 0 = some c ∧ c.queues[3]? = some k ∧ k.state = 0 ∧ (∀ l ∈ c.launches, l.q = 3 → l.state ≠ .pending ∧ l.state ≠ .ready)) ∧
    (∃ (s : State) (c : Ctx) (l : Launch) (ls : List Launch), s.ctxAt 0 = some c ∧ c.waiting 3 = l :: ls ∧ l.state = .ready ∧ s.pkg.age3 ≠ 0#16) ∧
    (∃ (s : State) (c : Ctx) (k : Core), s.ctxAt 0 = some c ∧ s.findCore 64 = some k ∧ s.coreRuns 64 0 = true ∧ k.credit 0 < 4 ∧ c.creditWait.length < s.freePlaces c) ∧
    (∃ (s : State) (c : Ctx) (l : Launch) (k : Kernel) (d : StageD), s.ctxAt 0 = some c ∧ s.launchAt 0 1 = some l ∧ c.stageOf l 1 = some (k, d) ∧ s.handleFree 9 = true) ∧
    (∃ (s : State) (c : Ctx), s.ctxAt 0 = some c ∧ Fronted s ∧ s.strand.phase = .ended ∧ s.strand.sidelog = [] ∧ s.strand.acc = [] ∧ s.strand.copiesDone = true ∧ s.strand.chainsDone = true ∧
      s.pkg.epQuiet s.strand.h = true ∧ s.strand.slot = 0 ∧ (s.dropStrand s.strand.h).launchAt 0 0 = none ∧ s.strand.launch = 0) ∧
    ∃ (s : State) (k : Core) (t : Strand), s.findCore 64 = some k ∧ (s.pkg.dies.getD (dieOf 64) Die.start).up = true ∧ k.runs = 0 ∧ s.readyFor 64 0 t = true := by
  refine ⟨⟨sF, (sF.ctxAt 0).getD ctx0, ⟨1, 3, 0, 0⟩, by rfl, by decide +kernel, rfl, ?_⟩,
    ⟨{ sF with pkg := { sF.pkg with ctxs := [{ ctx0 with launches := [{ launch0 with q := 3, state := .ready }] }] } }, { ctx0 with launches := [{ launch0 with q := 3, state := .ready }] },
      { launch0 with q := 3, state := .ready }, [], by rfl, by decide +kernel, rfl, by decide +kernel⟩,
    ⟨sF, (sF.ctxAt 0).getD ctx0, sF.core, by rfl, by decide +kernel⟩,
    ⟨sF, (sF.ctxAt 0).getD ctx0, launch0, kernel0, stage0, by rfl, by decide +kernel⟩,
    ⟨{ sC with strand := { sC.strand with phase := .ended } }, ctx0, by rfl, ⟨by decide +kernel, by decide +kernel⟩, rfl, by decide +kernel⟩,
    ⟨sR, { sF.core with runs := 0 }, sR.strand, by decide +kernel, by decide +kernel, rfl, by decide +kernel⟩⟩
  have h : (((sF.ctxAt 0).getD ctx0).launches.all fun l => decide (l.q = 3 → l.state ≠ .pending ∧ l.state ≠ .ready)) = true := by decide +kernel
  exact fun l hl => of_decide_eq_true (List.all_eq_true.1 h l hl)

/-- The context in a state, and one firmware request that the host has rung in with op, first and second argument. -/
def reqWords (op a0 a1 : Nat) : List W64 := [BitVec.ofNat 64 (op * 2 ^ 56), BitVec.ofNat 64 a0, BitVec.ofNat 64 a1, 0, 0, 0, 0, 0]
def sReq (st op a0 : Nat) : State :=
  { sF with pkg := { sF.pkg with ctxs := [{ ctx0 with state := st, kernels := [kernel0] }], fwreqs := [⟨1, true, 0, 0, reqWords op a0 64⟩] } }
def ctxOf (s : State) : Ctx := (s.ctxAt 0).getD ctx0

theorem due (st op a0 : Nat) (h : (sReq st op a0).reqTurn 1 = some ⟨1, true, 0, 0, reqWords op a0 64⟩ ∧ (FwReq.op ⟨1, true, 0, 0, reqWords op a0 64⟩ = op ∧
    FwReq.malformed ⟨1, true, 0, 0, reqWords op a0 64⟩ = false ∧ FwReq.wrongRing ⟨1, true, 0, 0, reqWords op a0 64⟩ = false ∧
    FwReq.slotOf ⟨1, true, 0, 0, reqWords op a0 64⟩ = some 0)) :
    Due (sReq st op a0) 1 op ⟨1, true, 0, 0, reqWords op a0 64⟩ { ctx0 with state := st, kernels := [kernel0] } :=
  ⟨h.1, h.2.1, h.2.2.1, h.2.2.2.1, by rw [h.2.2.2.2]; rfl⟩

/-- A record whose areas lie on one page of 2 MiB, the tables that map it, and the host's request to create its context. -/
def recA : List W64 := (((rec0.set 0 0x12000000000).set 6 0x110000).set 7 0x120000).set 9 0x1B0000
def ctxA : Ctx := Ctx.create 0 1 0 0x1000009C4 recA
def memA : Mem :=
  [(0x12000000000, 0x01), (0x12000000001, 0x10), (0x12000000004, 0x20), (0x12000000005, 0x01), (0x12000001000, 0x01), (0x12000001001, 0x20), (0x12000001004, 0x20), (0x12000001005, 0x01), (0x12000002000, 0x01),
   (0x12000002001, 0x30), (0x12000002004, 0x20), (0x12000002005, 0x01), (0x12000003000, 0x43), (0x12000003001, 0x08), (0x12000003002, 0x20), (0x12000003004, 0x20), (0x12000003005, 0x01)]
def sAreas : State :=
  { sReq 1 8 0x1000 with pkg := { (sReq 1 8 0x1000).pkg with
      ctxs := [], mem := memA, lock := { (sReq 1 8 0x1000).pkg.lock with hlim := 0x10000 }
      frames := [(frameIx 0x12000200000, { Frame.free with mstate := 1 })] } }
def sJudged : State := (sAreas.dropPkg 0 0 (2 ^ 56)).updPkg fun p => { p with ctxs := [ctxA] }
def pageA : TlbEnt :=
  { slot := 0, va := 0, size := 0x200000, pa := 0x12000200000, key := 0, l2only := false, sro := false, w := true, x := false }

/-- An area whose pages all translate to a page that is resident is good. -/
theorem area_of (s : State) (slot : Nat) (p : Nat × Nat) (e : TlbEnt) (h1 : p.1 + p.2 ≤ Config.localBase)
    (h2 : ∀ q ∈ pieces p.1 p.2, (s.engTranslate slot q.1 .read).1 = .ok e) (h3 : s.pkg.resident e = true) : s.areaOk slot p = true := by
  simp only [State.areaOk, State.residentRange, Bool.and_eq_true, decide_eq_true_eq, List.all_eq_true]
  exact ⟨h1, fun q hq => by rw [h2 q hq]; exact h3⟩

/-- No L1 holds an update-only line and no page moves: then the read of a table entry changes nothing. -/
def NoUpd (s : State) : Prop := s.allCores.all (fun c => c.upd.isEmpty) = true ∧ s.pkg.migs = []

theorem entry_calm {s : State} (h : NoUpd s) (pa : Nat) : s.pkg.entryAt pa = pa := by
  simp only [Pkg.entryAt, homeOf, h.2, List.find?_nil, paPkg, paLocal]
  split <;> omega

theorem read_calm {s : State} (h : NoUpd s) (pa : Nat) : s.readWord pa = (leNat (s.pkg.peek pa 8), s) := by
  have hold : ∀ ls : List Nat, s.allCores.filter (fun c => c.upd.any (fun l => ls.contains l.line)) = [] := fun ls =>
    List.filter_eq_nil_iff.2 fun c hc => by
      rw [List.isEmpty_iff.1 (List.all_eq_true.1 h.1 c hc)]; exact Bool.false_ne_true
  have hm : s.mergeRange pa 8 = s := by simp only [State.mergeRange, hold, List.map_nil, List.foldl_nil]
  simp only [State.readWord, entry_calm h, State.readHome, hm]

theorem index_low {va : Nat} (h : va < 2 ^ 21) (l : Nat) : walkIndex va (l + 1) = 0 := by
  have hd : ∀ k, 21 ≤ k → va / 2 ^ k = 0 := fun k hk => Nat.div_eq_of_lt (Nat.lt_of_lt_of_le h (Nat.pow_le_pow_right (by decide) hk))
  unfold walkIndex bits
  split
  · rw [hd 48 (by decide), Nat.zero_mod]
  · rw [hd _ (by omega), Nat.zero_mod]

theorem walk_succ (slot va l table : Nat) (s : State) :
    walkFrom slot va (l + 1) table s =
      (let at_ := paLocal table + 8 * walkIndex va (l + 1)
       let r := s.readWord at_
       let lies := s.pkg.entryAt at_
       if poisoned s.pkg lies 8 then (.poison (s.pkg.num * 2 ^ 48 + lies), [], s)
       else if r.1 % 2 = 0 then (.fault 1, [], r.2)
       else if bits r.1 1 1 = 1 then (leafCheck r.2.pkg slot va (l + 1) r.1, [], r.2)
       else if bits r.1 63 58 ≠ 0 ∨ bits r.1 11 2 ≠ 0 ∨ !(tableOk r.2.pkg (bits r.1 57 12 * 4096)) then (.fault 4, [], r.2)
       else
         let q := walkFrom slot va l (bits r.1 57 12 * 4096) r.2
         (q.1, { slot := slot, level := l, tag := va / 2 ^ (21 + 9 * l), table := bits r.1 57 12 * 4096 } :: q.2.1, q.2.2)) := rfl

theorem walk_down {s : State} (h : NoUpd s) {va : Nat} (hv : va < 2 ^ 21) (slot l table w : Nat)
    (hw : leNat (s.pkg.peek (paLocal table) 8) = w) (hp : poisoned s.pkg (paLocal table) 8 = false)
    (hg : w % 2 = 1 ∧ bits w 1 1 = 0 ∧ bits w 63 58 = 0 ∧ bits w 11 2 = 0 ∧ tableOk s.pkg (bits w 57 12 * 4096) = true) :
    (walkFrom slot va (l + 1) table s).1 = (walkFrom slot va l (bits w 57 12 * 4096) s).1 := by
  rw [walk_succ]
  simp only [index_low hv, Nat.mul_zero, Nat.add_zero, read_calm h, entry_calm h, hw, hp, hg.1, hg.2.1, hg.2.2.1, hg.2.2.2.1, hg.2.2.2.2, Bool.false_eq_true, if_false, Nat.one_ne_zero, Nat.zero_ne_one, ne_eq,
    not_true_eq_false, Bool.not_true, or_self]

theorem walk_leaf {s : State} (h : NoUpd s) {va : Nat} (hv : va < 2 ^ 21) (slot l table w : Nat)
    (hw : leNat (s.pkg.peek (paLocal table) 8) = w) (hp : poisoned s.pkg (paLocal table) 8 = false) (hg : w % 2 = 1 ∧ bits w 1 1 = 1) :
    (walkFrom slot va (l + 1) table s).1 = leafCheck s.pkg slot va (l + 1) w := by
  rw [walk_succ]
  simp only [index_low hv, Nat.mul_zero, Nat.add_zero, read_calm h, entry_calm h, hw, hp, hg.1, hg.2, Bool.false_eq_true, if_false, Nat.one_ne_zero, if_true]

theorem noUpd_judged : NoUpd sJudged := ⟨by decide +kernel, by decide +kernel⟩
theorem walk_judged (va : Nat) (h : va < 2 ^ 21) : (walkFrom 0 va 4 0x12000000000 sJudged).1 = .ok pageA := by
  rw [walk_down noUpd_judged h 0 3 _ 0x12000001001 (by decide +kernel) (by decide +kernel) (by decide +kernel),
    walk_down noUpd_judged h 0 2 _ 0x12000002001 (by decide +kernel) (by decide +kernel) (by decide +kernel),
    walk_down noUpd_judged h 0 1 _ 0x12000003001 (by decide +kernel) (by decide +kernel) (by decide +kernel),
    walk_leaf noUpd_judged h 0 0 _ 0x12000200843 (by decide +kernel) (by decide +kernel) (by decide +kernel)]
  have z : va / 0x200000 * 0x200000 = 0 := by rw [Nat.div_eq_of_lt (show va < 0x200000 from h)]
  have e : leafCheck sJudged.pkg 0 0 1 0x12000200843 = .ok pageA := by decide +kernel
  rw [← e]
  unfold leafCheck
  simp only [show pageSize (bits 0x12000200843 11 10) = 0x200000 from by decide, z]
theorem tr_judged (va : Nat) (h : va < 2 ^ 21) : (sJudged.engTranslate 0 va .read).1 = .ok pageA := by
  have c : sJudged.ctxAt 0 = some ctxA := by unfold State.ctxAt; exact List.find?_cons_of_pos (by decide +kernel)
  have d : ∀ die, (sJudged.pkg.dies.getD die Die.start).walks = [] := fun die => by
    have : ∀ x ∈ sJudged.pkg.dies, x.walks = [] := by decide +kernel
    rw [List.getD_eq_getElem?_getD]
    cases hx : sJudged.pkg.dies[die]? with
    | none => rfl
    | some x => exact this x (List.mem_of_getElem? hx)
  have w : ∀ die, (sJudged.walk die 0 va).1 = .ok pageA := fun die => by
    unfold State.walk
    rw [c]
    simp only [d die]
    rw [show walkStart [] 0 va ctxA.root = (4, 0x12000000000) from by rfl, if_neg (by decide +kernel)]
    exact walk_judged va h
  unfold State.engTranslate
  rw [show tlbFind sJudged.pkg.engTlb 0 va = none from by rw [show sJudged.pkg.engTlb = [] from by decide +kernel]; rfl]
  simp only [w]
  rfl

theorem page_resident : sJudged.pkg.resident pageA = true := by decide +kernel
def pagesLow (p : Nat × Nat) : Bool := decide (p.1 + p.2 ≤ Config.localBase) && (pieces p.1 p.2).all (fun q => decide (q.1 < 2 ^ 21))
theorem areas_low : (areasOf recA).all pagesLow = true := by decide +kernel
theorem areas_ok (a : Nat × Nat) (ha : a ∈ areasOf recA) : sJudged.areaOk 0 a = true := by
  have h := List.all_eq_true.1 areas_low a ha
  unfold pagesLow at h
  rw [Bool.and_eq_true] at h
  exact area_of sJudged 0 a pageA (of_decide_eq_true h.1)
    (fun q hq => tr_judged q.1 (of_decide_eq_true (List.all_eq_true.1 h.2 q hq))) page_resident

theorem witness_HostRequests :
    (∃ s r c, Due s 1 3 r c ∧ c.state = 1) ∧ (∃ s r c, Due s 1 4 r c ∧ c.state = 2 ∧ r.arg0 = 0) ∧ (∃ s r c, Due s 1 5 r c ∧ r.host = true ∧ c.state = 3) ∧
    (∃ s r c, Due s 1 5 r c ∧ r.host = true ∧ c.state = 4) ∧ (∃ s r c, Due s 1 1 r c) ∧
    (∃ s r c, Due s 1 2 r c ∧ (∃ k, c.kernel r.arg0 = some k) ∧ ∀ l ∈ c.launches, l.state.held = false) ∧
    (∃ s r c, Due s 1 6 r c ∧ s.pkg.shoots = [] ∧ ∀ e ∈ s.pkg.frames, e.2.rmap = false) ∧ (∃ s r c, Due s 1 7 r c ∧ c.shardOn = false) ∧
    (∃ s r, DueAlone s 1 8 r ∧ ¬InWindow s r.arg0 128) ∧
    (∃ s r, DueAlone s 1 8 r ∧ InWindow s r.arg0 128 ∧ createOk s.pkg recA = true ∧ s.pkg.ctxs = [] ∧ s.pkg.numaPend = false ∧ s.pkg.modeReq = none ∧ s.parkWord 0 = 0x1000009C4 ∧
      ctxA.evq ≤ 4096 ∧ ctxA.lsq ≤ 8192 ∧ quotasFit s.pkg 0 ctxA.tqb ctxA.tqm ctxA.nbar ctxA.dies = true ∧ ctxA.bankkey ≠ 0#32 ∧ disjoint (areasOf recA) = true ∧
      ∀ a ∈ areasOf recA, ((s.dropPkg 0 0 (2 ^ 56)).updPkg fun p => { p with ctxs := [ctxA] }).areaOk 0 a = true) ∧
    (∃ s : State, s.pkg.numaPend = true ∧ s.pkg.modeReq = none) ∧ (∃ s r, DueAlone s 1 9 r ∧ s.pkg.numaPend = false ∧ s.pkg.modeReq = none ∧ r.arg0 < 3 ∧
      r.arg0 ≠ s.pkg.numaMode.toNat ∧ s.pkg.ctxs = []) ∧
    (∃ s : State, InWindow s (s.pkg.hrbase.toNat / 4096 * 4096) (64 + 64 * (s.pkg.hrbase.toNat % 4096 + 1)) ∧ ∀ r ∈ s.pkg.fwreqs, r.host = false) ∧
    ∃ s : State, ¬InWindow s (s.pkg.hrbase.toNat / 4096 * 4096) (64 + 64 * (s.pkg.hrbase.toNat % 4096 + 1)) :=
  ⟨⟨_, _, _, due 1 3 0 (by decide +kernel), rfl⟩, ⟨_, _, _, due 2 4 0 (by decide +kernel), rfl, by decide⟩, ⟨_, _, _, due 3 5 0 (by decide +kernel), rfl, rfl⟩,
    ⟨_, _, _, due 4 5 0 (by decide +kernel), rfl, rfl⟩, ⟨_, _, _, due 1 1 0x20000 (by decide +kernel)⟩,
    ⟨_, _, _, due 1 2 5 (by decide +kernel), ⟨kernel0, by decide +kernel⟩, fun l hl => absurd hl (by simp [ctx0, Ctx.create])⟩,
    ⟨_, _, _, due 1 6 0 (by decide +kernel), by decide +kernel, by rw [show (sReq 1 6 0).pkg.frames = [] from by decide +kernel]; exact fun e h => absurd h (by simp)⟩,
    ⟨_, _, _, due 1 7 0 (by decide +kernel), by decide +kernel⟩,
    ⟨sReq 1 8 0, ⟨1, true, 0, 0, reqWords 8 0 64⟩, ⟨by decide +kernel, by decide +kernel⟩, by unfold InWindow; decide +kernel⟩,
    ⟨sAreas, ⟨1, true, 0, 0, reqWords 8 0x1000 64⟩,
      ⟨by decide +kernel, by decide +kernel⟩, by unfold InWindow; decide +kernel, by decide +kernel, rfl, by decide +kernel,
      by decide +kernel, by decide +kernel, by decide +kernel, by decide +kernel, by decide +kernel, by decide +kernel, by decide +kernel, areas_ok⟩,
    ⟨{ s0 with pkg := { s0.pkg with numaPend := true } }, rfl, by decide +kernel⟩,
    ⟨{ sReq 1 9 1 with pkg := { (sReq 1 9 1).pkg with ctxs := [] } }, ⟨1, true, 0, 0, reqWords 9 1 64⟩, ⟨by decide +kernel, by decide +kernel⟩, by decide +kernel, by decide +kernel,
      by decide +kernel, by decide +kernel, rfl⟩,
    ⟨{ s0 with pkg := { s0.pkg with lock := { s0.pkg.lock with hlim := 0x10000 } } }, by unfold InWindow; decide +kernel,
      by rw [show s0.pkg.fwreqs = [] from by decide +kernel]; exact fun r h => absurd h (by simp)⟩,
    ⟨s0, by unfold InWindow; decide +kernel⟩⟩

theorem witness_RegisterWrites : ∃ (s : State) (v : W64), v.truncate 2 ≠ 3#2 ∧ v.truncate 2 ≠ s.pkg.numaMode ∧ s.pkg.ctxs = [] ∧ s.pkg.numaPend = false ∧
    s.pkg.lock.lock = false ∧ v.getLsbD 0 = true := ⟨State.reset, 1, by decide +kernel⟩

-- Pages: the page at 0x40200000 of context 0, at a place of tier 1 (die 1) or of tier 2

def frame0 : Frame := { dirty := 0, poison := 8, ref := 0, rslot := 0, owner := 0, lock := false, rmap := false, mstate := 1, backing := 0x100000000000, bv := true }
def sPage (pa : Nat) (f : Frame) : State :=
  { sF with pkg := { sF.pkg with mem := sF.pkg.mem.write 0x10000000008 (leBytes 8 (pa + 0x843)), frames := [(frameIx pa, f)]
                                 dies := sF.pkg.dies.set 0 { Die.start with walks := [⟨0, 1, 1, 0x10000000000⟩] } } }
def tier1Pa : Nat := 0x11000000000
def tier2Pa : Nat := 0x100000000000
def entry0 (pa : Nat) : TlbEnt := { slot := 0, va := 0x40200000, size := 0x200000, pa := pa, key := 0, l2only := false, sro := false, w := true, x := false }

def sSick : State := { sPage tier1Pa frame0 with pkg := ((sPage tier1Pa frame0).pkg).poisonAt frame0.backing }

theorem witness_PageEvents :
    (∃ s w e, Fronted s ∧ s.strand.wants = some w ∧ (s.translate s.strand.slot w .read).1 = .ok e) ∧
    (∃ s w k, Fronted s ∧ s.strand.wants = some w ∧ (s.translate s.strand.slot w .read).1 = .fault k) ∧
    (∃ (s : State) (f : FaultRep) (h : Nat), s.pkg.faults[0]? = some f ∧ f.agent = .sidelog h) ∧ (∃ (s : State) (f : FaultRep) (h k : Nat), s.pkg.faults[0]? = some f ∧ f.agent = .launch h k) ∧
    (∃ (s : State) (f : Frame), queueBlockSlot tier1Pa = none ∧ endpointSlot tier1Pa = none ∧ inMemory tier1Pa = true ∧ s.pkg.frame tier1Pa = some f ∧ (tier1Die tier1Pa).isSome = true ∧ f.bv = true ∧
      f.dirty.getLsbD (granuleOf tier1Pa) = false ∧ s.pkg.sickAt (f.backing + 4096 * granuleOf tier1Pa) = false) ∧
    (∃ (s : State) (f : Frame), queueBlockSlot tier1Pa = none ∧ inMemory tier1Pa = true ∧ s.pkg.frame tier1Pa = some f ∧ s.pkg.sickAt (f.backing + 4096 * granuleOf tier1Pa) = true) ∧
    (∃ s : State, queueBlockSlot tier1Pa = none ∧ inMemory tier1Pa = true ∧ s.pkg.frame tier1Pa = none) ∧ (∃ pa, queueBlockSlot pa = none ∧ inMemory pa = false) ∧
    (∃ (s : State) (f : Frame), tget s.pkg.frames 32768 = some f ∧ s.pkg.mem.wf = true ∧ f.poison.getLsbD 3 = true) ∧
    (∃ s : State, (tier1Pa / 64) ∈ s.pkg.dirtyL2 ∧ (tier1Pa / 64) ∈ s.pkg.l2Bad) ∧
    (∃ s : State, (tier1Pa / 64) ∈ s.pkg.dirtyL2 ∧ (tier1Pa / 64) ∉ s.pkg.l2Bad ∧ ∃ f, s.pkg.frame (tier1Pa / 64 * 64) = some f ∧ (tier1Die (tier1Pa / 64 * 64)).isSome = true) ∧
    inTier2 tier2Pa = true ∧ inTier2 tier1Pa = false :=
  ⟨⟨{ sF with strand := { sF.strand with wants := some 0x10000 }, pkg := { sF.pkg with dies := sF.pkg.dies.modify 2 fun d => { d with tlb := [placeEntry 0] } } }, 0x10000, placeEntry 0, ⟨by decide +kernel, by decide +kernel⟩, rfl, by decide +kernel⟩,
    ⟨{ sF with strand := { sF.strand with wants := some 0x50000 } }, 0x50000, 4, ⟨by decide +kernel, by decide +kernel⟩, rfl, by decide +kernel⟩,
    ⟨{ sF with pkg := { sF.pkg with faults := [⟨0, .sidelog 1, 0x50000, .write, 1, some .a⟩] } }, _, 1, rfl, rfl⟩,
    ⟨{ sF with pkg := { sF.pkg with faults := [⟨0, .launch 1 2, 0x50000, .read, 1, none⟩] } }, _, 1, 2, rfl, rfl⟩,
    ⟨sPage tier1Pa frame0, frame0, by decide +kernel, by decide +kernel, by decide +kernel, by decide +kernel, by decide +kernel, rfl, by decide +kernel⟩,
    ⟨sSick, frame0, by decide +kernel⟩,
    ⟨sF, by decide +kernel⟩, ⟨0, by decide +kernel⟩, ⟨sPage tier1Pa frame0, frame0, by decide +kernel⟩,
    ⟨{ s0 with pkg := { s0.pkg with dirtyL2 := [tier1Pa / 64], l2Bad := [tier1Pa / 64] } }, .head _, .head _⟩,
    ⟨{ sPage tier1Pa frame0 with pkg := { (sPage tier1Pa frame0).pkg with dirtyL2 := [tier1Pa / 64] } }, .head _, by decide +kernel, frame0, by decide +kernel⟩,
    by decide +kernel⟩

theorem noUpdOf (s : State) (h : (s.allCores.all fun c => c.upd.isEmpty) = true) {n : Nat} : ∀ c ∈ s.allCores, ∀ l ∈ c.upd, l.line ≠ n := fun c hc l hl => by
  rw [List.isEmpty_iff.1 (List.all_eq_true.1 h c hc)] at hl; cases hl

theorem witness_MigrationEvents :
    (∃ (s : State) (f : Frame), PageAt s 0 0x40200000 tier2Pa (entry0 tier1Pa) f ∧ f.lock = false ∧
      f.poison &&& pageMask tier1Pa 0x200000 = 0#512 ∧ f.bv = true ∧ f.ref = 0 ∧ targetOk s.pkg (asked .move 0 0x40200000 tier2Pa) 0x200000 = true) ∧
    (∃ (s : State) (f : Frame), PageAt s 0 0x40200000 tier1Pa (entry0 tier2Pa) f ∧ f.lock = false ∧
      f.poison &&& pageMask tier2Pa 0x200000 ≠ 0#512 ∧ (tier1Die tier2Pa).isSome = false) ∧
    (∃ (s : State) (f : Frame), PageAt s 0 0x40200000 tier2Pa (entry0 tier1Pa) f ∧ f.lock = true) ∧
    (∃ (s : State) (m : Mig) (f : Frame), s.pkg.migs = [m] ∧ m.started = true ∧ s.pkg.frame m.old = some f ∧ s.pkg.mem.wf = true ∧ f.mstate ≠ 3 ∧ m.op = .move ∧ m.back = false ∧
      paPkg (m.target + 64 * m.copied) = s.pkg.num ∧ 64 * (m.copied + 1) < m.size ∧ m.old % 64 = 0 ∧ s.pkg.lineKey (m.old / 64 + m.copied) = m.key ∧
      ∀ c ∈ s.allCores, ∀ l ∈ c.upd, l.line ≠ m.old / 64 + m.copied) ∧
    ∃ (s : State) (m : Mig) (f : Frame), s.pkg.migs = [m] ∧ m.started = true ∧ s.pkg.frame m.old = some f ∧ f.mstate = 3 ∧ s.pkg.shoots = [] ∧ s.heldEntry m.old m.size = false ∧
      s.mapped m.old m.size = false ∧ (∀ c ∈ s.pkg.ctxs, s.quiet c.slot = true) ∧ (∀ c ∈ s.pkg.fwdCopies, m.holds c.2.1 = false) ∧ s.pkg.allSeen = true ∧
      s.unused (fun e => paPkg e.pa == s.pkg.num && overlap (paLocal e.pa) e.size m.old m.size) = true :=
  ⟨⟨sPage tier1Pa { frame0 with poison := 0 }, { frame0 with poison := 0 }, by unfold PageAt; decide +kernel, rfl, by decide +kernel, rfl, rfl, by decide +kernel⟩,
    ⟨sPage tier2Pa frame0, frame0, by unfold PageAt; decide +kernel, rfl, by decide +kernel⟩,
    ⟨sPage tier1Pa { frame0 with lock := true }, { frame0 with lock := true }, by unfold PageAt; decide +kernel, rfl⟩,
    ⟨{ sPage tier1Pa { frame0 with mstate := 2 } with pkg := { (sPage tier1Pa { frame0 with mstate := 2 }).pkg with
        migs := [⟨.move, 0, 0x40200000, tier2Pa, tier1Pa, 0x200000, 5, true, false, none, 0, 0, 0, []⟩] } }, _, { frame0 with mstate := 2 }, rfl, rfl, by decide +kernel, by decide +kernel, by decide, rfl, rfl,
      by decide +kernel, by decide, by decide, by decide +kernel, noUpdOf _ (by decide +kernel)⟩,
    ⟨{ s0 with pkg := { s0.pkg with frames := [(frameIx tier1Pa, { frame0 with mstate := 3 })]
                                    migs := [⟨.move, 0, 0x40200000, tier2Pa, tier1Pa, 0x200000, 32768, true, false, none, 0, 0, 0, []⟩] } }, _, { frame0 with mstate := 3 }, rfl, rfl, by decide +kernel, rfl,
      by decide +kernel⟩⟩

def rec1 : ChainRec := ⟨0xFFFFFFFFE00040, 0, none, 0⟩
def chan1 : Chan := ⟨7, 0, false, [rec1], []⟩
def sChain : State := { sF with strand := { sF.strand with chans := sF.strand.chans.set 1 chan1 } }
theorem runs0 : ∀ c, sF.ctxAt sF.strand.slot = some c → c.state ≠ 3 ∧ c.state ≠ 4 := fun c h => by
  have e : (sF.ctxAt sF.strand.slot).map (·.state) = some 1 := by decide +kernel
  rw [h, Option.map_some] at e
  have := Option.some.inj e
  constructor <;> omega

theorem witness_AccessEvents :
    (∃ (s : State) (a : Acc), Fronted s ∧ s.strand.acc[0]? = some a ∧ entryOf a.op ≠ none ∧ s.strand.sidelog = []) ∧ (∃ (s : State) (a : Acc), Fronted s ∧ s.strand.acc[0]? = some a ∧ (roleOf a.op).object = 1) ∧
    (∃ (s : State) (a : Acc), Fronted s ∧ s.strand.sidelog = [a] ∧ s.pkg.faults = [] ∧ s.strand.acc = [] ∧ s.strand.logFull = false ∧ (∀ c, s.ctxAt s.strand.slot = some c → c.state ≠ 3 ∧ c.state ≠ 4) ∧
      (s.writeFault .write ((opRanges a.op).map (·.1))).1 = none) ∧
    (∃ (s : State) (c : Copy), Fronted s ∧ s.strand.slots[2]? = some (some c) ∧ c.chunks[0]? = some .pending ∧ c.bar = none ∧ c.ring = none ∧ s.pkg.waitsFor (.chunk s.strand.h c.id 0) = false ∧
      pathHeld s.strand .cpy c.ord (fun _ => true) = false ∧ Clean s.core 0 4 ∧ s.strand.request = 0 ∧ c.conv = false ∧ c.src = 0xFFFFFFFFE00000 + 0 ∧ c.dst = 0xFFFFFFFFE00000 + 0x200 ∧ c.len = 4 ∧ s.core.scratch.wf = true) ∧
    (∃ (s : State) (c : Chan), Fronted s ∧ s.strand.chans[1]? = some c ∧ c.walking = false ∧ c.recs = []) ∧
    (∃ (s : State) (c : Chan) (r : ChainRec), Fronted s ∧ s.strand.chans[1]? = some c ∧ c.recs = [r] ∧ r.step = 0 ∧ r.copy = none ∧ r.ctl.getLsbD 38 = false ∧
      r.addr = 0xFFFFFFFFE00000 + 0x40 ∧ s.pkg.allSeen = true ∧ s.pkg.waitsFor (.chunk s.strand.h c.id 1) = false ∧ (∀ f ∈ s.pkg.faults, f.agent ≠ .chain s.strand.h 1) ∧
      s.core.scratch.wf = true) ∧
    (∃ (s : State) (c : Core) (l : ULine), s.findCore 64 = some c ∧ c.upd.find? (fun l => l.line == 7) = some l) ∧
    (∃ (s : State) (c : Ctx), s.ctxAt 0 = some c ∧ (c.ringSlots = 0 ∨ 9 ≠ c.ringEvent) ∧ c.event 9 = none) ∧
    (∃ (s : State) (b : Bar), (s.pkg.bars.filter fun b => b.die == 0 && !b.saved)[0]? = some b ∧ (∀ t ∈ s.allStrands, t.acc = []) ∧ b.active = true ∧ b.arr ≠ 0 ∧ s.barAt 0 0 3 = some b) ∧
    (∃ s : State, s.core.runs = s.strand.h ∧ s.core.cmuq = [(1, .zero 3)] ∧ s.core.feedEnd ≤ s.cyc ∧ s.core.tiles.length = 8) ∧
    ∃ (s : State) (d : DAdd), s.pkg.dadds[0]? = some d ∧ d.pkg = s.pkg.num ∧ s.core.num = d.peer ∧ s.core.accownValid = true ∧ s.core.accownCtx = d.ctx ∧
      s.core.acclive.getLsbD d.tile.val = true := by
  refine ⟨⟨{ sAcc (.load 0 4 .s32 0x10040) with pkg := sF.pkg }, _, ⟨by decide +kernel, by decide +kernel⟩, rfl, by decide +kernel⟩,
    ⟨sAcc (.evsig 3 0), _, ⟨by decide +kernel, by decide +kernel⟩, rfl, by decide +kernel⟩,
    ⟨{ sF with strand := { sF.strand with sidelog := [⟨5, .a, .store [(0x10040, 1)], false, [], 0⟩] }, pkg := { sF.pkg with dies := sF.pkg.dies.modify 2 fun d => { d with tlb := [placeEntry 0] } } }, _,
      ⟨by decide +kernel, by decide +kernel⟩, rfl, by decide +kernel, by decide +kernel, by decide +kernel, runs0, by decide +kernel⟩,
    ⟨{ sF with strand := { sF.strand with slots := List.replicate 16 (some (Copy.start s0.strand 1 0xFFFFFFFFE00000 0xFFFFFFFFE00200 4 none)) } }, Copy.start s0.strand 1 0xFFFFFFFFE00000 0xFFFFFFFFE00200 4 none,
      ⟨by decide +kernel, by decide +kernel⟩, by decide +kernel, by decide +kernel, by decide +kernel, by decide +kernel, by decide +kernel, by decide +kernel, by unfold Clean; decide +kernel,
      by decide +kernel⟩,
    ⟨sF, ⟨0, 0, false, [], []⟩, frontedF, by decide +kernel, rfl, rfl⟩,
    ⟨sChain, chan1, rec1, ⟨by decide +kernel, by decide +kernel⟩, rfl, rfl, rfl, rfl, by decide, rfl, by decide +kernel, by decide +kernel, fun f hf => ?_, by decide +kernel⟩, ⟨{ sF with core := { sF.core with upd := [⟨7, 0, [], []⟩] } }, _, ⟨7, 0, [], []⟩, rfl, by decide +kernel⟩,
    ⟨sF, (sF.ctxAt 0).getD ctx0, by rfl, by decide +kernel⟩, ⟨sBar bar0, bar0, by decide +kernel, ?_, rfl, by decide, by decide +kernel⟩,
    ⟨{ s0 with core := { s0.core with cmuq := [(1, .zero 3)] } }, by decide +kernel, rfl, by decide +kernel⟩,
    ⟨{ s0 with core := { s0.core with accownValid := true, accownCtx := 4, acclive := 4 }, pkg := { s0.pkg with dadds := [⟨1, 1, 5, 4, 7, 0, 64, 2, ⟨.f32, .rn, false⟩, []⟩] } }, _, rfl,
      by decide +kernel, by decide +kernel, rfl, rfl, by decide⟩⟩
  · rw [show sChain.pkg.faults = [] from by decide +kernel] at hf; cases hf
  · have h : ((sBar bar0).allStrands.all fun t => t.acc.isEmpty) = true := by decide +kernel
    exact fun t ht => by simpa using List.all_eq_true.1 h t ht

-- Tasks, engines and links

/-- Context 0 with its page at 0x10000 known to the engines and every die's links up, and a task that multiplies 128 rows. -/
def sEng : State := { sF with pkg := { sF.pkg with engTlb := [placeEntry 0] } }
def gemmWords : List W64 := [0x0100000000000000, 0x0022100000000000, 0, 0x0008000020000080, 0x10000, 0x10000, 0x10000, 0, 0, 0, 0, 0, 0, 0, 0, 0]
def task0 : Task := { Task.fresh 7 s0.strand 3 0x10000 with words := gemmWords, queued := true, state := .running }
def sTask (t : Task) : State := { sEng with pkg := { sEng.pkg with tasks := [t], dies := sEng.pkg.dies.map fun d => { d with up := true } } }
def tUnit : TaskUnit := ⟨0, 3, none, false, false, []⟩
theorem calmOf (s : State) (h : (s.allStrands.all fun t => t.acc.isEmpty) = true) : ∀ u ∈ s.allStrands, ∀ a ∈ u.acc, a.op ≠ .task 7 := by
  intro t ht a ha; have := List.all_eq_true.1 h t ht; simp only [List.isEmpty_iff] at this; rw [this] at ha; exact absurd ha (by simp)
def sRead (a : Nat) : State := sTask { task0 with words := [], state := .pending, addr := a }
def out0 : UnitOut := ⟨[], (0, []), [], 0#5, 0#3⟩
theorem taskReads : ((sRead 0x10000).engRead 0 0x10000 128).1 = .ok (List.replicate 128 0#8) := by decide +kernel
theorem taskFaults : ((sRead 0x50000).engRead 0 0x50000 128).1 = .fault 0x50000 4 := by decide +kernel

def sSickRec : State := { sRead 0x10000 with pkg := (sRead 0x10000).pkg.poisonAt (paLocal placePa) }
theorem taskSick : ∃ a s1, sSickRec.engRead 0 0x10000 128 = (.poison a, s1) := by
  have h : (match (sSickRec.engRead 0 0x10000 128).1 with | .poison _ => true | _ => false) = true := by decide +kernel
  rcases e : sSickRec.engRead 0 0x10000 128 with ⟨r, s1⟩
  rw [e] at h
  cases r <;> first | exact ⟨_, s1, rfl⟩ | cases h

/-- A product of one element. -/
def task1 : Task := { task0 with words := [0x0100000000000000, 0x0022100000000000, 0, 0x0000100000400001, 0x10000, 0x10000, 0x10000, 0x0000000400000004, 4, 0, 0, 0, 0, 0, 0, 0],
                                 running := [tUnit] }
theorem taskComputes : ∃ o s1, (if task1.attn then attnUnit task1 tUnit (sTask task1) else gemmUnit task1 tUnit (sTask task1)) = (.writes o, s1) := by
  have ha : task1.attn = false := by decide
  rw [ha]
  have h : (match (gemmUnit task1 tUnit (sTask task1)).1 with | .writes _ => true | _ => false) = true := by decide +kernel
  rcases e : gemmUnit task1 tUnit (sTask task1) with ⟨r, s1⟩
  rw [e] at h
  cases r <;> first | exact ⟨_, s1, rfl⟩ | cases h

theorem witness_TaskEvents :
    (∃ (s : State) (t : Task), s.taskAt 7 = some t ∧ t.words ≠ []) ∧
    (∃ (s : State) (t : Task) (bs : List Byte) (s1 : State), s.taskAt 7 = some t ∧ t.words = [] ∧ t.state.final = false ∧ (∀ u ∈ s.allStrands, ∀ a ∈ u.acc, a.op ≠ .task 7) ∧
      s.pkg.faults = [] ∧ s.engRead t.slot t.addr 128 = (.ok bs, s1)) ∧
    (∃ (s : State) (t : Task) (a : Nat) (s1 : State), s.taskAt 7 = some t ∧ t.words = [] ∧ t.state.final = false ∧ (∀ u ∈ s.allStrands, ∀ a ∈ u.acc, a.op ≠ .task 7) ∧
      s.pkg.faults = [] ∧ s.engRead t.slot t.addr 128 = (.fault a 4, s1)) ∧
    (∃ (s : State) (t : Task) (a : Nat) (s1 : State), s.taskAt 7 = some t ∧ t.words = [] ∧ t.state.final = false ∧ (∀ u ∈ s.allStrands, ∀ a ∈ u.acc, a.op ≠ .task 7) ∧
      s.pkg.faults = [] ∧ s.engRead t.slot t.addr 128 = (.poison a, s1)) ∧
    (∃ (s : State) (t : Task), s.taskAt 7 = some t ∧ s.dispatchable t = false) ∧
    (∃ (s : State) (t : Task), s.taskAt 7 = some t ∧ s.dispatchable t = true ∧ t.state = .ready ∧ s.taskUnits t ≤ t.next) ∧
    (∃ (s : State) (t : Task), s.taskAt 7 = some t ∧ s.dispatchable t = true ∧ t.state = .running ∧ t.redo = [] ∧ s.arrayFits t 16 = true ∧ s.taskFirst t 16 = true) ∧
    (∃ (s : State) (t : Task) (x : Nat) (u : TaskUnit), s.taskAt 7 = some t ∧ s.pkg.arrays.find? (fun y => y.1 == 3) = some (x, 7) ∧ t.running.find? (fun u => u.array == 3) = some u ∧
      u.wrote = false ∧ (s.pkg.banksOf 3).loading ≠ none) ∧ (∃ s : State, (s.pkg.banksOf 3).loading = none) ∧
    (∃ (s : State) (t : Task) (u : TaskUnit), s.taskAt 7 = some t ∧ t.running.find? (fun x => x.unit == 0) = some u ∧ u.out = none ∧ t.fed 0 u.rows = true) ∧
    (∃ (s : State) (t : Task) (u : TaskUnit), s.taskAt 7 = some t ∧ t.running.find? (fun x => x.unit == 0) = some u ∧ u.wrote = true) ∧
    (∃ (s : State) (t : Task) (u : TaskUnit) (o : UnitOut), s.taskAt 7 = some t ∧ t.running.find? (fun x => x.unit == 0) = some u ∧ u.wrote = false ∧ s.pkg.faults = [] ∧
      u.out = some o) ∧
    ∃ (s : State) (t : Task) (u : TaskUnit) (o : UnitOut) (s1 : State), s.taskAt 7 = some t ∧ t.running.find? (fun x => x.unit == 0) = some u ∧ u.wrote = false ∧
      s.pkg.faults = [] ∧ u.out = none ∧ t.fed 0 u.rows = true ∧ (if t.attn then attnUnit t u s else gemmUnit t u s) = (.writes o, s1) :=
  ⟨⟨sTask task0, task0, by decide +kernel, by decide⟩,
    ⟨sRead 0x10000, { task0 with words := [], state := .pending, addr := 0x10000 }, List.replicate 128 0#8, ((sRead 0x10000).engRead 0 0x10000 128).2, by decide +kernel, rfl, rfl, calmOf _ (by decide +kernel), by decide +kernel, Prod.ext (taskReads) rfl⟩,
    ⟨sRead 0x50000, { task0 with words := [], state := .pending, addr := 0x50000 }, 0x50000, ((sRead 0x50000).engRead 0 0x50000 128).2, by decide +kernel, rfl, rfl, calmOf _ (by decide +kernel), by decide +kernel, Prod.ext taskFaults rfl⟩,
    (let ⟨a, s1, h⟩ := taskSick
     ⟨sSickRec, { task0 with words := [], state := .pending, addr := 0x10000 }, a, s1, by decide +kernel, rfl, rfl, calmOf _ (by decide +kernel), by decide +kernel, h⟩),
    ⟨sTask { task0 with state := .done }, _, rfl, by decide +kernel⟩,
    ⟨sTask { task0 with state := .ready, next := 99 }, _, rfl, by decide +kernel, rfl, by decide +kernel⟩,
    ⟨sTask task0, _, rfl, by decide +kernel, rfl, rfl, by decide +kernel⟩,
    ⟨{ sTask { task0 with running := [tUnit] } with pkg := { (sTask { task0 with running := [tUnit] }).pkg with arrays := [(3, 7)], banks := [⟨3, false, some true, false, 0, 0⟩] } }, _, 3, tUnit, rfl, rfl, rfl, rfl,
      by decide +kernel⟩, ⟨s0, by decide +kernel⟩, ⟨sTask { task0 with running := [tUnit] }, _, tUnit, rfl, rfl, rfl, by decide +kernel⟩,
    ⟨sTask { task0 with running := [{ tUnit with wrote := true }] }, _, { tUnit with wrote := true }, rfl, rfl, rfl⟩,
    ⟨sTask { task0 with running := [{ tUnit with out := some out0 }] }, _, { tUnit with out := some out0 }, out0, rfl, rfl, rfl, by decide +kernel, rfl⟩,
    (let ⟨o, s1, h⟩ := taskComputes; ⟨sTask task1, task1, tUnit, o, s1, rfl, rfl, rfl, by decide +kernel, rfl, by decide +kernel, h⟩)⟩

def graft0 : Graft := ⟨1, 4, 0, 0, 0, 0x10000, 0x10400, none, false, false, false⟩
def req0 : Req :=
  { handle := 9, slot := 0, recVa := 0x10100, state := .restarting, owner := 1, restarts := 0, pblocks := 0, ready := 0, pq := 0, dq := 0, srchead := 0,
    dsthead := 0, srcfree := 0, dstfree := 0, pre := 0, dec := 0, ending := true, inPrefill := true }
def sib0 : Sib := ⟨1, 0, 0, 0, 0, 0⟩
def whorl0 : Whorl :=
  { handle := 5, slot := 0, recVa := 0x10200, state := 1, n := 1, thr := 1, winner := 0, counted := 0, late := 0, whash := 0, shared := 0, nshared := 0,
    done := 0, sig := false, free := 0, live := 1, serial := 0, sibs := [sib0] }
def ring0 : SeqRing := ⟨6, 0, 0x10300, 1, 2, 100, 4⟩
def shard0 : Shard := { m := [0, 1, 2, 3, 4, 5, 6, 7, 8], gstate := 2, lost := 2, lane := 0, spare := 9, sbase := 0x10000, nslot := 4, psize := 64, swept := 0, ahead := [], demand := [] }
def sEngP (f : Pkg → Pkg) : State := { sEng with pkg := f sEng.pkg }
def sShard (g : Shard) : State := sEngP fun p => { p with ctxs := [ctx0], shards := [(0, g)] }
def launchEnd : Launch := { launch0 with state := .done }
def rs0 : Reshard := ⟨1, 4, 0, 1, 0x10000, 0, 0, none, false⟩

def sResh (a : Nat) : State :=
  { sEngP (fun p => { p with reshards := [{ rs0 with recVa := a }] }) with strand := { sEng.strand with cancelled := true } }
theorem reshardReads : ((sResh 0x10000).engRead 0 0x10000 64).1 = .ok (List.replicate 64 0#8) := by decide +kernel
theorem reshardFaults : ((sResh 0x50000).engRead 0 0x50000 64).1 = .fault 0x50000 4 := by decide +kernel

def away (g : Graft) (s : State) : Bool := (s.graftRanges g.slot g.src g.dst).any fun r => s.dieAway g.slot r.1 r.2
def sGraft (g : Graft) : State := sEngP fun p => { p with grafts := [g], dies := p.dies.map fun d => { d with up := true } }
def good0 : Flight := ⟨[7], crc32c [7]⟩
def bad0 : Flight := ⟨[7], 0⟩

theorem witness_EngineEvents :
    (∃ (s : State) (g : Graft), s.pkg.grafts[0]? = some g ∧ g.landed = true) ∧
    (∃ (s : State) (g : Graft), s.pkg.grafts[0]? = some g ∧ g.landed = false ∧ away g s = false ∧ g.flight = none) ∧
    (∀ again, ∃ (s : State) (g : Graft) (f : Flight), s.pkg.grafts[0]? = some g ∧ g.landed = false ∧ away g s = false ∧ g.flight = some f ∧ crc32c f.data ≠ f.crc ∧
      g.again = again) ∧
    (∀ begun, ∃ (s : State) (g : Graft) (f : Flight), s.pkg.grafts[0]? = some g ∧ g.landed = false ∧ away g s = false ∧ g.flight = some f ∧ crc32c f.data = f.crc ∧
      g.begun = begun) ∧
    (∃ (s : State) (x : Held) (w : W64), s.pkg.held[0]? = some x ∧ s.pkg.held = [⟨x.obj, x.slot, [.land 1 4 w], false, none⟩]) ∧
    (∃ (s : State) (x : Held), s.pkg.held[0]? = some x ∧ s.pkg.held = [x] ∧ x.refused = true) ∧
    (∃ (s : State) (r : Req), s.reqAt 9 = some r ∧ (r.state ≠ .restarting ∨ r.ending = false)) ∧
    (∃ (s : State) (r : Req), s.reqAt 9 = some r ∧ r.state = .restarting ∧ r.ending = true ∧ s.pkg.seqRings = [] ∧ s.boundLaunches r = [] ∧ s.pkg.grafts = [] ∧
      s.pkg.submits = [] ∧ s.holds 9 = false ∧ r.restarts < 8 ∧ s.pkg.held = [] ∧ r.srchead = 0 ∧ r.dsthead = 0) ∧
    (∃ (s : State) (r : Req), s.reqAt 9 = some r ∧ r.state = .restarting ∧ r.ending = true ∧ s.pkg.seqRings = [] ∧ s.boundLaunches r = [] ∧ s.pkg.grafts = [] ∧
      s.pkg.submits = [] ∧ s.holds 9 = false ∧ 8 ≤ r.restarts) ∧
    (∃ (s : State) (w : Whorl) (b : Sib) (l : Launch), s.whorlAt 5 = some w ∧ w.sibs[0]? = some b ∧ s.launchAt w.slot b.lid = some l ∧ l.state.held = true) ∧
    (∃ (s : State) (w : Whorl) (b : Sib) (l : Launch), s.whorlAt 5 = some w ∧ w.sibs[0]? = some b ∧ s.launchAt w.slot b.lid = some l ∧ b.fin = 0 ∧ l.state.held = false ∧ s.holds (whorlObj 5) = false ∧
      (∀ t ∈ s.allStrands, t.acc = [])) ∧
    (∃ (s : State) (r : SeqRing), s.pkg.seqRings.find? (fun r => r.n == 6) = some r ∧ r.state = 2) ∧
    (∃ (s : State) (r : SeqRing), s.pkg.seqRings.find? (fun r => r.n == 6) = some r ∧ r.state = 1 ∧ 0 < r.members ∧ (∃ i, i < r.members ∧ s.memberDone r 0 < s.memberDone r i) ∧
      (s.beginReform r).memberReq r 0 = none) ∧
    (∃ (s : State) (r : SeqRing), s.pkg.seqRings.find? (fun r => r.n == 6) = some r ∧ r.state = 1 ∧ ∀ i, i < r.members → s.memberDone r i ≤ s.memberDone r 0) ∧
    (∃ (s : State) (g : Shard), s.shardAt 0 = some g ∧ g.gstate = 1 ∧ 0 < g.nslot) ∧
    (∃ (s : State) (g : Shard), s.shardAt 0 = some g ∧ g.gstate = 2 ∧ g.lost.getLsbD 8 = false) ∧
    (∃ (s : State) (g : Shard), s.shardAt 0 = some g ∧ g.gstate = 3) ∧
    (∃ (s : State) (g : Shard) (images : List (List Byte)) (parity bs : List Byte), s.shardAt 0 = some g ∧ g.gstate = 2 ∧ 1 < g.nslot ∧ 64 ≤ g.psize ∧
      (List.range 9).find? (fun i => g.lost.getLsbD i) = some 1 ∧ g.m.getD g.lane 0 ≠ s.pkg.num ∧ g.spare ≠ s.pkg.num ∧ g.swept = 0 ∧ g.ahead = [] ∧ g.demand = [] ∧ images.length = 7 ∧
      (∀ p ∈ images, p.length = g.psize) ∧ parity.length = g.psize ∧ rebuildData 1 parity images = some bs) ∧
    (∃ (s : State) (r : Reshard) (bs : List Byte) (s1 : State) (t : Strand), s.pkg.reshards = [r] ∧ s.pkg.held = [] ∧ s.engRead r.slot r.recVa 64 = (.ok bs, s1) ∧
      s1.findStrand r.h = some t ∧ t.cancelled = true) ∧
    ∃ (s : State) (r : Reshard) (a w : Nat) (s1 : State), s.pkg.reshards = [r] ∧ s.pkg.held = [] ∧ s.engRead r.slot r.recVa 64 = (.fault a w, s1) := by
  refine ⟨⟨sGraft { graft0 with landed := true }, _, rfl, rfl⟩, ⟨sGraft graft0, graft0, rfl, rfl, by decide +kernel, rfl⟩,
    by
      intro b
      cases b
      · exact ⟨sGraft { graft0 with flight := some bad0 }, _, bad0, rfl, rfl, by decide +kernel, rfl, by decide +kernel, rfl⟩
      · exact ⟨sGraft { graft0 with flight := some bad0, again := true }, _, bad0, rfl, rfl, by decide +kernel, rfl, by decide +kernel, rfl⟩,
    by
      intro b
      cases b
      · exact ⟨sGraft { graft0 with flight := some good0 }, _, good0, rfl, rfl, by decide +kernel, rfl, rfl, rfl⟩
      · exact ⟨sGraft { graft0 with flight := some good0, begun := true }, _, good0, rfl, rfl, by decide +kernel, rfl, rfl, rfl⟩,
    ⟨sEngP fun p => { p with held := [⟨9, 0, [.land 1 4 7], false, none⟩] }, _, 7, rfl, rfl⟩, ⟨sEngP fun p => { p with held := [⟨9, 0, [], true, none⟩] }, _, rfl, rfl, rfl⟩,
    ⟨sEngP fun p => { p with reqs := [{ req0 with state := .prefill }] }, { req0 with state := .prefill }, by decide +kernel, .inl (by decide)⟩,
    ⟨sEngP fun p => { p with reqs := [req0] }, req0, by decide +kernel, rfl, rfl, by decide +kernel, by decide +kernel, by decide +kernel, by decide +kernel, by decide +kernel, by decide, by decide +kernel, rfl, rfl⟩,
    ⟨sEngP fun p => { p with reqs := [{ req0 with restarts := 8 }] }, { req0 with restarts := 8 }, by decide +kernel, rfl, rfl, by decide +kernel, by decide +kernel, by decide +kernel,
      by decide +kernel, by decide +kernel, by decide⟩,
    ⟨sEngP fun p => { p with whorls := [whorl0] }, whorl0, sib0, (sF.launchAt 0 1).getD launch0, by decide +kernel, rfl, by decide +kernel⟩,
    ⟨sEngP fun p => { p with whorls := [whorl0], ctxs := [{ ctx0 with launches := [launchEnd] }] }, whorl0, sib0, launchEnd, by decide +kernel, rfl, by decide +kernel, rfl, by decide, by decide +kernel, ?_⟩,
    ⟨sEngP fun p => { p with seqRings := [{ ring0 with state := 2 }] }, { ring0 with state := 2 }, by decide +kernel, rfl⟩,
    ⟨sEngP fun p => { p with seqRings := [ring0], mem := p.mem.write (placePa + 0x350) [5] }, ring0, by decide +kernel, rfl, by decide, ⟨1, by decide, by decide +kernel⟩, by decide +kernel⟩,
    ⟨sEngP fun p => { p with seqRings := [ring0] }, ring0, by decide +kernel, rfl, ?_⟩,
    ⟨sShard { shard0 with gstate := 1 }, _, by rfl, rfl, by decide⟩, ⟨sShard shard0, _, by rfl, rfl, by decide⟩, ⟨sShard { shard0 with gstate := 3 }, _, by rfl, rfl⟩,
    ⟨sShard { shard0 with lane := 1 }, _, List.replicate 7 (List.replicate 64 0), List.replicate 64 0, _, by rfl, rfl, by decide, by decide, by decide, by decide +kernel,
      by decide +kernel, rfl, rfl, rfl, rfl, fun p hp => by rw [List.eq_of_mem_replicate hp]; rfl, rfl, by rfl⟩,
    ⟨sResh 0x10000, { rs0 with recVa := 0x10000 }, List.replicate 64 0#8, ((sResh 0x10000).engRead 0 0x10000 64).2, (((sResh 0x10000).engRead 0 0x10000 64).2.findStrand 1).getD Strand.none,
      by decide +kernel, by decide +kernel, Prod.ext reshardReads rfl, by decide +kernel⟩,
    ⟨sResh 0x50000, { rs0 with recVa := 0x50000 }, 0x50000, 4, ((sResh 0x50000).engRead 0 0x50000 64).2, by decide +kernel, by decide +kernel, Prod.ext reshardFaults rfl⟩⟩
  · have h : ((sEngP fun p => { p with whorls := [whorl0], ctxs := [{ ctx0 with launches := [launchEnd] }] }).allStrands.all fun t => t.acc.isEmpty) = true := by decide +kernel
    exact fun t ht => by simpa using List.all_eq_true.1 h t ht
  · have h : ((List.range 2).all fun i => decide ((sEngP fun p => { p with seqRings := [ring0] }).memberDone ring0 i ≤ (sEngP fun p => { p with seqRings := [ring0] }).memberDone ring0 0)) = true := by
      decide +kernel
    exact fun i hi => by simpa using List.all_eq_true.1 h i (List.mem_range.2 hi)

def sPort (t : Port) : State := { s0 with pkg := { s0.pkg with ports := s0.pkg.ports.set 0 t } }
def sDie (t : Die) : State := { s0 with pkg := { s0.pkg with dies := s0.pkg.dies.set 3 t } }
def portUp : Port := { Port.start with state := 2, lanes := 0xFF, peer := 1 }
def neighbour0 : Nat := ((neighbours 0)[0]?).getD 0

theorem witness_PortEvents :
    (∃ (s : State) (t : Port), s.pkg.ports[0]? = some t ∧ t.state = 0 ∧ s.pkg.lock.lock = true ∧ s.pkg.lock.egr.getD 0 0#16 ≠ 0#16 ∧ s.pkg.hasPort 0 = true) ∧
    (∃ (s : State) (t : Port), s.pkg.ports[0]? = some t ∧ t.state = 0 ∧ s.pkg.lock.lock = false) ∧ (∃ (s : State) (t : Port), s.pkg.ports[0]? = some t ∧ t.state = 4) ∧
    (∃ (s : State) (t : Port), s.pkg.ports[0]? = some t ∧ t.state = 1 ∧ lanesUp (0x80 &&& ~~~t.gone) < 4) ∧
    (∃ (s : State) (t : Port) (peer : Nat), s.pkg.ports[0]? = some t ∧ t.state = 1 ∧ 4 ≤ lanesUp (0xF &&& ~~~t.gone) ∧ (neighbours s.pkg.num)[0]? = some peer ∧ peer < 993) ∧
    (∃ (s : State) (t : Port) (peer : Nat), s.pkg.ports[0]? = some t ∧ t.state = 1 ∧ 4 ≤ lanesUp (0xFF &&& ~~~t.gone) ∧ (neighbours s.pkg.num)[0]? ≠ some peer) ∧
    (∃ (s : State) (t : Port), s.pkg.ports[0]? = some t ∧ t.carries = true ∧ t.lanes.getLsbD 2 = true ∧ 4 ≤ lanesUp (t.lanes &&& ~~~(1#8 <<< 2)) ∧ t.errthr ≠ 0#8 ∧ t.errthr.toNat < 65) ∧
    ∃ (s : State) (t : Port), s.pkg.ports[0]? = some t ∧ t.carries = true ∧ t.lanes.getLsbD 2 = true ∧ lanesUp (t.lanes &&& ~~~(1#8 <<< 2)) < 4 ∧ t.errthr = 0#8 :=
  ⟨⟨sPort Port.start, Port.start, rfl, rfl, by decide +kernel⟩, ⟨State.reset, Port.start, rfl, rfl, rfl⟩, ⟨sPort { portUp with state := 4 }, _, rfl, rfl⟩,
    ⟨sPort { portUp with state := 1 }, _, rfl, rfl, by decide +kernel⟩, ⟨sPort { portUp with state := 1 }, { portUp with state := 1 }, neighbour0, rfl, rfl, by decide +kernel⟩, ⟨sPort { portUp with state := 1 }, { portUp with state := 1 }, 0, rfl, rfl, by decide +kernel⟩, ⟨sPort portUp, portUp, rfl, rfl, rfl, by decide +kernel, by decide, by decide⟩,
    ⟨sPort { portUp with lanes := 0xF, errthr := 0 }, { portUp with lanes := 0xF, errthr := 0 }, rfl, rfl, rfl, by decide +kernel, rfl⟩⟩

theorem witness_DieEvents :
    (∃ (s : State) (t : Die) (live : BitVec 48), s.pkg.dies[3]? = some t ∧ t.state = 1 ∧ 40 ≤ modulesUp (live &&& ~~~t.retired)) ∧
    (∃ (s : State) (t : Die) (live : BitVec 48), s.pkg.dies[3]? = some t ∧ t.state = 1 ∧ modulesUp (live &&& ~~~t.retired) < 40) ∧
    (∃ (s : State) (t : Die), s.pkg.dies[3]? = some t ∧ t.state = 2 ∧ t.live.getLsbD 5 = true ∧ 40 ≤ modulesUp (t.live &&& ~~~(1#48 <<< 5))) ∧
    (∃ (s : State) (t : Die), s.pkg.dies[3]? = some t ∧ t.state = 3 ∧ t.live.getLsbD 5 = true ∧ modulesUp (t.live &&& ~~~(1#48 <<< 5)) < 40) ∧
    (∃ (s : State) (t : Die), s.pkg.dies[3]? = some t ∧ t.state = 4 ∧ t.quar < 3) ∧ (∃ (s : State) (t : Die), s.pkg.dies[3]? = some t ∧ t.state = 4 ∧ 3 ≤ t.quar) ∧
    (∃ (s : State) (t : Die), s.pkg.dies[3]? = some t ∧ t.state = 5 ∧ t.up = false) ∧ (∃ (s : State) (t : Die), s.pkg.dies[3]? = some t ∧ t.state = 2 ∧ t.up = true) ∧
    (∃ (s : State) (t : Die), s.pkg.dies[3]? = some t ∧ t.state = 3 ∧ t.up = false) ∧ (∃ (s : State) (t : Die), s.pkg.dies[3]? = some t ∧ t.up = true) ∧
    (∃ (s : State) (v : W64), v.getLsbD 0 = true ∧ s.pkg.lock.lock = false) ∧ (∃ (s : State) (v : W64), v.getLsbD 0 = false ∨ s.pkg.lock.lock = true) ∧
    ∃ s : State, s.pkg.ctxs = [] ∧ s.pkg.seqRings = [] ∧ s.pkg.tasks = [] ∧ s.pkg.dirtyL2 = [] ∧ ∀ k ∈ s.core :: s.cores, k.upd = [] ∧ k.runs = 0 := by
  refine ⟨⟨sDie { Die.start with state := 1 }, { Die.start with state := 1 }, BitVec.allOnes 48, rfl, rfl, by decide +kernel⟩,
    ⟨sDie { Die.start with state := 1 }, { Die.start with state := 1 }, 1, rfl, rfl, by decide +kernel⟩,
    ⟨sDie { Die.start with state := 2, live := BitVec.allOnes 48 }, { Die.start with state := 2, live := BitVec.allOnes 48 }, rfl, rfl, by decide, by decide +kernel⟩,
    ⟨sDie { Die.start with state := 3, live := 0x20 }, { Die.start with state := 3, live := 0x20 }, rfl, rfl, by decide, by decide +kernel⟩,
    ⟨sDie { Die.start with state := 4 }, _, rfl, rfl, by decide⟩, ⟨sDie { Die.start with state := 4, quar := 3 }, _, rfl, rfl, by decide⟩,
    ⟨sDie { Die.start with state := 5 }, _, rfl, rfl, rfl⟩, ⟨sDie { Die.start with state := 2, up := true }, _, rfl, rfl, rfl⟩,
    ⟨sDie { Die.start with state := 3 }, _, rfl, rfl, rfl⟩, ⟨sDie { Die.start with up := true }, _, rfl, rfl⟩, ⟨State.reset, 1, rfl, rfl⟩, ⟨State.reset, 0, .inl rfl⟩,
    ⟨State.reset, rfl, rfl, rfl, rfl, ?_⟩⟩
  have h : ((State.reset.core :: State.reset.cores).all fun k => k.upd.isEmpty && k.runs == 0) = true := by decide +kernel
  exact fun k hk => by simpa using List.all_eq_true.1 h k hk

def pkt0 : Packet := { src := 1, core := 4, dst := 0, via := none, cls := 0, seq := 5, restart := false, hops := 0, key := 0, op := .write 0x2000 [1, 2] }
def flowIn0 : FlowIn := ⟨1, 4, 0, 5, [(3, .denied)], [], []⟩
def sent0 : Sent := ⟨{ pkt0 with src := 0, dst := 1 }, .none, 0⟩
def sFlow (n : Nat) : State := { s0 with pkg := { s0.pkg with flows := [⟨0, 1, 0, 5, some none, 6, false, [{ sent0 with tries := n }]⟩] } }
def sIn (f : FlowIn) : State := { s0 with pkg := { s0.pkg with flowsIn := [f] } }

/-- A packet of this package in its flow, on the minimal path, which is usable or not. -/
def sOut (ok : Bool) : State :=
  { s0 with pkg := { (sPort portUp).pkg with flows := (sFlow 0).pkg.flows, routes := [(1, { Route.reset with minok := ok })] } }
/-- A packet that is in sequence at a page that package 1 may read, write and change. -/
def sScope : State :=
  { sIn flowIn0 with pkg := { (sIn flowIn0).pkg with scopes := [(0, ⟨true, 0, 0x1000000, 7, 0, 992⟩)] } }
def sCopy : State := { sScope with pkg := { sScope.pkg with copiesOut := [(2, 0x12000002000 / 64)] } }
def InSeq (s : State) (pkt : Packet) (f : FlowIn) : Prop :=
  pkt.dst = s.pkg.num ∧ pkt.src ≠ s.pkg.num ∧ pkt.src ≤ 992 ∧ pkt.seq < 65536 ∧ s.pkg.flowIn pkt.src pkt.core pkt.cls = some f ∧ s.pkg.seqRings = [] ∧ s.pkg.migs = [] ∧
    s.pkg.numaPend = false ∧ f.expect = BitVec.ofNat 16 pkt.seq ∧ s.pkg.fwdOut pkt.src pkt.core pkt.cls = false
theorem inSeq_scope (op : PktOp) : InSeq sScope { pkt0 with op := op } flowIn0 :=
  ⟨rfl, show (1 : Nat) ≠ 0 by decide, show 1 ≤ 992 by decide, show 5 < 65536 by decide, by rfl, by decide +kernel, by decide +kernel, by decide +kernel, rfl, by rfl⟩

theorem inSeq_copy : InSeq sCopy { pkt0 with op := .write 0x12000002000 [1, 2] } flowIn0 :=
  ⟨rfl, by decide +kernel, by decide, by decide, by rfl, by decide +kernel, by decide +kernel, by decide +kernel, rfl, by rfl⟩

theorem witness_FabricEvents :
    (∀ ok, ∃ (s : State) (pkt : Packet) (f : Flow) (path : Option Nat) (q : Sent), pkt.dst ≠ s.pkg.num ∧ pkt.src = s.pkg.num ∧
      s.pkg.flows.find? (fun f => f.sent.any fun q => q.pkt == pkt) = some f ∧ f.path = some path ∧ f.sent = [q] ∧ q.pkt = pkt ∧
      (s.pkg.route pkt.dst).takes path = ok ∧ pkt.via ≠ some s.pkg.num ∧ (s.pkg.port (s.pkg.route (pkt.via.getD pkt.dst)).minport).state = 2) ∧
    (∃ (s : State) (pkt : Packet) (f : FlowIn), InSeq s pkt f ∧ ∃ pa data, pkt.op = .write pa data ∧ pa < 2 ^ 48 ∧ s.pkg.permits pkt.src pa data.length 1 = true ∧
      inMemory pa = true ∧ poisoned s.pkg pa data.length = false ∧ (s.writeAs pa data pkt.key).pkg.invalOut pa data.length = false) ∧
    (∃ (s : State) (pkt : Packet) (f : FlowIn), InSeq s pkt f ∧ ∃ pa data, pkt.op = .write pa data ∧ pa < 2 ^ 48 ∧ s.pkg.permits pkt.src pa data.length 1 = true ∧
      inMemory pa = true ∧ poisoned s.pkg pa data.length = false ∧ (s.writeAs pa data pkt.key).pkg.invalOut pa data.length = true) ∧
    (∃ (s : State) (pkt : Packet) (f : FlowIn), InSeq s pkt f ∧ ∃ pa n, pkt.op = .read pa n ∧ pa < 2 ^ 48 ∧ s.pkg.permits pkt.src pa n 0 = true ∧
      inMemory pa = true ∧ poisoned s.pkg pa n = false) ∧
    (∃ (s : State) (pkt : Packet) (f : FlowIn), InSeq s pkt f ∧ ∃ op w64 u pa x y, pkt.op = .atomic op w64 u pa x y ∧ pa < 2 ^ 48 ∧ let n := if w64 then 8 else 4
      s.pkg.permits pkt.src pa n 2 = true ∧ inMemory pa = true ∧ poisoned s.pkg pa n = false ∧
      let r := s.readAs pa n pkt.key
      (r.2.writeAs pa (leBytes n (atomApply op w64 u (BitVec.ofNat 64 (leNat r.1)) x y).toNat) pkt.key).pkg.invalOut pa n = false) ∧
    (∃ (s : State) (pkt : Packet), pkt.dst ≠ s.pkg.num ∧ pkt.src ≠ s.pkg.num ∧ (s.pkg.port (s.pkg.route pkt.dst).minport).state = 2) ∧
    (∃ (s : State) (pkt : Packet), pkt.dst ≠ s.pkg.num ∧ pkt.src ≠ s.pkg.num ∧ (s.pkg.port (s.pkg.route pkt.dst).minport).state = 0) ∧
    (∃ (s : State) (pkt : Packet) (f : FlowIn), pkt.dst = s.pkg.num ∧ pkt.src ≠ s.pkg.num ∧ pkt.src ≤ 992 ∧ pkt.seq < 65536 ∧ s.pkg.flowIn pkt.src pkt.core pkt.cls = some f ∧ s.pkg.seqRings = [] ∧
      0 < (f.expect - BitVec.ofNat 16 pkt.seq).toNat ∧ (f.expect - BitVec.ofNat 16 pkt.seq).toNat ≤ 32768 ∧
      f.answers.find? (fun x => x.1 == BitVec.ofNat 16 pkt.seq) = some (BitVec.ofNat 16 pkt.seq, .denied) ∧ ∀ c k n a, pkt.op ≠ .reply c k n a) ∧
    (∃ (s : State) (pkt : Packet) (f : FlowIn), pkt.dst = s.pkg.num ∧ pkt.src ≠ s.pkg.num ∧ pkt.src ≤ 992 ∧ pkt.seq < 65536 ∧ s.pkg.flowIn pkt.src pkt.core pkt.cls = some f ∧ s.pkg.seqRings = [] ∧
      32768 < (f.expect - BitVec.ofNat 16 pkt.seq).toNat ∧ pkt.restart = false) ∧
    (∃ (s : State) (pkt : Packet) (f : FlowIn) (pa : Nat) (data : List Byte), pkt.dst = s.pkg.num ∧ pkt.src ≠ s.pkg.num ∧ pkt.src ≤ 992 ∧ pkt.seq < 65536 ∧
      s.pkg.flowIn pkt.src pkt.core pkt.cls = some f ∧ s.pkg.seqRings = [] ∧ f.expect = BitVec.ofNat 16 pkt.seq ∧ pkt.op = .write pa data ∧ s.pkg.permits pkt.src pa data.length 1 = false) ∧
    (∃ s : State, (s.pkg.route 2).choose 2 (Config.egressFlits taproot 2 2 0) = none) ∧ (∃ s : State, (s.pkg.route 2).choose 2 (Config.egressFlits taproot 2 2 0) = some none) ∧
    (∃ s : State, s.pkg.flow 0 1 0 = none) ∧
    (∃ (s : State) (f : Flow) (q : Sent), 1 ≠ s.pkg.num ∧ s.pkg.flow 0 1 0 = some f ∧ f.sent = [q] ∧ q.asker = .none ∧ s.pkg.flowsIn = [] ∧ q.tries < 8) ∧
    (∃ (s : State) (f : Flow) (q : Sent), 1 ≠ s.pkg.num ∧ s.pkg.flow 0 1 0 = some f ∧ f.sent = [q] ∧ q.asker = .none ∧ s.pkg.flowsIn = [] ∧ 8 ≤ q.tries) ∧
    (∃ (s : State) (f : FlowIn), s.pkg.flowIn 1 4 0 = some f ∧ f.owed = [] ∧ s.pkg.fwdOut 1 4 0 = false) ∧ (∃ s : State, s.pkg.readOut (2 ^ 48 + 64 * 3) = false) ∧ ∃ s : State, s.pkg.readOut (2 ^ 48 + 64 * 3) = true :=
  ⟨by
      intro b
      cases b
      · exact ⟨sOut false, { pkt0 with src := 0, dst := 1 }, _, none, sent0, by decide +kernel, by decide +kernel, by rfl, rfl, rfl, rfl, by decide +kernel, by decide, by decide +kernel⟩
      · exact ⟨sOut true, { pkt0 with src := 0, dst := 1 }, _, none, sent0, by decide +kernel, by decide +kernel, by rfl, rfl, rfl, rfl, by decide +kernel, by decide, by decide +kernel⟩,
    ⟨sScope, { pkt0 with op := .write 0x12000002000 [1, 2] }, flowIn0, inSeq_scope _, 0x12000002000, [1, 2], rfl, by decide, by decide +kernel, by decide +kernel, by decide +kernel, by decide +kernel⟩,
    ⟨sCopy, { pkt0 with op := .write 0x12000002000 [1, 2] }, flowIn0, inSeq_copy, 0x12000002000, [1, 2], rfl, by decide, by decide +kernel, by decide +kernel, by decide +kernel, by decide +kernel⟩,
    ⟨sScope, { pkt0 with op := .read 0x12000002000 64 }, flowIn0, inSeq_scope _, 0x12000002000, 64, rfl, by decide, by decide +kernel, by decide +kernel, by decide +kernel⟩,
    ⟨sScope, { pkt0 with op := .atomic 0 true false 0x12000002000 1 0 }, flowIn0, inSeq_scope _, 0, true, false, 0x12000002000, 1, 0, rfl, by decide, by decide +kernel, by decide +kernel,
      by decide +kernel, by decide +kernel⟩,
    ⟨sPort portUp, { pkt0 with src := 3, dst := 2 }, by decide +kernel⟩, ⟨s0, { pkt0 with src := 3, dst := 2 }, by decide +kernel⟩,
    ⟨sIn flowIn0, { pkt0 with seq := 3 }, flowIn0, rfl, by decide, by decide, by decide, by decide +kernel, rfl, by decide, by decide, by decide, fun _ _ _ _ h => by cases h⟩,
    ⟨sIn flowIn0, { pkt0 with seq := 7 }, flowIn0, rfl, by decide, by decide, by decide, by decide +kernel, rfl, by decide, rfl⟩,
    ⟨sIn flowIn0, pkt0, flowIn0, 0x2000, [1, 2], rfl, by decide, by decide, by decide, by decide +kernel, rfl, by decide, rfl, by decide +kernel⟩,
    ⟨s0, by rfl⟩, ⟨{ s0 with pkg := { s0.pkg with routes := [(2, { Route.reset with minok := true })] } }, by rfl⟩,
    ⟨s0, by decide +kernel⟩, ⟨sFlow 0, _, sent0, by decide +kernel, by rfl, rfl, rfl, rfl, by decide⟩, ⟨sFlow 8, _, { sent0 with tries := 8 }, by decide +kernel, by rfl, rfl, rfl, rfl, by decide⟩,
    ⟨sIn flowIn0, flowIn0, by decide +kernel, rfl, by decide +kernel⟩, ⟨s0, by decide +kernel⟩,
    ⟨{ s0 with pkg := { s0.pkg with flows := [⟨0, 1, 0, 5, some none, 6, false, [{ sent0 with pkt := { sent0.pkt with op := .read 0xC0 64 } }]⟩] } }, by decide +kernel⟩⟩

def sLine : State := { sF with core := { sF.core with tlb := [{ placeEntry 0 with x := true }] } }
theorem frontedLine : Fronted sLine := ⟨by decide +kernel, by decide +kernel⟩
theorem lineEnt : sLine.translate sLine.strand.slot (256 * 0x101) .fetch = (.ok { placeEntry 0 with x := true }, sLine) := by rfl
theorem lineReads : ∃ e s1 bs s2, sLine.translate sLine.strand.slot (256 * 0x101) .fetch = (.ok e, s1) ∧
    s1.fetchBytes (e.addr (256 * 0x101)) 256 e.key e.l2only = (.ok bs, s2) := by
  refine ⟨{ placeEntry 0 with x := true }, sLine, ?_⟩
  have h : (match (sLine.fetchBytes (({ placeEntry 0 with x := true } : TlbEnt).addr (256 * 0x101)) 256 (placeEntry 0).key (placeEntry 0).l2only).1 with
    | .ok _ => true | _ => false) = true := by decide +kernel
  rcases q : sLine.fetchBytes (({ placeEntry 0 with x := true } : TlbEnt).addr (256 * 0x101)) 256 (placeEntry 0).key (placeEntry 0).l2only with ⟨r, s2⟩
  rw [q] at h
  cases r with
  | ok bs => exact ⟨bs, s2, lineEnt, rfl⟩
  | _ => cases h

theorem witness_ResetEvents :
    (∃ (s : State) (t : Port), s.pkg.ports[0]? = some t ∧ t.state = 5) ∧ (∃ (s : State) (t : Die), s.pkg.dies[3]? = some t ∧ t.state ≠ 5 ∧ s.pkg.lock.lock = true) ∧
    (∃ s : State, ∀ c ∈ s.pkg.ctxs, c.shardOn = true) ∧
    (∃ (s : State) (c : Ctx), s.pkg.ctxs = [c] ∧ c.shardOn = false ∧ (c.state = 1 ∨ c.state = 2) ∧ s.pkg.tasks = []) ∧
    (∃ s : State, 3 ≠ s.pkg.num ∧ (∀ c ∈ s.pkg.ctxs, s.shardAt c.slot = none) ∧ s.pkg.seqRings = []) ∧
    (∃ (s : State) (c : Ctx) (g : Shard), 3 ≠ s.pkg.num ∧ s.pkg.ctxs = [c] ∧ s.shardAt c.slot = some g ∧ s.pkg.seqRings = [] ∧ g.gstate = 1 ∧ 0 < g.nslot ∧
      ∀ k, k < 9 → (g.m.getD k 0 = 3 ↔ k = 3)) ∧ (∃ s : State, s.findCore 400 = none) ∧
    (∃ s : State, Fronted s ∧ s.core.runs = s.strand.h ∧ s.strand.phase ≠ .running) ∧ (∃ s : State, Fronted s ∧ s.core.runs = s.strand.h ∧ s.strand.phase = .running ∧ waitsLine s 0x101 = none ∧ mayFill s 0x101 = true) ∧
    (∃ (s : State) (e : TlbEnt) (s1 : State) (bs : List Byte) (s2 : State), Fronted s ∧ s.core.runs = s.strand.h ∧ s.strand.phase = .running ∧ mayFill s 0x101 = true ∧
      s.translate s.strand.slot (256 * 0x101) .fetch = (.ok e, s1) ∧ s1.fetchBytes (e.addr (256 * 0x101)) 256 e.key e.l2only = (.ok bs, s2)) ∧
    ∃ s : State, Fronted s ∧ s.core.runs = s.strand.h ∧ waitsLine s 0x500 ≠ none :=
  ⟨⟨sPort { portUp with state := 5 }, _, rfl, rfl⟩, ⟨sDie { Die.start with state := 1 }, _, rfl, by decide, by decide +kernel⟩, ⟨State.reset, fun _ h => by cases h⟩,
    ⟨sC, ctx0, rfl, by decide, .inl (by decide), by decide +kernel⟩,
    ⟨State.reset, by decide, (fun _ h => by cases h), rfl⟩,
    ⟨sShard { shard0 with gstate := 1 }, ctx0, { shard0 with gstate := 1 }, by decide, rfl, by rfl, by decide +kernel, rfl, by decide, by decide⟩, ⟨s0, by decide +kernel⟩,
    ⟨sPh .suspended id, ⟨by decide +kernel, by decide +kernel⟩, by decide +kernel⟩, ⟨sF, frontedF, by decide +kernel⟩,
    (let ⟨e, s1, bs, s2, h⟩ := lineReads; ⟨sLine, e, s1, bs, s2, frontedLine, by decide +kernel, by decide +kernel, by decide +kernel, h⟩),
    ⟨{ sF with strand := { sF.strand with a := { sF.strand.a with pc := 0x50000, last := 3, tried := 4 } } }, ⟨by decide +kernel, by decide +kernel⟩, by decide +kernel⟩⟩

end Sys2Proof.Tests
end

section
/-! Values of the scalar integer words (spec/04_scalar.md R98 to R104) in the integers and naturals of the statements: `int` and
`nat` turn arithmetic, shifts and masks of 64-bit words into `+`, `*`, `/` and `%`, and each value function of the model gets one
equation in these terms. -/

namespace Sys2Proof.Machine

open Sys2Proof.Claims

-- ## Low 64 bits of integers and naturals

@[simp] theorem int_toInt (a : W64) : int a.toInt = a := BitVec.ofInt_toInt
@[simp] theorem nat_toNat (a : W64) : nat a.toNat = a := BitVec.eq_of_toNat_eq (Nat.mod_eq_of_lt a.isLt)
theorem int_natCast (n : Nat) : int n = nat n := BitVec.ofInt_natCast ..
theorem int_add (i j : Int) : int (i + j) = int i + int j := BitVec.ofInt_add ..
theorem int_mul (i j : Int) : int (i * j) = int i * int j := BitVec.ofInt_mul ..
theorem int_sub (i j : Int) : int (i - j) = int i - int j := by
  rw [Int.sub_eq_add_neg, int_add, BitVec.sub_eq_add_neg]
  exact congrArg (int i + ·) BitVec.ofInt_neg
theorem nat_add (m n : Nat) : nat (m + n) = nat m + nat n := BitVec.ofNat_add ..
theorem nat_sub {m n : Nat} (h : n ≤ m) : nat (m - n) = nat m - nat n := by
  rw [← int_natCast, ← int_natCast, ← int_natCast, Int.ofNat_sub h, int_sub]
theorem nat_mul_two_pow (n k : Nat) : nat (n * 2 ^ k) = nat n <<< k :=
  BitVec.eq_of_toNat_eq (by simp [nat, Nat.shiftLeft_eq])
theorem nat_div_two_pow (a : W64) (k : Nat) : nat (a.toNat / 2 ^ k) = a >>> k := by
  rw [← nat_toNat (a >>> k), BitVec.toNat_ushiftRight, Nat.shiftRight_eq_div_pow]

theorem add_eq_int (a b : W64) : a + b = int (a.toInt + b.toInt) := by rw [int_add, int_toInt, int_toInt]
theorem sub_eq_int (a b : W64) : a - b = int (a.toInt - b.toInt) := by rw [int_sub, int_toInt, int_toInt]
theorem mul_eq_int (a b : W64) : a * b = int (a.toInt * b.toInt) := by rw [int_mul, int_toInt, int_toInt]
theorem mul_add_eq_int (a b c : W64) : a * b + c = int (a.toInt * b.toInt + c.toInt) := by rw [int_add, int_toInt, mul_eq_int]
theorem add_sx64_eq_int {w : Nat} (k : BitVec w) (a : W64) : a + sx64 k = int (a.toInt + k.toInt) := by
  rw [int_add, int_toInt]; rfl
theorem shiftLeft_eq_nat (a : W64) (k : Nat) : a <<< k = nat (a.toNat * 2 ^ k) := by rw [nat_mul_two_pow, nat_toNat]
theorem sshiftRight_eq_int (a : W64) (k : Nat) : a.sshiftRight k = int (a.toInt / 2 ^ k) := by
  rw [BitVec.sshiftRight_eq, Int.shiftRight_eq_div_pow]; norm_cast

-- ## Products, quotients and choices (R98 to R100)

/-- Bits [127:64] of a number kept in 128 bits. -/
theorem truncate_ushiftRight_ofInt (P : Int) : ((BitVec.ofInt 128 P) >>> 64).truncate 64 = int (P / 2 ^ 64) := by
  apply BitVec.eq_of_toNat_eq
  simp only [int, BitVec.truncate_eq_setWidth, BitVec.toNat_setWidth, BitVec.toNat_ushiftRight, BitVec.toNat_ofInt,
    Nat.shiftRight_eq_div_pow]
  omega

theorem mulhVal_eq (u : Bool) (a b : W64) :
    mulhVal u a b = if u then nat (a.toNat * b.toNat / 2 ^ 64) else int (a.toInt * b.toInt / 2 ^ 64) := by
  cases u with
  | true =>
    have h : a.zeroExtend 128 * b.zeroExtend 128 = BitVec.ofInt 128 (a.toNat * b.toNat : Nat) := by
      rw [BitVec.ofInt_natCast, BitVec.ofNat_mul]; simp
    simp only [mulhVal, h, truncate_ushiftRight_ofInt, if_true, ← int_natCast]
    norm_cast
  | false =>
    have h : a.signExtend 128 * b.signExtend 128 = BitVec.ofInt 128 (a.toInt * b.toInt) := (BitVec.ofInt_mul ..).symm
    simp only [mulhVal, h, truncate_ushiftRight_ofInt, Bool.false_eq_true, if_false]

theorem divVal_eq (u : Bool) (a b : W64) :
    divVal u a b = if b = 0#64 then int (-1) else if u then nat (a.toNat / b.toNat) else int (a.toInt.tdiv b.toInt) := by
  have hu : a.udiv b = nat (a.toNat / b.toNat) := (nat_toNat _).symm.trans (congrArg nat BitVec.toNat_udiv)
  have hs : a.sdiv b = int (a.toInt.tdiv b.toInt) :=
    BitVec.eq_of_toInt_eq ((BitVec.toInt_sdiv a b).trans (BitVec.toInt_ofInt ..).symm)
  rw [divVal, hu, hs]; rfl

theorem remVal_eq (u : Bool) (a b : W64) :
    remVal u a b = if b = 0#64 then a else if u then nat (a.toNat % b.toNat) else int (a.toInt.tmod b.toInt) := by
  have hu : a.umod b = nat (a.toNat % b.toNat) := (nat_toNat _).symm.trans (congrArg nat BitVec.toNat_umod)
  have hs : a.srem b = int (a.toInt.tmod b.toInt) := (int_toInt _).symm.trans (congrArg int (BitVec.toInt_srem a b))
  rw [remVal, hu, hs]

/-- The lesser of two words under a key that tells words apart, whichever of the two comparisons is asked. -/
theorem ite_lt_swap {α : Type} [LinearOrder α] {key : W64 → α} (hkey : Function.Injective key) (a b : W64) :
    (if key a < key b then a else b) = if key b < key a then b else a := by
  rcases lt_trichotomy (key a) (key b) with h | h | h
  · simp [h, h.not_gt]
  · simp [hkey h]
  · simp [h, h.not_gt]

theorem minVal_eq (u : Bool) (a b : W64) :
    minVal u a b = if u then (if b.toNat < a.toNat then b else a) else (if b.toInt < a.toInt then b else a) := by
  cases u with
  | true => simpa [minVal, BitVec.ult] using ite_lt_swap (fun _ _ => BitVec.eq_of_toNat_eq) a b
  | false => simpa [minVal, BitVec.slt] using ite_lt_swap (fun _ _ => BitVec.eq_of_toInt_eq) a b

theorem maxVal_eq (u : Bool) (a b : W64) :
    maxVal u a b = if u then (if a.toNat < b.toNat then b else a) else (if a.toInt < b.toInt then b else a) := by
  cases u <;> simp [maxVal, BitVec.ult, BitVec.slt]

-- ## Counts of bits (R98)

theorem testBit_of_lt_two_pow_succ {n k : Nat} (h : n < 2 ^ (k + 1)) : n.testBit k = decide (2 ^ k ≤ n) := by
  by_cases hk : 2 ^ k ≤ n
  · rw [Nat.testBit_of_two_pow_le_and_two_pow_add_one_gt hk h, decide_eq_true hk]
  · rw [Nat.testBit_lt_two_pow (Nat.lt_of_not_le hk), decide_eq_false hk]

theorem clzFrom_eq (w : W64) (n : Nat) (h : w.toNat < 2 ^ n) :
    clzFrom w n = if w = 0#64 then n else n - 1 - w.toNat.log2 := by
  induction n with
  | zero =>
    have hw : w = 0#64 := BitVec.eq_of_toNat_eq (by simpa using h)
    simp [clzFrom, hw]
  | succ n ih =>
    rw [clzFrom, ← BitVec.testBit_toNat, testBit_of_lt_two_pow_succ h]
    by_cases hn : 2 ^ n ≤ w.toNat
    · have h0 : w.toNat ≠ 0 := (Nat.lt_of_lt_of_le (Nat.two_pow_pos n) hn).ne'
      have hw : w ≠ 0#64 := fun e => h0 (congrArg BitVec.toNat e)
      have hl : w.toNat.log2 = n := (Nat.log2_eq_iff h0).2 ⟨hn, h⟩
      simp [hn, hw, hl]
    · have hlt := Nat.lt_of_not_le hn
      simp only [hn, decide_false, ih hlt, Bool.false_eq_true, if_false]
      by_cases hw : w = 0#64
      · simp [hw, Nat.add_comm]
      · have hl := (Nat.log2_lt (mt (BitVec.eq_of_toNat_eq (y := 0#64)) hw)).2 hlt
        simp only [hw, if_false]
        omega

theorem clzVal_eq (a : W64) : clzVal a = nat (if a = 0#64 then 64 else 63 - a.toNat.log2) :=
  congrArg nat (clzFrom_eq a 64 a.isLt)

theorem popFrom_eq_countP (w : W64) (n : Nat) : popFrom w n = (List.range n).countP (fun k => w.getLsbD k) := by
  induction n with
  | zero => rfl
  | succ n ih => rw [List.range_succ, List.countP_append, List.countP_singleton, ← ih, popFrom, Nat.add_comm]

theorem popcVal_eq (a : W64) : popcVal a = nat ((List.range 64).countP (fun k => a.getLsbD k)) :=
  congrArg nat (popFrom_eq_countP a 64)

-- ## Fields (R101, R102)

theorem toNat_lowMask {n : Nat} (h : n ≤ 64) : (lowMask n).toNat = 2 ^ n - 1 := by
  have : 2 ^ n ≤ 2 ^ 64 := Nat.pow_le_pow_right (by decide) h
  rw [lowMask, BitVec.toNat_ofNat, Nat.mod_eq_of_lt (by omega)]

theorem getLsbD_lowMask {n : Nat} (h : n ≤ 64) (i : Nat) : (lowMask n).getLsbD i = decide (i < n) := by
  rw [← BitVec.testBit_toNat, toNat_lowMask h, Nat.testBit_two_pow_sub_one]

theorem and_lowMask (a : W64) {n : Nat} (h : n ≤ 64) : a &&& lowMask n = nat (a.toNat % 2 ^ n) := by
  rw [← nat_toNat (a &&& _), BitVec.toNat_and, toNat_lowMask h, Nat.and_two_pow_sub_one_eq_mod]

theorem ushiftRight_and_lowMask (a : W64) (pos : Nat) {n : Nat} (h : n ≤ 64) :
    (a >>> pos) &&& lowMask n = nat (a.toNat / 2 ^ pos % 2 ^ n) := by
  rw [and_lowMask _ h, BitVec.toNat_ushiftRight, Nat.shiftRight_eq_div_pow]

/-- The bits under a shifted mask are the field below it, shifted back. -/
theorem and_shiftLeft (a m : W64) (pos : Nat) : a &&& (m <<< pos) = ((a >>> pos) &&& m) <<< pos := by
  apply BitVec.eq_of_getLsbD_eq
  intro i hi
  by_cases h : i < pos
  · simp [h]
  · simp [h, hi, Nat.add_sub_cancel' (Nat.le_of_not_lt h)]

/-- Clearing the bits of a mask takes their value away. -/
theorem and_not_eq_sub (a m : W64) : a &&& ~~~m = a - (a &&& m) := by
  have hd : (a &&& ~~~m) &&& (a &&& m) = 0#64 := by ext i; grind
  have ho : (a &&& ~~~m) ||| (a &&& m) = a := by ext i; grind
  exact eq_sub_of_add_eq ((BitVec.add_eq_or_of_and_eq_zero _ _ hd).trans ho)

/-- A chunk shifted to its place lies outside the complement of the chunk's mask. -/
theorem clear_chunk_and_chunk (a : W64) (v : BitVec 16) (pos : Nat) :
    (a &&& ~~~(0xFFFF#64 <<< pos)) &&& (v.zeroExtend 64 <<< pos) = 0#64 := by
  apply BitVec.eq_of_getLsbD_eq
  intro i hi
  have hm : (0xFFFF#64).getLsbD (i - pos) = decide (i - pos < 16) := getLsbD_lowMask (n := 16) (by decide) _
  by_cases h : i - pos < 16
  · by_cases hp : i < pos <;> simp [hm, h, hi, hp]
  · simp [hm, v.getLsbD_of_ge (i - pos) (Nat.le_of_not_lt h)]

theorem lhiVal_eq (v : BitVec 16) (sel : Fin 4) (a : W64) :
    lhiVal v sel a =
      let unit := 2 ^ (16 * sel.val)
      nat (a.toNat - a.toNat / unit % 65536 * unit + v.toNat * unit) := by
  unfold lhiVal
  generalize 16 * sel.val = pos
  have hle : a.toNat / 2 ^ pos % 65536 * 2 ^ pos ≤ a.toNat :=
    (Nat.mul_le_mul_right _ (Nat.mod_le ..)).trans (Nat.div_mul_le_self ..)
  have hold : nat (a.toNat / 2 ^ pos % 65536) = (a >>> pos) &&& 0xFFFF#64 :=
    (ushiftRight_and_lowMask a pos (n := 16) (by decide)).symm
  have hnew : nat v.toNat = v.zeroExtend 64 := by simp [nat]
  rw [nat_add, nat_sub hle, nat_mul_two_pow, nat_mul_two_pow, hold, hnew, nat_toNat, ← and_shiftLeft, ← and_not_eq_sub,
    BitVec.add_eq_or_of_and_eq_zero _ _ (clear_chunk_and_chunk a v pos)]

/-- Setting every bit above a field of n bits takes 2^n away (sign extension of the field). -/
theorem or_not_lowMask {f n : Nat} (hn : n ≤ 64) (hf : f < 2 ^ n) : nat f ||| ~~~(lowMask n) = int (f - 2 ^ n) := by
  have hd : nat f &&& ~~~(lowMask n) = 0#64 := by
    have h64 : f < 2 ^ 64 := hf.trans_le (Nat.pow_le_pow_right (by decide) hn)
    have h : (nat f).toNat = f := Nat.mod_eq_of_lt h64
    rw [and_not_eq_sub, and_lowMask _ hn, h, Nat.mod_eq_of_lt hf, BitVec.sub_self]
  have hm : ~~~(lowMask n) = -nat (2 ^ n) := by
    have hp : lowMask n = nat (2 ^ n) - 1#64 := nat_sub Nat.one_le_two_pow
    rw [BitVec.not_eq_neg_add, hp]; grind
  have hi : int (2 ^ n) = nat (2 ^ n) := by exact_mod_cast int_natCast (2 ^ n)
  rw [← BitVec.add_eq_or_of_and_eq_zero _ _ hd, hm, int_sub, int_natCast, hi, ← BitVec.sub_eq_add_neg]

theorem bfxVal_eq (sx : Bool) (pos w1 : Fin 64) (a : W64) :
    bfxVal sx pos w1 a =
      let f := a.toNat / 2 ^ pos.val % 2 ^ (w1.val + 1)
      if sx ∧ 2 ^ w1.val ≤ f then int ((f : Int) - 2 ^ (w1.val + 1)) else nat f := by
  have hw : w1.val + 1 ≤ 64 := w1.isLt
  simp only [bfxVal, ushiftRight_and_lowMask a _ hw]
  generalize hv : a.toNat / 2 ^ pos.val % 2 ^ (w1.val + 1) = f
  have hf : f < 2 ^ (w1.val + 1) := hv ▸ Nat.mod_lt _ (Nat.two_pow_pos _)
  have hb : (nat f).getLsbD w1.val = decide (2 ^ w1.val ≤ f) := by
    rw [nat, BitVec.getLsbD_ofNat, testBit_of_lt_two_pow_succ hf, decide_eq_true w1.isLt, Bool.true_and]
  simp only [hb, or_not_lowMask hw hf, Bool.and_eq_true, decide_eq_true_eq]

theorem bfiVal_eq (pos w1 : Fin 64) (a b : W64) :
    bfiVal pos w1 a b =
      let m := nat ((2 ^ (w1.val + 1) - 1) * 2 ^ pos.val)
      (a &&& ~~~m) ||| (nat (b.toNat * 2 ^ pos.val) &&& m) := by
  rw [nat_mul_two_pow, nat_mul_two_pow, nat_toNat]; rfl

-- ## The words

theorem scalarWord_arg1 {f g : W64 → W64} (h : ∀ a, f a = g a) (d : SOp) (os : List SOp) (L : Nat) (s : State) :
    scalarWord d os L (arg1 f) s = scalarWord d os L (one g) s := by
  obtain rfl : f = g := funext h
  rfl

theorem scalarWord_arg2 {f g : W64 → W64 → W64} (h : ∀ a b, f a b = g a b) (d : SOp) (os : List SOp) (L : Nat) (s : State) :
    scalarWord d os L (arg2 f) s = scalarWord d os L (two g) s := by
  obtain rfl : f = g := funext fun a => funext (h a)
  rfl

theorem scalarWord_arg3 {f g : W64 → W64 → W64 → W64} (h : ∀ a b c, f a b c = g a b c) (d : SOp) (os : List SOp) (L : Nat)
    (s : State) : scalarWord d os L (arg3 f) s = scalarWord d os L (three g) s := by
  obtain rfl : f = g := funext fun a => funext fun b => funext (h a b)
  rfl

/-- An arithmetic word is the scalar word of its form; the cases stand in the order of `arithForm`. -/
theorem exec_of_arithForm {i : Instr} {F : ScalarForm} (h : arithForm i = some F) (s : State) :
    exec i s = scalarWord F.d F.srcs F.L F.f s := by
  unfold arithForm at h
  split at h <;> cases h
  · exact scalarWord_arg2 add_eq_int ..
  · exact scalarWord_arg2 sub_eq_int ..
  · exact scalarWord_arg1 (add_sx64_eq_int _) ..
  · exact scalarWord_arg2 mul_eq_int ..
  · exact scalarWord_arg2 (mulhVal_eq _) ..
  · exact scalarWord_arg2 (divVal_eq _) ..
  · exact scalarWord_arg2 (remVal_eq _) ..
  · exact scalarWord_arg3 mul_add_eq_int ..
  · exact scalarWord_arg2 (minVal_eq _) ..
  · exact scalarWord_arg2 (maxVal_eq _) ..

/-- A bitwise, shift, count, move or field word is the scalar word of its form; the cases stand in the order of `bitForm`, and
the logic words, their immediate forms, LIMM and MOV agree by definition. -/
theorem exec_of_bitForm {i : Instr} {F : ScalarForm} (h : bitForm i = some F) (s : State) :
    exec i s = scalarWord F.d F.srcs F.L F.f s := by
  unfold bitForm at h
  split at h <;> cases h
  · exact scalarWord_arg2 (fun _ _ => rfl) ..
  · exact scalarWord_arg2 (fun _ _ => rfl) ..
  · exact scalarWord_arg2 (fun _ _ => rfl) ..
  · exact scalarWord_arg1 (fun _ => rfl) ..
  · exact scalarWord_arg1 (fun _ => rfl) ..
  · exact scalarWord_arg1 (fun _ => rfl) ..
  · exact scalarWord_arg2 (fun a _ => shiftLeft_eq_nat a _) ..
  · exact scalarWord_arg2 (fun a _ => (nat_div_two_pow a _).symm) ..
  · exact scalarWord_arg2 (fun a _ => sshiftRight_eq_int a _) ..
  · rfl
  · exact scalarWord_arg1 (lhiVal_eq _ _) ..
  · exact scalarWord_arg1 clzVal_eq ..
  · exact scalarWord_arg1 popcVal_eq ..
  · exact scalarWord_arg1 (fun _ => rfl) ..
  · exact scalarWord_arg1 (bfxVal_eq _ _ _) ..
  · exact scalarWord_arg2 (bfiVal_eq _ _) ..

/-- Settles O1: each word is the scalar word of its form, which issues as `scalarWord_ready` says. -/
theorem scalarWords : Obligations.ScalarWords :=
  ⟨fun _ _ s hF hr hc => (exec_of_arithForm hF s).trans (scalarWord_ready hr hc),
    fun _ _ s hF hr hc => (exec_of_bitForm hF s).trans (scalarWord_ready hr hc)⟩

end Sys2Proof.Machine
end

section
/-! Predicates as functions of the position, the positions of a shape and their linear order, and the words that write a predicate
or read one (spec/04_scalar.md R103 to R107). -/

namespace Sys2Proof.Machine

open Sys2Proof.Claims

-- ## Predicates

theorem testBit_foldr_range (f : Nat → Bool) (n k : Nat) :
    ((List.range n).foldr (fun p acc => 2 * acc + (if f p then 1 else 0)) 0).testBit k = (decide (k < n) && f k) := by
  induction n generalizing f k with
  | zero => simp
  | succ n ih =>
    rw [List.range_succ_eq_map, List.foldr_cons, List.foldr_map]
    cases k with
    | zero => cases f 0 <;> simp
    | succ k =>
      have hhalf (m : Nat) : (2 * m + (if f 0 then 1 else 0)) / 2 = m := by split <;> omega
      rw [Nat.testBit_add_one, hhalf]
      exact (ih (fun p => f (p + 1)) k).trans (by simp)

theorem getLsbD_predOf (f : Nat → Bool) (k : Nat) : (predOf f).getLsbD k = (decide (k < 512) && f k) := by
  rw [predOf, BitVec.getLsbD_ofNat, testBit_foldr_range]
  simp

theorem getLsbD_ite_allOnes (c : Bool) {k : Nat} (hk : k < 512) :
    (if c then BitVec.allOnes 512 else 0#512).getLsbD k = c := by
  cases c with
  | false => exact BitVec.getLsbD_zero
  | true => exact (BitVec.getLsbD_allOnes ..).trans (decide_eq_true hk)

theorem and_shapeMask {v : Pred} {b : BitVec 13} {f : Nat → Bool} (h : ∀ k < 512, inShape b k = true → v.getLsbD k = f k) :
    v &&& shapeMask b = predOf fun k => inShape b k && f k := by
  apply BitVec.eq_of_getLsbD_eq
  intro k hk
  rw [BitVec.getLsbD_and, shapeMask, getLsbD_predOf, getLsbD_predOf, decide_eq_true hk]
  cases hs : inShape b k with
  | false => exact Bool.and_false _
  | true => rw [h k hk hs, Bool.and_self, Bool.and_true, Bool.true_and, Bool.true_and]

-- ## Words that write a predicate

@[simp] theorem takeS_snd_shape (o : SOp) (s : State) : (takeS o s).2.shape = s.shape := by
  cases o <;> simp [takeS, State.popQ, State.shape]

@[simp] theorem takeSs_snd_shape (os : List SOp) (s : State) : (takeSs os s).2.shape = s.shape := by
  induction os generalizing s with
  | nil => rfl
  | cons o r ih => simp [takeSs, ih]

/-- A predicate that is f at every position of the shape, written by a word with L = 1. -/
theorem putP_eq_putMask {p : Fin 8} {v : Pred} {f : Nat → Bool} {s u : State} (hst : u.stream = s.stream)
    (hsh : u.shape = s.shape) (h : ∀ k < 512, inShape s.shape k = true → v.getLsbD k = f k) :
    putP p v 1 u = putMask p f s u := by
  rw [putP, hst, hsh, and_shapeMask h]; rfl

/-- A word that reads scalar sources and writes a predicate. -/
theorem gated_putP_ready {pops : List Pop} {os : List SOp} {p : Fin 8} {v : Pred} {f : Nat → Bool} {s : State}
    (hr : Ready pops [] s) (hc : Calm s) (h : ∀ k < 512, inShape s.shape k = true → v.getLsbD k = f k) :
    gated pops [] s (retire s (putP p v 1 (takeSs os s).2)) = .next (issued s (putMask p f s (popped os s))) := by
  rw [gated_ready hr, retire_calm hc (by simp), putP_eq_putMask (takeSs_snd_stream os s) (takeSs_snd_shape os s) h]
  rfl

/-- A word that reads predicates only and writes one. -/
theorem predWord_calm {p : Fin 8} {v : Pred} {f : Nat → Bool} {s : State} (hc : Calm s)
    (h : ∀ k < 512, inShape s.shape k = true → v.getLsbD k = f k) : predWord p v s = .next (issued s (putMask p f s s)) := by
  rw [predWord, retire_calm hc (by simp), putP_eq_putMask rfl rfl h]

/-- One source in field order makes the pops of its slot. -/
theorem ready_singleton {o : SOp} {pushes : List (Bool × Fin 4)} {s : State} :
    Ready ([o].flatMap sPops) pushes s ↔ Ready (sPops o) pushes s := by
  rw [List.flatMap_singleton]

-- ## Compares and SEL (R103, R104)

theorem condHolds_eq (c : Cond) (a b : W64) : condHolds c a b = Claims.cond c a b := by
  cases c with
  | lt | ltu => rfl
  | eq => exact beq_eq_decide ..
  | ne | tst => simp [condHolds, Claims.cond, bne, beq_eq_decide]
  | ge => simp [condHolds, Claims.cond, BitVec.slt, ← decide_not]
  | geu => simp [condHolds, Claims.cond, BitVec.ult, ← decide_not]

theorem gated_putCond_ready {pops : List Pop} {os : List SOp} {p : Fin 8} {c : Cond} {a b : W64} {s : State}
    (hr : Ready pops [] s) (hc : Calm s) :
    gated pops [] s (retire s (putCond p (condHolds c a b) (takeSs os s).2)) =
      .next (issued s (putMask p (fun _ => Claims.cond c a b) s (popped os s))) :=
  gated_putP_ready hr hc fun _ hk _ => (getLsbD_ite_allOnes _ hk).trans (condHolds_eq c a b)

theorem compareAndSelectWords : CompareAndSelectWords := by
  refine ⟨fun c p s1 s2 s hr hc => ⟨_, _, rfl, ?cmp⟩, fun c p s1 k s hr hc => ⟨_, rfl, ?cmpi⟩,
    fun d s1 s2 p s hr hc => ⟨_, _, rfl, ?sel⟩⟩
  case cmp => exact gated_putCond_ready hr hc
  case cmpi => exact gated_putCond_ready (os := [s1]) (ready_singleton.1 hr) hc
  case sel => exact scalarWord_ready hr hc

-- ## The linear order of a shape (R105)

theorem inShape_iff {b : BitVec 13} {p : Nat} : inShape b p = true ↔ p / 32 < shRows b ∧ p % 32 < shCols b := by
  simp [inShape]

theorem linear_lt_shSize {b : BitVec 13} {p : Nat} (h : inShape b p = true) : linear b p < shSize b := by
  obtain ⟨hi, hj⟩ := inShape_iff.1 h
  calc linear b p < p / 32 * shCols b + shCols b := Nat.add_lt_add_left hj _
    _ = (p / 32 + 1) * shCols b := (Nat.succ_mul ..).symm
    _ ≤ shSize b := Nat.mul_le_mul_right _ hi

theorem position_linear {b : BitVec 13} {p : Nat} (h : inShape b p = true) : position b (linear b p) = p := by
  obtain ⟨-, hj⟩ := inShape_iff.1 h
  rw [linear, position, Nat.mul_comm (p / 32), Nat.mul_add_div (Nat.zero_lt_of_lt hj), Nat.mul_add_mod, Nat.div_eq_of_lt hj,
    Nat.mod_eq_of_lt hj, Nat.add_zero, Nat.div_add_mod]

/-- Row and column of the position of a linear index. -/
theorem position_div_mod {b : BitVec 13} (h0 : 0 < shCols b) (h : shCols b ≤ 32) (k : Nat) :
    position b k / 32 = k / shCols b ∧ position b k % 32 = k % shCols b := by
  have hm := Nat.mod_lt k h0
  unfold position
  omega

theorem linear_position {b : BitVec 13} (h0 : 0 < shCols b) (h : shCols b ≤ 32) (k : Nat) : linear b (position b k) = k := by
  obtain ⟨hd, hm⟩ := position_div_mod h0 h k
  rw [linear, hd, hm, Nat.mul_comm, Nat.div_add_mod]

theorem inShape_position {b : BitVec 13} (h0 : 0 < shCols b) (h : shCols b ≤ 32) {k : Nat} (hk : k < shSize b) :
    inShape b (position b k) = true := by
  obtain ⟨hd, hm⟩ := position_div_mod h0 h k
  rw [inShape_iff, hd, hm]
  exact ⟨Nat.div_lt_of_lt_mul (Nat.mul_comm .. ▸ hk), Nat.mod_lt k h0⟩

/-- The positions in a shape are those of the linear indices below its size, each once. -/
theorem filter_inShape_perm {b : BitVec 13} (h : shapeOk (shRows b) (shCols b) = true) :
    ((List.range 512).filter (inShape b)).Perm ((List.range (shSize b)).map (position b)) := by
  simp only [shapeOk, Bool.and_eq_true, decide_eq_true_eq] at h
  obtain ⟨⟨⟨-, hR⟩, hC0⟩, hC⟩ := h
  have hinj : Function.Injective (position b) := Function.LeftInverse.injective (linear_position hC0 hC)
  refine (List.perm_ext_iff_of_nodup (List.nodup_range.filter _) (List.nodup_range.map hinj)).2 fun p => ?_
  simp only [List.mem_filter, List.mem_range, List.mem_map]
  constructor
  · rintro ⟨-, hp⟩
    exact ⟨linear b p, linear_lt_shSize hp, position_linear hp⟩
  · rintro ⟨k, hk, rfl⟩
    have hs := inShape_position hC0 hC hk
    obtain ⟨hi, -⟩ := inShape_iff.1 hs
    exact ⟨by omega, hs⟩

theorem countIn_eq_countP {b : BitVec 13} (h : shapeOk (shRows b) (shCols b) = true) (v : Pred) :
    countIn b v = (List.range (shSize b)).countP (fun k => v.getLsbD (position b k)) := by
  calc countIn b v = ((List.range 512).filter (inShape b)).countP v.getLsbD := by
        rw [countIn, List.countP_filter, List.countP_eq_length_filter]
        simp only [Bool.and_comm]
    _ = ((List.range (shSize b)).map (position b)).countP v.getLsbD := (filter_inShape_perm h).countP_eq _
    _ = _ := List.countP_map ..

theorem countIn_eq_zero_iff {b : BitVec 13} (h : shapeOk (shRows b) (shCols b) = true) (v : Pred) :
    countIn b v = 0 ↔ (List.range (shSize b)).any (fun k => v.getLsbD (position b k)) = false := by
  rw [countIn_eq_countP h, List.countP_eq_zero, List.any_eq_false]

-- ## The predicate words (R106, R107)

/-- PSET's mask inside the shape: the clamp to its size changes nothing there. -/
theorem getLsbD_psetMask {b : BitVec 13} {k : Nat} (a : W64) (imm : BitVec 24) (hk : k < 512) (h : inShape b k = true) :
    (psetMask b a imm).getLsbD k = decide ((linear b k : Int) < min (max 0 (a.toInt + imm.toInt)) (shSize b)) := by
  have := linear_lt_shSize h
  rw [psetMask, getLsbD_predOf, h, decide_eq_true hk, Bool.true_and, Bool.true_and]
  exact decide_eq_decide.2 (by omega)

theorem execPset_ready {pd : Fin 8} {s1 : SOp} {imm : BitVec 24} {s : State} (hr : Ready ([s1].flatMap sPops) [] s)
    (hc : Calm s) :
    execPset pd s1 imm s = .next (issued s (putMask pd
      (fun k => decide ((linear s.shape k : Int) < min (max 0 ((takeS s1 s).1.toInt + imm.toInt)) (shSize s.shape))) s
      (popped [s1] s))) :=
  gated_putP_ready (os := [s1]) (ready_singleton.1 hr) hc fun _ => getLsbD_psetMask _ imm

theorem execPany_calm {pd p : Fin 8} {s : State} (h : shapeOk (shRows s.shape) (shCols s.shape) = true) (hc : Calm s) :
    execPany pd p s = .next (issued s (putMask pd
      (fun _ => (List.range (shSize s.shape)).any fun k => (s.seq.pred p).getLsbD (position s.shape k)) s s)) := by
  refine predWord_calm hc fun k hk _ => ?_
  rw [← getLsbD_ite_allOnes (List.any ..) hk]
  simp only [countIn_eq_zero_iff h]
  cases List.any .. <;> simp only [if_true, if_false, Bool.false_eq_true, Bool.true_eq_false]

theorem execPcnt_ready {d : SOp} {p : Fin 8} {s : State} (h : shapeOk (shRows s.shape) (shCols s.shape) = true)
    (hr : Ready [] (sPushes d) s) (hc : Calm s) :
    execPcnt d p s = .next (issued s (putS d 1
      (nat ((List.range (shSize s.shape)).countP fun k => (s.seq.pred p).getLsbD (position s.shape k))) s)) := by
  rw [execPcnt, scalarWord_ready (srcs := []) hr hc, countIn_eq_countP h]
  rfl

theorem execPfirst_ready {d : SOp} {p : Fin 8} {s : State} (hr : Ready [] (sPushes d) s) (hc : Calm s) :
    execPfirst d p s = .next (issued s (putS d 1 (match firstIn s.shape (s.seq.pred p) with
      | some k => nat k
      | none => int (-1)) s)) := by
  rw [execPfirst, scalarWord_ready (srcs := []) hr hc]
  cases firstIn s.shape (s.seq.pred p) <;> rfl

theorem predicateWords : PredicateWords := fun _ hc =>
  ⟨fun _ _ _ => predWord_calm hc fun _ _ _ => BitVec.getLsbD_and,
    fun _ _ _ => predWord_calm hc fun _ _ _ => BitVec.getLsbD_or,
    fun _ _ _ => predWord_calm hc fun _ _ _ => BitVec.getLsbD_xor,
    fun _ _ => predWord_calm hc fun _ hk _ => by rw [BitVec.getLsbD_not, decide_eq_true hk, Bool.true_and],
    fun _ _ _ hr => ⟨_, rfl, execPset_ready hr hc⟩,
    fun _ _ hs => execPany_calm hs hc,
    fun _ _ hs hr => execPcnt_ready hs hr hc,
    fun _ _ hr => execPfirst_ready hr hc⟩

/-- Settles O2: compares and predicate words write a predicate that is their function at every position of the shape, and the
counts over 512 positions are counts over the linear order of the shape. -/
theorem compareAndPredicateWords : Obligations.CompareAndPredicateWords := ⟨compareAndSelectWords, predicateWords⟩

end Sys2Proof.Machine
end

section
/-! Words on whole containers (spec/05_vector.md R118, R121, R122): a word that moves or combines containers raises no flag, so all
that it leaves is its vector result. -/

namespace Sys2Proof.Machine

open Sys2Proof.Claims

-- ## Results without flags

@[simp] theorem build_noFlags (m : Pred) (g : Nat → W32) : (build m fun p => (g p, noFlags)).2 = noFlags := by
  refine Prod.ext (BitVec.eq_of_getLsbD_eq fun k _ => ?_) (build_t m _ fun _ => rfl)
  rw [Bool.eq_iff_iff, build_flag]
  simp [noFlags]

@[simp] theorem putFlags_noFlags (L : Nat) (s : State) : putFlags noFlags.1 noFlags.2 L s = s := rfl

-- ## Words whose operands are ready

theorem vectorWord_ready {d : VDst} {os : List VSrc} {L : Nat} {f : List VReg → Pred → VReg × Flags2} {s : State}
    (hr : Ready (vpops os) (vPushes d) s) (hc : Calm s) :
    vectorWord d os L f s =
      let q := f (takeVs os s).1 (guardMask s)
      .next (issued s (putFlags q.2.1 q.2.2 L (putV d (guardMask s) q.1 L (vpopped os s)))) :=
  (gated_ready hr).trans (retire_calm hc (by simp))

theorem wholeWord_ready {d : VDst} {os : List VSrc} {L : Nat} {f : List VReg → Nat → W32} {s : State}
    (hr : Ready (vpops os) (vPushes d) s) (hc : Calm s) :
    wholeWord d os L f s =
      let v := (build (guardMask s) fun p => (f (takeVs os s).1 p, noFlags)).1
      .next (issued s (putV d (guardMask s) v L (vpopped os s))) := by
  simp only [wholeWord, vectorWord_ready hr hc, build_noFlags, putFlags_noFlags]

theorem mixedWord_ready {d : VDst} {a : VSrc} {ks : List SOp} {L : Nat} {f : VReg → List W64 → Nat → W32} {s : State}
    (hr : Ready (vPops a ++ ks.flatMap sPops) (vPushes d) s) (hc : Calm s) :
    mixedWord d a ks L f s =
      let u := (takeV a s).2
      let v := (build (guardMask s) fun p => (f (takeV a s).1 (vals ks u) p, noFlags)).1
      .next (issued s (putV d (guardMask s) v L (popped ks u))) :=
  (gated_ready hr).trans (retire_calm hc (by simp))

theorem wholeWord_done {i : Instr} {d : VDst} {os : List VSrc} {L : Nat} {f : List VReg → Nat → W32} {g : Nat → W32} {s : State}
    (hi : exec i s = wholeWord d os L f s) (hg : ∀ p, f (takeVs os s).1 p = g p) :
    WholeDone i d (vpops os) L (vpopped os s) g s := by
  intro hr hc
  exact ⟨_, hi.trans (wholeWord_ready hr hc), fun p hp hm => (build_get _ _ p hp hm).trans (hg p)⟩

theorem mixedWord_done {i : Instr} {d : VDst} {a : VSrc} {ks : List SOp} {L : Nat} {f : VReg → List W64 → Nat → W32}
    {g : Nat → W32} {s : State} (hi : exec i s = mixedWord d a ks L f s)
    (hg : ∀ p, f (takeV a s).1 (vals ks (vpopped [a] s)) p = g p) :
    WholeDone i d (vpops [a] ++ ks.flatMap sPops) L (popped ks (vpopped [a] s)) g s := by
  intro hr hc
  rw [vpops, List.flatMap_singleton] at hr
  exact ⟨_, hi.trans (mixedWord_ready hr hc), fun p hp hm => (build_get _ _ p hp hm).trans (hg p)⟩

/-- Settles O9: VROT pops a vector and then a scalar, the other words pop vectors; the value of each is its function of the sources
at every position. -/
theorem containerWords : Obligations.ContainerWords := by
  intro d a b s
  refine ⟨?vand, ?vor, ?vxor, fun p => ?vsel, ?vperm, ?vmov, fun row k => ?vrot⟩
  case vand => exact wholeWord_done (show _ = execVand d a b s from rfl) fun _ => rfl
  case vor => exact wholeWord_done (show _ = execVor d a b s from rfl) fun _ => rfl
  case vxor => exact wholeWord_done (show _ = execVxor d a b s from rfl) fun _ => rfl
  case vsel => exact wholeWord_done (show _ = execVsel d a b p s from rfl) fun _ => rfl
  case vperm => exact wholeWord_done (show _ = execVperm d a b s from rfl) fun _ => rfl
  case vmov => exact wholeWord_done (show _ = execVmov d a s from rfl) fun _ => rfl
  case vrot =>
    have hi : exec (.vrot row d a k) s = execVrot row d a k s := rfl
    unfold execVrot at hi
    exact mixedWord_done hi fun _ => rfl

end Sys2Proof.Machine
end
